-- ==== Sys2Proof/Word.lean ====
section
/-! DEFINITION. The word types of TwoWire CORE. A quantity whose width is a parameter of 00_scope.md R7 is a natural number,
as R9 has arithmetic on timestamps, lengths and cursors; the rules that bound it say so with the machine's widths
(Config.lean, log 10). -/

namespace Sys2Proof

/-- One byte of buffer memory, of the data register, of a result code (R60, R66, R99). -/
abbrev Byte := BitVec 8

/-- A timestamp, a timeout or a deadline value: below `2^TW` (R7, R9). -/
abbrev Time := Nat

/-- A raw status code of the peripheral: below `2^RCW` (R7, R63). -/
abbrev RawCode := Nat

/-- A buffer reference, a byte address in buffer memory: below `2^AW` (R7, R60). -/
abbrev Addr := Nat

/-- A buffer length: below `2^LW` (R7, R9). -/
abbrev Len := Nat

/-- The 32-bit command word `CW` of a packet (R90). -/
abbrev CmdWord := BitVec 32

end Sys2Proof
end

