-- ==== Sys2Proof/Config.lean ====
section
/-! DEFINITION. The width parameters of 00_scope.md R7, and the one free value the spec leaves open (R99, U14). -/

namespace Sys2Proof

/-- The width parameters of R7. A machine has them in its parameters; no command writes them (log 10). -/
structure Widths where
  /-- `TW`, the width of a timestamp, a timeout and a deadline. -/
  tw : Nat
  /-- `RCW`, the width of a raw status code. -/
  rcw : Nat
  /-- `AW`, the width of a buffer reference. -/
  aw : Nat
  /-- `LW`, the width of a buffer length and of a cursor. -/
  lw : Nat
  deriving DecidableEq, Repr

/-- The defaults of R7. -/
def Widths.default : Widths := { tw := 32, rcw := 8, aw := 16, lw := 16 }

/-- The constraints of R7: every width is at least 1. -/
def Widths.legal (w : Widths) : Bool := decide (1 ≤ w.tw) && decide (1 ≤ w.rcw) && decide (1 ≤ w.aw) && decide (1 ≤ w.lw)

/-- `TIMEOUT_MAX = 2^TW - 1`: the timeout value that disables the timeout (R7, R10). -/
def Widths.timeoutMax (w : Widths) : Time := 2 ^ w.tw - 1

/-- `RSP[15:8]` where the spec leaves it unspecified (R99, U14): a free value, one for each response that has one.
It has no body: nothing about it can be proved (log 15). -/
opaque Config.freeRspHigh : Nat → Byte

end Sys2Proof
end

