-- ==== Sys2Proof/Syntax.lean ====
section
/-! DEFINITION. The 28 commands of 30_encoding.md R92, one constructor each, and the operand types they carry. -/

namespace Sys2Proof

/-- The master context of a decode (R104): which primitive the status code is read for. -/
inductive MasterCtx where
  | start
  | addrW
  | addrR
  | send
  | recv
  deriving DecidableEq, Repr

/-- The arbitration-loss policy `BusLostBehaviour` (R41, R102). Code 3 is reserved and has no constructor. -/
inductive BusLostBehaviour where
  | abort
  | retryWithinTimeout
  | retryExtendingTimeout
  deriving DecidableEq, Repr

/-- A deadline (R10): none, or an absolute timestamp, a natural number. Every deadline the block holds is below `2^TW`,
because a sum that would reach it is refused (R10). -/
inductive Deadline where
  | noDeadline
  | atTime (d : Time)
  deriving DecidableEq, Repr

/-- The commands (R92), with their decoded operands (R94). -/
inductive Instr where
  /-- `ST_MASTER ctx` (R128). -/
  | stMaster (ctx : MasterCtx)
  /-- `ST_BASIC` (R129). -/
  | stBasic
  /-- `ST_DETAIL` (R130). -/
  | stDetail
  /-- `SIG_START dl` (R150). -/
  | sigStart (dl : Deadline)
  /-- `SIG_STOPSTART dl` (R151). -/
  | sigStopStart (dl : Deadline)
  /-- `SIG_STOP` (R152). -/
  | sigStop
  /-- `ADDR_W addr, dl` (R153). -/
  | addrW (addr : BitVec 7) (dl : Deadline)
  /-- `ADDR_R addr, dl` (R154). -/
  | addrR (addr : BitVec 7) (dl : Deadline)
  /-- `SEND_B data, dl` (R155). -/
  | sendB (data : Byte) (dl : Deadline)
  /-- `SEND_BUF ptr, len, dl` (R156). -/
  | sendBuf (ptr : Addr) (len : Len) (dl : Deadline)
  /-- `RECV_B dl` (R159). -/
  | recvB (dl : Deadline)
  /-- `RECV_BUF ptr, len, dl` (R160). -/
  | recvBuf (ptr : Addr) (len : Len) (dl : Deadline)
  /-- `CLR_EVENT` (R161). -/
  | clrEvent
  /-- `M_SEND_B addr, data, stop` (R181). -/
  | mSendB (addr : BitVec 7) (data : Byte) (stop : Bool)
  /-- `M_SEND_BUF addr, ptr, len, stop` (R182). -/
  | mSendBuf (addr : BitVec 7) (ptr : Addr) (len : Len) (stop : Bool)
  /-- `M_RECV_B addr, stop` (R183). -/
  | mRecvB (addr : BitVec 7) (stop : Bool)
  /-- `M_RECV_BUF addr, ptr, len, stop` (R184). -/
  | mRecvBuf (addr : BitVec 7) (ptr : Addr) (len : Len) (stop : Bool)
  /-- `M_RECV_REG addr, reg, ptr, len, rs, stop` (R185). -/
  | mRecvReg (addr : BitVec 7) (reg : Byte) (ptr : Addr) (len : Len) (rs stop : Bool)
  /-- `RX_EVENT` (R210). -/
  | rxEvent
  /-- `TX_EVENT` (R230). -/
  | txEvent
  /-- `RX_NEXT` (R214). -/
  | rxNext
  /-- `RX_BIND ptr, len` (R215). -/
  | rxBind (ptr : Addr) (len : Len)
  /-- `RX_AVAIL` (R216). -/
  | rxAvail
  /-- `TX_BIND ptr, len` (R234). -/
  | txBind (ptr : Addr) (len : Len)
  /-- `TX_AGAIN` (R235). -/
  | txAgain
  /-- `TX_DONE` (R236). -/
  | txDone
  /-- `SET_TIMEOUT time` (R250). -/
  | setTimeout (time : Time)
  /-- `SET_BLB blb` (R251). -/
  | setBlb (blb : BusLostBehaviour)
  deriving DecidableEq, Repr

/-- A command packet as it reaches the block (R90): a string of `bits` bits, numbered as the opcode table numbers them. `CW`
is bits 31 to 0, its bit 0 the first of the string, and the extension words follow in the order of R93. How a platform
stores it in bytes is outside the block (R70, log 11). -/
structure Packet where
  bits : Nat
  word : Nat
  deriving DecidableEq, Repr

/-- The opcodes of R92, one per command, without operands. -/
inductive Opcode where
  | stMaster | stBasic | stDetail
  | sigStart | sigStopStart | sigStop | addrW | addrR | sendB | sendBuf | recvB | recvBuf | clrEvent
  | mSendB | mSendBuf | mRecvB | mRecvBuf | mRecvReg
  | rxEvent | txEvent | rxNext | rxBind | rxAvail | txBind | txAgain | txDone
  | setTimeout | setBlb
  deriving DecidableEq, Repr

/-- The packet formats of R93. -/
inductive Format where
  | n
  | d
  | db
  | b
  | t
  deriving DecidableEq, Repr

/-- The opcode of a command. -/
def Instr.opcode : Instr → Opcode
  | .stMaster _ => .stMaster
  | .stBasic => .stBasic
  | .stDetail => .stDetail
  | .sigStart _ => .sigStart
  | .sigStopStart _ => .sigStopStart
  | .sigStop => .sigStop
  | .addrW _ _ => .addrW
  | .addrR _ _ => .addrR
  | .sendB _ _ => .sendB
  | .sendBuf _ _ _ => .sendBuf
  | .recvB _ => .recvB
  | .recvBuf _ _ _ => .recvBuf
  | .clrEvent => .clrEvent
  | .mSendB _ _ _ => .mSendB
  | .mSendBuf _ _ _ _ => .mSendBuf
  | .mRecvB _ _ => .mRecvB
  | .mRecvBuf _ _ _ _ => .mRecvBuf
  | .mRecvReg _ _ _ _ _ _ => .mRecvReg
  | .rxEvent => .rxEvent
  | .txEvent => .txEvent
  | .rxNext => .rxNext
  | .rxBind _ _ => .rxBind
  | .rxAvail => .rxAvail
  | .txBind _ _ => .txBind
  | .txAgain => .txAgain
  | .txDone => .txDone
  | .setTimeout _ => .setTimeout
  | .setBlb _ => .setBlb

end Sys2Proof
end

