-- ==== Sys2Proof/WellFormed.lean ====
section
/-! DEFINITION. The well-formedness of a command on a machine of given widths: what its operand types do not carry already
(00_scope.md R7, 10_state.md R20, R36, 30_encoding.md R93, R95). -/

namespace Sys2Proof

/-- A timestamp or a timeout fits its `TW` bits (R7, R93). -/
def timeFits (w : Widths) (t : Time) : Bool := decide (t < 2 ^ w.tw)

/-- A buffer operand is legal: the reference has `AW` bits, the length `LW` bits (R20), and the buffer lies inside buffer
memory, `ptr + len <= 2^AW` (R36, R95). -/
def bufferFits (w : Widths) (ptr : Addr) (len : Len) : Bool :=
  decide (ptr < 2 ^ w.aw) && decide (len < 2 ^ w.lw) && decide (ptr + len ≤ 2 ^ w.aw)

/-- A deadline operand fits its extension word (R93). -/
def Deadline.fits (w : Widths) : Deadline → Bool
  | .noDeadline => true
  | .atTime d => timeFits w d

/-- A command that a legal packet can stand for (R93, R95). -/
def Instr.wellFormed (w : Widths) : Instr → Bool
  | .sendBuf ptr len dl => bufferFits w ptr len && dl.fits w
  | .recvBuf ptr len dl => bufferFits w ptr len && dl.fits w
  | .mSendBuf _ ptr len _ => bufferFits w ptr len
  | .mRecvBuf _ ptr len _ => bufferFits w ptr len
  | .mRecvReg _ _ ptr len _ _ => bufferFits w ptr len
  | .rxBind ptr len => bufferFits w ptr len
  | .txBind ptr len => bufferFits w ptr len
  | .sigStart dl => dl.fits w
  | .sigStopStart dl => dl.fits w
  | .addrW _ dl => dl.fits w
  | .addrR _ dl => dl.fits w
  | .sendB _ dl => dl.fits w
  | .recvB dl => dl.fits w
  | .setTimeout time => timeFits w time
  | .stMaster _ => true
  | .stBasic => true
  | .stDetail => true
  | .sigStop => true
  | .clrEvent => true
  | .mSendB _ _ _ => true
  | .mRecvB _ _ => true
  | .rxEvent => true
  | .txEvent => true
  | .rxNext => true
  | .rxAvail => true
  | .txAgain => true
  | .txDone => true
  | .setBlb _ => true

end Sys2Proof
end

