-- ==== Sys2Proof/Decode.lean ====
section
/-! DEFINITION. The packet decoder and the encoder (30_encoding.md R90 to R98, R102, R104), for a machine of given widths. A
packet is a string of bits: the command word, then the extension words of the format in the order of R93 (log 11). -/

namespace Sys2Proof

/-! ## The opcode table (R92) -/

/-- Every opcode, in the order of R92. -/
def Opcode.all : List Opcode :=
  [.stMaster, .stBasic, .stDetail,
   .sigStart, .sigStopStart, .sigStop, .addrW, .addrR, .sendB, .sendBuf, .recvB, .recvBuf, .clrEvent,
   .mSendB, .mSendBuf, .mRecvB, .mRecvBuf, .mRecvReg,
   .rxEvent, .txEvent, .rxNext, .rxBind, .rxAvail, .txBind, .txAgain, .txDone,
   .setTimeout, .setBlb]

/-- Column `OP` of R92: the value of `CW[7:0]`. -/
def Opcode.code : Opcode → Byte
  | .stMaster => 0x01#8
  | .stBasic => 0x02#8
  | .stDetail => 0x03#8
  | .sigStart => 0x10#8
  | .sigStopStart => 0x11#8
  | .sigStop => 0x12#8
  | .addrW => 0x13#8
  | .addrR => 0x14#8
  | .sendB => 0x15#8
  | .sendBuf => 0x16#8
  | .recvB => 0x17#8
  | .recvBuf => 0x18#8
  | .clrEvent => 0x19#8
  | .mSendB => 0x20#8
  | .mSendBuf => 0x21#8
  | .mRecvB => 0x22#8
  | .mRecvBuf => 0x23#8
  | .mRecvReg => 0x24#8
  | .rxEvent => 0x30#8
  | .txEvent => 0x31#8
  | .rxNext => 0x32#8
  | .rxBind => 0x33#8
  | .rxAvail => 0x34#8
  | .txBind => 0x35#8
  | .txAgain => 0x36#8
  | .txDone => 0x37#8
  | .setTimeout => 0x40#8
  | .setBlb => 0x41#8

/-- Column `Format` of R92. -/
def Opcode.format : Opcode → Format
  | .stMaster => .n
  | .stBasic => .n
  | .stDetail => .n
  | .sigStart => .d
  | .sigStopStart => .d
  | .sigStop => .n
  | .addrW => .d
  | .addrR => .d
  | .sendB => .d
  | .sendBuf => .db
  | .recvB => .d
  | .recvBuf => .db
  | .clrEvent => .n
  | .mSendB => .n
  | .mSendBuf => .b
  | .mRecvB => .n
  | .mRecvBuf => .b
  | .mRecvReg => .b
  | .rxEvent => .n
  | .txEvent => .n
  | .rxNext => .n
  | .rxBind => .b
  | .rxAvail => .n
  | .txBind => .b
  | .txAgain => .n
  | .txDone => .n
  | .setTimeout => .t
  | .setBlb => .n

/-- Column `mask` of R92. -/
def Opcode.mask : Opcode → CmdWord
  | .stMaster => 0x00FFFFFF#32
  | .stBasic => 0xFFFFFFFF#32
  | .stDetail => 0xFFFFFFFF#32
  | .sigStart => 0xFFFFFBFF#32
  | .sigStopStart => 0xFFFFFBFF#32
  | .sigStop => 0xFFFFFFFF#32
  | .addrW => 0xFF80FBFF#32
  | .addrR => 0xFF80FBFF#32
  | .sendB => 0x00FFFBFF#32
  | .sendBuf => 0xFFFFFBFF#32
  | .recvB => 0xFFFFFBFF#32
  | .recvBuf => 0xFFFFFBFF#32
  | .clrEvent => 0xFFFFFFFF#32
  | .mSendB => 0x0080FEFF#32
  | .mSendBuf => 0xFF80FEFF#32
  | .mRecvB => 0xFF80FEFF#32
  | .mRecvBuf => 0xFF80FEFF#32
  | .mRecvReg => 0x0080FCFF#32
  | .rxEvent => 0xFFFFFFFF#32
  | .txEvent => 0xFFFFFFFF#32
  | .rxNext => 0xFFFFFFFF#32
  | .rxBind => 0xFFFFFFFF#32
  | .rxAvail => 0xFFFFFFFF#32
  | .txBind => 0xFFFFFFFF#32
  | .txAgain => 0xFFFFFFFF#32
  | .txDone => 0xFFFFFFFF#32
  | .setTimeout => 0xFFFFFFFF#32
  | .setBlb => 0x00FFFFFF#32

/-- Column `match` of R92: the opcode byte, every other fixed bit 0. -/
def Opcode.pattern (o : Opcode) : CmdWord := o.code.setWidth 32

/-- The opcode that a byte selects, if it is one of the 28 assigned values (R92, R96). -/
def Opcode.ofCode (b : Byte) : Option Opcode := Opcode.all.find? fun o => o.code = b

/-! ## The command word (R91) -/

/-- The fields of `CW` that a command may use (R91). -/
structure CmdFields where
  stop : Bool
  rs : Bool
  nodl : Bool
  addr : BitVec 7
  imm : Byte
  deriving DecidableEq, Repr

/-- `CW[7:0]` (R91). -/
def cwOpcode (w : CmdWord) : Byte := w.extractLsb' 0 8
/-- `CW[8]`, `STOP_F` (R91). -/
def cwStop (w : CmdWord) : Bool := w.getLsbD 8
/-- `CW[9]`, `RS_F` (R91). -/
def cwRs (w : CmdWord) : Bool := w.getLsbD 9
/-- `CW[10]`, `NODL_F` (R91). -/
def cwNodl (w : CmdWord) : Bool := w.getLsbD 10
/-- `CW[15:11]`, reserved (R91). -/
def cwReservedLow (w : CmdWord) : BitVec 5 := w.extractLsb' 11 5
/-- `CW[22:16]`, `ADDR7` (R91). -/
def cwAddr (w : CmdWord) : BitVec 7 := w.extractLsb' 16 7
/-- `CW[23]`, reserved (R91). -/
def cwReservedHigh (w : CmdWord) : Bool := w.getLsbD 23
/-- `CW[31:24]`, `IMM8` (R91). -/
def cwImm (w : CmdWord) : Byte := w.extractLsb' 24 8

/-- All used fields of `CW` at once (R91). -/
def cwFields (w : CmdWord) : CmdFields :=
  { stop := cwStop w, rs := cwRs w, nodl := cwNodl w, addr := cwAddr w, imm := cwImm w }

/-- The command word with an opcode and fields, every reserved bit 0 (R91). -/
def packWord (op : Byte) (f : CmdFields) : CmdWord :=
  f.imm ++ 0#1 ++ f.addr ++ 0#5 ++ BitVec.ofBool f.nodl ++ BitVec.ofBool f.rs ++ BitVec.ofBool f.stop ++ op

/-- Which fields of `CW` a command uses: column `Fields used` of R92. -/
structure FieldUse where
  stop : Bool := false
  rs : Bool := false
  nodl : Bool := false
  addr : Bool := false
  imm : Bool := false
  deriving DecidableEq, Repr

/-- Column `Fields used` of R92. -/
def Opcode.uses : Opcode → FieldUse
  | .stMaster => { imm := true }
  | .stBasic => {}
  | .stDetail => {}
  | .sigStart => { nodl := true }
  | .sigStopStart => { nodl := true }
  | .sigStop => {}
  | .addrW => { nodl := true, addr := true }
  | .addrR => { nodl := true, addr := true }
  | .sendB => { nodl := true, imm := true }
  | .sendBuf => { nodl := true }
  | .recvB => { nodl := true }
  | .recvBuf => { nodl := true }
  | .clrEvent => {}
  | .mSendB => { stop := true, addr := true, imm := true }
  | .mSendBuf => { stop := true, addr := true }
  | .mRecvB => { stop := true, addr := true }
  | .mRecvBuf => { stop := true, addr := true }
  | .mRecvReg => { stop := true, rs := true, addr := true, imm := true }
  | .rxEvent => {}
  | .txEvent => {}
  | .rxNext => {}
  | .rxBind => {}
  | .rxAvail => {}
  | .txBind => {}
  | .txAgain => {}
  | .txDone => {}
  | .setTimeout => {}
  | .setBlb => { imm := true }

/-- Every field a command does not use is 0 (R91, R95). -/
def FieldUse.allows (u : FieldUse) (f : CmdFields) : Bool :=
  (u.stop || !f.stop) && (u.rs || !f.rs) && (u.nodl || !f.nodl) && (u.addr || f.addr == 0#7) && (u.imm || f.imm == 0#8)

/-! ## Operand codes (R102, R104) -/

/-- The master context selector of R104. -/
def MasterCtx.code : MasterCtx → Byte
  | .start => 0#8
  | .addrW => 1#8
  | .addrR => 2#8
  | .send => 3#8
  | .recv => 4#8

/-- R104: the context an `IMM8` selects; 5 to 255 are illegal. -/
def MasterCtx.ofCode (b : Byte) : Option MasterCtx :=
  [MasterCtx.start, .addrW, .addrR, .send, .recv].find? fun c => c.code = b

/-- The policy codes of R102. -/
def BusLostBehaviour.code : BusLostBehaviour → Byte
  | .abort => 0#8
  | .retryWithinTimeout => 1#8
  | .retryExtendingTimeout => 2#8

/-- R102: the policy an `IMM8` selects; 3 and above are illegal. -/
def BusLostBehaviour.ofCode (b : Byte) : Option BusLostBehaviour :=
  [BusLostBehaviour.abort, .retryWithinTimeout, .retryExtendingTimeout].find? fun c => c.code = b

/-! ## Fields of a packet (R90, R93) -/

/-- The first field of a packet, `n` bits wide, and the packet after it; `none` where the packet has fewer bits. -/
def Packet.take (n : Nat) (p : Packet) : Option (Nat × Packet) :=
  if n ≤ p.bits then some (p.word % 2 ^ n, { bits := p.bits - n, word := p.word / 2 ^ n }) else none

/-- A field of `n` bits with the value `v` in front of a packet. -/
def Packet.put (n v : Nat) (p : Packet) : Packet := { bits := n + p.bits, word := v % 2 ^ n + 2 ^ n * p.word }

/-- No bits. -/
def Packet.empty : Packet := { bits := 0, word := 0 }

/-! ## Decoding -/

/-- Why a string of bits is not a legal packet (R95, R96). `truncated` is the model's own: the string ends before the packet
does (log 13). -/
inductive DecodeError where
  | truncated
  | unassignedOpcode
  | reservedBit
  | unusedField
  | badContext
  | badPolicy
  | bufferPastTop
  deriving DecidableEq, Repr

/-- The extension words of a packet: `DLV` or `TIME`, `PTR`, `LEN` (R93). A word the format does not have is 0 and is
not read. -/
structure ExtWords where
  time : Time := 0
  ptr : Addr := 0
  len : Len := 0
  deriving DecidableEq, Repr

/-- `DLV` or `TIME` (R93). -/
def takeTime (w : Widths) (p : Packet) : Option (ExtWords × Packet) :=
  (p.take w.tw).map fun t => ({ time := t.1 }, t.2)

/-- `PTR` then `LEN`, after the words already taken (R93). -/
def takeBuffer (w : Widths) (x : ExtWords) (p : Packet) : Option (ExtWords × Packet) :=
  (p.take w.aw).bind fun a => (a.2.take w.lw).map fun l => ({ x with ptr := a.1, len := l.1 }, l.2)

/-- The extension words of a format, in the order of R93, and the packet after them. -/
def takeExt (w : Widths) (f : Format) (p : Packet) : Option (ExtWords × Packet) :=
  match f with
  | .n => some ({}, p)
  | .d => takeTime w p
  | .t => takeTime w p
  | .b => takeBuffer w {} p
  | .db => (takeTime w p).bind fun t => takeBuffer w t.1 t.2

/-- `CTX.dl <- if CW[10] == 1 then NoDeadline else At(DLV)` (R94). -/
def deadlineOperand (nodl : Bool) (dlv : Time) : Deadline :=
  if nodl then .noDeadline else .atTime dlv

/-- Reserved bits and unused fields must be 0 (R91, R95). -/
def checkWord (o : Opcode) (w : CmdWord) : Option DecodeError :=
  if cwReservedLow w ≠ 0#5 ∨ cwReservedHigh w = true then some .reservedBit
  else if o.uses.allows (cwFields w) then none
  else some .unusedField

/-- A buffer command, if the buffer fits (R95). -/
def withBuffer (w : Widths) (x : ExtWords) (i : Instr) : Except DecodeError Instr :=
  if bufferFits w x.ptr x.len then .ok i else .error .bufferPastTop

/-- The command of an opcode with its operands assembled (R94). -/
def assemble (w : Widths) (o : Opcode) (f : CmdFields) (x : ExtWords) : Except DecodeError Instr :=
  match o with
  | .stMaster =>
    match MasterCtx.ofCode f.imm with
    | some c => .ok (.stMaster c)
    | none => .error .badContext
  | .stBasic => .ok .stBasic
  | .stDetail => .ok .stDetail
  | .sigStart => .ok (.sigStart (deadlineOperand f.nodl x.time))
  | .sigStopStart => .ok (.sigStopStart (deadlineOperand f.nodl x.time))
  | .sigStop => .ok .sigStop
  | .addrW => .ok (.addrW f.addr (deadlineOperand f.nodl x.time))
  | .addrR => .ok (.addrR f.addr (deadlineOperand f.nodl x.time))
  | .sendB => .ok (.sendB f.imm (deadlineOperand f.nodl x.time))
  | .sendBuf => withBuffer w x (.sendBuf x.ptr x.len (deadlineOperand f.nodl x.time))
  | .recvB => .ok (.recvB (deadlineOperand f.nodl x.time))
  | .recvBuf => withBuffer w x (.recvBuf x.ptr x.len (deadlineOperand f.nodl x.time))
  | .clrEvent => .ok .clrEvent
  | .mSendB => .ok (.mSendB f.addr f.imm f.stop)
  | .mSendBuf => withBuffer w x (.mSendBuf f.addr x.ptr x.len f.stop)
  | .mRecvB => .ok (.mRecvB f.addr f.stop)
  | .mRecvBuf => withBuffer w x (.mRecvBuf f.addr x.ptr x.len f.stop)
  | .mRecvReg => withBuffer w x (.mRecvReg f.addr f.imm x.ptr x.len f.rs f.stop)
  | .rxEvent => .ok .rxEvent
  | .txEvent => .ok .txEvent
  | .rxNext => .ok .rxNext
  | .rxBind => withBuffer w x (.rxBind x.ptr x.len)
  | .rxAvail => .ok .rxAvail
  | .txBind => withBuffer w x (.txBind x.ptr x.len)
  | .txAgain => .ok .txAgain
  | .txDone => .ok .txDone
  | .setTimeout => .ok (.setTimeout x.time)
  | .setBlb =>
    match BusLostBehaviour.ofCode f.imm with
    | some c => .ok (.setBlb c)
    | none => .error .badPolicy

/-- Decode the packet at the head of a string of bits (R90, R92 to R96): the command and the bits after the packet, or the
reason there is none. Total on any string. -/
def decode (w : Widths) (p : Packet) : Except DecodeError (Instr × Packet) :=
  match p.take 32 with
  | none => .error .truncated
  | some (cw, ext) =>
    match Opcode.ofCode (cwOpcode (BitVec.ofNat 32 cw)) with
    | none => .error .unassignedOpcode
    | some o =>
      match checkWord o (BitVec.ofNat 32 cw) with
      | some e => .error e
      | none =>
        match takeExt w o.format ext with
        | none => .error .truncated
        | some (x, rest) => (assemble w o (cwFields (BitVec.ofNat 32 cw)) x).map fun i => (i, rest)

/-! ## Encoding -/

/-- No field of `CW` used. -/
def CmdFields.zero : CmdFields := { stop := false, rs := false, nodl := false, addr := 0#7, imm := 0#8 }

/-- `NODL_F` for a deadline operand (R91). -/
def Deadline.isNone : Deadline → Bool
  | .noDeadline => true
  | .atTime _ => false

/-- `DLV` for a deadline operand; ignored, and encoded as 0, where there is no deadline (R93, R95). -/
def Deadline.dlv : Deadline → Time
  | .noDeadline => 0
  | .atTime d => d

/-- The fields of `CW` that carry a command's operands (R91, R94). -/
def Instr.fields : Instr → CmdFields
  | .stMaster c => { CmdFields.zero with imm := c.code }
  | .stBasic => .zero
  | .stDetail => .zero
  | .sigStart dl => { CmdFields.zero with nodl := dl.isNone }
  | .sigStopStart dl => { CmdFields.zero with nodl := dl.isNone }
  | .sigStop => .zero
  | .addrW a dl => { CmdFields.zero with addr := a, nodl := dl.isNone }
  | .addrR a dl => { CmdFields.zero with addr := a, nodl := dl.isNone }
  | .sendB b dl => { CmdFields.zero with imm := b, nodl := dl.isNone }
  | .sendBuf _ _ dl => { CmdFields.zero with nodl := dl.isNone }
  | .recvB dl => { CmdFields.zero with nodl := dl.isNone }
  | .recvBuf _ _ dl => { CmdFields.zero with nodl := dl.isNone }
  | .clrEvent => .zero
  | .mSendB a b stop => { CmdFields.zero with addr := a, imm := b, stop := stop }
  | .mSendBuf a _ _ stop => { CmdFields.zero with addr := a, stop := stop }
  | .mRecvB a stop => { CmdFields.zero with addr := a, stop := stop }
  | .mRecvBuf a _ _ stop => { CmdFields.zero with addr := a, stop := stop }
  | .mRecvReg a reg _ _ rs stop => { CmdFields.zero with addr := a, imm := reg, rs := rs, stop := stop }
  | .rxEvent => .zero
  | .txEvent => .zero
  | .rxNext => .zero
  | .rxBind _ _ => .zero
  | .rxAvail => .zero
  | .txBind _ _ => .zero
  | .txAgain => .zero
  | .txDone => .zero
  | .setTimeout _ => .zero
  | .setBlb c => { CmdFields.zero with imm := c.code }

/-- The extension words of a command (R93, R94). -/
def Instr.ext : Instr → ExtWords
  | .stMaster _ => {}
  | .stBasic => {}
  | .stDetail => {}
  | .sigStart dl => { time := dl.dlv }
  | .sigStopStart dl => { time := dl.dlv }
  | .sigStop => {}
  | .addrW _ dl => { time := dl.dlv }
  | .addrR _ dl => { time := dl.dlv }
  | .sendB _ dl => { time := dl.dlv }
  | .sendBuf ptr len dl => { time := dl.dlv, ptr := ptr, len := len }
  | .recvB dl => { time := dl.dlv }
  | .recvBuf ptr len dl => { time := dl.dlv, ptr := ptr, len := len }
  | .clrEvent => {}
  | .mSendB _ _ _ => {}
  | .mSendBuf _ ptr len _ => { ptr := ptr, len := len }
  | .mRecvB _ _ => {}
  | .mRecvBuf _ ptr len _ => { ptr := ptr, len := len }
  | .mRecvReg _ _ ptr len _ _ => { ptr := ptr, len := len }
  | .rxEvent => {}
  | .txEvent => {}
  | .rxNext => {}
  | .rxBind ptr len => { ptr := ptr, len := len }
  | .rxAvail => {}
  | .txBind ptr len => { ptr := ptr, len := len }
  | .txAgain => {}
  | .txDone => {}
  | .setTimeout time => { time := time }
  | .setBlb _ => {}

/-- The extension words of a format in front of a packet, in the order of R93. -/
def putExt (w : Widths) (f : Format) (x : ExtWords) (rest : Packet) : Packet :=
  match f with
  | .n => rest
  | .d => .put w.tw x.time rest
  | .t => .put w.tw x.time rest
  | .b => .put w.aw x.ptr (.put w.lw x.len rest)
  | .db => .put w.tw x.time (.put w.aw x.ptr (.put w.lw x.len rest))

/-- The command word of a command (R91). -/
def Instr.cmdWord (i : Instr) : CmdWord := packWord i.opcode.code i.fields

/-- The packet of a command in front of other bits. -/
def encodeOnto (w : Widths) (i : Instr) (rest : Packet) : Packet :=
  .put 32 i.cmdWord.toNat (putExt w i.opcode.format i.ext rest)

/-- The packet of a command (R90 to R93). -/
def encode (w : Widths) (i : Instr) : Packet := encodeOnto w i .empty

/-- The length of a packet in bits (R98). -/
def Format.packetBits (w : Widths) : Format → Nat
  | .n => 32
  | .d => 32 + w.tw
  | .db => 32 + w.tw + w.aw + w.lw
  | .b => 32 + w.aw + w.lw
  | .t => 32 + w.tw

/-! ## The table's words -/

/-- The packet whose first `nbits` bits are `v` and whose later bits, to the length of the longest packet (format DB, R98),
are 0. -/
def tablePacket (w : Widths) (nbits v : Nat) : Packet := { bits := Format.packetBits w .db, word := v % 2 ^ nbits }

/-- The command the decoder reads from a packet given as a number, at the default widths (host interface). -/
def decodeTableWord (nbits w : Nat) : Option Instr :=
  match decode .default (tablePacket .default nbits w) with
  | .ok (i, _) => some i
  | .error _ => none

end Sys2Proof
end

