-- ==== Sys2Proof/Machine/RawCodes.lean ====
section
/-! DEFINITION. The condition classes of 40_status_decoder.md R120 and the default raw-code table of R122. -/

namespace Sys2Proof.Machine

/-- The 28 condition classes (R120), in the order of its table. -/
inductive Cond where
  | busError
  | start
  | repStart
  | addrWAck
  | addrWNack
  | dataTxAck
  | dataTxNack
  | arbLost
  | addrRAck
  | addrRNack
  | dataRxAck
  | dataRxNack
  | srAddr
  | srAddrArb
  | srGc
  | srGcArb
  | srDataAck
  | srDataNack
  | srGcDataAck
  | srGcDataNack
  | srSignal
  | stAddr
  | stAddrArb
  | stDataAck
  | stDataNack
  | stLastAck
  | noInfo
  | unknown
  deriving DecidableEq, Repr

/-- The default `RAWCODE_TABLE` (R122). PRESUMED: from general knowledge of the common peripheral, as the spec marks it
(U1, log 9). A raw code it does not list has the class `unknown` (R121). -/
def defaultRawTable : List (RawCode × Cond) :=
  [(0x00, .busError), (0x08, .start), (0x10, .repStart), (0x18, .addrWAck), (0x20, .addrWNack),
   (0x28, .dataTxAck), (0x30, .dataTxNack), (0x38, .arbLost), (0x40, .addrRAck), (0x48, .addrRNack),
   (0x50, .dataRxAck), (0x58, .dataRxNack), (0x60, .srAddr), (0x68, .srAddrArb)] ++
  [(0x70, .srGc), (0x78, .srGcArb), (0x80, .srDataAck), (0x88, .srDataNack), (0x90, .srGcDataAck),
   (0x98, .srGcDataNack), (0xA0, .srSignal), (0xA8, .stAddr), (0xB0, .stAddrArb), (0xB8, .stDataAck),
   (0xC0, .stDataNack), (0xC8, .stLastAck), (0xF8, .noInfo)]

end Sys2Proof.Machine
end

