-- ==== Sys2Proof/Machine/State.lean ====
section
/-! DEFINITION. The state of the block and of its environment as plain data (10_state.md, 20_memory.md), the reasons a
step can stop, and the state after reset (R50, R290). -/

namespace Sys2Proof.Machine

/-! ## Result values (30_encoding.md R100, R101, R103) -/

/-- `Status`, in the order of R100. -/
inductive Status where
  | success
  | addressNACK
  | dataNACK
  | busLost
  | addressedAsSlave
  | timeout
  | error
  | unknown
  deriving DecidableEq, Repr

/-- `BasicSlaveStatus`, in the order of R101. -/
inductive BasicSlaveStatus where
  | noStatus
  | error
  | signalReceived
  | addressedAsReceiver
  | dataAccepted
  | dataDeclined
  | addressedAsTransmitter
  | nextDataAccepted
  | nextDataDeclined
  | moreDataRequest
  | unknown
  deriving DecidableEq, Repr

/-- `DetailedSlaveStatus`, in the order of R103. -/
inductive DetailedSlaveStatus where
  | noStatus
  | error
  | signalReceived
  | addressedAsReceiverDirect
  | addressedAsReceiverDirectArbLost
  | addressedAsReceiverGeneralCall
  | addressedAsReceiverGeneralCallArbLost
  | dataAcceptedDirect
  | dataDeclinedDirect
  | dataAcceptedGeneralCall
  | dataDeclinedGeneralCall
  | addressedAsTransmitterDirect
  | addressedAsTransmitterDirectArbLost
  | nextDataAccepted
  | nextDataDeclined
  | moreDataRequest
  | unknown
  deriving DecidableEq, Repr

/-- The response word `RSP` (R33, R99): `code` is `RSP[7:0]`, `high` is `RSP[15:8]`. `returned` says whether a command
of this flow has completed since reset: reading `RSP` before that is refused (R50, U8). -/
structure Response where
  code : Byte
  high : Byte
  returned : Bool
  deriving DecidableEq, Repr

/-! ## Descriptors and memory -/

/-- A slave transfer descriptor (R22, R23). `cursor` is the number of bytes transferred so far; `cursor <= len` (R24). -/
structure Desc where
  ptr : Addr
  len : Len
  cursor : Nat
  deriving DecidableEq, Repr

/-- Buffer memory (R60): address and byte, addresses strictly rising, no entry equal to what an unlisted address
reads as. -/
abbrev Memory := List Host.Cell

/-! ## The collaborator (20_memory.md R62 to R68; 10_state.md R42, R43, R47) -/

/-- The answers of one input of the collaborator: those in `queue` first, then `after`, `loop`, `after`, `loop` and so on
for ever (log 2). -/
structure Answers (α : Type) where
  queue : List α
  after : α
  loop : List α
  deriving DecidableEq, Repr

/-- The same answer for ever. -/
def Answers.always {α : Type} (x : α) : Answers α := { queue := [], after := x, loop := [] }

/-- The argument of `armControl` (R65): a flag that is `none` is not mentioned and keeps its value. -/
structure Assign where
  intClear : Option Bool
  ackEnable : Option Bool
  start : Option Bool
  stop : Option Bool
  deriving DecidableEq, Repr

/-- The control register behind `armControl` (R42): the four flags as last written, and every other bit. -/
structure Ctrl where
  intClear : Bool
  ackEnable : Bool
  start : Bool
  stop : Bool
  others : BitVec 4
  deriving DecidableEq, Repr

/-- What happens in the hardware-event flow at a boundary of the caller flow (R112, R266). -/
inductive Preemption where
  /-- A hardware event invokes the flow (R265). -/
  | hwEvent
  /-- The flow issues a command packet of its own (R90, R112). -/
  | command (packet : Packet)
  /-- The flow reads its response word (R50, U8). -/
  | readResponse
  deriving DecidableEq, Repr

/-- The hardware collaborator: the environment of the block. -/
structure Collaborator where
  /-- The control register (R42). The block cannot read it. -/
  ctrl : Ctrl
  /-- The event-complete signal (R64): set by the hardware, cleared by an arm call with `INT_CLEAR := 1` (log 3). -/
  event : Bool
  /-- For each `eventComplete` sample: has the hardware set the signal since the last one? (R64, log 3) -/
  raises : Answers Bool
  /-- The answers of `readStatus` (R63). -/
  codes : Answers RawCode
  /-- The answers of `readData` (R66). -/
  received : Answers Byte
  /-- The answers of `now` (R67). -/
  clock : Answers Time
  /-- The last answer of `now`: a smaller one is refused (R67, U8). -/
  lastNow : Time
  /-- The byte last written by `writeData` (R43, R66). -/
  dataReg : Byte
  /-- At each boundary inside a master command: what the hardware-event flow does there, any number of things in order
  (R264, R266, R269, log 4). -/
  interrupts : Answers (List Preemption)
  deriving DecidableEq, Repr

/-- One recorded atomic action with its arguments and answer: the observable behaviour of the block (R62, R68). -/
inductive Atom where
  | arm (a : Assign)
  | writeData (b : Byte)
  | eventComplete (e : Bool)
  | now (t : Time)
  | readStatus (c : RawCode)
  | readData (b : Byte)
  | memRead (addr : Nat) (b : Byte)
  | memWrite (addr : Nat) (b : Byte)
  deriving DecidableEq, Repr

/-! ## The sequencer (R30, R31) -/

/-- The master commands: opcodes 0x10 to 0x24 (R30, R304). -/
inductive MasterOp where
  | sigStart
  | sigStopStart
  | sigStop
  | addrW
  | addrR
  | sendB
  | sendBuf
  | recvB
  | recvBuf
  | clrEvent
  | mSendB
  | mSendBuf
  | mRecvB
  | mRecvBuf
  | mRecvReg
  deriving DecidableEq, Repr

/-- The transaction context `CTX` (R20, R21). A field that a command does not use holds 0 and is read by no rule
(log 19). -/
structure Ctx where
  addr : BitVec 7 := 0#7
  reg : Byte := 0#8
  data : Byte := 0#8
  ptr : Addr := 0
  len : Len := 0
  stop : Bool := false
  rs : Bool := false
  dl : Deadline := .noDeadline
  deriving DecidableEq, Repr

/-- The primitives that wait for an event (R261, last paragraph), with the two byte operands of `sendData` apart. -/
inductive WaitPrim where
  | start
  | stopStart
  | addrW
  | addrR
  | sendData
  | sendReg
  | sendBuf
  | recvB
  | recvBuf
  deriving DecidableEq, Repr

/-- One entry of a step list (R181 to R186). -/
inductive Prim where
  | wait (w : WaitPrim)
  | stop
  | clear
  deriving DecidableEq, Repr

/-- Which atomic action of the current step comes next (R8): the position inside a primitive's pseudocode (log 1). -/
inductive Phase where
  /-- The entry sample of a composite (R180). -/
  | enter
  /-- The first action of step `SEQ.step` at index `SEQ.idx`. -/
  | begin
  /-- `writeData` of a byte of the send buffer, already read (R156). -/
  | put (b : Byte)
  /-- The arm call after the data register was written (R153 to R155). -/
  | arm (w : WaitPrim)
  /-- An `eventComplete` sample of the wait (R141). -/
  | poll (w : WaitPrim)
  /-- A `now` sample of the wait (R141). -/
  | clock (w : WaitPrim)
  /-- The status read after a completed wait (R142). -/
  | decode (w : WaitPrim)
  /-- The implicit stop before a NACK status is returned (R143). -/
  | nackStop (st : Status)
  /-- `readData` of `RECV_B` (R157, R159). -/
  | takeByte
  /-- `readData` of `RECV_BUF` (R157, R160). -/
  | takeBuf
  /-- `MemWrite` of a received byte (R160). -/
  | store (b : Byte)
  /-- The clear of the `Abort` policy (R187). -/
  | abort
  /-- The fresh sample of the `RetryExtendingTimeout` policy (R188). -/
  | extend
  deriving DecidableEq, Repr

/-- A master command being executed: `Run(op, step, idx)` of R30 with its context, its position inside the current
primitive, and the byte that `RECV_B` has put into `RSP[15:8]` so far (R159, R183). -/
structure Run where
  op : MasterOp
  step : Nat
  idx : Nat
  ctx : Ctx
  phase : Phase
  got : Option Byte
  deriving DecidableEq, Repr

/-- The sequencer `SEQ` (R30). The context exists only while a command runs (R21). -/
inductive Seq where
  | idle
  | run (r : Run)
  deriving DecidableEq, Repr

/-! ## Flows, issuers, parameters -/

/-- The two execution contexts (R271). -/
inductive Flow where
  | caller
  | event
  deriving DecidableEq, Repr

/-- The event steps that `EVENT_DISPATCH` lists (R265). -/
inductive EventStep where
  | rx
  | tx
  deriving DecidableEq, Repr

/-- `EVENT_DISPATCH` (R7): a list over the two event steps without repetition, so one of these five. -/
inductive EventDispatch where
  | nothing
  | rxOnly
  | txOnly
  | rxThenTx
  | txThenRx
  deriving DecidableEq, Repr

/-- What an issuer or the outside does next (log 12, log 22, log 23). -/
inductive Issue where
  /-- A flow issues a command packet (R90, R112). -/
  | command (flow : Flow) (packet : Packet)
  /-- A hardware event invokes the event flow (R265). -/
  | hwEvent
  /-- The caller reads a byte of buffer memory (R76). -/
  | callerRead (addr : Addr)
  /-- The caller writes a byte of buffer memory (R76). -/
  | callerWrite (addr : Addr) (b : Byte)
  /-- A flow reads its response word (R50, U8). -/
  | readResponse (flow : Flow)
  /-- Reset of the block (R290). -/
  | resetEvent
  deriving DecidableEq, Repr

/-- `CTRL_BITS` (R7): the bit position of each control flag in the collaborator's control register. The block names flags, not
bits (R108): no rule uses it. -/
structure CtrlBits where
  intClear : Nat
  ackEnable : Nat
  start : Nat
  stop : Nat
  deriving DecidableEq, Repr

/-- The default of R7, the layout of U3: general knowledge (PRESUMED, log 30). -/
def CtrlBits.default : CtrlBits := { intClear := 7, ackEnable := 6, start := 5, stop := 4 }

/-- The parameters of R7. No command writes them. -/
structure Params where
  /-- `TW`, `RCW`, `AW`, `LW`. -/
  widths : Widths
  /-- `RAWCODE_TABLE` (R121). -/
  rawTable : List (RawCode × Cond)
  /-- `CTRL_BITS` (log 30). -/
  ctrlBits : CtrlBits
  /-- `EVENT_DISPATCH` (R265). -/
  dispatch : EventDispatch
  /-- `RESET_TIMEOUT` (R50). -/
  resetTimeout : Time
  /-- `RESET_BLB` (R50). -/
  resetBlb : BusLostBehaviour
  deriving DecidableEq, Repr

/-! ## State -/

/-- The whole machine: the block (R20), buffer memory (R60), the flow in execution (R271), the parameters, the
collaborator, and the model's own record of what is issued and what was done. -/
structure State where
  /-- The parameters of the machine (R7). -/
  params : Params
  /-- `SEQ`, with `CTX` inside (R20, R21, R30). -/
  seq : Seq
  /-- `RSP` of the caller flow (R20, R33). -/
  rspCaller : Response
  /-- `RSP` of the hardware-event flow (R266). -/
  rspEvent : Response
  /-- `CFG_TIMEOUT` (R40). -/
  cfgTimeout : Time
  /-- `CFG_BLB` (R41). -/
  cfgBlb : BusLostBehaviour
  /-- The slave receiver descriptor `RX` (R22). -/
  rx : Desc
  /-- The slave transmitter descriptor `TX` (R23). -/
  tx : Desc
  /-- Buffer memory (R60). -/
  mem : Memory
  /-- The execution context (R271). -/
  flow : Flow
  /-- The hardware collaborator (R62). -/
  hw : Collaborator
  /-- What the issuers still have to do, in order (log 12). -/
  issues : List Issue
  /-- Every atomic action so far, oldest first (R62, R68). -/
  trace : List Atom
  /-- The number of free values taken so far (log 15). -/
  freeCount : Nat
  deriving DecidableEq, Repr

/-! ## Stops -/

/-- Why the machine stops with a fault. -/
inductive Fault where
  /-- An access to a byte address that does not exist, at or above `2^AW` (R60). Raised by the buffer accesses of a master
  command or an event step, where no state that meets the invariant reaches it, and by the caller's own accesses. Safe: the
  model stops (log 17). -/
  | noSuchByte (addr : Nat)
  deriving DecidableEq, Repr

/-- What the model gives no meaning. -/
inductive Refusal where
  /-- An instruction that has no meaning yet. Raised by no arm of `exec`. Safe. -/
  | notModelled (mnemonic : String)
  /-- A master command issued while `SEQ` is not idle (R304, U8). Raised by the master commands. Safe. -/
  | masterBusy
  /-- A command issued by a flow that may not issue it (R112, U8). Raised by every command that one flow only may issue, in
  either flow. Safe. -/
  | wrongFlow
  /-- A deadline that would reach `2^TW` (R10, U8). Raised by composite commands at entry and when a retry extends the
  deadline. Safe. -/
  | deadlineOverflow
  /-- A clock answer smaller than an earlier one (R67, U8). Raised by every `now` sample. Safe. -/
  | clockWentBack
  /-- A packet that ends before its last word (log 13). Raised by the step that decodes it. Safe. -/
  | packetTruncated
  /-- A caller access that races with the event flow (R76, U11). Raised by the caller's own memory accesses. Safe. -/
  | racingAccess
  /-- `RSP` read before the first command of that flow completed (R50, U8). Raised by the read of a response. Safe. -/
  | responseNotReady
  deriving DecidableEq, Repr

/-- What a step of the machine answers. -/
abbrev Result := Host.Outcome State Fault Refusal

/-! ## Reset (R50, R290) -/

/-- The default parameters of R7. `RESET_TIMEOUT` and `RESET_BLB` are OPEN in the spec: DESIGN CHOICE 0 and `Abort`, the
values its own programs start from (95_test_vectors.md section 8, log 7). -/
def Params.default : Params :=
  { widths := .default, rawTable := defaultRawTable, ctrlBits := .default, dispatch := .rxThenTx, resetTimeout := 0
    resetBlb := .abort }

/-- A response word before any command has completed. The spec leaves its bits unspecified (R50): DESIGN CHOICE 0
(log 5). -/
def Response.atReset : Response := { code := 0#8, high := 0#8, returned := false }

/-- A descriptor after reset: length and cursor 0 (R50); the pointer is unspecified there: DESIGN CHOICE 0 (log 6). -/
def Desc.atReset : Desc := { ptr := 0, len := 0, cursor := 0 }

/-- The collaborator when the block is reset. None of it is the block's and the spec gives no value (R50): DESIGN CHOICE
and PRESUMED values (log 8). -/
def Collaborator.atReset : Collaborator :=
  { ctrl := { intClear := false, ackEnable := false, start := false, stop := false, others := 0#4 }
    event := false
    raises := .always false
    codes := .always 0xF8
    received := .always 0xFF#8
    clock := .always 0
    lastNow := 0
    dataReg := 0xFF#8
    interrupts := .always [] }

/-- The block's own state at its reset values (R50, R290), for the parameters the machine has; buffer memory, the
collaborator, the issuers and the record are kept (log 23). -/
def State.resetBlock (s : State) : State :=
  { s with
    seq := .idle
    rspCaller := .atReset
    rspEvent := .atReset
    cfgTimeout := s.params.resetTimeout
    cfgBlb := s.params.resetBlb
    rx := .atReset
    tx := .atReset
    flow := .caller }

/-- The machine right after reset, for any parameters (R50, R290). -/
def State.resetWith (p : Params) : State :=
  { params := p
    seq := .idle
    rspCaller := .atReset
    rspEvent := .atReset
    cfgTimeout := p.resetTimeout
    cfgBlb := p.resetBlb
    rx := .atReset
    tx := .atReset
    mem := []
    flow := .caller
    hw := .atReset
    issues := []
    trace := []
    freeCount := 0 }

/-- The machine right after reset, with the default parameters. -/
def State.reset : State := State.resetWith .default

end Sys2Proof.Machine
end

