-- ==== Sys2Proof/Machine/Flags.lean ====
section
/-! DEFINITION. The status computations: the decoder of 40_status_decoder.md (R121, R123 to R125, R127), the result codes
of 30_encoding.md (R99 to R103) and the two completion predicates of 10_state.md R34. -/

namespace Sys2Proof.Machine

/-! ## The decoder -/

/-- `classify(raw) = RAWCODE_TABLE(raw)`, total: a raw code that is not listed has the class `C_UNKNOWN` (R121). -/
def classify (table : List (RawCode × Cond)) (raw : RawCode) : Cond :=
  match table with
  | [] => .unknown
  | (c, k) :: rest => if c = raw then k else classify rest raw

/-- Line 3 of R123: this device was itself addressed. -/
def Cond.isAddressed : Cond → Bool
  | .srAddr | .srAddrArb | .srGc | .srGcArb | .stAddr | .stAddrArb => true
  | .busError | .start | .repStart | .addrWAck | .addrWNack | .dataTxAck | .dataTxNack | .arbLost | .addrRAck
  | .addrRNack | .dataRxAck | .dataRxNack | .srDataAck | .srDataNack | .srGcDataAck | .srGcDataNack | .srSignal
  | .stDataAck | .stDataNack | .stLastAck | .noInfo | .unknown => false

/-- Lines 4 to 12 of R123: the classes that belong to the primitive's own context. -/
def contextStatus : MasterCtx → Cond → Status
  | .start, .start => .success
  | .start, .repStart => .success
  | .addrW, .addrWAck => .success
  | .addrW, .addrWNack => .addressNACK
  | .addrR, .addrRAck => .success
  | .addrR, .addrRNack => .addressNACK
  | .send, .dataTxAck => .success
  | .send, .dataTxNack => .dataNACK
  | .recv, .dataRxAck => .success
  | .recv, .dataRxNack => .success
  | _, _ => .unknown

/-- `masterStatus` (R123): the first matching line gives the result. -/
def masterStatus (ctx : MasterCtx) (c : Cond) : Status :=
  if c = .busError then .error
  else if c = .arbLost then .busLost
  else if c.isAddressed then .addressedAsSlave
  else contextStatus ctx c

/-- `basicSlave` (R124). -/
def basicSlave : Cond → BasicSlaveStatus
  | .noInfo => .noStatus
  | .busError => .error
  | .srSignal => .signalReceived
  | .srAddr | .srAddrArb | .srGc | .srGcArb => .addressedAsReceiver
  | .srDataAck | .srGcDataAck => .dataAccepted
  | .srDataNack | .srGcDataNack => .dataDeclined
  | .stAddr | .stAddrArb => .addressedAsTransmitter
  | .stDataAck => .nextDataAccepted
  | .stDataNack => .nextDataDeclined
  | .stLastAck => .moreDataRequest
  | .unknown | .start | .repStart | .addrWAck | .addrWNack | .dataTxAck | .dataTxNack | .arbLost | .addrRAck
  | .addrRNack | .dataRxAck | .dataRxNack => .unknown

/-- `detailedSlave` (R125). -/
def detailedSlave : Cond → DetailedSlaveStatus
  | .noInfo => .noStatus
  | .busError => .error
  | .srSignal => .signalReceived
  | .srAddr => .addressedAsReceiverDirect
  | .srAddrArb => .addressedAsReceiverDirectArbLost
  | .srGc => .addressedAsReceiverGeneralCall
  | .srGcArb => .addressedAsReceiverGeneralCallArbLost
  | .srDataAck => .dataAcceptedDirect
  | .srDataNack => .dataDeclinedDirect
  | .srGcDataAck => .dataAcceptedGeneralCall
  | .srGcDataNack => .dataDeclinedGeneralCall
  | .stAddr => .addressedAsTransmitterDirect
  | .stAddrArb => .addressedAsTransmitterDirectArbLost
  | .stDataAck => .nextDataAccepted
  | .stDataNack => .nextDataDeclined
  | .stLastAck => .moreDataRequest
  | .unknown | .start | .repStart | .addrWAck | .addrWNack | .dataTxAck | .dataTxNack | .arbLost | .addrRAck
  | .addrRNack | .dataRxAck | .dataRxNack => .unknown

/-- `basicOf`: column "Basic" of R103. -/
def basicOf : DetailedSlaveStatus → BasicSlaveStatus
  | .noStatus => .noStatus
  | .error => .error
  | .signalReceived => .signalReceived
  | .addressedAsReceiverDirect => .addressedAsReceiver
  | .addressedAsReceiverDirectArbLost => .addressedAsReceiver
  | .addressedAsReceiverGeneralCall => .addressedAsReceiver
  | .addressedAsReceiverGeneralCallArbLost => .addressedAsReceiver
  | .dataAcceptedDirect => .dataAccepted
  | .dataDeclinedDirect => .dataDeclined
  | .dataAcceptedGeneralCall => .dataAccepted
  | .dataDeclinedGeneralCall => .dataDeclined
  | .addressedAsTransmitterDirect => .addressedAsTransmitter
  | .addressedAsTransmitterDirectArbLost => .addressedAsTransmitter
  | .nextDataAccepted => .nextDataAccepted
  | .nextDataDeclined => .nextDataDeclined
  | .moreDataRequest => .moreDataRequest
  | .unknown => .unknown

/-! ## Result codes -/

/-- `Status` codes (R100). -/
def Status.code : Status → Byte
  | .success => 0#8
  | .addressNACK => 1#8
  | .dataNACK => 2#8
  | .busLost => 3#8
  | .addressedAsSlave => 4#8
  | .timeout => 5#8
  | .error => 6#8
  | .unknown => 7#8

/-- `BasicSlaveStatus` codes (R101). -/
def BasicSlaveStatus.code : BasicSlaveStatus → Byte
  | .noStatus => 0#8
  | .error => 1#8
  | .signalReceived => 2#8
  | .addressedAsReceiver => 3#8
  | .dataAccepted => 4#8
  | .dataDeclined => 5#8
  | .addressedAsTransmitter => 6#8
  | .nextDataAccepted => 7#8
  | .nextDataDeclined => 8#8
  | .moreDataRequest => 9#8
  | .unknown => 10#8

/-- `DetailedSlaveStatus` codes (R103). -/
def DetailedSlaveStatus.code : DetailedSlaveStatus → Byte
  | .noStatus => 0#8
  | .error => 1#8
  | .signalReceived => 2#8
  | .addressedAsReceiverDirect => 3#8
  | .addressedAsReceiverDirectArbLost => 4#8
  | .addressedAsReceiverGeneralCall => 5#8
  | .addressedAsReceiverGeneralCallArbLost => 6#8
  | .dataAcceptedDirect => 7#8
  | .dataDeclinedDirect => 8#8
  | .dataAcceptedGeneralCall => 9#8
  | .dataDeclinedGeneralCall => 10#8
  | .addressedAsTransmitterDirect => 11#8
  | .addressedAsTransmitterDirectArbLost => 12#8
  | .nextDataAccepted => 13#8
  | .nextDataDeclined => 14#8
  | .moreDataRequest => 15#8
  | .unknown => 16#8

/-- A boolean result: 1 for true, 0 for false (R99). -/
def boolCode (b : Bool) : Byte := if b then 1#8 else 0#8

/-- `RSP` as a 16-bit word: the high byte, then the result code (R33, R99). -/
def Response.word (r : Response) : BitVec 16 := r.high ++ r.code

/-! ## Completion predicates -/

/-- `cursor == length`: the transfer is complete (R24, R34). -/
def Desc.complete (d : Desc) : Bool := decide (d.cursor = d.len)

/-- `cursor < length`: the guard of the slave steps (R211, R212, R231, R232). -/
def Desc.pending (d : Desc) : Bool := decide (d.cursor < d.len)

/-! ## The trace form of an arm call (R108) -/

/-- Whether a flag is mentioned, as a bit. -/
def mentionBit (f : Option Bool) : BitVec 1 := BitVec.ofBool f.isSome

/-- The value of a flag, 0 where it is not mentioned (R108). -/
def valueBit (f : Option Bool) : BitVec 1 := BitVec.ofBool (f.getD false)

/-- The `mention` vector of R108: `INT_CLEAR` bit 3, `ACK_ENABLE` bit 2, `START` bit 1, `STOP` bit 0. -/
def Assign.mention (a : Assign) : BitVec 4 :=
  mentionBit a.intClear ++ mentionBit a.ackEnable ++ mentionBit a.start ++ mentionBit a.stop

/-- The `value` vector of R108. -/
def Assign.value (a : Assign) : BitVec 4 :=
  valueBit a.intClear ++ valueBit a.ackEnable ++ valueBit a.start ++ valueBit a.stop

end Sys2Proof.Machine
end

