-- ==== Sys2Proof/Machine/Operands.lean ====
section
/-! DEFINITION. Operand computations: the address byte (30_encoding.md R107), deadline arithmetic (00_scope.md R10), the
arm calls of 00_scope.md R13, the address of a buffer byte (R11) and the context a command carries (R94). -/

namespace Sys2Proof.Machine

/-- `addrByte(a, rw) = (zext_8(a) << 1) | rw`, `rw = 1` for reading (R107). -/
def addrByte (a : BitVec 7) (rw : Bool) : Byte :=
  ((a.setWidth 8) <<< 1) ||| (BitVec.ofBool rw).setWidth 8

/-- `mkDeadline(t0, timeout)` on a machine of given widths (R10): no deadline for `TIMEOUT_MAX`, else the sum on natural numbers, which must stay
below `2^TW`: `none` is the refused case. -/
def mkDeadline (w : Widths) (t0 timeout : Time) : Option Deadline :=
  if timeout = w.timeoutMax then some .noDeadline
  else if t0 + timeout < 2 ^ w.tw then some (.atTime (t0 + timeout))
  else none

/-- `expired(dl, t)`: strictly later than the deadline (R10). -/
def expired (dl : Deadline) (t : Time) : Bool :=
  match dl with
  | .noDeadline => false
  | .atTime d => decide (d < t)

/-- Does a wait sample the clock? Only when a deadline exists (R141). -/
def isTimed : Deadline → Bool
  | .noDeadline => false
  | .atTime _ => true

/-- `buffer[i]` is the byte at `ptr + i` (R11, R60). -/
def bufferAddr (ptr : Addr) (i : Nat) : Nat := ptr + i

/-! ## The arm calls (R13) -/

/-- `ARM_START` (R13). -/
def Assign.armStart : Assign := { intClear := some true, ackEnable := none, start := some true, stop := some false }
/-- `ARM_STOPSTART` (R13). -/
def Assign.armStopStart : Assign := { intClear := some true, ackEnable := none, start := some true, stop := some true }
/-- `ARM_STOP` (R13). -/
def Assign.armStop : Assign := { intClear := some true, ackEnable := none, start := some false, stop := some true }
/-- `ARM_GO` (R13). -/
def Assign.armGo : Assign := { intClear := some true, ackEnable := none, start := some false, stop := some false }
/-- `ARM_RX(a)` (R13). -/
def Assign.armRx (a : Bool) : Assign :=
  { intClear := some true, ackEnable := some a, start := some false, stop := some false }
/-- `ARM_SLAVE_ACK` (R13). -/
def Assign.armSlaveAck : Assign := { intClear := some true, ackEnable := some true, start := none, stop := none }
/-- `ARM_SLAVE_NACK` (R13). -/
def Assign.armSlaveNack : Assign := { intClear := some true, ackEnable := some false, start := none, stop := none }

/-- The control register after an arm call: a mentioned flag is written, everything else is preserved (R65, R303). -/
def Ctrl.apply (a : Assign) (c : Ctrl) : Ctrl :=
  { c with
    intClear := a.intClear.getD c.intClear
    ackEnable := a.ackEnable.getD c.ackEnable
    start := a.start.getD c.start
    stop := a.stop.getD c.stop }

/-- A bit of a register with a value at a position. -/
def bitAt (position : Nat) (b : Bool) : Nat := if b then 1 <<< position else 0

/-- The four flags of the control register at their `CTRL_BITS` positions (R7, U3), every other bit 0: how a peripheral lays
them out. No rule of the block uses it (log 30). -/
def Ctrl.flagWord (bits : CtrlBits) (c : Ctrl) : Nat :=
  bitAt bits.intClear c.intClear ||| bitAt bits.ackEnable c.ackEnable ||| bitAt bits.start c.start ||| bitAt bits.stop c.stop

/-! ## Step lists (R145, R181 to R186) -/

/-- The final stop of a composite: absent from the list when the flag is 0 (R186). -/
def finalStop (stop : Bool) : List Prim := if stop then [.stop] else []

/-- `steps(op)` (R181 to R186); a primitive issued on its own is a list of one step (R30, R145). -/
def steps (op : MasterOp) (c : Ctx) : List Prim :=
  match op with
  | .sigStart => [.wait .start]
  | .sigStopStart => [.wait .stopStart]
  | .sigStop => [.stop]
  | .addrW => [.wait .addrW]
  | .addrR => [.wait .addrR]
  | .sendB => [.wait .sendData]
  | .sendBuf => [.wait .sendBuf]
  | .recvB => [.wait .recvB]
  | .recvBuf => [.wait .recvBuf]
  | .clrEvent => [.clear]
  | .mSendB => [.wait .start, .wait .addrW, .wait .sendData] ++ finalStop c.stop
  | .mSendBuf => [.wait .start, .wait .addrW, .wait .sendBuf] ++ finalStop c.stop
  | .mRecvB => [.wait .start, .wait .addrR, .wait .recvB] ++ finalStop c.stop
  | .mRecvBuf => [.wait .start, .wait .addrR, .wait .recvBuf] ++ finalStop c.stop
  | .mRecvReg =>
    [.wait .start, .wait .addrW, .wait .sendReg, .wait (if c.rs then .start else .stopStart), .wait .addrR,
      .wait .recvBuf] ++ finalStop c.stop

/-- The composites are run by the policy layer (R180, R186). -/
def MasterOp.isComposite : MasterOp → Bool
  | .mSendB | .mSendBuf | .mRecvB | .mRecvBuf | .mRecvReg => true
  | .sigStart | .sigStopStart | .sigStop | .addrW | .addrR | .sendB | .sendBuf | .recvB | .recvBuf | .clrEvent => false

/-- The commands that return the received byte in `RSP[15:8]` on `Success` (R99). -/
def MasterOp.returnsByte : MasterOp → Bool
  | .recvB | .mRecvB => true
  | .sigStart | .sigStopStart | .sigStop | .addrW | .addrR | .sendB | .sendBuf | .recvBuf | .clrEvent
  | .mSendB | .mSendBuf | .mRecvBuf | .mRecvReg => false

/-- The master context a primitive is decoded in (R150 to R160). -/
def WaitPrim.ctx : WaitPrim → MasterCtx
  | .start => .start
  | .stopStart => .start
  | .addrW => .addrW
  | .addrR => .addrR
  | .sendData => .send
  | .sendReg => .send
  | .sendBuf => .send
  | .recvB => .recv
  | .recvBuf => .recv

/-- The master command at issue: step 0, index 0 (R31); a composite begins with its entry sample (R180). -/
def Run.issue (op : MasterOp) (c : Ctx) : Run :=
  { op := op, step := 0, idx := 0, ctx := c, phase := if op.isComposite then .enter else .begin, got := none }

/-- The operands of a context fit a machine of given widths (R20, R36, R95). -/
def Ctx.fits (w : Widths) (c : Ctx) : Bool := bufferFits w c.ptr c.len && c.dl.fits w

/-- The current step's list entry (R186). -/
def Run.prim? (r : Run) : Option Prim := (steps r.op r.ctx)[r.step]?

/-- Back to step 0 with the same operands (R31, R188). -/
def Run.restart (r : Run) : Run := { r with step := 0, idx := 0, phase := .begin }

/-- A step of a composite has returned `Success`: the next step, index 0 (R31). -/
def Run.nextStep (r : Run) : Run := { r with step := r.step + 1, idx := 0, phase := .begin }

/-- A byte has returned `Success`: the next index (R31). -/
def Run.nextByte (r : Run) : Run := { r with idx := r.idx + 1, phase := .begin }

/-- `RECV_B` has read its byte (R157, R159). -/
def Run.gotByte (r : Run) (b : Byte) : Run := { r with got := some b }

/-- The next atomic action of the current step. -/
def Run.goto (r : Run) (p : Phase) : Run := { r with phase := p }

end Sys2Proof.Machine
end

