-- ==== Sys2Proof/Machine/Ops.lean ====
section
/-! DEFINITION. The shared operations: buffer memory (20_memory.md R60), the six calls of the collaborator interface
(R62 to R68), the response (R99), entering and leaving the hardware-event flow (60_exceptions.md R266, R267). -/

namespace Sys2Proof.Machine

/-! ## Sequencing of results -/

/-- Run the next action on the value of the last; a fault or a refusal ends it. -/
def andThen {α β : Type} (o : Host.Outcome α Fault Refusal) (f : α → Host.Outcome β Fault Refusal) :
    Host.Outcome β Fault Refusal :=
  match o with
  | .next a => f a
  | .fault r => .fault r
  | .refused r => .refused r

/-! ## Buffer memory (R60) -/

/-- What a byte that nothing has written reads as. The spec gives no reset contents: DESIGN CHOICE 0 (log 16). -/
def Memory.unlisted : Byte := 0#8

/-- The canonical form of a memory of `size` bytes: addresses strictly rising, below `size`, and no entry equal to what an
unlisted address reads as; every address of the list is at least `lo`. -/
def Memory.wfFrom (size lo : Nat) : Memory → Bool
  | [] => true
  | (a, b) :: rest =>
    decide (lo ≤ a) && decide (a < size) && decide (b ≠ Memory.unlisted) && Memory.wfFrom size (a + 1) rest

/-- The canonical form of buffer memory. -/
def Memory.wf (size : Nat) (m : Memory) : Bool := Memory.wfFrom size 0 m

/-- The byte at an address (R60). -/
def Memory.read (m : Memory) (addr : Nat) : Byte :=
  match m with
  | [] => Memory.unlisted
  | (a, b) :: rest => if a = addr then b else Memory.read rest addr

/-- An entry in front of a memory, unless it says what an unlisted address reads as. -/
def Memory.put (addr : Nat) (v : Byte) (m : Memory) : Memory := if v = Memory.unlisted then m else (addr, v) :: m

/-- Store one byte, keeping the canonical form (R60). -/
def Memory.write (m : Memory) (addr : Nat) (v : Byte) : Memory :=
  match m with
  | [] => Memory.put addr v []
  | (a, b) :: rest =>
    if addr < a then Memory.put addr v ((a, b) :: rest)
    else if addr = a then Memory.put addr v rest
    else (a, b) :: Memory.write rest addr v

/-! ## The record -/

/-- Record one atomic action (R68). -/
def State.record (a : Atom) (s : State) : State := { s with trace := s.trace ++ [a] }

/-! ## The collaborator's inputs and outputs (R62 to R68) -/

/-- The widths of the machine (R7). -/
def State.widths (s : State) : Widths := s.params.widths

/-- The size of buffer memory: `2^AW` bytes (R60). -/
def State.memSize (s : State) : Nat := 2 ^ s.widths.aw

/-- The next answer of an input and the answers after it (log 2). -/
def Answers.take {α : Type} (a : Answers α) : α × Answers α :=
  match a.queue with
  | [] => (a.after, { a with queue := a.loop })
  | x :: xs => (x, { a with queue := xs })

/-- `HW.armControl(assign)` (R65): mentioned flags are written, the rest is preserved; `INT_CLEAR := 1` clears the
event-complete signal (R64). -/
def armControl (a : Assign) (s : State) : State :=
  State.record (.arm a)
    { s with hw := { s.hw with
        ctrl := s.hw.ctrl.apply a
        event := if a.intClear = some true then false else s.hw.event } }

/-- `HW.writeData(b)` (R66). -/
def writeData (b : Byte) (s : State) : State :=
  State.record (.writeData b) { s with hw := { s.hw with dataReg := b } }

/-- What the next `eventComplete` sample answers: the signal is still set, or the hardware sets it now (R64, log 3). -/
def Collaborator.eventNow (h : Collaborator) : Bool := h.event || h.raises.take.1

/-- `HW.eventComplete()` (R64). -/
def eventComplete (s : State) : Bool × State :=
  (s.hw.eventNow,
    State.record (.eventComplete s.hw.eventNow)
      { s with hw := { s.hw with event := s.hw.eventNow, raises := s.hw.raises.take.2 } })

/-- What the next `readStatus` answers: a raw code of `RCW` bits (R63). -/
def State.nextCode (s : State) : RawCode := s.hw.codes.take.1 % 2 ^ s.widths.rcw

/-- What the next `now` answers: a timestamp of `TW` bits (R67). -/
def State.nextTime (s : State) : Time := s.hw.clock.take.1 % 2 ^ s.widths.tw

/-- `HW.readStatus()` (R63). -/
def readStatus (s : State) : RawCode × State :=
  (s.nextCode, State.record (.readStatus s.nextCode) { s with hw := { s.hw with codes := s.hw.codes.take.2 } })

/-- `HW.readData()` (R66). -/
def readData (s : State) : Byte × State :=
  (s.hw.received.take.1,
    State.record (.readData s.hw.received.take.1) { s with hw := { s.hw with received := s.hw.received.take.2 } })

/-- `HW.now()` (R67): an answer smaller than an earlier one is refused (U8). -/
def now (s : State) : Host.Outcome (Time × State) Fault Refusal :=
  if s.nextTime < s.hw.lastNow then .refused .clockWentBack
  else
    .next (s.nextTime,
      State.record (.now s.nextTime) { s with hw := { s.hw with clock := s.hw.clock.take.2, lastNow := s.nextTime } })

/-- `MemRead(addr, 1)` (R11, R60). -/
def memRead (addr : Nat) (s : State) : Host.Outcome (Byte × State) Fault Refusal :=
  if addr < s.memSize then .next (s.mem.read addr, State.record (.memRead addr (s.mem.read addr)) s)
  else .fault (.noSuchByte addr)

/-- `MemWrite(addr, 1, v)` (R11, R60). -/
def memWrite (addr : Nat) (v : Byte) (s : State) : Result :=
  if addr < s.memSize then .next (State.record (.memWrite addr v) { s with mem := s.mem.write addr v })
  else .fault (.noSuchByte addr)

/-- The class of a raw code under the machine's `RAWCODE_TABLE` (R121). -/
def State.classify (s : State) (raw : RawCode) : Cond := Machine.classify s.params.rawTable raw

/-! ## The response (R99) -/

/-- The response word of the flow in execution is written, the other flow's is kept (R20, R266). -/
def State.setResponse (r : Response) (s : State) : State :=
  { s with
    rspCaller := if s.flow = .caller then r else s.rspCaller
    rspEvent := if s.flow = .event then r else s.rspEvent }

/-- The response word of a flow. -/
def State.response (s : State) (f : Flow) : Response :=
  match f with
  | .caller => s.rspCaller
  | .event => s.rspEvent

/-- Return a result code; `RSP[15:8]` is unspecified (R99): a free value. -/
def respond (code : Byte) (s : State) : State :=
  State.setResponse { code := code, high := Config.freeRspHigh s.freeCount, returned := true }
    { s with freeCount := s.freeCount + 1 }

/-- Return `Success` with a received byte in `RSP[15:8]` (R99, R159, R183). -/
def respondByte (b : Byte) (s : State) : State :=
  State.setResponse { code := Status.success.code, high := b, returned := true } s

/-- An illegal packet: no state changes, no call is made, and `RSP = 0x00FF` (R96). -/
def respondIllegal (s : State) : State :=
  State.setResponse { code := 0xFF#8, high := 0x00#8, returned := true } s

/-! ## The descriptors -/

/-- `RX.cursor <- n`. -/
def State.setRxCursor (n : Nat) (s : State) : State := { s with rx := { s.rx with cursor := n } }

/-- `TX.cursor <- n`. -/
def State.setTxCursor (n : Nat) (s : State) : State := { s with tx := { s.tx with cursor := n } }

/-! ## Who issues what (R112) -/

/-- A command that one flow only may issue. -/
def onlyFlow (f : Flow) (s : State) (k : Result) : Result := if s.flow = f then k else .refused .wrongFlow

/-! ## The hardware event (R264 to R267): this block's one interrupt -/

/-- Entry of the hardware-event flow (R266): it saves nothing and changes nothing in the block; the event that invokes it
is the one that `eventComplete` reports, so the signal is set (R264, log 3). -/
def enterEventFlow (s : State) : State := { s with flow := .event, hw := { s.hw with event := true } }

/-- Return to the caller flow (R267): nothing is restored, the interrupted command resumes where it was (R266). -/
def leaveEventFlow (s : State) : State := { s with flow := .caller }

end Sys2Proof.Machine
end

