-- ==== Sys2Proof/Machine/Configuration.lean ====
section
/-! DEFINITION. The configuration commands (45_configuration.md R250, R251): issued by the caller flow only (R112). -/

namespace Sys2Proof.Machine

/-- `SET_TIMEOUT time` (R250). A timeout that does not fit its `TW` bits is in no packet (log 14). -/
def execSetTimeout (time : Time) (s : State) : Result :=
  onlyFlow .caller s <|
    if timeFits s.widths time then .next (respond 0#8 { s with cfgTimeout := time }) else .next (respondIllegal s)

/-- `SET_BLB blb` (R251). -/
def execSetBlb (blb : BusLostBehaviour) (s : State) : Result :=
  onlyFlow .caller s (.next (respond 0#8 { s with cfgBlb := blb }))

end Sys2Proof.Machine
end

