-- ==== Sys2Proof/Machine/SlaveReceiver.lean ====
section
/-! DEFINITION. The slave receiver (43_slave_receiver.md): the event step and the descriptor commands. Each is one atomic
command (20_memory.md R72). -/

namespace Sys2Proof.Machine

/-- The addressed-as-receiver step (R211). -/
def rxAddressed (s : State) : State :=
  if s.rx.pending then armControl .armSlaveAck (s.setRxCursor 0) else armControl .armSlaveNack s

/-- The arm call after a byte was stored: ACK while the buffer has room, NACK after its last byte (R212). -/
def rxArmNext (s : State) : State :=
  if s.rx.pending then armControl .armSlaveAck s else armControl .armSlaveNack s

/-- The data-accepted step (R212), guarded by `cursor < len` (C5). -/
def rxDataAccepted (s : State) : Result :=
  if s.rx.pending then
    andThen (memWrite (bufferAddr s.rx.ptr s.rx.cursor) (readData s).1 (readData s).2) fun s' =>
      .next (rxArmNext (s'.setRxCursor (s'.rx.cursor + 1)))
  else .next (armControl .armSlaveNack s)

/-- What the receiver does on an event class (R210 to R213): every class it has no rule for is ignored. -/
def rxReact (ev : BasicSlaveStatus) (s : State) : Result :=
  match ev with
  | .addressedAsReceiver => .next (rxAddressed s)
  | .dataAccepted => rxDataAccepted s
  | .noStatus | .error | .signalReceived | .dataDeclined | .addressedAsTransmitter | .nextDataAccepted
  | .nextDataDeclined | .moreDataRequest | .unknown => .next s

/-- One invocation of the receiver for one hardware event (R210). -/
def rxEventStep (s : State) : Result :=
  andThen (rxReact (basicSlave (s.classify (readStatus s).1)) (readStatus s).2) fun s' => .next (respond 0#8 s')

/-- `RX_EVENT` (R210): issued by the hardware-event flow only (R112). -/
def execRxEvent (s : State) : Result := onlyFlow .event s (rxEventStep s)

/-- `RX_NEXT` (R214): either flow may issue it (R112). -/
def execRxNext (s : State) : Result := .next (respond 0#8 (s.setRxCursor 0))

/-- `RX_BIND ptr, len` (R215): either flow may issue it (R112). A buffer that does not fit is illegal (R36, R95,
R96, log 14). -/
def execRxBind (ptr : Addr) (len : Len) (s : State) : Result :=
  if bufferFits s.widths ptr len then .next (respond 0#8 { s with rx := { ptr := ptr, len := len, cursor := 0 } })
  else .next (respondIllegal s)

/-- `RX_AVAIL` (R216): issued by the caller flow only (R112). -/
def execRxAvail (s : State) : Result := onlyFlow .caller s (.next (respond (boolCode s.rx.complete) s))

end Sys2Proof.Machine
end

