-- ==== Sys2Proof/Machine/SlaveTransmitter.lean ====
section
/-! DEFINITION. The slave transmitter (44_slave_transmitter.md): the event step and the descriptor commands. Each is one
atomic command (20_memory.md R72). -/

namespace Sys2Proof.Machine

/-- The byte-emission step (R232): data output, arm, increment, in this order. -/
def txEmit (s : State) : Result :=
  if s.tx.pending then
    andThen (memRead (bufferAddr s.tx.ptr s.tx.cursor) s) fun p =>
      .next ((armControl .armSlaveAck (writeData p.1 p.2)).setTxCursor (s.tx.cursor + 1))
  else .next (armControl .armSlaveNack s)

/-- The addressed-as-transmitter step (R231), which continues with R232. -/
def txAddressed (s : State) : Result :=
  txEmit (if s.tx.pending then s.setTxCursor 0 else s)

/-- What the transmitter does on an event class (R230 to R233): every class it has no rule for is ignored. -/
def txReact (ev : BasicSlaveStatus) (s : State) : Result :=
  match ev with
  | .addressedAsTransmitter => txAddressed s
  | .nextDataAccepted => txEmit s
  | .noStatus | .error | .signalReceived | .addressedAsReceiver | .dataAccepted | .dataDeclined
  | .nextDataDeclined | .moreDataRequest | .unknown => .next s

/-- One invocation of the transmitter for one hardware event (R230). -/
def txEventStep (s : State) : Result :=
  andThen (txReact (basicSlave (s.classify (readStatus s).1)) (readStatus s).2) fun s' => .next (respond 0#8 s')

/-- `TX_EVENT` (R230): issued by the hardware-event flow only (R112). -/
def execTxEvent (s : State) : Result := onlyFlow .event s (txEventStep s)

/-- `TX_BIND ptr, len` (R234): either flow may issue it (R112). A buffer that does not fit is illegal (R36, R95,
R96, log 14). -/
def execTxBind (ptr : Addr) (len : Len) (s : State) : Result :=
  if bufferFits s.widths ptr len then .next (respond 0#8 { s with tx := { ptr := ptr, len := len, cursor := 0 } })
  else .next (respondIllegal s)

/-- `TX_AGAIN` (R235): either flow may issue it (R112). -/
def execTxAgain (s : State) : Result := .next (respond 0#8 (s.setTxCursor 0))

/-- `TX_DONE` (R236): issued by the caller flow only (R112). -/
def execTxDone (s : State) : Result := onlyFlow .caller s (.next (respond (boolCode s.tx.complete) s))

end Sys2Proof.Machine
end

