-- ==== Sys2Proof/Machine/EventFlow.lean ====
section
/-! DEFINITION. The hardware-event flow (60_exceptions.md R264 to R267): one run of it for one hardware event, the command
packets and the response reads of its own (30_encoding.md R112), and the boundary of the caller flow where it preempts. -/

namespace Sys2Proof.Machine

/-! ## One hardware event -/

/-- One event step of `EVENT_DISPATCH` (R265). -/
def eventStep (e : EventStep) (s : State) : Result :=
  match e with
  | .rx => rxEventStep s
  | .tx => txEventStep s

/-- The list `EVENT_DISPATCH` stands for (R7, R265). -/
def EventDispatch.steps : EventDispatch → List EventStep
  | .nothing => []
  | .rxOnly => [.rx]
  | .txOnly => [.tx]
  | .rxThenTx => [.rx, .tx]
  | .txThenRx => [.tx, .rx]

/-- Event steps in order, each once (R265). -/
def runDispatch (es : List EventStep) (s : State) : Result :=
  match es with
  | [] => .next s
  | e :: rest => andThen (eventStep e s) (runDispatch rest)

/-- The hardware-event flow for one hardware event (R265 to R267). -/
def runEventFlow (s : State) : Result :=
  andThen (runDispatch s.params.dispatch.steps (enterEventFlow s)) fun s' => .next (leaveEventFlow s')

/-! ## Packets and response reads -/

/-- Serve a command packet of a flow (R90), `run` giving the commands their meaning: a legal one runs, an illegal one changes
nothing and answers 0x00FF (R96), one that ends before its last word is refused (log 13). Bits beyond the packet's last
word are dropped: the spec does not describe such a packet (DESIGN CHOICE, log 13). After it the caller flow goes on
(R267, R271). -/
def servePacket (run : Instr → State → Result) (flow : Flow) (packet : Packet) (s : State) : Result :=
  match decode s.widths packet with
  | .ok (i, _) => andThen (run i { s with flow := flow }) fun s' => .next (leaveEventFlow s')
  | .error .truncated => .refused .packetTruncated
  | .error .unassignedOpcode => .next (leaveEventFlow (respondIllegal { s with flow := flow }))
  | .error .reservedBit => .next (leaveEventFlow (respondIllegal { s with flow := flow }))
  | .error .unusedField => .next (leaveEventFlow (respondIllegal { s with flow := flow }))
  | .error .badContext => .next (leaveEventFlow (respondIllegal { s with flow := flow }))
  | .error .badPolicy => .next (leaveEventFlow (respondIllegal { s with flow := flow }))
  | .error .bufferPastTop => .next (leaveEventFlow (respondIllegal { s with flow := flow }))

/-- What a command does when the hardware-event flow issues it (R112): the two event steps and the four re-arming commands
run, no other command may be issued there. The spec has `RX_EVENT` and `TX_EVENT` once each per hardware event and says
nothing of another issue: here each packet runs its step, any number of times (DESIGN CHOICE, log 29). -/
def eventCommand (i : Instr) (s : State) : Result :=
  match i with
  | .rxEvent => execRxEvent s
  | .txEvent => execTxEvent s
  | .rxNext => execRxNext s
  | .rxBind ptr len => execRxBind ptr len s
  | .txBind ptr len => execTxBind ptr len s
  | .txAgain => execTxAgain s
  | .stMaster _ | .stBasic | .stDetail | .sigStart _ | .sigStopStart _ | .sigStop | .addrW _ _ | .addrR _ _ | .sendB _ _
  | .sendBuf _ _ _ | .recvB _ | .recvBuf _ _ _ | .clrEvent | .mSendB _ _ _ | .mSendBuf _ _ _ _ | .mRecvB _ _
  | .mRecvBuf _ _ _ _ | .mRecvReg _ _ _ _ _ _ | .rxAvail | .txDone | .setTimeout _ | .setBlb _ => .refused .wrongFlow

/-- A flow reads its response word: refused before the first command of that flow has completed (R50, U8). -/
def readResponse (flow : Flow) (s : State) : Host.Outcome (BitVec 16 × State) Fault Refusal :=
  if (s.response flow).returned then .next ((s.response flow).word, s) else .refused .responseNotReady

/-! ## The boundary -/

/-- One thing the hardware-event flow does at a boundary, a unit that nothing preempts (R72, R265, R267). -/
def servePreemption (p : Preemption) (s : State) : Result :=
  match p with
  | .hwEvent => runEventFlow s
  | .command packet => servePacket eventCommand .event packet s
  | .readResponse => andThen (readResponse .event s) fun q => .next q.2

/-- What the hardware-event flow does at one boundary, in order (R266, R269). -/
def servePreemptions (ps : List Preemption) (s : State) : Result :=
  match ps with
  | [] => .next s
  | p :: rest => andThen (servePreemption p s) (servePreemptions rest)

/-- The boundary before an atomic action of the caller flow (R266): the environment's schedule says what the hardware-event
flow does here (log 4). -/
def atBoundary (s : State) : Result :=
  servePreemptions s.hw.interrupts.take.1 { s with hw := { s.hw with interrupts := s.hw.interrupts.take.2 } }

end Sys2Proof.Machine
end

