-- ==== Sys2Proof/Machine/Engine.lean ====
section
/-! DEFINITION. The master transaction engine and the policy layer's driver (41_master_engine.md R140 to R145, R157;
42_master_policy.md R180, R186 to R189), one atomic action at a time (00_scope.md R8). An internal update of `SEQ` or
`CTX` is made together with the call before it (log 1). -/

namespace Sys2Proof.Machine

/-- The sequencer holds a running command. -/
def State.setRun (r : Run) (s : State) : State := { s with seq := .run r }

/-- The sequencer is idle; the context has no value (R21, R31). -/
def State.setIdle (s : State) : State := { s with seq := .idle }

/-! ## How a command ends (R31, R99, R186, R189) -/

/-- The command completes with a status: the response is returned and `SEQ <- Idle`. -/
def finish (st : Status) (r : Run) (s : State) : State :=
  match st, r.op.returnsByte, r.got with
  | .success, true, some b => respondByte b s.setIdle
  | _, _, _ => respond st.code s.setIdle

/-- A primitive has returned a status other than `Success` (R186, label `failed`): a composite applies the policy on
`BusLost`; everything else propagates (R189), as does every status of a primitive issued on its own (R140). -/
def primFailed (st : Status) (r : Run) (s : State) : State :=
  if r.op.isComposite ∧ st = .busLost then
    match s.cfgBlb with
    | .abort => s.setRun (r.goto .abort)
    | .retryWithinTimeout => s.setRun r.restart
    | .retryExtendingTimeout => s.setRun (r.goto .extend)
  else finish st r s

/-- A step of the list has returned `Success`. Inside a composite the next step follows (R31, R186); a primitive issued on its
own has completed, its step is 0 throughout (R30, R145). -/
def stepSucceeded (r : Run) (s : State) : State :=
  if r.op.isComposite then s.setRun r.nextStep else finish .success r s

/-! ## The actions of a primitive -/

/-- The first action of a waiting primitive: the arm call, or the data-register write before it, or the buffer read before
that (R150 to R160). A buffer form whose index has reached the length returns `Success` (R156, R160). -/
def beginWait (w : WaitPrim) (r : Run) (s : State) : Result :=
  match w with
  | .start => .next ((armControl .armStart s).setRun (r.goto (.poll .start)))
  | .stopStart => .next ((armControl .armStopStart s).setRun (r.goto (.poll .stopStart)))
  | .addrW => .next ((writeData (addrByte r.ctx.addr false) s).setRun (r.goto (.arm .addrW)))
  | .addrR => .next ((writeData (addrByte r.ctx.addr true) s).setRun (r.goto (.arm .addrR)))
  | .sendData => .next ((writeData r.ctx.data s).setRun (r.goto (.arm .sendData)))
  | .sendReg => .next ((writeData r.ctx.reg s).setRun (r.goto (.arm .sendReg)))
  | .sendBuf =>
    if r.idx < r.ctx.len then
      andThen (memRead (bufferAddr r.ctx.ptr r.idx) s) fun p => .next (p.2.setRun (r.goto (.put p.1)))
    else .next (stepSucceeded r s)
  | .recvB => .next ((armControl (.armRx false) s).setRun (r.goto (.poll .recvB)))
  | .recvBuf =>
    if r.idx < r.ctx.len then
      .next ((armControl (.armRx (decide (r.idx + 1 < r.ctx.len))) s).setRun (r.goto (.poll .recvBuf)))
    else .next (stepSucceeded r s)

/-- The first action of the current step; past the end of its list a composite has succeeded (R186). -/
def beginStep (r : Run) (s : State) : Result :=
  match r.prim? with
  | none => .next (finish .success r s)
  | some (.wait w) => beginWait w r s
  | some .stop => .next (stepSucceeded r (armControl .armStop s))
  | some .clear => .next (stepSucceeded r (armControl .armGo s))

/-- One `eventComplete` sample of the wait (R141): complete, or the clock next when a deadline exists, or poll again. -/
def pollEvent (w : WaitPrim) (r : Run) (s : State) : State :=
  if (eventComplete s).1 then (eventComplete s).2.setRun (r.goto (.decode w))
  else if isTimed r.ctx.dl then (eventComplete s).2.setRun (r.goto (.clock w))
  else (eventComplete s).2.setRun (r.goto (.poll w))

/-- One `now` sample of the wait (R141): `Timeout` when it is later than the deadline, without any further call. -/
def pollClock (w : WaitPrim) (r : Run) (s : State) : Result :=
  andThen (now s) fun p =>
    if expired r.ctx.dl p.1 then .next (primFailed .timeout r p.2) else .next (p.2.setRun (r.goto (.poll w)))

/-- A waiting primitive has decoded `Success`: a receive reads the data register next, a buffer send goes on with the next
byte, every other primitive has returned (R150 to R160). -/
def waitSucceeded (w : WaitPrim) (r : Run) (s : State) : State :=
  match w with
  | .start | .stopStart | .addrW | .addrR | .sendData | .sendReg => stepSucceeded r s
  | .sendBuf => s.setRun r.nextByte
  | .recvB => s.setRun (r.goto .takeByte)
  | .recvBuf => s.setRun (r.goto .takeBuf)

/-- What a decoded status leads to (R142, R143): a NACK makes the implicit stop next; every other failure returns. -/
def afterDecode (st : Status) (w : WaitPrim) (r : Run) (s : State) : State :=
  match st with
  | .success => waitSucceeded w r s
  | .addressNACK => s.setRun (r.goto (.nackStop .addressNACK))
  | .dataNACK => s.setRun (r.goto (.nackStop .dataNACK))
  | .busLost => primFailed .busLost r s
  | .addressedAsSlave => primFailed .addressedAsSlave r s
  | .timeout => primFailed .timeout r s
  | .error => primFailed .error r s
  | .unknown => primFailed .unknown r s

/-- `decodeNow(ctx)` (R142). -/
def decodeNow (w : WaitPrim) (r : Run) (s : State) : State :=
  afterDecode (masterStatus w.ctx (s.classify (readStatus s).1)) w r (readStatus s).2

/-- The deadline of a composite from a fresh `now` sample (R180, R188); a sum that reaches `2^TW` is refused (R10). -/
def sampleDeadline (s : State) (k : Deadline → State → State) : Result :=
  andThen (now s) fun p =>
    match mkDeadline s.widths p.1 s.cfgTimeout with
    | some dl => .next (k dl p.2)
    | none => .refused .deadlineOverflow

/-- The context with a new deadline (R180, R188). -/
def Run.withDeadline (dl : Deadline) (r : Run) : Run := { r with ctx := { r.ctx with dl := dl } }

/-- One atomic action of a running master command (R8). -/
def action (r : Run) (s : State) : Result :=
  match r.phase with
  | .enter => sampleDeadline s fun dl s' => s'.setRun ((r.withDeadline dl).goto .begin)
  | .begin => beginStep r s
  | .put b => .next ((writeData b s).setRun (r.goto (.arm .sendBuf)))
  | .arm w => .next ((armControl .armGo s).setRun (r.goto (.poll w)))
  | .poll w => .next (pollEvent w r s)
  | .clock w => pollClock w r s
  | .decode w => .next (decodeNow w r s)
  | .nackStop st => .next (primFailed st r (armControl .armStop s))
  | .takeByte => .next (stepSucceeded (r.gotByte (readData s).1) (readData s).2)
  | .takeBuf => .next ((readData s).2.setRun (r.goto (.store (readData s).1)))
  | .store b => andThen (memWrite (bufferAddr r.ctx.ptr r.idx) b s) fun s' => .next (s'.setRun r.nextByte)
  | .abort => .next (finish .busLost r (armControl .armGo s))
  | .extend => sampleDeadline s fun dl s' => s'.setRun (r.withDeadline dl).restart

/-! ## Runs of actions -/

/-- One atomic action of the caller flow with the boundary before it (R266). The event flow cannot end or change the
running command (R305). -/
def boundaryAction (r : Run) (s : State) : Result := andThen (atBoundary s) (action r)

/-- At most `n` atomic actions of the running master command; it stops early when the command completes. What is left of a
command goes on at the next step (log 1). -/
def advance : Nat → State → Result
  | 0, s => .next s
  | n + 1, s =>
    match s.seq with
    | .idle => .next s
    | .run r => andThen (boundaryAction r s) (advance n)

/-- How many atomic actions one step groups: more than the environment's queued answers can use up where no input answers in
a loop (log 1). -/
def actionBudget (len : Nat) (s : State) : Nat :=
  8 * (s.hw.raises.queue.length + s.hw.codes.queue.length + s.hw.clock.queue.length + len + 16)

/-- Issue a master command (R31, R145, R186): by the caller flow only (R112), while `SEQ` is idle (R304). It runs until it
completes, or to the end of the step's group of actions. Operands that do not fit are illegal (R36, R95, R96, log 14). -/
def issueMaster (op : MasterOp) (c : Ctx) (s : State) : Result :=
  onlyFlow .caller s <|
    if c.fits s.widths then
      match s.seq with
      | .idle => advance (actionBudget c.len s) (s.setRun (.issue op c))
      | .run _ => .refused .masterBusy
    else .next (respondIllegal s)

/-- Go on with a running master command (log 1). -/
def resume (r : Run) (s : State) : Result := advance (actionBudget r.ctx.len s) s

end Sys2Proof.Machine
end

