-- ==== Sys2Proof/Machine/MasterEngine.lean ====
section
/-! DEFINITION. The engine primitives issued on their own (41_master_engine.md R150 to R161). Their actions are those of
Engine.lean; the step list of each is one primitive (R145). -/

namespace Sys2Proof.Machine

/-- `SIG_START dl` (R150). -/
def execSigStart (dl : Deadline) (s : State) : Result := issueMaster .sigStart { dl := dl } s

/-- `SIG_STOPSTART dl` (R151). -/
def execSigStopStart (dl : Deadline) (s : State) : Result := issueMaster .sigStopStart { dl := dl } s

/-- `SIG_STOP` (R152). -/
def execSigStop (s : State) : Result := issueMaster .sigStop {} s

/-- `ADDR_W addr, dl` (R153). -/
def execAddrW (addr : BitVec 7) (dl : Deadline) (s : State) : Result := issueMaster .addrW { addr := addr, dl := dl } s

/-- `ADDR_R addr, dl` (R154). -/
def execAddrR (addr : BitVec 7) (dl : Deadline) (s : State) : Result := issueMaster .addrR { addr := addr, dl := dl } s

/-- `SEND_B data, dl` (R155). -/
def execSendB (data : Byte) (dl : Deadline) (s : State) : Result := issueMaster .sendB { data := data, dl := dl } s

/-- `SEND_BUF ptr, len, dl` (R156). -/
def execSendBuf (ptr : Addr) (len : Len) (dl : Deadline) (s : State) : Result :=
  issueMaster .sendBuf { ptr := ptr, len := len, dl := dl } s

/-- `RECV_B dl` (R159). -/
def execRecvB (dl : Deadline) (s : State) : Result := issueMaster .recvB { dl := dl } s

/-- `RECV_BUF ptr, len, dl` (R160). -/
def execRecvBuf (ptr : Addr) (len : Len) (dl : Deadline) (s : State) : Result :=
  issueMaster .recvBuf { ptr := ptr, len := len, dl := dl } s

/-- `CLR_EVENT` (R161). -/
def execClrEvent (s : State) : Result := issueMaster .clrEvent {} s

end Sys2Proof.Machine
end

