-- ==== Sys2Proof/Machine/MasterPolicy.lean ====
section
/-! DEFINITION. The composite commands (42_master_policy.md R181 to R185): a step list each (`steps`), run by the driver
of Engine.lean (R180, R186 to R189). -/

namespace Sys2Proof.Machine

/-- `M_SEND_B addr, data, stop` (R181). -/
def execMSendB (addr : BitVec 7) (data : Byte) (stop : Bool) (s : State) : Result :=
  issueMaster .mSendB { addr := addr, data := data, stop := stop } s

/-- `M_SEND_BUF addr, ptr, len, stop` (R182). -/
def execMSendBuf (addr : BitVec 7) (ptr : Addr) (len : Len) (stop : Bool) (s : State) : Result :=
  issueMaster .mSendBuf { addr := addr, ptr := ptr, len := len, stop := stop } s

/-- `M_RECV_B addr, stop` (R183). -/
def execMRecvB (addr : BitVec 7) (stop : Bool) (s : State) : Result :=
  issueMaster .mRecvB { addr := addr, stop := stop } s

/-- `M_RECV_BUF addr, ptr, len, stop` (R184). -/
def execMRecvBuf (addr : BitVec 7) (ptr : Addr) (len : Len) (stop : Bool) (s : State) : Result :=
  issueMaster .mRecvBuf { addr := addr, ptr := ptr, len := len, stop := stop } s

/-- `M_RECV_REG addr, reg, ptr, len, rs, stop` (R185). -/
def execMRecvReg (addr : BitVec 7) (reg : Byte) (ptr : Addr) (len : Len) (rs stop : Bool) (s : State) : Result :=
  issueMaster .mRecvReg { addr := addr, reg := reg, ptr := ptr, len := len, rs := rs, stop := stop } s

end Sys2Proof.Machine
end

