-- ==== Sys2Proof/Machine/StatusDecoder.lean ====
section
/-! DEFINITION. The decoder queries (40_status_decoder.md R128 to R131): one status read, one response; issued by the
caller flow only (R112). -/

namespace Sys2Proof.Machine

/-- `ST_MASTER ctx` (R128). -/
def execStMaster (ctx : MasterCtx) (s : State) : Result :=
  onlyFlow .caller s (.next (respond (masterStatus ctx (s.classify (readStatus s).1)).code (readStatus s).2))

/-- `ST_BASIC` (R129). -/
def execStBasic (s : State) : Result :=
  onlyFlow .caller s (.next (respond (basicSlave (s.classify (readStatus s).1)).code (readStatus s).2))

/-- `ST_DETAIL` (R130). -/
def execStDetail (s : State) : Result :=
  onlyFlow .caller s (.next (respond (detailedSlave (s.classify (readStatus s).1)).code (readStatus s).2))

end Sys2Proof.Machine
end

