-- ==== Sys2Proof/Machine/Dispatch.lean ====
section
/-! DEFINITION. The meaning of every command: one arm per constructor of `Instr`. -/

namespace Sys2Proof.Machine

def exec (i : Instr) (s : State) : Host.Outcome State Fault Refusal :=
  match i with
  -- decoder queries (R128 to R130)
  | .stMaster ctx => Sys2Proof.Machine.execStMaster ctx s
  | .stBasic => Sys2Proof.Machine.execStBasic s
  | .stDetail => Sys2Proof.Machine.execStDetail s
  -- engine primitives (R150 to R161)
  | .sigStart dl => Sys2Proof.Machine.execSigStart dl s
  | .sigStopStart dl => Sys2Proof.Machine.execSigStopStart dl s
  | .sigStop => Sys2Proof.Machine.execSigStop s
  | .addrW addr dl => Sys2Proof.Machine.execAddrW addr dl s
  | .addrR addr dl => Sys2Proof.Machine.execAddrR addr dl s
  | .sendB data dl => Sys2Proof.Machine.execSendB data dl s
  | .sendBuf ptr len dl => Sys2Proof.Machine.execSendBuf ptr len dl s
  | .recvB dl => Sys2Proof.Machine.execRecvB dl s
  | .recvBuf ptr len dl => Sys2Proof.Machine.execRecvBuf ptr len dl s
  | .clrEvent => Sys2Proof.Machine.execClrEvent s
  -- composites (R181 to R185)
  | .mSendB addr data stop => Sys2Proof.Machine.execMSendB addr data stop s
  | .mSendBuf addr ptr len stop => Sys2Proof.Machine.execMSendBuf addr ptr len stop s
  | .mRecvB addr stop => Sys2Proof.Machine.execMRecvB addr stop s
  | .mRecvBuf addr ptr len stop => Sys2Proof.Machine.execMRecvBuf addr ptr len stop s
  | .mRecvReg addr reg ptr len rs stop => Sys2Proof.Machine.execMRecvReg addr reg ptr len rs stop s
  -- slave receiver and transmitter (R210 to R216, R230 to R236)
  | .rxEvent => Sys2Proof.Machine.execRxEvent s
  | .txEvent => Sys2Proof.Machine.execTxEvent s
  | .rxNext => Sys2Proof.Machine.execRxNext s
  | .rxBind ptr len => Sys2Proof.Machine.execRxBind ptr len s
  | .rxAvail => Sys2Proof.Machine.execRxAvail s
  | .txBind ptr len => Sys2Proof.Machine.execTxBind ptr len s
  | .txAgain => Sys2Proof.Machine.execTxAgain s
  | .txDone => Sys2Proof.Machine.execTxDone s
  -- configuration (R250, R251)
  | .setTimeout time => Sys2Proof.Machine.execSetTimeout time s
  | .setBlb blb => Sys2Proof.Machine.execSetBlb blb s

end Sys2Proof.Machine
end

