-- ==== Sys2Proof/Machine/Issuers.lean ====
section
/-! DEFINITION. Serving what the issuers do (30_encoding.md R90, R112): decoding and running a packet, a hardware event
between commands, the caller's own accesses to buffer memory, reading a response, reset. -/

namespace Sys2Proof.Machine

/-- Does the event flow or the outside do this? Then it goes before the caller flow's running command (R266, R290). -/
def Issue.preempts : Issue → Bool
  | .command .event _ => true
  | .command .caller _ => false
  | .hwEvent => true
  | .callerRead _ => false
  | .callerWrite _ _ => false
  | .readResponse .event => true
  | .readResponse .caller => false
  | .resetEvent => true

/-- A command packet of a flow (R90, R112): `servePacket` with the meaning of every command. A packet with bits beyond its
last word runs and the bits are dropped (DESIGN CHOICE, log 13); an `RX_EVENT` or `TX_EVENT` packet of the event flow
runs without a hardware event, any number of times (DESIGN CHOICE, log 29). -/
def serveCommand (flow : Flow) (packet : Packet) (s : State) : Result := servePacket exec flow packet s

/-- An address inside a descriptor's buffer (R60). -/
def Desc.covers (d : Desc) (addr : Addr) : Bool :=
  decide (d.ptr ≤ addr) && decide (addr < d.ptr + d.len)

/-- The caller reads a byte of buffer memory: it races while the receiver is filling that buffer (R76, U11). An address
outside buffer memory does not exist (R60). -/
def callerRead (addr : Addr) (s : State) : Host.Outcome (Byte × State) Fault Refusal :=
  if addr < s.memSize then
    if s.rx.pending && s.rx.covers addr then .refused .racingAccess else .next (s.mem.read addr, s)
  else .fault (.noSuchByte addr)

/-- The caller writes a byte of buffer memory: it races while the transmitter is draining that buffer (R76, U11). An address
outside buffer memory does not exist (R60). -/
def callerWrite (addr : Addr) (b : Byte) (s : State) : Result :=
  if addr < s.memSize then
    if s.tx.pending && s.tx.covers addr then .refused .racingAccess else .next { s with mem := s.mem.write addr b }
  else .fault (.noSuchByte addr)

/-- Serve one thing an issuer or the outside does. -/
def serve (i : Issue) (s : State) : Result :=
  match i with
  | .command flow packet => serveCommand flow packet s
  | .hwEvent => runEventFlow s
  | .callerRead addr => andThen (callerRead addr s) fun p => .next p.2
  | .callerWrite addr b => callerWrite addr b s
  | .readResponse flow => andThen (readResponse flow s) fun p => .next p.2
  | .resetEvent => .next s.resetBlock

/-- The flow that may issue an opcode byte (R112): the event steps belong to the event flow. -/
def flowOfOpcode (op : Byte) : Flow :=
  match Opcode.ofCode op with
  | some .rxEvent => .event
  | some .txEvent => .event
  | _ => .caller

end Sys2Proof.Machine
end

