-- ==== Sys2Proof/Machine/Step.lean ====
section
/-! DEFINITION. One step of the machine (log 1, log 12): the next thing an issuer does, or the running master command goes
on. -/

namespace Sys2Proof.Machine

/-- What is issued next is served unless it belongs to the caller flow and the caller flow is busy with a master command
(R266, R304); then that command goes on. With nothing issued and nothing running the block waits (R290). -/
def step (s : State) : Host.Outcome State Fault Refusal :=
  match s.issues, s.seq with
  | [], .idle => .next s
  | [], .run r => resume r s
  | i :: rest, .idle => serve i { s with issues := rest }
  | i :: rest, .run r => if i.preempts then serve i { s with issues := rest } else resume r s

/-- The state with the command of a table word issued next, by the flow that may issue it, and the caller flow free to
issue it: the next step decodes and runs exactly it (host interface, log 12). -/
def State.withFetchWord (s : State) (nbits w : Nat) : State :=
  { s with
    seq := .idle
    issues := .command (flowOfOpcode (BitVec.ofNat 8 (w % 2 ^ nbits))) (tablePacket s.widths nbits w) :: s.issues }

end Sys2Proof.Machine
end

