-- ==== Sys2Proof/Safety.lean ====
section
/-! DEFINITION. What a good state of the machine is, in the terms the statements use: the descriptor invariant (10_state.md
R24), the width rules (R36), the canonical form of memory, and a sequencer that is where a step list can be (R30, R31). -/

namespace Sys2Proof.Machine

/-- `0 <= cursor <= length` (R24). -/
def Desc.bounded (d : Desc) : Bool := decide (d.cursor ≤ d.len)

/-- A descriptor whose cursor is bounded (R24) and whose buffer lies in memory (R36). -/
def Desc.good (w : Widths) (d : Desc) : Bool := d.bounded && bufferFits w d.ptr d.len

/-- An address inside a descriptor's buffer. -/
def Desc.Holds (d : Desc) (a : Nat) : Prop := d.ptr ≤ a ∧ a < d.ptr + d.len

/-- The current step is this waiting primitive. -/
def Run.isAt (r : Run) (w : WaitPrim) : Bool := decide (r.prim? = some (.wait w))

/-- The buffer forms of a send and a receive (R156, R160). -/
def WaitPrim.isBuffer : WaitPrim → Bool
  | .sendBuf | .recvBuf => true
  | .start | .stopStart | .addrW | .addrR | .sendData | .sendReg | .recvB => false

/-- The index is inside the buffer. -/
def Run.inBuffer (r : Run) : Bool := decide (r.idx < r.ctx.len)

/-- The current step is this waiting primitive, and a buffer form has a byte left to move. -/
def Run.waitsIn (r : Run) (w : WaitPrim) : Bool := r.isAt w && (!w.isBuffer || r.inBuffer)

/-- The current step is in the list. -/
def Run.inList (r : Run) : Bool := decide (r.step < (steps r.op r.ctx).length)

/-- The position inside the current primitive is one that its pseudocode has. -/
def Run.phaseGood (r : Run) : Bool :=
  match r.phase with
  | .enter => r.op.isComposite && r.inList
  | .begin => true
  | .put _ => r.waitsIn .sendBuf
  | .arm w => r.waitsIn w
  | .poll w => r.waitsIn w
  | .clock w => r.waitsIn w
  | .decode w => r.waitsIn w
  | .nackStop st => decide (st = .addressNACK ∨ st = .dataNACK) && r.inList
  | .takeByte => r.isAt .recvB
  | .takeBuf => r.waitsIn .recvBuf
  | .store _ => r.waitsIn .recvBuf
  | .abort => r.op.isComposite && r.inList
  | .extend => r.op.isComposite && r.inList

/-- `idx` is 0 outside a buffer form (R30). -/
def Run.idxGood (r : Run) : Bool :=
  decide (r.idx = 0) || ((r.isAt .sendBuf || r.isAt .recvBuf) && decide (r.idx ≤ r.ctx.len))

/-- `step` is inside the list or at its end; for a primitive issued on its own it is 0 (R30, R31). -/
def Run.stepGood (r : Run) : Bool :=
  if r.op.isComposite then decide (r.step ≤ (steps r.op r.ctx).length) else decide (r.step = 0)

/-- Past its receive step, a composite that returns a byte has received one (R183). -/
def Run.gotGood (r : Run) : Bool :=
  match r.op with
  | .mRecvB => decide (r.step ≤ 2) || r.got.isSome
  | .sigStart | .sigStopStart | .sigStop | .addrW | .addrR | .sendB | .sendBuf | .recvB | .recvBuf | .clrEvent
  | .mSendB | .mSendBuf | .mRecvBuf | .mRecvReg => true

/-- A running command is where its step list can be: `step` never exceeds the length of the list, `idx` never exceeds
`CTX.len` (R31), the operands fit their widths and the buffer lies in memory (R20, R36). -/
def Run.good (w : Widths) (r : Run) : Bool := r.stepGood && r.idxGood && r.ctx.fits w && r.phaseGood && r.gotGood

/-- `SEQ` is idle or a running command in good order (R30). -/
def Seq.good (w : Widths) : Seq → Bool
  | .idle => true
  | .run r => r.good w

/-- The constraints of R7 on the parameters. -/
def Params.legal (p : Params) : Bool := p.widths.legal && timeFits p.widths p.resetTimeout

/-- The invariant of the machine. -/
structure State.Inv (s : State) : Prop where
  /-- The parameters are legal (R7). -/
  params : s.params.legal = true
  /-- Buffer memory is in canonical form. -/
  mem : s.mem.wf s.memSize = true
  /-- The receiver's cursor is bounded (R24) and its buffer lies in memory (R36). -/
  rx : s.rx.good s.widths = true
  /-- The transmitter's cursor is bounded (R24) and its buffer lies in memory (R36). -/
  tx : s.tx.good s.widths = true
  /-- The sequencer is where a step list can be (R30, R31). -/
  seq : s.seq.good s.widths = true
  /-- `CFG_TIMEOUT` has `TW` bits (R20, R40). -/
  timeout : timeFits s.widths s.cfgTimeout = true

/-! ## The vocabulary of the statements -/

/-- No input of the collaborator answers in a loop: once its queue is used up, each repeats one answer for ever. -/
structure Collaborator.Settles (h : Collaborator) : Prop where
  raises : h.raises.loop = []
  codes : h.codes.loop = []
  clock : h.clock.loop = []

/-- The caller flow may issue a master command, and the environment invokes the event flow nowhere inside it. -/
structure State.Ready (s : State) : Prop where
  /-- The caller flow is in execution (R112). -/
  flow : s.flow = .caller
  /-- No master command is running (R304). -/
  seq : s.seq = .idle
  /-- Nothing happens in the event flow during the command (R266). -/
  quiet : s.hw.interrupts = .always []

/-- Nothing is issued next that goes before the caller flow's running command (R266, R290). -/
def State.Undisturbed (s : State) : Prop := ∀ i, s.issues.head? = some i → i.preempts = false

/-- The environment completes every event by its first sample and never reports arbitration loss. -/
structure State.Prompt (s : State) : Prop where
  raises : ∀ e ∈ s.hw.raises.after :: (s.hw.raises.queue ++ s.hw.raises.loop), e = true
  codes : ∀ c ∈ s.hw.codes.after :: (s.hw.codes.queue ++ s.hw.codes.loop), s.classify (c % 2 ^ s.widths.rcw) ≠ .arbLost

/-- The next clock sample does not go back (R67), and a deadline made from it stays below `2^TW` or there is none (R10). -/
structure State.ClockReady (s : State) : Prop where
  forward : s.hw.lastNow ≤ s.nextTime
  deadline : s.cfgTimeout = s.widths.timeoutMax ∨ s.nextTime + s.cfgTimeout < 2 ^ s.widths.tw

/-- The schedule has the event flow do this at some boundary, now or later. -/
def Collaborator.Schedules (h : Collaborator) (p : Preemption) : Prop :=
  ∃ ps ∈ h.interrupts.after :: (h.interrupts.queue ++ h.interrupts.loop), p ∈ ps

/-- The schedule has the event flow bind this receive buffer at some boundary (R112, R215). -/
def State.MayBindRx (s : State) (ptr : Addr) (len : Len) : Prop :=
  ∃ packet rest, s.hw.Schedules (.command packet) ∧ decode s.widths packet = .ok (.rxBind ptr len, rest)

/-- The schedule has the event flow bind this transmit buffer at some boundary (R112, R234). -/
def State.MayBindTx (s : State) (ptr : Addr) (len : Len) : Prop :=
  ∃ packet rest, s.hw.Schedules (.command packet) ∧ decode s.widths packet = .ok (.txBind ptr len, rest)

/-- Steps of the machine, one after the other. -/
inductive Steps : State → State → Prop where
  | done {s : State} : Steps s s
  | next {s v t : State} (h : step s = .next v) (hs : Steps v t) : Steps s t

/-- The command comes to its end in `t`: in the step that issues it where no input answers in a loop, and in any case after
finitely many steps, with nothing preempting it (log 1). -/
def CompletesIn (i : Instr) (s t : State) : Prop :=
  (s.hw.Settles → exec i s = .next t) ∧ (s.Undisturbed → ∃ v, exec i s = .next v ∧ Steps v t)

/-! ### The pseudocode of the engine and of the policy layer

The loops of the spec's pseudocode have no bound of their own, so they are relations between the state before and the state
after. The calls are those of Ops.lean; `SEQ` is left out: it is bookkeeping (R145). -/

/-- `WaitEvent(dl)` (R141): it completes (`true`) after any finite number of samples that find the event not complete at
times not exceeding the deadline; it times out (`false`) at the first one later than the deadline. -/
inductive WaitEvent (dl : Deadline) : State → Bool → State → Prop where
  /-- `if HW.eventComplete() then return Completed`. -/
  | completed {s : State} (he : (eventComplete s).1 = true) : WaitEvent dl s true (eventComplete s).2
  /-- No deadline: the clock is not read, the loop goes on. -/
  | again {s u : State} {b : Bool} (he : (eventComplete s).1 = false) (hd : dl = .noDeadline)
      (hw : WaitEvent dl (eventComplete s).2 b u) : WaitEvent dl s b u
  /-- `if t > d then return TimedOut`. -/
  | timedOut {s u : State} {d t : Time} (he : (eventComplete s).1 = false) (hd : dl = .atTime d)
      (hn : now (eventComplete s).2 = .next (t, u)) (hl : d < t) : WaitEvent dl s false u
  /-- A deadline that is not exceeded: the loop goes on. -/
  | inTime {s v u : State} {d t : Time} {b : Bool} (he : (eventComplete s).1 = false) (hd : dl = .atTime d)
      (hn : now (eventComplete s).2 = .next (t, v)) (hl : t ≤ d) (hw : WaitEvent dl v b u) :
      WaitEvent dl s b u

/-- `if WaitEvent(dl) == TimedOut then return Timeout; return decodeNow(ctx)` (R141, R142). -/
inductive Waits (ctx : MasterCtx) (dl : Deadline) : State → Status → State → Prop where
  | timeout {s u : State} (hw : WaitEvent dl s false u) : Waits ctx dl s .timeout u
  | decoded {s u : State} (hw : WaitEvent dl s true u) :
      Waits ctx dl s (masterStatus ctx (u.classify (readStatus u).1)) (readStatus u).2

/-- The implicit stop (R143): after a NACK, and after no other status, one stop action. -/
def stopOnNack (st : Status) (s : State) : State :=
  match st with
  | .addressNACK | .dataNACK => armControl .armStop s
  | .success | .busLost | .addressedAsSlave | .timeout | .error | .unknown => s

/-- The loop of `SEND_BUF` from index `i` on (R156). -/
inductive SendLoop (ptr : Addr) (len : Len) (dl : Deadline) : Nat → State → Status → State → Prop where
  | done {i : Nat} {s : State} (hi : len ≤ i) : SendLoop ptr len dl i s .success s
  | sent {i : Nat} {b : Byte} {st : Status} {s v w u : State} (hi : i < len)
      (hm : memRead (bufferAddr ptr i) s = .next (b, v))
      (hw : Waits .send dl (armControl .armGo (writeData b v)) .success w) (hl : SendLoop ptr len dl (i + 1) w st u) :
      SendLoop ptr len dl i s st u
  | failed {i : Nat} {b : Byte} {st : Status} {s v w : State} (hi : i < len)
      (hm : memRead (bufferAddr ptr i) s = .next (b, v))
      (hw : Waits .send dl (armControl .armGo (writeData b v)) st w) (hs : st ≠ .success) :
      SendLoop ptr len dl i s st (stopOnNack st w)

/-- The loop of `RECV_BUF` from index `i` on (R157, R160). -/
inductive RecvLoop (ptr : Addr) (len : Len) (dl : Deadline) : Nat → State → Status → State → Prop where
  | done {i : Nat} {s : State} (hi : len ≤ i) : RecvLoop ptr len dl i s .success s
  | stored {i : Nat} {st : Status} {s v w u : State} (hi : i < len)
      (hw : Waits .recv dl (armControl (.armRx (decide (i + 1 < len))) s) .success v)
      (hm : memWrite (bufferAddr ptr i) (readData v).1 (readData v).2 = .next w)
      (hl : RecvLoop ptr len dl (i + 1) w st u) : RecvLoop ptr len dl i s st u
  | failed {i : Nat} {st : Status} {s v : State} (hi : i < len)
      (hw : Waits .recv dl (armControl (.armRx (decide (i + 1 < len))) s) st v) (hs : st ≠ .success) :
      RecvLoop ptr len dl i s st v

/-- One primitive applied to operands of `CTX`, run to its end: its status, the byte `RECV_B` received, the state after it
(R150 to R161). -/
inductive PrimRuns (c : Ctx) : Prim → State → Status → Option Byte → State → Prop where
  /-- `SIG_START` (R150). -/
  | start {s u : State} {st : Status} (hw : Waits .start c.dl (armControl .armStart s) st u) :
      PrimRuns c (.wait .start) s st none u
  /-- `SIG_STOPSTART` (R151). -/
  | stopStart {s u : State} {st : Status} (hw : Waits .start c.dl (armControl .armStopStart s) st u) :
      PrimRuns c (.wait .stopStart) s st none u
  /-- `ADDR_W CTX.addr` (R153). -/
  | addrW {s u : State} {st : Status}
      (hw : Waits .addrW c.dl (armControl .armGo (writeData (addrByte c.addr false) s)) st u) :
      PrimRuns c (.wait .addrW) s st none (stopOnNack st u)
  /-- `ADDR_R CTX.addr` (R154). -/
  | addrR {s u : State} {st : Status}
      (hw : Waits .addrR c.dl (armControl .armGo (writeData (addrByte c.addr true) s)) st u) :
      PrimRuns c (.wait .addrR) s st none (stopOnNack st u)
  /-- `SEND_B CTX.data` (R155). -/
  | sendData {s u : State} {st : Status} (hw : Waits .send c.dl (armControl .armGo (writeData c.data s)) st u) :
      PrimRuns c (.wait .sendData) s st none (stopOnNack st u)
  /-- `SEND_B CTX.reg` (R155, R185). -/
  | sendReg {s u : State} {st : Status} (hw : Waits .send c.dl (armControl .armGo (writeData c.reg s)) st u) :
      PrimRuns c (.wait .sendReg) s st none (stopOnNack st u)
  /-- `SEND_BUF CTX.ptr, CTX.len` (R156). -/
  | sendBuf {s u : State} {st : Status} (hl : SendLoop c.ptr c.len c.dl 0 s st u) :
      PrimRuns c (.wait .sendBuf) s st none u
  /-- `RECV_B`, a byte received (R157, R159). -/
  | recvByte {s u : State} (hw : Waits .recv c.dl (armControl (.armRx false) s) .success u) :
      PrimRuns c (.wait .recvB) s .success (some (readData u).1) (readData u).2
  /-- `RECV_B`, no byte received (R157, R159). -/
  | recvFailed {s u : State} {st : Status} (hw : Waits .recv c.dl (armControl (.armRx false) s) st u)
      (hs : st ≠ .success) : PrimRuns c (.wait .recvB) s st none u
  /-- `RECV_BUF CTX.ptr, CTX.len` (R160). -/
  | recvBuf {s u : State} {st : Status} (hl : RecvLoop c.ptr c.len c.dl 0 s st u) :
      PrimRuns c (.wait .recvBuf) s st none u
  /-- `SIG_STOP` (R152). -/
  | stop {s : State} : PrimRuns c .stop s .success none (armControl .armStop s)
  /-- `CLR_EVENT` (R161). -/
  | clear {s : State} : PrimRuns c .clear s .success none (armControl .armGo s)

/-- One attempt of the driver (R186): the steps in order, to the first that is not `Success`. -/
inductive Attempt (c : Ctx) : List Prim → State → Status → Option Byte → State → Prop where
  | done {s : State} : Attempt c [] s .success none s
  | step {p : Prim} {ps : List Prim} {s v u : State} {st : Status} {g g' : Option Byte}
      (hp : PrimRuns c p s .success g v) (hl : Attempt c ps v st g' u) : Attempt c (p :: ps) s st (g' <|> g) u
  | failed {p : Prim} {ps : List Prim} {s u : State} {st : Status} {g : Option Byte}
      (hp : PrimRuns c p s st g u) (hs : st ≠ .success) : Attempt c (p :: ps) s st none u

/-- The driver from label `attempt` on, for a step list (R186 to R189): a status other than `BusLost` is the command's; a
`BusLost` is handled by the configured policy. -/
inductive Driver (ps : List Prim) : Ctx → State → Status → Option Byte → State → Prop where
  /-- Success, or a failure that propagates (R189). -/
  | ends {c : Ctx} {s u : State} {st : Status} {g : Option Byte} (ha : Attempt c ps s st g u) (hs : st ≠ .busLost) :
      Driver ps c s st g u
  /-- `Abort` (R187). -/
  | abort {c : Ctx} {s u : State} {g : Option Byte} (ha : Attempt c ps s .busLost g u) (hb : u.cfgBlb = .abort) :
      Driver ps c s .busLost none (armControl .armGo u)
  /-- `RetryWithinTimeout` (R188): the deadline is unchanged. -/
  | retry {c : Ctx} {s v u : State} {st : Status} {g g' : Option Byte} (ha : Attempt c ps s .busLost g' v)
      (hb : v.cfgBlb = .retryWithinTimeout) (hr : Driver ps c v st g u) : Driver ps c s st g u
  /-- `RetryExtendingTimeout` (R188): one fresh `now` sample, a new deadline. -/
  | extend {c : Ctx} {s v w u : State} {st : Status} {g g' : Option Byte} {t : Time} {dl : Deadline}
      (ha : Attempt c ps s .busLost g' v) (hb : v.cfgBlb = .retryExtendingTimeout) (hn : now v = .next (t, w))
      (hd : mkDeadline w.widths t w.cfgTimeout = some dl) (hr : Driver ps { c with dl := dl } w st g u) : Driver ps c s st g u

/-- A composite from its entry (R180): one clock sample, the deadline from it, then the driver. -/
def CompositeRuns (ps : List Prim) (c : Ctx) (s : State) (st : Status) (g : Option Byte) (u : State) : Prop :=
  ∃ t v dl, now s = .next (t, v) ∧ mkDeadline s.widths t s.cfgTimeout = some dl ∧ Driver ps { c with dl := dl } v st g u

/-- The block after a command has answered a flow with a result code (R99): the code in `RSP[7:0]`, a free value in
`RSP[15:8]`, the other flow's response kept (R266). -/
def State.answered (f : Flow) (code : Byte) (s : State) : State :=
  match f with
  | .caller =>
    { s with
      rspCaller := { code := code, high := Config.freeRspHigh s.freeCount, returned := true }
      freeCount := s.freeCount + 1 }
  | .event =>
    { s with
      rspEvent := { code := code, high := Config.freeRspHigh s.freeCount, returned := true }
      freeCount := s.freeCount + 1 }

/-- The block after a master command has returned a status to the caller flow (R31, R99): `SEQ` idle, the status in
`RSP[7:0]`, a free value in `RSP[15:8]`. -/
def State.returned (st : Status) (s : State) : State := ({ s with seq := .idle } : State).answered .caller st.code

/-- The block after a master command that returns a received byte on `Success` (R99, R159, R183). -/
def State.returnedByte (st : Status) (g : Option Byte) (s : State) : State :=
  match st, g with
  | .success, some b => { s with seq := .idle, rspCaller := { code := 0#8, high := b, returned := true } }
  | _, _ => s.returned st

/-- A format with a buffer operand (R93). -/
def hasBuffer : Format → Bool
  | .db | .b => true
  | .n | .d | .t => false

/-- A command is a master command: opcodes 0x10 to 0x24 (R304). -/
def isMaster : Instr → Bool
  | .sigStart _ | .sigStopStart _ | .sigStop | .addrW _ _ | .addrR _ _ | .sendB _ _ | .sendBuf _ _ _ | .recvB _
  | .recvBuf _ _ _ | .clrEvent | .mSendB _ _ _ | .mSendBuf _ _ _ _ | .mRecvB _ _ | .mRecvBuf _ _ _ _
  | .mRecvReg _ _ _ _ _ _ => true
  | .stMaster _ | .stBasic | .stDetail | .rxEvent | .txEvent | .rxNext | .rxBind _ _ | .rxAvail | .txBind _ _
  | .txAgain | .txDone | .setTimeout _ | .setBlb _ => false

/-- The buffer a command stores received bytes to (R61): the receive forms with a buffer. -/
def storesTo : Instr → Option (Addr × Len)
  | .recvBuf ptr len _ => some (ptr, len)
  | .mRecvBuf _ ptr len _ => some (ptr, len)
  | .mRecvReg _ _ ptr len _ _ => some (ptr, len)
  | .sigStart _ | .sigStopStart _ | .sigStop | .addrW _ _ | .addrR _ _ | .sendB _ _ | .sendBuf _ _ _ | .recvB _
  | .clrEvent | .mSendB _ _ _ | .mSendBuf _ _ _ _ | .mRecvB _ _
  | .stMaster _ | .stBasic | .stDetail | .rxEvent | .txEvent | .rxNext | .rxBind _ _ | .rxAvail | .txBind _ _
  | .txAgain | .txDone | .setTimeout _ | .setBlb _ => none

/-- The one flow that may issue a command (R112); `none` where either may. -/
def issuer : Instr → Option Flow
  | .rxEvent | .txEvent => some .event
  | .rxNext | .rxBind _ _ | .txBind _ _ | .txAgain => none
  | .sigStart _ | .sigStopStart _ | .sigStop | .addrW _ _ | .addrR _ _ | .sendB _ _ | .sendBuf _ _ _ | .recvB _
  | .recvBuf _ _ _ | .clrEvent | .mSendB _ _ _ | .mSendBuf _ _ _ _ | .mRecvB _ _ | .mRecvBuf _ _ _ _
  | .mRecvReg _ _ _ _ _ _ | .stMaster _ | .stBasic | .stDetail | .rxAvail | .txDone | .setTimeout _
  | .setBlb _ => some .caller

/-- The `stop` operand of a composite command (R94, R186). -/
def stopOperand : Instr → Option Bool
  | .mSendB _ _ stop => some stop
  | .mSendBuf _ _ _ stop => some stop
  | .mRecvB _ stop => some stop
  | .mRecvBuf _ _ _ stop => some stop
  | .mRecvReg _ _ _ _ _ stop => some stop
  | .sigStart _ | .sigStopStart _ | .sigStop | .addrW _ _ | .addrR _ _ | .sendB _ _ | .sendBuf _ _ _ | .recvB _
  | .recvBuf _ _ _ | .clrEvent | .stMaster _ | .stBasic | .stDetail | .rxEvent | .txEvent | .rxNext | .rxBind _ _
  | .rxAvail | .txBind _ _ | .txAgain | .txDone | .setTimeout _ | .setBlb _ => none

/-- The complete list of `assign` values the block ever issues: the table of R13 (R65). -/
def armTable : List Assign :=
  [.armStart, .armStopStart, .armStop, .armGo, .armRx false, .armRx true, .armSlaveAck, .armSlaveNack]

/-- The buffer a running command stores received bytes to (R61). -/
def Run.storesTo (r : Run) : Option (Addr × Len) :=
  match r.op with
  | .recvBuf | .mRecvBuf | .mRecvReg => some (r.ctx.ptr, r.ctx.len)
  | .sigStart | .sigStopStart | .sigStop | .addrW | .addrR | .sendB | .sendBuf | .recvB | .clrEvent | .mSendB
  | .mSendBuf | .mRecvB => none

/-- The acknowledge flag as the last arm call of a record that mentions it wrote it (R158). -/
def lastAck (tr : List Atom) : Option Bool :=
  tr.foldl (fun acc a =>
    match a with
    | .arm x => x.ackEnable <|> acc
    | .writeData _ | .eventComplete _ | .now _ | .readStatus _ | .readData _ | .memRead _ _ | .memWrite _ _ => acc) none

/-- The requested count of a receive command: how many bytes it receives (R158). -/
def requested : Instr → Option Len
  | .recvB _ | .mRecvB _ _ => some 1
  | .recvBuf _ len _ => some len
  | .mRecvBuf _ _ len _ => some len
  | .mRecvReg _ _ _ len _ _ => some len
  | .sigStart _ | .sigStopStart _ | .sigStop | .addrW _ _ | .addrR _ _ | .sendB _ _ | .sendBuf _ _ _ | .clrEvent
  | .mSendB _ _ _ | .mSendBuf _ _ _ _
  | .stMaster _ | .stBasic | .stDetail | .rxEvent | .txEvent | .rxNext | .rxBind _ _ | .rxAvail | .txBind _ _
  | .txAgain | .txDone | .setTimeout _ | .setBlb _ => none

/-- The requested count of a running command (R158). -/
def Run.requested (r : Run) : Option Len :=
  match r.op with
  | .recvB | .mRecvB => some 1
  | .recvBuf | .mRecvBuf | .mRecvReg => some r.ctx.len
  | .sigStart | .sigStopStart | .sigStop | .addrW | .addrR | .sendB | .sendBuf | .clrEvent | .mSendB | .mSendBuf => none

/-- The index of the byte that a receive is at after a record: the bytes stored since the data register was last written,
which a composite does (`ADDR_R`, R154) before every receive; `start` counts those stored before the record. -/
def byteIndex (start : Nat) (tr : List Atom) : Nat :=
  tr.foldl (fun n a =>
    match a with
    | .writeData _ => 0
    | .memWrite _ _ => n + 1
    | .arm _ | .eventComplete _ | .now _ | .readStatus _ | .readData _ | .memRead _ _ => n) start

/-- The acknowledge policy over a record (R158): a command that receives nothing never mentions `ACK_ENABLE`; a receive of `n`
bytes mentions it where it arms a byte and nowhere else, with 1 for a byte that is not the last of the `n` and 0 for the
last. -/
def AcksEachByte (n : Option Len) (start : Nat) (tr : List Atom) : Prop :=
  ∀ (pre post : List Atom) (a : Assign), tr = pre ++ .arm a :: post → a.ackEnable ≠ none →
    ∃ k, n = some k ∧ byteIndex start pre < k ∧ a = .armRx (decide (byteIndex start pre + 1 < k))

/-- The number of bytes stored in a record. -/
def storeCount (tr : List Atom) : Nat :=
  tr.countP fun a =>
    match a with
    | .memWrite _ _ => true
    | .arm _ | .writeData _ | .eventComplete _ | .now _ | .readStatus _ | .readData _ | .memRead _ _ => false

/-- The number of stop actions (`ARM_STOP`, R152) in a record. -/
def stopCount (tr : List Atom) : Nat := tr.countP fun a => decide (a = .arm .armStop)

/-- The stop actions a running composite has made: one when it is past its final stop (R186). -/
def Run.stopsMade (r : Run) : Nat := if r.ctx.stop = true ∧ r.step = (steps r.op r.ctx).length then 1 else 0

/-- The stop actions of a composite that has ended, by its result code (R190): after `Success` one if `stop` is 1, after a
NACK one whatever `stop` says, after every other status none. -/
def stopsByCode (stop : Bool) (c : Byte) : Nat :=
  if c = 0x00#8 then (if stop = true then 1 else 0) else if c = 0x01#8 ∨ c = 0x02#8 then 1 else 0

end Sys2Proof.Machine
end

