-- ==== Sys2Proof/Certificates/Slice0/Obligations.lean ====
section
/-! DEFINITION. The statements about the model, for the provers. Each says which rules of spec/ it formalises. -/

open Sys2Proof Sys2Proof.Machine

/-! ## Encoding (30_encoding.md) -/

/-- Decoding the packet of a well-formed command gives the command back, with every operand at every value its encoding
admits, and leaves the bits after the packet, at all widths (R90 to R94). The packet is the bit string in the numbering of
the opcode table. -/
def Obligations.DecodeInvertsEncode : Prop :=
  ∀ (w : Widths) (i : Instr) (rest : Packet), i.wellFormed w = true →
    decode w (encodeOnto w i rest) = .ok (i, rest) ∧ decode w (encode w i) = .ok (i, .empty)

/-- A packet that decodes is the packet of its command: a well-formed command, the same command word, the same bits after the
first extension word; the whole packet is the same unless the command word says that there is no deadline, where `DLV` is
ignored (R94, R95). -/
def Obligations.DecodedPacketIsItsEncoding : Prop :=
  ∀ (w : Widths) (p rest : Packet) (i : Instr), decode w p = .ok (i, rest) →
    i.wellFormed w = true ∧ p.bits = (encode w i).bits + rest.bits ∧ rest.word = p.word / 2 ^ (encode w i).bits ∧
      BitVec.ofNat 32 p.word = i.cmdWord ∧
      p.word % 2 ^ (encode w i).bits / 2 ^ (32 + w.tw) = (encode w i).word / 2 ^ (32 + w.tw) ∧
      (i.fields.nodl = false → p.word % 2 ^ (encode w i).bits = (encode w i).word)

/-- The opcode table (R92), row by row: opcode, format, `match`, `mask`. A word selects a command when `w & mask == match`,
and no word matches two rows. Selecting the row is what the decoder does: the opcode byte names it, every reserved bit and
every unused field is 0. -/
def Obligations.OpcodeTableSelectsOneCommand : Prop :=
  Opcode.all.map (fun o => (o.code, o.format, o.pattern, o.mask)) =
    [(0x01#8, Format.n, 0x00000001#32, 0x00FFFFFF#32), (0x02#8, Format.n, 0x00000002#32, 0xFFFFFFFF#32),
     (0x03#8, Format.n, 0x00000003#32, 0xFFFFFFFF#32), (0x10#8, Format.d, 0x00000010#32, 0xFFFFFBFF#32),
     (0x11#8, Format.d, 0x00000011#32, 0xFFFFFBFF#32), (0x12#8, Format.n, 0x00000012#32, 0xFFFFFFFF#32),
     (0x13#8, Format.d, 0x00000013#32, 0xFF80FBFF#32), (0x14#8, Format.d, 0x00000014#32, 0xFF80FBFF#32),
     (0x15#8, Format.d, 0x00000015#32, 0x00FFFBFF#32), (0x16#8, Format.db, 0x00000016#32, 0xFFFFFBFF#32),
     (0x17#8, Format.d, 0x00000017#32, 0xFFFFFBFF#32), (0x18#8, Format.db, 0x00000018#32, 0xFFFFFBFF#32),
     (0x19#8, Format.n, 0x00000019#32, 0xFFFFFFFF#32), (0x20#8, Format.n, 0x00000020#32, 0x0080FEFF#32)] ++
    [(0x21#8, Format.b, 0x00000021#32, 0xFF80FEFF#32), (0x22#8, Format.n, 0x00000022#32, 0xFF80FEFF#32),
     (0x23#8, Format.b, 0x00000023#32, 0xFF80FEFF#32), (0x24#8, Format.b, 0x00000024#32, 0x0080FCFF#32),
     (0x30#8, Format.n, 0x00000030#32, 0xFFFFFFFF#32), (0x31#8, Format.n, 0x00000031#32, 0xFFFFFFFF#32),
     (0x32#8, Format.n, 0x00000032#32, 0xFFFFFFFF#32), (0x33#8, Format.b, 0x00000033#32, 0xFFFFFFFF#32),
     (0x34#8, Format.n, 0x00000034#32, 0xFFFFFFFF#32), (0x35#8, Format.b, 0x00000035#32, 0xFFFFFFFF#32),
     (0x36#8, Format.n, 0x00000036#32, 0xFFFFFFFF#32), (0x37#8, Format.n, 0x00000037#32, 0xFFFFFFFF#32),
     (0x40#8, Format.t, 0x00000040#32, 0xFFFFFFFF#32), (0x41#8, Format.n, 0x00000041#32, 0x00FFFFFF#32)] ∧
  ∀ (w : CmdWord) (o : Opcode),
    (w &&& o.mask = o.pattern ↔ Opcode.ofCode (cwOpcode w) = some o ∧ checkWord o w = none) ∧
    (∀ o' : Opcode, w &&& o.mask = o.pattern → w &&& o'.mask = o'.pattern → o = o')

/-- The packets with an assigned opcode that are illegal are exactly those of R95: a reserved bit, a field that the command
does not use, a context above 4, a policy code above 2, a buffer past the top of memory. `DLV` makes no packet illegal, and
where `NODL_F` is 1 it makes no difference. The packet is written as `CW` followed by the extension words of its format, each
any value its width holds (R93). -/
def Obligations.IllegalPacketsAreExactlyThese : Prop :=
  ∀ (w : Widths) (cw : CmdWord) (o : Opcode) (x : ExtWords) (rest : Packet), Opcode.ofCode (cw.extractLsb' 0 8) = some o →
    x.time < 2 ^ w.tw → x.ptr < 2 ^ w.aw → x.len < 2 ^ w.lw →
    ((∃ e, decode w (.put 32 cw.toNat (putExt w o.format x rest)) = .error e) ↔
      (cw.extractLsb' 11 5 ≠ 0#5 ∨ cw.getLsbD 23 = true ∨
        (o.uses.stop = false ∧ cw.getLsbD 8 = true) ∨ (o.uses.rs = false ∧ cw.getLsbD 9 = true) ∨
        (o.uses.nodl = false ∧ cw.getLsbD 10 = true) ∨ (o.uses.addr = false ∧ cw.extractLsb' 16 7 ≠ 0#7) ∨
        (o.uses.imm = false ∧ cw.extractLsb' 24 8 ≠ 0#8) ∨
        (o = .stMaster ∧ 4 < (cw.extractLsb' 24 8).toNat) ∨ (o = .setBlb ∧ 2 < (cw.extractLsb' 24 8).toNat) ∨
        (hasBuffer o.format = true ∧ 2 ^ w.aw < x.ptr + x.len))) ∧
    (cw.getLsbD 10 = true → ∀ dlv : Time, dlv < 2 ^ w.tw → decode w (.put 32 cw.toNat (putExt w o.format x rest)) =
      decode w (.put 32 cw.toNat (putExt w o.format { x with time := dlv } rest)))

/-- The opcode values of R92 are 28, all different, and every other value (228 of the 256) is unassigned. A packet with an
unassigned opcode, and every illegal packet, changes no state of the block, makes no call and no buffer access, and returns
`RSP = 0x00FF` to the flow that issued it (R96), also where the event flow issues it between two actions of a master
command. A packet cut short is none of these (log 13). -/
def Obligations.IllegalPacketAnswersFF : Prop :=
  (Opcode.all.map Opcode.code).Nodup ∧ Opcode.all.length = 28 ∧
  (∀ b : Byte, Opcode.ofCode b = none ↔ b ∉ Opcode.all.map Opcode.code) ∧
  (∀ (w : Widths) (cw : CmdWord) (rest : Packet), Opcode.ofCode (cw.extractLsb' 0 8) = none →
    decode w (.put 32 cw.toNat rest) = .error .unassignedOpcode) ∧
  ∀ (s : State) (packet : Packet) (rest : List Issue) (e : DecodeError),
    decode s.widths packet = .error e → e ≠ .truncated →
    (s.seq = .idle → s.issues = .command .caller packet :: rest →
      step s = .next { s with
        issues := rest, flow := .caller, rspCaller := { code := 0xFF#8, high := 0x00#8, returned := true } }) ∧
    (s.issues = .command .event packet :: rest →
      step s = .next { s with
        issues := rest, flow := .caller, rspEvent := { code := 0xFF#8, high := 0x00#8, returned := true } }) ∧
    servePreemption (.command packet) s =
      .next { s with flow := .caller, rspEvent := { code := 0xFF#8, high := 0x00#8, returned := true } }

/-- The length of a packet is a function of `CW[7:0]` alone: 32 bits plus the widths of its extension words (R98); 32, 64
(formats D, T and B) or 96 bits (format DB) at the default widths. -/
def Obligations.PacketLengthFollowsTheOpcode : Prop :=
  (∀ (w : Widths) (p rest : Packet) (i : Instr), decode w p = .ok (i, rest) →
    ∃ o : Opcode, Opcode.ofCode (BitVec.ofNat 8 p.word) = some o ∧ i.opcode = o ∧
      p.bits = rest.bits + (match o.format with
        | .n => 32
        | .d => 32 + w.tw
        | .t => 32 + w.tw
        | .b => 32 + (w.aw + w.lw)
        | .db => 32 + (w.tw + w.aw + w.lw))) ∧
  [Format.n, .d, .t, .b, .db].map (Format.packetBits .default) = [32, 64, 64, 64, 96]

/-- Words written out from the spec's encodings decode to the commands they stand for (95_test_vectors.md V1), at the default
widths. Each packet is the number its bits make in the numbering of the opcode table: the command word in its low 32 bits,
the extension words above it in the order of R93. No byte order comes in (log 11). -/
def Obligations.SpecWordsDecode : Prop :=
  decode .default ⟨32, 0x03000001⟩ = .ok (.stMaster .send, .empty) ∧
  decode .default ⟨64, 0x000000C8_00000010⟩ = .ok (.sigStart (.atTime 200), .empty) ∧
  decode .default ⟨64, 0x000001F4_00500013⟩ = .ok (.addrW 0x50#7 (.atTime 500), .empty) ∧
  decode .default ⟨96, 0x0003_0100_000001F4_00000016⟩ = .ok (.sendBuf 0x0100 3 (.atTime 500), .empty) ∧
  decode .default ⟨32, 0x07500120⟩ = .ok (.mSendB 0x50#7 0x07#8 true, .empty) ∧
  decode .default ⟨64, 0x0002_0200_3B680324⟩ = .ok (.mRecvReg 0x68#7 0x3B#8 0x0200 2 true true, .empty) ∧
  decode .default ⟨64, 0x0003_0300_00000033⟩ = .ok (.rxBind 0x0300 3, .empty) ∧
  decode .default ⟨64, 0x000003E8_00000040⟩ = .ok (.setTimeout 1000, .empty) ∧
  decode .default ⟨32, 0x02000041⟩ = .ok (.setBlb .retryExtendingTimeout, .empty)

/-! ## A step -/

/-- When the packet that a flow issues next decodes to a command, the step is exec of that command at that state, in that
flow; then the caller flow is in execution (R90, R112). A packet of the event flow is served at any time; one of the caller
flow when no master command is running. A packet of the event flow between two actions of a master command runs the same
command. The state in which the host places a table word runs exactly the command it decodes to, as the flow that may issue it
(log 12). Two things in it are the model's own choice and no rule's: that a packet with bits beyond its last word, `after`, runs
and those bits are dropped (DESIGN CHOICE, log 13), and that an `RX_EVENT` or `TX_EVENT` packet of the event flow runs its step
without a hardware event (DESIGN CHOICE, log 29). -/
def Obligations.StepRunsTheDecodedCommand : Prop :=
  ∀ (s : State),
    (∀ (f : Flow) (packet after : Packet) (rest : List Issue) (i : Instr),
      s.issues = .command f packet :: rest → decode s.widths packet = .ok (i, after) → (s.seq = .idle ∨ f = .event) →
      step s = andThen (exec i { s with issues := rest, flow := f }) fun t => .next { t with flow := .caller }) ∧
    (∀ (packet after : Packet) (i : Instr), decode s.widths packet = .ok (i, after) →
      issuer i ≠ some .caller →
      servePreemption (.command packet) s =
        andThen (exec i { s with flow := .event }) fun t => .next { t with flow := .caller }) ∧
    ∀ (nbits v : Nat) (i : Instr), s.widths = .default → decodeTableWord nbits v = some i →
      step (s.withFetchWord nbits v) =
        andThen (exec i { s with seq := .idle, flow := (issuer i).getD .caller }) fun t => .next { t with flow := .caller }

/-! ## Codes and computations -/

/-- The enumeration codes (R100 to R104). -/
def Obligations.ResultCodesFollowTheirTables : Prop :=
  [Status.success, .addressNACK, .dataNACK, .busLost, .addressedAsSlave, .timeout, .error, .unknown].map Status.code =
    (List.range 8).map (BitVec.ofNat 8) ∧
  [BasicSlaveStatus.noStatus, .error, .signalReceived, .addressedAsReceiver, .dataAccepted, .dataDeclined,
    .addressedAsTransmitter, .nextDataAccepted, .nextDataDeclined, .moreDataRequest, .unknown].map
      BasicSlaveStatus.code = (List.range 11).map (BitVec.ofNat 8) ∧
  [DetailedSlaveStatus.noStatus, .error, .signalReceived, .addressedAsReceiverDirect, .addressedAsReceiverDirectArbLost,
    .addressedAsReceiverGeneralCall, .addressedAsReceiverGeneralCallArbLost, .dataAcceptedDirect, .dataDeclinedDirect,
    .dataAcceptedGeneralCall, .dataDeclinedGeneralCall, .addressedAsTransmitterDirect,
    .addressedAsTransmitterDirectArbLost, .nextDataAccepted, .nextDataDeclined, .moreDataRequest, .unknown].map
      DetailedSlaveStatus.code = (List.range 17).map (BitVec.ofNat 8) ∧
  (∀ b : Byte, BusLostBehaviour.ofCode b =
    if b = 0#8 then some .abort else if b = 1#8 then some .retryWithinTimeout
    else if b = 2#8 then some .retryExtendingTimeout else none) ∧
  ∀ b : Byte, MasterCtx.ofCode b =
    if b = 0#8 then some .start else if b = 1#8 then some .addrW else if b = 2#8 then some .addrR
    else if b = 3#8 then some .send else if b = 4#8 then some .recv else none

/-- The address byte (R107). -/
def Obligations.AddressByteLayout : Prop :=
  (∀ (a : BitVec 7) (rw : Bool), (addrByte a rw).extractLsb' 1 7 = a ∧ (addrByte a rw).getLsbD 0 = rw ∧
    (addrByte a rw).toNat = 2 * a.toNat + rw.toNat) ∧
  addrByte 0x50#7 false = 0xA0#8 ∧ addrByte 0x50#7 true = 0xA1#8 ∧ addrByte 0x7F#7 true = 0xFF#8 ∧
  addrByte 0x00#7 false = 0x00#8

/-- The arm calls of R13 and their trace form (R108). -/
def Obligations.ArmCallsAreTheTable : Prop :=
  armTable = [⟨some true, none, some true, some false⟩, ⟨some true, none, some true, some true⟩,
    ⟨some true, none, some false, some true⟩, ⟨some true, none, some false, some false⟩,
    ⟨some true, some false, some false, some false⟩, ⟨some true, some true, some false, some false⟩,
    ⟨some true, some true, none, none⟩, ⟨some true, some false, none, none⟩] ∧
  [Assign.armStart, .armStopStart, .armStop, .armGo, .armRx true, .armRx false, .armSlaveAck, .armSlaveNack].map
      (fun a => (a.mention, a.value)) =
    [(0b1011#4, 0b1010#4), (0b1011#4, 0b1011#4), (0b1011#4, 0b1001#4), (0b1011#4, 0b1000#4), (0b1111#4, 0b1100#4),
      (0b1111#4, 0b1000#4), (0b1100#4, 0b1100#4), (0b1100#4, 0b1000#4)]

/-- Deadline arithmetic (R10): `TIMEOUT_MAX` disables the timeout, the sum is on natural numbers, a sum that reaches `2^TW` has
no deadline and the composite that needs it is refused, at its entry and where a retry extends its deadline; expiry is
strict. -/
def Obligations.DeadlineArithmetic : Prop :=
  (∀ (w : Widths) (t0 timeout : Time),
    (timeout = 2 ^ w.tw - 1 → mkDeadline w t0 timeout = some .noDeadline) ∧
    (timeout ≠ 2 ^ w.tw - 1 → t0 + timeout < 2 ^ w.tw → mkDeadline w t0 timeout = some (.atTime (t0 + timeout))) ∧
    (timeout ≠ 2 ^ w.tw - 1 → 2 ^ w.tw ≤ t0 + timeout → mkDeadline w t0 timeout = none)) ∧
  (∀ t d : Time, expired .noDeadline t = false ∧ (expired (.atTime d) t = true ↔ d < t)) ∧
  (∀ (i : Instr) (stop : Bool) (s v : State) (t : Time), stopOperand i = some stop → i.wellFormed s.widths = true → s.Ready →
    now s = .next (t, v) → s.cfgTimeout ≠ 2 ^ s.widths.tw - 1 → 2 ^ s.widths.tw ≤ t + s.cfgTimeout →
    exec i s = .refused .deadlineOverflow) ∧
  ∀ (r : Run) (s v : State) (t : Time), r.phase = .enter ∨ r.phase = .extend → now s = .next (t, v) →
    s.cfgTimeout ≠ 2 ^ s.widths.tw - 1 → 2 ^ s.widths.tw ≤ t + s.cfgTimeout → action r s = .refused .deadlineOverflow

/-- `classify` is the table where the table lists a code, and `C_UNKNOWN` where it does not (R121). -/
def Obligations.ClassifyFollowsTheTable : Prop :=
  ∀ (table : List (RawCode × Cond)) (raw : RawCode),
    (raw ∉ table.map Prod.fst → classify table raw = .unknown) ∧
    ((table.map Prod.fst).Nodup → ∀ c, (raw, c) ∈ table → classify table raw = c)

/-- Over any table that is a function and lists no code as unknown, a listed code is not unknown in every view, and an
unlisted one is (R126 (c)); the default table, which is general knowledge (log 9), is such a table and lists 27 codes. -/
def Obligations.ListedCodesAreKnown : Prop :=
  (∀ (table : List (RawCode × Cond)) (raw : RawCode), (table.map Prod.fst).Nodup → .unknown ∉ table.map Prod.snd →
    (raw ∈ table.map Prod.fst → classify table raw ≠ .unknown ∧
      (basicSlave (classify table raw) ≠ .unknown ∨ ∃ ctx, masterStatus ctx (classify table raw) ≠ .unknown)) ∧
    (raw ∉ table.map Prod.fst → classify table raw = .unknown ∧ basicSlave (classify table raw) = .unknown ∧
      detailedSlave (classify table raw) = .unknown ∧ ∀ ctx, masterStatus ctx (classify table raw) = .unknown)) ∧
  (defaultRawTable.map Prod.fst).Nodup ∧ .unknown ∉ defaultRawTable.map Prod.snd ∧ defaultRawTable.length = 27

/-- The two slave views and their agreement (R124, R125, R127). -/
def Obligations.SlaveViewsFollowTheirTables : Prop :=
  [Cond.noInfo, .busError, .srSignal, .srAddr, .srAddrArb, .srGc, .srGcArb, .srDataAck, .srGcDataAck, .srDataNack,
    .srGcDataNack, .stAddr, .stAddrArb, .stDataAck, .stDataNack, .stLastAck].map (fun c => (basicSlave c, detailedSlave c)) =
    [(.noStatus, .noStatus), (.error, .error), (.signalReceived, .signalReceived),
      (.addressedAsReceiver, .addressedAsReceiverDirect), (.addressedAsReceiver, .addressedAsReceiverDirectArbLost),
      (.addressedAsReceiver, .addressedAsReceiverGeneralCall),
      (.addressedAsReceiver, .addressedAsReceiverGeneralCallArbLost), (.dataAccepted, .dataAcceptedDirect),
      (.dataAccepted, .dataAcceptedGeneralCall), (.dataDeclined, .dataDeclinedDirect),
      (.dataDeclined, .dataDeclinedGeneralCall), (.addressedAsTransmitter, .addressedAsTransmitterDirect),
      (.addressedAsTransmitter, .addressedAsTransmitterDirectArbLost), (.nextDataAccepted, .nextDataAccepted),
      (.nextDataDeclined, .nextDataDeclined), (.moreDataRequest, .moreDataRequest)] ∧
  (∀ c ∈ [Cond.unknown, .start, .repStart, .addrWAck, .addrWNack, .dataTxAck, .dataTxNack, .arbLost, .addrRAck, .addrRNack,
    .dataRxAck, .dataRxNack], basicSlave c = .unknown ∧ detailedSlave c = .unknown) ∧
  ∀ c : Cond, basicOf (detailedSlave c) = basicSlave c

/-- `masterStatus`, line by line: the first matching line gives the result (R123). -/
def Obligations.MasterStatusLines : Prop :=
  ∀ (ctx : MasterCtx) (c : Cond), masterStatus ctx c =
    if c = .busError then .error
    else if c = .arbLost then .busLost
    else if c ∈ [Cond.srAddr, .srAddrArb, .srGc, .srGcArb, .stAddr, .stAddrArb] then .addressedAsSlave
    else if ctx = .start ∧ c ∈ [Cond.start, .repStart] then .success
    else if ctx = .addrW ∧ c = .addrWAck then .success
    else if ctx = .addrW ∧ c = .addrWNack then .addressNACK
    else if ctx = .addrR ∧ c = .addrRAck then .success
    else if ctx = .addrR ∧ c = .addrRNack then .addressNACK
    else if ctx = .send ∧ c = .dataTxAck then .success
    else if ctx = .send ∧ c = .dataTxNack then .dataNACK
    else if ctx = .recv ∧ c ∈ [Cond.dataRxAck, .dataRxNack] then .success
    else .unknown

/-- The decoder queries (R128 to R130): one status read, the code of the view in `RSP[7:0]`, nothing else written. -/
def Obligations.DecoderQueries : Prop :=
  ∀ (s : State) (raw : RawCode), s.flow = .caller → raw = s.nextCode →
    (∀ ctx, exec (.stMaster ctx) s =
      .next ({ s with hw := { s.hw with codes := s.hw.codes.take.2 }, trace := s.trace ++ [Atom.readStatus raw] } |>.answered
        .caller (masterStatus ctx (s.classify raw)).code)) ∧
    exec .stBasic s =
      .next ({ s with hw := { s.hw with codes := s.hw.codes.take.2 }, trace := s.trace ++ [Atom.readStatus raw] } |>.answered
        .caller (basicSlave (s.classify raw)).code) ∧
    exec .stDetail s =
      .next ({ s with hw := { s.hw with codes := s.hw.codes.take.2 }, trace := s.trace ++ [Atom.readStatus raw] } |>.answered
        .caller (detailedSlave (s.classify raw)).code)

/-! ## The collaborator and memory (20_memory.md) -/

/-- Every arm call writes the flags it mentions and leaves every other flag and bit of the control register unchanged (R65,
R303); one that writes `INT_CLEAR := 1` clears the event-complete signal and no other does (R64); nothing of the block
changes. -/
def Obligations.ArmCallsPreserveTheOtherBits : Prop :=
  ∀ (a : Assign) (s : State), ∃ (c : Ctrl) (e : Bool),
    armControl a s = { s with hw := { s.hw with ctrl := c, event := e }, trace := s.trace ++ [.arm a] } ∧
    c.others = s.hw.ctrl.others ∧
    (a.intClear = none → c.intClear = s.hw.ctrl.intClear) ∧ (∀ b, a.intClear = some b → c.intClear = b) ∧
    (a.ackEnable = none → c.ackEnable = s.hw.ctrl.ackEnable) ∧ (∀ b, a.ackEnable = some b → c.ackEnable = b) ∧
    (a.start = none → c.start = s.hw.ctrl.start) ∧ (∀ b, a.start = some b → c.start = b) ∧
    (a.stop = none → c.stop = s.hw.ctrl.stop) ∧ (∀ b, a.stop = some b → c.stop = b) ∧
    (a.intClear = some true → e = false) ∧ (a.intClear ≠ some true → e = s.hw.event)

/-- Buffer memory is `2^AW` bytes, each its own: a byte written reads as written, every other byte reads as before, and the
canonical form is kept; outside it no byte exists (R60). -/
def Obligations.MemoryIsBytes : Prop :=
  ∀ (s : State) (a : Nat) (v : Byte), s.mem.wf s.memSize = true →
    (a < 2 ^ s.widths.aw → memRead a s = .next (s.mem.read a, s.record (.memRead a (s.mem.read a))) ∧
      ∃ m, memWrite a v s = .next (State.record (.memWrite a v) { s with mem := m }) ∧ m.wf s.memSize = true ∧ m.read a = v ∧
        ∀ b, b ≠ a → m.read b = s.mem.read b) ∧
    (2 ^ s.widths.aw ≤ a → memRead a s = .fault (.noSuchByte a) ∧ memWrite a v s = .fault (.noSuchByte a))

/-- What the calls of the collaborator answer and change, one record each and nothing of the block. A clock answer is a
timestamp of `TW` bits; one smaller than an earlier one is refused, equal ones are allowed (R67, U8). `writeData` leaves its
byte in the data register, `readData` takes the next byte received and leaves the written one (R66). `eventComplete` answers
whether the signal is set, still or by the hardware now (R64); the signal then stays set until an arm call clears it (the
model's reading, log 3). `readStatus` takes the next raw code, of `RCW` bits (R63, log 10). Where the answers come from is the
model's own choice and no rule's (DESIGN CHOICE, log 2): each input answers from its queue and, once that is used up, from
`after` and the loop, again and again; the last clause states it. -/
def Obligations.ClockNeverDecreases : Prop :=
  ∀ (s : State),
    (∀ t : Time, t = s.hw.clock.take.1 % 2 ^ s.widths.tw →
      (t < s.hw.lastNow → now s = .refused .clockWentBack) ∧
      (s.hw.lastNow ≤ t → now s = .next (t,
        { s with hw := { s.hw with clock := s.hw.clock.take.2, lastNow := t }, trace := s.trace ++ [.now t] }))) ∧
    (∀ b : Byte, writeData b s = { s with hw := { s.hw with dataReg := b }, trace := s.trace ++ [.writeData b] }) ∧
    (∀ b : Byte, b = s.hw.received.take.1 → readData s = (b,
      { s with hw := { s.hw with received := s.hw.received.take.2 }, trace := s.trace ++ [.readData b] })) ∧
    (∀ e : Bool, e = (s.hw.event || s.hw.raises.take.1) → eventComplete s = (e,
      { s with hw := { s.hw with event := e, raises := s.hw.raises.take.2 }, trace := s.trace ++ [.eventComplete e] })) ∧
    (∀ c : RawCode, c = s.hw.codes.take.1 % 2 ^ s.widths.rcw → readStatus s = (c,
      { s with hw := { s.hw with codes := s.hw.codes.take.2 }, trace := s.trace ++ [.readStatus c] })) ∧
    ∀ (α : Type) (a : Answers α),
      (∀ x xs, a.queue = x :: xs → a.take = (x, { a with queue := xs })) ∧
      (a.queue = [] → a.take = (a.after, { a with queue := a.loop }))

/-! ## The master engine (41_master_engine.md) -/

/-- `SIG_START` (R150) and `SIG_STOPSTART` (R151): one arm call, the wait, the decode; never a NACK; after a timeout the start
request stays written. The command completes in the step that issues it where no input of the environment answers in a loop,
and after finitely many steps in any case (log 1). -/
def Obligations.StartPrimitives : Prop :=
  ∀ (s u : State) (dl : Deadline) (st : Status), s.Ready → dl.fits s.widths = true →
    (Waits .start dl (armControl .armStart s) st u →
      CompletesIn (.sigStart dl) s (u.returned st) ∧ st ≠ .addressNACK ∧ st ≠ .dataNACK ∧
        (st = .timeout → u.hw.ctrl.start = true)) ∧
    (Waits .start dl (armControl .armStopStart s) st u →
      CompletesIn (.sigStopStart dl) s (u.returned st) ∧ st ≠ .addressNACK ∧ st ≠ .dataNACK)

/-- `SIG_STOP` (R152) and `CLR_EVENT` (R161): one arm call, no wait, no status read, always `Success`. -/
def Obligations.StopAndClear : Prop :=
  ∀ (s : State), s.Ready →
    exec .sigStop s = .next ({ s with
      hw := { s.hw with ctrl := { s.hw.ctrl with intClear := true, start := false, stop := true }, event := false }
      trace := s.trace ++ [Atom.arm .armStop] } |>.returned .success) ∧
    exec .clrEvent s = .next ({ s with
      hw := { s.hw with ctrl := { s.hw.ctrl with intClear := true, start := false, stop := false }, event := false }
      trace := s.trace ++ [Atom.arm .armGo] } |>.returned .success)

/-- `ADDR_W` (R153) and `ADDR_R` (R154): the address byte is written, the hardware armed, the wait, the decode, and the
implicit stop on `AddressNACK` alone (R143). -/
def Obligations.AddressPrimitives : Prop :=
  ∀ (s u : State) (addr : BitVec 7) (dl : Deadline) (st : Status), s.Ready → dl.fits s.widths = true →
    (Waits .addrW dl (armControl .armGo (writeData (addrByte addr false) s)) st u →
      CompletesIn (.addrW addr dl) s ((if st = .addressNACK then armControl .armStop u else u).returned st) ∧
        st ≠ .dataNACK) ∧
    (Waits .addrR dl (armControl .armGo (writeData (addrByte addr true) s)) st u →
      CompletesIn (.addrR addr dl) s ((if st = .addressNACK then armControl .armStop u else u).returned st) ∧
        st ≠ .dataNACK)

/-- `SEND_B` (R155), with the implicit stop on `DataNACK` alone (R143). -/
def Obligations.SendByte : Prop :=
  ∀ (s u : State) (data : Byte) (dl : Deadline) (st : Status), s.Ready → dl.fits s.widths = true →
    Waits .send dl (armControl .armGo (writeData data s)) st u →
    CompletesIn (.sendB data dl) s ((if st = .dataNACK then armControl .armStop u else u).returned st) ∧
      st ≠ .addressNACK

/-- `SEND_BUF` (R156): the loop of `SEND_B` over the buffer's bytes, to the first that is not `Success`. -/
def Obligations.SendBuffer : Prop :=
  ∀ (s u : State) (ptr : Addr) (len : Len) (dl : Deadline) (st : Status), s.Ready → bufferFits s.widths ptr len = true →
    dl.fits s.widths = true → SendLoop ptr len dl 0 s st u → CompletesIn (.sendBuf ptr len dl) s (u.returned st)

/-- `RECV_B` (R157, R159): the byte is NACKed; the data register is read, once, only on `Success`, and the byte is returned
in `RSP[15:8]`. -/
def Obligations.ReceiveByte : Prop :=
  ∀ (s u : State) (dl : Deadline) (st : Status), s.Ready → dl.fits s.widths = true →
    Waits .recv dl (armControl (.armRx false) s) st u →
    (st = .success → CompletesIn (.recvB dl) s { (readData u).2 with
      seq := .idle, rspCaller := { code := 0x00#8, high := (readData u).1, returned := true } }) ∧
    (st ≠ .success → CompletesIn (.recvB dl) s (u.returned st)) ∧ st ≠ .addressNACK ∧ st ≠ .dataNACK

/-- `RECV_BUF` (R157, R160): the loop of receives over the buffer, every byte but the last ACKed, each stored only on
`Success`, to the first that is not `Success`. -/
def Obligations.ReceiveBuffer : Prop :=
  ∀ (s u : State) (ptr : Addr) (len : Len) (dl : Deadline) (st : Status), s.Ready → bufferFits s.widths ptr len = true →
    dl.fits s.widths = true → RecvLoop ptr len dl 0 s st u → CompletesIn (.recvBuf ptr len dl) s (u.returned st)

/-- The acknowledge policy (R158), of every master command at its issue and at each later step, with whatever status it ends:
every byte of a receive is armed with 1 if it is not the last of the requested count and with 0 if it is, in every attempt;
`RECV_B` and `M_RECV_B` request one byte, so they arm it with 0 and never with 1; no other arm call mentions `ACK_ENABLE`. The
flag is left as the last of the arm calls that mention it wrote it (R47), or as it was where none did. So `RECV_B` leaves it 0;
a receive into a buffer that armed its last byte leaves it 0, whatever status it ended with; one that failed before its last
byte leaves it 1: the status is that of the byte after those stored, and that byte was armed with 1 (the model follows the
pseudocode of R160 there, log 18). A composite leaves it so by the byte it armed last; one that ends with `Success` and
requests at least one byte has armed the last byte of its last attempt, and leaves the flag 0. -/
def Obligations.AckIsLeftClearAfterTheLastByte : Prop :=
  (∀ (i : Instr) (s t : State), isMaster i = true → s.flow = .caller → s.hw.interrupts = .always [] → exec i s = .next t →
    ∃ tr, t.trace = s.trace ++ tr ∧ t.hw.ctrl.ackEnable = (lastAck tr).getD s.hw.ctrl.ackEnable ∧
      AcksEachByte (requested i) 0 tr) ∧
  (∀ (s t : State) (r : Run), s.seq = .run r → s.Inv → s.flow = .caller → s.hw.interrupts = .always [] → s.Undisturbed →
    step s = .next t →
    ∃ tr, t.trace = s.trace ++ tr ∧ t.hw.ctrl.ackEnable = (lastAck tr).getD s.hw.ctrl.ackEnable ∧
      AcksEachByte r.requested r.idx tr) ∧
  (∀ (s u : State) (dl : Deadline) (st : Status), s.Ready → dl.fits s.widths = true →
    Waits .recv dl (armControl (.armRx false) s) st u →
    ∃ t tr, CompletesIn (.recvB dl) s t ∧ t.trace = s.trace ++ .arm (.armRx false) :: tr ∧ (∀ a, .arm a ∉ tr) ∧
      t.hw.ctrl.ackEnable = false) ∧
  (∀ (s u : State) (ptr : Addr) (len : Len) (dl : Deadline) (st : Status), s.Ready → bufferFits s.widths ptr len = true →
    dl.fits s.widths = true → 0 < len → RecvLoop ptr len dl 0 s st u →
    ∃ t tr, CompletesIn (.recvBuf ptr len dl) s t ∧ t.trace = s.trace ++ tr ∧ AcksEachByte (some len) 0 tr ∧
      (.arm (.armRx false) ∈ tr → t.hw.ctrl.ackEnable = false) ∧
      (.arm (.armRx false) ∉ tr → t.hw.ctrl.ackEnable = true) ∧
      (st = .success → .arm (.armRx false) ∈ tr) ∧
      (st ≠ .success → (.arm (.armRx false) ∈ tr ↔ storeCount tr + 1 = len))) ∧
  ∀ (i : Instr) (op : MasterOp) (c : Ctx) (s u : State) (st : Status) (g : Option Byte), s.Ready → c.fits s.widths = true →
    (∃ addr stop, i = .mRecvB addr stop ∧ op = .mRecvB ∧ c = { addr := addr, stop := stop }) ∨
      (∃ addr ptr len stop, i = .mRecvBuf addr ptr len stop ∧ op = .mRecvBuf ∧
        c = { addr := addr, ptr := ptr, len := len, stop := stop }) ∨
      (∃ addr reg ptr len rs stop, i = .mRecvReg addr reg ptr len rs stop ∧ op = .mRecvReg ∧
        c = { addr := addr, reg := reg, ptr := ptr, len := len, rs := rs, stop := stop }) →
    CompositeRuns (steps op c) c s st g u →
    ∃ t tr, CompletesIn i s t ∧ t.rspCaller.code = st.code ∧ t.trace = s.trace ++ tr ∧
      t.hw.ctrl.ackEnable = (lastAck tr).getD s.hw.ctrl.ackEnable ∧ AcksEachByte (requested i) 0 tr ∧
      (st = .success → requested i ≠ some 0 → .arm (.armRx false) ∈ tr ∧ t.hw.ctrl.ackEnable = false)

/-! ## The composites (42_master_policy.md) -/

/-- `M_SEND_B` (R181): its step list, run by the driver from the entry (R180, R186 to R189). The address byte of the primitives
is `addrByte` (R107, log 28). It completes in the step that issues it where no input of the environment answers in a loop, and
after finitely many steps in any case (log 1). -/
def Obligations.MasterSendByte : Prop :=
  ∀ (s u : State) (addr : BitVec 7) (data : Byte) (stop : Bool) (st : Status) (g : Option Byte), s.Ready →
    CompositeRuns ([.wait .start, .wait .addrW, .wait .sendData] ++ if stop = true then [.stop] else [])
      { addr := addr, data := data, stop := stop } s st g u →
    CompletesIn (.mSendB addr data stop) s (u.returned st)

/-- `M_SEND_BUF` (R182): its step list, run by the driver from the entry (R180, R186 to R189); the address byte is `addrByte`
(R107, log 28). -/
def Obligations.MasterSendBuffer : Prop :=
  ∀ (s u : State) (addr : BitVec 7) (ptr : Addr) (len : Len) (stop : Bool) (st : Status) (g : Option Byte), s.Ready →
    bufferFits s.widths ptr len = true →
    CompositeRuns ([.wait .start, .wait .addrW, .wait .sendBuf] ++ if stop = true then [.stop] else [])
      { addr := addr, ptr := ptr, len := len, stop := stop } s st g u →
    CompletesIn (.mSendBuf addr ptr len stop) s (u.returned st)

/-- `M_RECV_B` (R183): its step list, run by the driver from the entry (R180, R186 to R189); on `Success` the byte of the
last attempt is in `RSP[15:8]`. The address byte is `addrByte` (R107, log 28). -/
def Obligations.MasterReceiveByte : Prop :=
  ∀ (s u : State) (addr : BitVec 7) (stop : Bool) (st : Status) (g : Option Byte), s.Ready →
    CompositeRuns ([.wait .start, .wait .addrR, .wait .recvB] ++ if stop = true then [.stop] else [])
      { addr := addr, stop := stop } s st g u →
    CompletesIn (.mRecvB addr stop) s (u.returnedByte st g) ∧ (st = .success → g.isSome = true)

/-- `M_RECV_BUF` (R184): its step list, run by the driver from the entry (R180, R186 to R189); the address byte is `addrByte`
(R107, log 28). -/
def Obligations.MasterReceiveBuffer : Prop :=
  ∀ (s u : State) (addr : BitVec 7) (ptr : Addr) (len : Len) (stop : Bool) (st : Status) (g : Option Byte), s.Ready →
    bufferFits s.widths ptr len = true →
    CompositeRuns ([.wait .start, .wait .addrR, .wait .recvBuf] ++ if stop = true then [.stop] else [])
      { addr := addr, ptr := ptr, len := len, stop := stop } s st g u →
    CompletesIn (.mRecvBuf addr ptr len stop) s (u.returned st)

/-- `M_RECV_REG` (R185): its step list, run by the driver from the entry (R180, R186 to R189); the address byte is `addrByte`
(R107, log 28). -/
def Obligations.MasterReceiveRegister : Prop :=
  ∀ (s u : State) (addr : BitVec 7) (reg : Byte) (ptr : Addr) (len : Len) (rs stop : Bool) (st : Status)
    (g : Option Byte), s.Ready → bufferFits s.widths ptr len = true →
    CompositeRuns ([.wait .start, .wait .addrW, .wait .sendReg,
        if rs = true then .wait .start else .wait .stopStart, .wait .addrR, .wait .recvBuf] ++
        if stop = true then [.stop] else [])
      { addr := addr, reg := reg, ptr := ptr, len := len, rs := rs, stop := stop } s st g u →
    CompletesIn (.mRecvReg addr reg ptr len rs stop) s (u.returned st)

/-- Every master command completes, on the state and the operands alone: when the hardware has completed each event by its
first sample, no status it answers is arbitration loss and, for a composite, the clock does not go back and the deadline stays
below `2^TW` (R10), the command ends in one step with a status that is neither `BusLost` nor `Timeout` (R31, R140, R141,
R186). A step with a running master command and nothing issued that goes before it is the resumption of that command (log 1);
under the same environment that step brings the command to its end, from wherever it stands: with `BusLost` only where the
`Abort` policy was about to clear the event, with `Timeout` only where it was about to sample the clock. -/
def Obligations.MasterCommandsComplete : Prop :=
  (∀ (i : Instr) (s : State), isMaster i = true → i.wellFormed s.widths = true → s.Ready → s.Prompt →
    (stopOperand i ≠ none → s.ClockReady) →
    ∃ (st : Status) (t : State), exec i s = .next t ∧ t.seq = .idle ∧ t.rspCaller.code = st.code ∧
      t.rspCaller.returned = true ∧ st ≠ .busLost ∧ st ≠ .timeout) ∧
  ∀ (s : State) (r : Run), s.seq = .run r → s.Undisturbed →
    step s = resume r s ∧
    (s.Inv → s.Prompt → s.flow = .caller → s.hw.interrupts = .always [] →
      (r.phase = .enter ∨ r.phase = .extend → s.ClockReady) → ((∃ w, r.phase = .clock w) → s.hw.lastNow ≤ s.nextTime) →
      ∃ (st : Status) (t : State), step s = .next t ∧ t.seq = .idle ∧ t.rspCaller.code = st.code ∧
        t.rspCaller.returned = true ∧ (st = .busLost → r.phase = .abort) ∧ (st = .timeout → ∃ w, r.phase = .clock w))

/-- How many stop calls a composite that has ended has made, by its status (R190): after `Success` one, the last call of all,
when `stop` is 1 and none when it is 0; after a NACK one, the last call of all, whatever `stop` says; after every other
status none, `BusLost` under `Abort` among them. A composite that goes on has made those of `Run.stopsMade`: one past its
final stop, else none. Both hold of the step that issues it and of every step after that, whatever is issued and whatever
event interrupts it (a reset apart, which ends it): what was made before the step and what the step makes add up. The count
holds whatever the event flow does, because it makes no stop call; the place holds where it does nothing. -/
def Obligations.StopCallsByStatus : Prop :=
  (∀ (i : Instr) (stop : Bool) (s t : State), stopOperand i = some stop → i.wellFormed s.widths = true → s.flow = .caller →
    s.seq = .idle → exec i s = .next t →
    ∃ tr, t.trace = s.trace ++ tr ∧
      (t.seq = .idle → stopCount tr = stopsByCode stop t.rspCaller.code) ∧
      (∀ r, t.seq = .run r → stopCount tr = r.stopsMade ∧ r.op.isComposite = true ∧ r.ctx.stop = stop) ∧
      (s.hw.interrupts = .always [] → stopCount tr = 1 → tr.getLast? = some (.arm .armStop))) ∧
  ∀ (s t : State) (r : Run), s.Inv → s.flow = .caller → s.seq = .run r → r.op.isComposite = true →
    s.issues.head? ≠ some .resetEvent → step s = .next t →
    ∃ tr, t.trace = s.trace ++ tr ∧
      (t.seq = .idle → r.stopsMade + stopCount tr = stopsByCode r.ctx.stop t.rspCaller.code) ∧
      (∀ r', t.seq = .run r' → r.stopsMade + stopCount tr = r'.stopsMade ∧ r'.op = r.op ∧ r'.ctx.stop = r.ctx.stop) ∧
      (s.hw.interrupts = .always [] → s.Undisturbed → stopCount tr = 1 → tr.getLast? = some (.arm .armStop))

/-! ## The slave receiver (43_slave_receiver.md) -/

/-- The addressed-as-receiver step (R210, R211). -/
def Obligations.ReceiverAddressed : Prop :=
  ∀ (s : State), s.flow = .event → basicSlave (s.classify s.nextCode) = .addressedAsReceiver →
    exec .rxEvent s = .next (
      (if s.rx.cursor < s.rx.len then
        armControl .armSlaveAck { (readStatus s).2 with rx := { s.rx with cursor := 0 } }
      else armControl .armSlaveNack (readStatus s).2).answered .event 0x00#8)

/-- The data-accepted step (R210, R212): the byte is stored at the cursor and the next one ACKed or, after the last, NACKed;
with the buffer full nothing is read and nothing stored. The premise is the invariant's (R36). -/
def Obligations.ReceiverDataAccepted : Prop :=
  ∀ (s : State), s.flow = .event → basicSlave (s.classify s.nextCode) = .dataAccepted →
    bufferFits s.widths s.rx.ptr s.rx.len = true →
    (s.rx.cursor < s.rx.len →
      exec .rxEvent s = .next ((armControl (if s.rx.cursor + 1 < s.rx.len then .armSlaveAck else .armSlaveNack)
        { (readData (readStatus s).2).2 with
          mem := s.mem.write (s.rx.ptr + s.rx.cursor) s.hw.received.take.1
          rx := { s.rx with cursor := s.rx.cursor + 1 }
          trace := (readData (readStatus s).2).2.trace ++
            [.memWrite (s.rx.ptr + s.rx.cursor) s.hw.received.take.1] }).answered .event 0x00#8)) ∧
    (s.rx.len ≤ s.rx.cursor →
      exec .rxEvent s = .next ((armControl .armSlaveNack (readStatus s).2).answered .event 0x00#8))

/-- The ignored events: the receiver ignores every class but its two (R213), the transmitter every class but its two (R233):
nothing changes after the status read, and no call is made. -/
def Obligations.SlaveStepsIgnoreTheRest : Prop :=
  ∀ (s : State) (ev : BasicSlaveStatus), s.flow = .event → ev = basicSlave (s.classify s.nextCode) →
    (ev ≠ .addressedAsReceiver → ev ≠ .dataAccepted →
      exec .rxEvent s = .next ((readStatus s).2.answered .event 0x00#8)) ∧
    (ev ≠ .addressedAsTransmitter → ev ≠ .nextDataAccepted →
      exec .txEvent s = .next ((readStatus s).2.answered .event 0x00#8))

/-- `RX_NEXT` (R214), `RX_BIND` (R215) and `RX_AVAIL` (R216). -/
def Obligations.ReceiverDescriptorCommands : Prop :=
  ∀ (s : State),
    exec .rxNext s = .next ({ s with rx := { s.rx with cursor := 0 } } |>.answered s.flow 0x00#8) ∧
    (∀ ptr len, bufferFits s.widths ptr len = true → exec (.rxBind ptr len) s =
      .next ({ s with rx := { ptr := ptr, len := len, cursor := 0 } } |>.answered s.flow 0x00#8)) ∧
    (s.flow = .caller → exec .rxAvail s =
      .next (s.answered .caller (if s.rx.cursor = s.rx.len then 0x01#8 else 0x00#8)))

/-! ## The slave transmitter (44_slave_transmitter.md) -/

/-- The transmitter on an addressing and on an acknowledged byte (R230 to R232): an addressing restarts a transfer that is not
complete; then the next byte is handed out, armed and counted, in this order, or "no more data" is armed. The premise is the
invariant's (R36). -/
def Obligations.TransmitterEmits : Prop :=
  ∀ (s : State) (ev : BasicSlaveStatus) (cursor : Nat) (b : Byte), s.flow = .event →
    ev = basicSlave (s.classify s.nextCode) → ev = .addressedAsTransmitter ∨ ev = .nextDataAccepted →
    cursor = (if ev = .addressedAsTransmitter ∧ s.tx.cursor < s.tx.len then 0 else s.tx.cursor) →
    b = s.mem.read (s.tx.ptr + cursor) → bufferFits s.widths s.tx.ptr s.tx.len = true →
    (cursor < s.tx.len →
      exec .txEvent s = .next ({ armControl .armSlaveAck (writeData b
          ((readStatus s).2.record (.memRead (s.tx.ptr + cursor) b))) with
        tx := { s.tx with cursor := cursor + 1 } } |>.answered .event 0x00#8)) ∧
    (s.tx.len ≤ cursor →
      exec .txEvent s = .next ((armControl .armSlaveNack (readStatus s).2).answered .event 0x00#8))

/-- `TX_BIND` (R234), `TX_AGAIN` (R235) and `TX_DONE` (R236). -/
def Obligations.TransmitterDescriptorCommands : Prop :=
  ∀ (s : State),
    (∀ ptr len, bufferFits s.widths ptr len = true → exec (.txBind ptr len) s =
      .next ({ s with tx := { ptr := ptr, len := len, cursor := 0 } } |>.answered s.flow 0x00#8)) ∧
    exec .txAgain s = .next ({ s with tx := { s.tx with cursor := 0 } } |>.answered s.flow 0x00#8) ∧
    (s.flow = .caller → exec .txDone s =
      .next (s.answered .caller (if s.tx.cursor = s.tx.len then 0x01#8 else 0x00#8)))

/-- Ownership (R26): the event steps mutate the cursor of their own descriptor and, for receive, bytes of the bound buffer:
never a byte at index `RX.len` or beyond; the transmitter never writes buffer memory. -/
def Obligations.EventStepsOwnOnlyTheirBuffer : Prop :=
  ∀ (s t : State),
    (exec .rxEvent s = .next t → t.rx.ptr = s.rx.ptr ∧ t.rx.len = s.rx.len ∧ t.tx = s.tx ∧
      ∀ a, (a < s.rx.ptr ∨ s.rx.ptr + s.rx.len ≤ a) → t.mem.read a = s.mem.read a) ∧
    (exec .txEvent s = .next t → t.tx.ptr = s.tx.ptr ∧ t.tx.len = s.tx.len ∧ t.rx = s.rx ∧ t.mem = s.mem)

/-- A complete transfer stays complete (R217, R301): once `RX.cursor == RX.len` no event writes buffer memory or `RX.cursor`,
whatever event steps run and in whatever order; once `TX.cursor == TX.len` none writes `TX.cursor`. -/
def Obligations.CompleteTransfersStay : Prop :=
  ∀ (s t : State), runEventFlow s = .next t →
    (s.rx.cursor = s.rx.len → t.rx = s.rx ∧ t.mem = s.mem) ∧ (s.tx.cursor = s.tx.len → t.tx = s.tx)

/-! ## Configuration (45_configuration.md) -/

/-- `SET_TIMEOUT` (R250) and `SET_BLB` (R251). -/
def Obligations.ConfigurationCommands : Prop :=
  ∀ (s : State), s.flow = .caller →
    (∀ time, timeFits s.widths time = true → exec (.setTimeout time) s = .next ({ s with cfgTimeout := time } |>.answered .caller 0x00#8)) ∧
    (∀ blb, exec (.setBlb blb) s = .next ({ s with cfgBlb := blb } |>.answered .caller 0x00#8))

/-! ## Who may issue what -/

/-- A command issued by a flow that may not issue it is refused (R112, U8), also where the event flow issues it between two
actions of a master command. -/
def Obligations.WrongFlowIsRefused : Prop :=
  (∀ (i : Instr) (s : State) (f : Flow), issuer i = some f → s.flow ≠ f → exec i s = .refused .wrongFlow) ∧
  ∀ (i : Instr) (s : State) (packet rest : Packet), issuer i = some .caller → decode s.widths packet = .ok (i, rest) →
    servePreemption (.command packet) s = .refused .wrongFlow

/-- A master command issued while one is running is refused (R304). -/
def Obligations.SecondMasterCommandIsRefused : Prop :=
  ∀ (i : Instr) (s : State) (r : Run), isMaster i = true → i.wellFormed s.widths = true → s.flow = .caller → s.seq = .run r →
    exec i s = .refused .masterBusy

/-- The caller's own accesses and its reading of `RSP`: an access that races with the event flow is refused, every other
access goes through (R76, U11), and there is no byte outside buffer memory (R60); `RSP` is not readable before the flow's
first command has completed (R50, U8), by either flow. The items through which the model's caller makes them are its own
(log 22). -/
def Obligations.RacingAccessesAreRefused : Prop :=
  (∀ (s : State) (a : Addr) (b : Byte) (rest : List Issue), s.seq = .idle →
    (s.issues = .callerRead a :: rest →
      (a < s.memSize → s.rx.cursor < s.rx.len ∧ s.rx.Holds a → step s = .refused .racingAccess) ∧
      (a < s.memSize → ¬ (s.rx.cursor < s.rx.len ∧ s.rx.Holds a) → step s = .next { s with issues := rest }) ∧
      (s.memSize ≤ a → step s = .fault (.noSuchByte a))) ∧
    (s.issues = .callerWrite a b :: rest →
      (a < s.memSize → s.tx.cursor < s.tx.len ∧ s.tx.Holds a → step s = .refused .racingAccess) ∧
      (a < s.memSize → ¬ (s.tx.cursor < s.tx.len ∧ s.tx.Holds a) →
        step s = .next { s with issues := rest, mem := s.mem.write a b }) ∧
      (s.memSize ≤ a → step s = .fault (.noSuchByte a))) ∧
    (s.issues = .readResponse .caller :: rest →
      (s.rspCaller.returned = false → step s = .refused .responseNotReady) ∧
      (s.rspCaller.returned = true → step s = .next { s with issues := rest }))) ∧
  ∀ (s : State) (rest : List Issue), s.issues = .readResponse .event :: rest →
    (s.rspEvent.returned = false → step s = .refused .responseNotReady) ∧
    (s.rspEvent.returned = true → step s = .next { s with issues := rest })

/-! ## The hardware event (60_exceptions.md) -/

/-- One hardware event, at the default `EVENT_DISPATCH` (R265 to R267): `RX_EVENT` then `TX_EVENT`, once each, then return to
the caller flow. The event that invokes the flow is the one `eventComplete` reports (R264), so the signal is set (log 3). It
is served between commands, and between two atomic actions of a master command where the environment has it there, any number
of times and with command packets and response reads of the flow among them (R112, R269, log 4); the interrupted command then
resumes exactly where it was. -/
def Obligations.HardwareEventRunsBothSteps : Prop :=
  (∀ (s : State), s.params.dispatch = .rxThenTx →
    runEventFlow s = andThen (exec .rxEvent { s with flow := .event, hw := { s.hw with event := true } })
      fun v => andThen (exec .txEvent v) fun w => .next { w with flow := .caller }) ∧
  (∀ (s : State) (rest : List Issue), s.issues = .hwEvent :: rest → step s = runEventFlow { s with issues := rest }) ∧
  ∀ (s : State) (r : Run) (ps : List Preemption) (later : Answers (List Preemption)),
    s.hw.interrupts.take = (ps, later) →
    (ps = [] → boundaryAction r s = action r { s with hw := { s.hw with interrupts := later } }) ∧
    (∀ qs, ps = .hwEvent :: qs →
      boundaryAction r s = andThen (runEventFlow { s with hw := { s.hw with interrupts := later } }) fun v =>
        andThen (servePreemptions qs v) (action r)) ∧
    (∀ qs packet, ps = .command packet :: qs →
      boundaryAction r s = andThen (servePreemption (.command packet) { s with hw := { s.hw with interrupts := later } })
        fun v => andThen (servePreemptions qs v) (action r)) ∧
    (∀ qs, ps = .readResponse :: qs → s.rspEvent.returned = true →
      boundaryAction r s = andThen (servePreemptions qs { s with hw := { s.hw with interrupts := later } }) (action r))

/-- The event flow uses only `RX`, `TX`, buffer memory and the collaborator: not `SEQ` with `CTX`, not the configuration, not
the caller's `RSP` (R266); the same of every command it may issue (R305), and of all it does at a boundary. What it does does
not depend on `SEQ` either: with another command running it does the same. -/
def Obligations.EventFlowTouchesOnlyItsOwn : Prop :=
  (∀ (s t : State), runEventFlow s = .next t →
    t.flow = .caller ∧ t.seq = s.seq ∧ t.cfgTimeout = s.cfgTimeout ∧ t.cfgBlb = s.cfgBlb ∧ t.rspCaller = s.rspCaller ∧
    t.params = s.params ∧ t.issues = s.issues ∧ t.hw.clock = s.hw.clock ∧ t.hw.interrupts = s.hw.interrupts) ∧
  (∀ (i : Instr) (s t : State), issuer i ≠ some .caller → s.flow = .event → exec i s = .next t →
    t.flow = .event ∧ t.seq = s.seq ∧ t.cfgTimeout = s.cfgTimeout ∧ t.cfgBlb = s.cfgBlb ∧ t.rspCaller = s.rspCaller ∧
    t.params = s.params ∧ t.issues = s.issues ∧ t.hw.clock = s.hw.clock ∧ t.hw.interrupts = s.hw.interrupts) ∧
  (∀ (ps : List Preemption) (s t : State), s.flow = .caller → servePreemptions ps s = .next t →
    t.flow = .caller ∧ t.seq = s.seq ∧ t.cfgTimeout = s.cfgTimeout ∧ t.cfgBlb = s.cfgBlb ∧ t.rspCaller = s.rspCaller ∧
    t.params = s.params ∧ t.issues = s.issues ∧ t.hw.clock = s.hw.clock ∧ t.hw.interrupts = s.hw.interrupts) ∧
  ∀ (ps : List Preemption) (s : State) (q : Seq),
    servePreemptions ps { s with seq := q } = andThen (servePreemptions ps s) fun t => .next { t with seq := q }

/-! ## Frames of the master commands -/

/-- The frame of every master command that no event interrupts: only `SEQ`, the caller's `RSP`, the collaborator, the record
and, for a receive into a buffer, bytes of that buffer change. A command that stores nothing leaves every byte of memory
unchanged; the stored bytes are those at the addresses the meaning computes with `bufferAddr` (R61, R150 to R185). The same of
every step that goes on with a running master command, with the buffer of its context. -/
def Obligations.MasterFrame : Prop :=
  (∀ (i : Instr) (s t : State), isMaster i = true → s.flow = .caller → s.hw.interrupts = .always [] → exec i s = .next t →
    t = { s with
      seq := t.seq, rspCaller := t.rspCaller, mem := t.mem, hw := t.hw, trace := t.trace, freeCount := t.freeCount } ∧
    t.hw.ctrl.others = s.hw.ctrl.others ∧ t.hw.interrupts = .always [] ∧
    (storesTo i = none → t.mem = s.mem ∧ ∀ a, t.mem.read a = s.mem.read a) ∧
    (∀ ptr len, storesTo i = some (ptr, len) → ∀ a, (∀ k, k < len → a ≠ bufferAddr ptr k) →
      t.mem.read a = s.mem.read a) ∧
    (s.seq = .idle → ∀ r, t.seq = .run r → r.storesTo = storesTo i)) ∧
  ∀ (s t : State) (r : Run), s.seq = .run r → s.Inv → s.flow = .caller → s.hw.interrupts = .always [] → s.Undisturbed →
    step s = .next t →
    t = { s with
      seq := t.seq, rspCaller := t.rspCaller, mem := t.mem, hw := t.hw, trace := t.trace, freeCount := t.freeCount } ∧
    t.hw.ctrl.others = s.hw.ctrl.others ∧ t.hw.interrupts = .always [] ∧
    (r.storesTo = none → t.mem = s.mem ∧ ∀ a, t.mem.read a = s.mem.read a) ∧
    (∀ ptr len, r.storesTo = some (ptr, len) → ∀ a, (∀ k, k < len → a ≠ bufferAddr ptr k) →
      t.mem.read a = s.mem.read a) ∧
    (∀ r', t.seq = .run r' → r'.op = r.op ∧ r'.storesTo = r.storesTo)

/-- The frame of every master command under any events: the event flow adds what it owns (R26, R266): the cursors, its own
`RSP`, bytes of the bound receive buffer, and the binding of a descriptor where it issues `RX_BIND` or `TX_BIND` (R112). The
same of every step with a running master command, whatever is issued (a reset apart): then what the event flow issues next is
one more packet of its. -/
def Obligations.MasterFrameUnderEvents : Prop :=
  (∀ (i : Instr) (s t : State), isMaster i = true → s.flow = .caller → exec i s = .next t →
    t.flow = .caller ∧ t.params = s.params ∧ t.cfgTimeout = s.cfgTimeout ∧ t.cfgBlb = s.cfgBlb ∧ t.issues = s.issues ∧
    t.hw.ctrl.others = s.hw.ctrl.others ∧
    ((t.rx.ptr = s.rx.ptr ∧ t.rx.len = s.rx.len) ∨ s.MayBindRx t.rx.ptr t.rx.len) ∧
    ((t.tx.ptr = s.tx.ptr ∧ t.tx.len = s.tx.len) ∨ s.MayBindTx t.tx.ptr t.tx.len) ∧
    ∀ a, (∀ ptr len, storesTo i = some (ptr, len) → ∀ k, k < len → a ≠ bufferAddr ptr k) → ¬ s.rx.Holds a →
      (∀ ptr len, s.MayBindRx ptr len → ¬ (ptr ≤ a ∧ a < ptr + len)) → t.mem.read a = s.mem.read a) ∧
  ∀ (s t : State) (r : Run), s.seq = .run r → s.Inv → s.flow = .caller → s.issues.head? ≠ some .resetEvent →
    step s = .next t →
    t.flow = .caller ∧ t.params = s.params ∧ t.cfgTimeout = s.cfgTimeout ∧ t.cfgBlb = s.cfgBlb ∧
    (t.issues = s.issues ∨ t.issues = s.issues.tail) ∧ t.hw.ctrl.others = s.hw.ctrl.others ∧
    ((t.rx.ptr = s.rx.ptr ∧ t.rx.len = s.rx.len) ∨ s.MayBindRx t.rx.ptr t.rx.len ∨ ∃ packet after rest,
      s.issues = .command .event packet :: rest ∧ decode s.widths packet = .ok (.rxBind t.rx.ptr t.rx.len, after)) ∧
    ((t.tx.ptr = s.tx.ptr ∧ t.tx.len = s.tx.len) ∨ s.MayBindTx t.tx.ptr t.tx.len ∨ ∃ packet after rest,
      s.issues = .command .event packet :: rest ∧ decode s.widths packet = .ok (.txBind t.tx.ptr t.tx.len, after)) ∧
    ∀ a, (∀ ptr len, r.storesTo = some (ptr, len) → ∀ k, k < len → a ≠ bufferAddr ptr k) → ¬ s.rx.Holds a →
      (∀ ptr len, s.MayBindRx ptr len → ¬ (ptr ≤ a ∧ a < ptr + len)) → t.mem.read a = s.mem.read a

/-! ## Reset (10_state.md R50; 70_reset_and_hazards.md) -/

/-- Reset, as an event (R290) and as the state a run starts from (R50): the values that the spec gives, for any parameters of
the machine. Reset makes no collaborator call. What the spec leaves unspecified is not stated. That reset is served at once,
also while a master command runs, and leaves the collaborator and what is issued after it alone is the model's choice
(log 23). -/
def Obligations.ResetValues : Prop :=
  (∀ (s : State) (rest : List Issue), s.issues = .resetEvent :: rest → ∃ t, step s = .next t ∧ t.issues = rest ∧
    t.seq = .idle ∧ t.flow = .caller ∧ t.cfgTimeout = s.params.resetTimeout ∧ t.cfgBlb = s.params.resetBlb ∧
    t.rx.len = 0 ∧ t.rx.cursor = 0 ∧ t.tx.len = 0 ∧ t.tx.cursor = 0 ∧ t.rspCaller.returned = false ∧
    t.rspEvent.returned = false ∧ t.trace = s.trace ∧ t.hw = s.hw) ∧
  ∀ (p : Params), (State.resetWith p).seq = .idle ∧ (State.resetWith p).flow = .caller ∧
    (State.resetWith p).cfgTimeout = p.resetTimeout ∧ (State.resetWith p).cfgBlb = p.resetBlb ∧
    (State.resetWith p).rx.len = 0 ∧ (State.resetWith p).rx.cursor = 0 ∧ (State.resetWith p).tx.len = 0 ∧
    (State.resetWith p).tx.cursor = 0 ∧ (State.resetWith p).rspCaller.returned = false ∧
    (State.resetWith p).rspEvent.returned = false ∧ (State.resetWith p).trace = []

/-- Right after reset, before any descriptor is bound (R291): `RX_AVAIL` and `TX_DONE` return 1; both kinds of addressing are
answered `ARM_SLAVE_NACK`; no event step touches buffer memory. -/
def Obligations.AfterReset : Prop :=
  ∀ (s r e : State), r = s.resetBlock → e = { r with flow := .event } →
    exec .rxAvail r = .next (r.answered .caller 0x01#8) ∧ exec .txDone r = .next (r.answered .caller 0x01#8) ∧
    (basicSlave (e.classify e.nextCode) = .addressedAsReceiver →
      exec .rxEvent e = .next ((armControl .armSlaveNack (readStatus e).2).answered .event 0x00#8)) ∧
    (basicSlave (e.classify e.nextCode) = .addressedAsTransmitter →
      exec .txEvent e = .next ((armControl .armSlaveNack (readStatus e).2).answered .event 0x00#8)) ∧
    (∀ t, runEventFlow r = .next t → t.mem = r.mem ∧ ∀ a ∈ t.trace.drop r.trace.length,
      (∀ n b, a ≠ .memRead n b) ∧ (∀ n b, a ≠ .memWrite n b))

/-! ## Invariants -/

/-- The invariant holds right after reset, for all legal parameters. -/
def Obligations.ResetMeetsTheInvariant : Prop :=
  State.reset.Inv ∧ ∀ p : Params, p.legal = true → (State.resetWith p).Inv

/-- Every step keeps the invariant: legal parameters (R7), memory in canonical form, `0 <= cursor <= length` for both descriptors (R24) and their
buffers inside memory (R36), `SEQ` where its step list can be (R30, R31), and a timeout of `TW` bits (R40). -/
def Obligations.StepKeepsTheInvariant : Prop :=
  ∀ (s t : State), s.Inv → step s = .next t → t.Inv

/-- From a state that meets the invariant no step of the block faults: the block has no exceptions (R260). The one fault is
the caller's own access to an address that does not exist (R60). -/
def Obligations.InvariantStatesDoNotFault : Prop :=
  ∀ (s : State) (f : Fault), s.Inv → step s = .fault f →
    ∃ a rest, f = .noSuchByte a ∧ s.memSize ≤ a ∧
      (s.issues = .callerRead a :: rest ∨ ∃ b, s.issues = .callerWrite a b :: rest)

/-- The record only grows, and every arm call that any step adds to it is one of the table of R13 (R65, R68). -/
def Obligations.OnlyTableArmCallsAreMade : Prop :=
  ∀ (s t : State), step s = .next t →
    ∃ tr, t.trace = s.trace ++ tr ∧ ∀ a, .arm a ∈ tr → a ∈ armTable

/-- Every step leaves the bits of the control register outside the four flags unchanged (R42, R303), the parameters of the
machine, and the caller flow in execution (R271). -/
def Obligations.StepPreservesWhatNoCommandWrites : Prop :=
  ∀ (s t : State), step s = .next t →
    t.hw.ctrl.others = s.hw.ctrl.others ∧ t.params = s.params ∧ (s.flow = .caller → t.flow = .caller)

/-- The configuration and the descriptors' buffers are written only by their own commands, or by reset: `CFG_TIMEOUT` by
`SET_TIMEOUT` (R40), `CFG_BLB` by `SET_BLB` (R41), `RX.ptr` and `RX.len` by `RX_BIND`, `TX.ptr` and `TX.len` by `TX_BIND`
(R25), which a flow issues next or the event flow issues between two actions of a master command. -/
def Obligations.RegistersAreWrittenByTheirCommands : Prop :=
  ∀ (s t : State), step s = .next t →
    (∃ rest, s.issues = .resetEvent :: rest) ∨
    ((t.cfgTimeout = s.cfgTimeout ∨ ∃ packet after rest, s.issues = .command .caller packet :: rest ∧
        decode s.widths packet = .ok (.setTimeout t.cfgTimeout, after)) ∧
      (t.cfgBlb = s.cfgBlb ∨ ∃ packet after rest, s.issues = .command .caller packet :: rest ∧
        decode s.widths packet = .ok (.setBlb t.cfgBlb, after)) ∧
      ((t.rx.ptr = s.rx.ptr ∧ t.rx.len = s.rx.len) ∨ s.MayBindRx t.rx.ptr t.rx.len ∨ (t.rx.cursor = 0 ∧
        ∃ f packet after rest, s.issues = .command f packet :: rest ∧
          decode s.widths packet = .ok (.rxBind t.rx.ptr t.rx.len, after))) ∧
      ((t.tx.ptr = s.tx.ptr ∧ t.tx.len = s.tx.len) ∨ s.MayBindTx t.tx.ptr t.tx.len ∨ (t.tx.cursor = 0 ∧
        ∃ f packet after rest, s.issues = .command f packet :: rest ∧
          decode s.widths packet = .ok (.txBind t.tx.ptr t.tx.len, after))))

/-- The three hangs (R306), each an execution that never ends and goes on sampling: the record grows at every step. A wait
without a deadline whose event never completes; a wait with a deadline under a clock that stands still; an endless sequence of
lost arbitrations under a retry policy (R192): `RetryWithinTimeout`, or `RetryExtendingTimeout` under a clock that stands
still; lost at every start, or at every address byte after a start that succeeds. -/
def Obligations.HangsAreInfiniteExecutions : Prop :=
  ∀ (s : State) (r : Run) (w : WaitPrim), s.seq = .run r → s.issues = [] → s.hw.interrupts = .always [] →
    (s.hw.event = false → (∀ e ∈ s.hw.raises.after :: (s.hw.raises.queue ++ s.hw.raises.loop), e = false) →
      r.phase = .poll w → r.ctx.dl = .noDeadline →
      ∀ k, ∃ (u : State) (n : Nat), core.run k s = .next u ∧ u.seq = s.seq ∧
        u.trace = s.trace ++ List.replicate n (.eventComplete false) ∧ k ≤ n) ∧
    (∀ d t : Time, s.hw.event = false → (∀ e ∈ s.hw.raises.after :: (s.hw.raises.queue ++ s.hw.raises.loop), e = false) →
      r.phase = .poll w → r.ctx.dl = .atTime d →
      (∀ x ∈ s.hw.clock.after :: (s.hw.clock.queue ++ s.hw.clock.loop), x % 2 ^ s.widths.tw = t) →
      s.hw.lastNow ≤ t → t ≤ d →
      ∀ k, ∃ (u : State) (tr : List Atom), core.run k s = .next u ∧ u.seq ≠ .idle ∧ u.trace = s.trace ++ tr ∧
        k ≤ tr.length ∧ ∀ a ∈ tr, a = .eventComplete false ∨ a = .now t) ∧
    ((∀ e ∈ s.hw.raises.after :: (s.hw.raises.queue ++ s.hw.raises.loop), e = true) → s.hw.codes.queue = [] →
      ((s.hw.codes.loop = [] ∧ s.classify (s.hw.codes.after % 2 ^ s.widths.rcw) = .arbLost) ∨
        ∃ c, s.hw.codes.loop = [c] ∧ s.classify (s.hw.codes.after % 2 ^ s.widths.rcw) = .start ∧
          s.classify (c % 2 ^ s.widths.rcw) = .arbLost) →
      (s.cfgBlb = .retryWithinTimeout ∨ (s.cfgBlb = .retryExtendingTimeout ∧ ∃ t : Time,
        (∀ x ∈ s.hw.clock.after :: (s.hw.clock.queue ++ s.hw.clock.loop), x % 2 ^ s.widths.tw = t) ∧ s.hw.lastNow ≤ t ∧
        (s.cfgTimeout = 2 ^ s.widths.tw - 1 ∨ t + s.cfgTimeout < 2 ^ s.widths.tw))) →
      r.op.isComposite = true → r.step = 0 → r.idx = 0 → r.phase = .begin →
      ∀ k, ∃ (u : State) (tr : List Atom), core.run k s = .next u ∧ u.seq ≠ .idle ∧ u.trace = s.trace ++ tr ∧
        k ≤ tr.length)
end

