-- ==== Sys2Proof/Laws/Memory.lean ====
section
/-! SUPPORT. The laws of buffer memory (20_memory.md R60): a read after a write, and the canonical form kept. -/

namespace Sys2Proof.Machine

/-- A weaker lower bound holds too. -/
theorem Memory.wfFrom_mono {size lo lo' : Nat} (h : lo' ≤ lo) {m : Memory} (hm : m.wfFrom size lo = true) :
    m.wfFrom size lo' = true := by
  cases m with
  | nil => rfl
  | cons c rest =>
    simp only [Memory.wfFrom, Bool.and_eq_true, decide_eq_true_eq] at hm ⊢
    exact ⟨⟨⟨by omega, hm.1.1.2⟩, hm.1.2⟩, hm.2⟩

/-- Below the lower bound nothing is listed. -/
theorem Memory.read_below {size lo a : Nat} (h : a < lo) {m : Memory} (hm : m.wfFrom size lo = true) :
    m.read a = Memory.unlisted := by
  induction m generalizing lo with
  | nil => rfl
  | cons c rest ih =>
    simp only [Memory.wfFrom, Bool.and_eq_true, decide_eq_true_eq] at hm
    simp only [Memory.read]
    rw [if_neg (by omega)]
    exact ih (by omega) hm.2

/-- An entry put in front keeps the canonical form. -/
theorem Memory.wfFrom_put {size lo a : Nat} {v : Byte} {m : Memory} (hlo : lo ≤ a) (ha : a < size)
    (hm : m.wfFrom size (a + 1) = true) : (Memory.put a v m).wfFrom size lo = true := by
  unfold Memory.put
  split
  · exact Memory.wfFrom_mono (by omega) hm
  · simp_all [Memory.wfFrom]

/-- A write keeps the canonical form, from any lower bound. -/
theorem Memory.wfFrom_write {size lo a : Nat} {v : Byte} {m : Memory} (hlo : lo ≤ a) (ha : a < size)
    (hm : m.wfFrom size lo = true) : (m.write a v).wfFrom size lo = true := by
  induction m generalizing lo with
  | nil => exact Memory.wfFrom_put hlo ha rfl
  | cons c rest ih =>
    obtain ⟨b, w⟩ := c
    simp only [Memory.wfFrom, Bool.and_eq_true, decide_eq_true_eq] at hm
    simp only [Memory.write]
    split
    · refine Memory.wfFrom_put hlo ha ?_
      simp only [Memory.wfFrom, Bool.and_eq_true, decide_eq_true_eq]
      exact ⟨⟨⟨by omega, hm.1.1.2⟩, hm.1.2⟩, hm.2⟩
    · split
      · rename_i h1 h2
        subst h2
        exact Memory.wfFrom_put hlo ha hm.2
      · simp only [Memory.wfFrom, Bool.and_eq_true, decide_eq_true_eq]
        exact ⟨⟨⟨hm.1.1.1, hm.1.1.2⟩, hm.1.2⟩, ih (by omega) hm.2⟩

/-- A write keeps the canonical form. -/
theorem Memory.wf_write {size a : Nat} {v : Byte} {m : Memory} (ha : a < size) (hm : m.wf size = true) :
    (m.write a v).wf size = true :=
  Memory.wfFrom_write (Nat.zero_le a) ha hm

/-- What an entry put in front reads as, at its own address, over a memory that lists only higher ones. -/
theorem Memory.read_put_same {size a : Nat} {v : Byte} {m : Memory} (hm : m.wfFrom size (a + 1) = true) :
    (Memory.put a v m).read a = v := by
  unfold Memory.put
  split
  · rename_i h
    rw [h]
    exact Memory.read_below (Nat.lt_succ_self a) hm
  · simp [Memory.read]

/-- An entry put in front does not change what another address reads as. -/
theorem Memory.read_put_other {a b : Nat} {v : Byte} {m : Memory} (h : a ≠ b) :
    (Memory.put a v m).read b = m.read b := by
  unfold Memory.put
  split
  · rfl
  · simp [Memory.read, h]

/-- A read after a write to the same address gives the value written. -/
theorem Memory.read_write_same {size lo a : Nat} {v : Byte} {m : Memory} (hm : m.wfFrom size lo = true) :
    (m.write a v).read a = v := by
  induction m generalizing lo with
  | nil => exact Memory.read_put_same (size := size) rfl
  | cons c rest ih =>
    obtain ⟨b, w⟩ := c
    simp only [Memory.wfFrom, Bool.and_eq_true, decide_eq_true_eq] at hm
    simp only [Memory.write]
    split
    · refine Memory.read_put_same (size := size) ?_
      simp only [Memory.wfFrom, Bool.and_eq_true, decide_eq_true_eq]
      exact ⟨⟨⟨by omega, hm.1.1.2⟩, hm.1.2⟩, hm.2⟩
    · split
      · rename_i h1 h2
        subst h2
        exact Memory.read_put_same hm.2
      · rename_i h1 h2
        simp only [Memory.read]
        rw [if_neg (fun h => h2 h.symm)]
        exact ih hm.2

/-- A write leaves every other address alone. -/
theorem Memory.read_write_other {a b : Nat} {v : Byte} {m : Memory} (h : a ≠ b) :
    (m.write a v).read b = m.read b := by
  induction m with
  | nil => exact Memory.read_put_other h
  | cons c rest ih =>
    obtain ⟨x, w⟩ := c
    simp only [Memory.write]
    split
    · exact Memory.read_put_other h
    · split
      · rename_i h1 h2
        subst h2
        rw [Memory.read_put_other h]
        simp [Memory.read, h]
      · simp only [Memory.read]
        split
        · rfl
        · exact ih

end Sys2Proof.Machine
end

