-- ==== Sys2Proof/Laws/State.lean ====
section
/-! SUPPORT. One lemma per field per update of the state, each true by rfl, so that no later proof unfolds a record
update. The lemmas of one operation stand together. -/

namespace Sys2Proof.Machine

/-! ### What the parameters and the collaborator determine -/

@[simp] theorem State.widths_eq (s : State) : s.widths = s.params.widths := rfl
@[simp] theorem State.memSize_eq (s : State) : s.memSize = 2 ^ s.params.widths.aw := rfl
@[simp] theorem State.nextCode_eq (s : State) : s.nextCode = s.hw.codes.take.1 % 2 ^ s.params.widths.rcw := rfl
@[simp] theorem State.nextTime_eq (s : State) : s.nextTime = s.hw.clock.take.1 % 2 ^ s.params.widths.tw := rfl

/-! ### State.record -/

@[simp] theorem State.record_params (a : Atom) (s : State) : (State.record a s).params = s.params := rfl
@[simp] theorem State.record_seq (a : Atom) (s : State) : (State.record a s).seq = s.seq := rfl
@[simp] theorem State.record_rspCaller (a : Atom) (s : State) : (State.record a s).rspCaller = s.rspCaller := rfl
@[simp] theorem State.record_rspEvent (a : Atom) (s : State) : (State.record a s).rspEvent = s.rspEvent := rfl
@[simp] theorem State.record_cfgTimeout (a : Atom) (s : State) : (State.record a s).cfgTimeout = s.cfgTimeout := rfl
@[simp] theorem State.record_cfgBlb (a : Atom) (s : State) : (State.record a s).cfgBlb = s.cfgBlb := rfl
@[simp] theorem State.record_rx (a : Atom) (s : State) : (State.record a s).rx = s.rx := rfl
@[simp] theorem State.record_tx (a : Atom) (s : State) : (State.record a s).tx = s.tx := rfl
@[simp] theorem State.record_mem (a : Atom) (s : State) : (State.record a s).mem = s.mem := rfl
@[simp] theorem State.record_flow (a : Atom) (s : State) : (State.record a s).flow = s.flow := rfl
@[simp] theorem State.record_hw (a : Atom) (s : State) : (State.record a s).hw = s.hw := rfl
@[simp] theorem State.record_issues (a : Atom) (s : State) : (State.record a s).issues = s.issues := rfl
@[simp] theorem State.record_trace (a : Atom) (s : State) : (State.record a s).trace = s.trace ++ [a] := rfl
@[simp] theorem State.record_freeCount (a : Atom) (s : State) : (State.record a s).freeCount = s.freeCount := rfl

/-! ### State.setRun -/

@[simp] theorem State.setRun_params (r : Run) (s : State) : (State.setRun r s).params = s.params := rfl
@[simp] theorem State.setRun_seq (r : Run) (s : State) : (State.setRun r s).seq = .run r := rfl
@[simp] theorem State.setRun_rspCaller (r : Run) (s : State) : (State.setRun r s).rspCaller = s.rspCaller := rfl
@[simp] theorem State.setRun_rspEvent (r : Run) (s : State) : (State.setRun r s).rspEvent = s.rspEvent := rfl
@[simp] theorem State.setRun_cfgTimeout (r : Run) (s : State) : (State.setRun r s).cfgTimeout = s.cfgTimeout := rfl
@[simp] theorem State.setRun_cfgBlb (r : Run) (s : State) : (State.setRun r s).cfgBlb = s.cfgBlb := rfl
@[simp] theorem State.setRun_rx (r : Run) (s : State) : (State.setRun r s).rx = s.rx := rfl
@[simp] theorem State.setRun_tx (r : Run) (s : State) : (State.setRun r s).tx = s.tx := rfl
@[simp] theorem State.setRun_mem (r : Run) (s : State) : (State.setRun r s).mem = s.mem := rfl
@[simp] theorem State.setRun_flow (r : Run) (s : State) : (State.setRun r s).flow = s.flow := rfl
@[simp] theorem State.setRun_hw (r : Run) (s : State) : (State.setRun r s).hw = s.hw := rfl
@[simp] theorem State.setRun_issues (r : Run) (s : State) : (State.setRun r s).issues = s.issues := rfl
@[simp] theorem State.setRun_trace (r : Run) (s : State) : (State.setRun r s).trace = s.trace := rfl
@[simp] theorem State.setRun_freeCount (r : Run) (s : State) : (State.setRun r s).freeCount = s.freeCount := rfl

/-! ### State.setIdle -/

@[simp] theorem State.setIdle_params (s : State) : (State.setIdle s).params = s.params := rfl
@[simp] theorem State.setIdle_seq (s : State) : (State.setIdle s).seq = .idle := rfl
@[simp] theorem State.setIdle_rspCaller (s : State) : (State.setIdle s).rspCaller = s.rspCaller := rfl
@[simp] theorem State.setIdle_rspEvent (s : State) : (State.setIdle s).rspEvent = s.rspEvent := rfl
@[simp] theorem State.setIdle_cfgTimeout (s : State) : (State.setIdle s).cfgTimeout = s.cfgTimeout := rfl
@[simp] theorem State.setIdle_cfgBlb (s : State) : (State.setIdle s).cfgBlb = s.cfgBlb := rfl
@[simp] theorem State.setIdle_rx (s : State) : (State.setIdle s).rx = s.rx := rfl
@[simp] theorem State.setIdle_tx (s : State) : (State.setIdle s).tx = s.tx := rfl
@[simp] theorem State.setIdle_mem (s : State) : (State.setIdle s).mem = s.mem := rfl
@[simp] theorem State.setIdle_flow (s : State) : (State.setIdle s).flow = s.flow := rfl
@[simp] theorem State.setIdle_hw (s : State) : (State.setIdle s).hw = s.hw := rfl
@[simp] theorem State.setIdle_issues (s : State) : (State.setIdle s).issues = s.issues := rfl
@[simp] theorem State.setIdle_trace (s : State) : (State.setIdle s).trace = s.trace := rfl
@[simp] theorem State.setIdle_freeCount (s : State) : (State.setIdle s).freeCount = s.freeCount := rfl

/-! ### State.setRxCursor -/

@[simp] theorem State.setRxCursor_params (n : Nat) (s : State) : (State.setRxCursor n s).params = s.params := rfl
@[simp] theorem State.setRxCursor_seq (n : Nat) (s : State) : (State.setRxCursor n s).seq = s.seq := rfl
@[simp] theorem State.setRxCursor_rspCaller (n : Nat) (s : State) :
    (State.setRxCursor n s).rspCaller = s.rspCaller := rfl
@[simp] theorem State.setRxCursor_rspEvent (n : Nat) (s : State) : (State.setRxCursor n s).rspEvent = s.rspEvent := rfl
@[simp] theorem State.setRxCursor_cfgTimeout (n : Nat) (s : State) :
    (State.setRxCursor n s).cfgTimeout = s.cfgTimeout := rfl
@[simp] theorem State.setRxCursor_cfgBlb (n : Nat) (s : State) : (State.setRxCursor n s).cfgBlb = s.cfgBlb := rfl
@[simp] theorem State.setRxCursor_rx (n : Nat) (s : State) :
    (State.setRxCursor n s).rx = { s.rx with cursor := n } := rfl
@[simp] theorem State.setRxCursor_tx (n : Nat) (s : State) : (State.setRxCursor n s).tx = s.tx := rfl
@[simp] theorem State.setRxCursor_mem (n : Nat) (s : State) : (State.setRxCursor n s).mem = s.mem := rfl
@[simp] theorem State.setRxCursor_flow (n : Nat) (s : State) : (State.setRxCursor n s).flow = s.flow := rfl
@[simp] theorem State.setRxCursor_hw (n : Nat) (s : State) : (State.setRxCursor n s).hw = s.hw := rfl
@[simp] theorem State.setRxCursor_issues (n : Nat) (s : State) : (State.setRxCursor n s).issues = s.issues := rfl
@[simp] theorem State.setRxCursor_trace (n : Nat) (s : State) : (State.setRxCursor n s).trace = s.trace := rfl
@[simp] theorem State.setRxCursor_freeCount (n : Nat) (s : State) :
    (State.setRxCursor n s).freeCount = s.freeCount := rfl

/-! ### State.setTxCursor -/

@[simp] theorem State.setTxCursor_params (n : Nat) (s : State) : (State.setTxCursor n s).params = s.params := rfl
@[simp] theorem State.setTxCursor_seq (n : Nat) (s : State) : (State.setTxCursor n s).seq = s.seq := rfl
@[simp] theorem State.setTxCursor_rspCaller (n : Nat) (s : State) :
    (State.setTxCursor n s).rspCaller = s.rspCaller := rfl
@[simp] theorem State.setTxCursor_rspEvent (n : Nat) (s : State) : (State.setTxCursor n s).rspEvent = s.rspEvent := rfl
@[simp] theorem State.setTxCursor_cfgTimeout (n : Nat) (s : State) :
    (State.setTxCursor n s).cfgTimeout = s.cfgTimeout := rfl
@[simp] theorem State.setTxCursor_cfgBlb (n : Nat) (s : State) : (State.setTxCursor n s).cfgBlb = s.cfgBlb := rfl
@[simp] theorem State.setTxCursor_rx (n : Nat) (s : State) : (State.setTxCursor n s).rx = s.rx := rfl
@[simp] theorem State.setTxCursor_tx (n : Nat) (s : State) :
    (State.setTxCursor n s).tx = { s.tx with cursor := n } := rfl
@[simp] theorem State.setTxCursor_mem (n : Nat) (s : State) : (State.setTxCursor n s).mem = s.mem := rfl
@[simp] theorem State.setTxCursor_flow (n : Nat) (s : State) : (State.setTxCursor n s).flow = s.flow := rfl
@[simp] theorem State.setTxCursor_hw (n : Nat) (s : State) : (State.setTxCursor n s).hw = s.hw := rfl
@[simp] theorem State.setTxCursor_issues (n : Nat) (s : State) : (State.setTxCursor n s).issues = s.issues := rfl
@[simp] theorem State.setTxCursor_trace (n : Nat) (s : State) : (State.setTxCursor n s).trace = s.trace := rfl
@[simp] theorem State.setTxCursor_freeCount (n : Nat) (s : State) :
    (State.setTxCursor n s).freeCount = s.freeCount := rfl

/-! ### State.setResponse -/

@[simp] theorem State.setResponse_params (r : Response) (s : State) : (State.setResponse r s).params = s.params := rfl
@[simp] theorem State.setResponse_seq (r : Response) (s : State) : (State.setResponse r s).seq = s.seq := rfl
@[simp] theorem State.setResponse_rspCaller (r : Response) (s : State) :
    (State.setResponse r s).rspCaller = if s.flow = .caller then r else s.rspCaller := rfl
@[simp] theorem State.setResponse_rspEvent (r : Response) (s : State) :
    (State.setResponse r s).rspEvent = if s.flow = .event then r else s.rspEvent := rfl
@[simp] theorem State.setResponse_cfgTimeout (r : Response) (s : State) :
    (State.setResponse r s).cfgTimeout = s.cfgTimeout := rfl
@[simp] theorem State.setResponse_cfgBlb (r : Response) (s : State) : (State.setResponse r s).cfgBlb = s.cfgBlb := rfl
@[simp] theorem State.setResponse_rx (r : Response) (s : State) : (State.setResponse r s).rx = s.rx := rfl
@[simp] theorem State.setResponse_tx (r : Response) (s : State) : (State.setResponse r s).tx = s.tx := rfl
@[simp] theorem State.setResponse_mem (r : Response) (s : State) : (State.setResponse r s).mem = s.mem := rfl
@[simp] theorem State.setResponse_flow (r : Response) (s : State) : (State.setResponse r s).flow = s.flow := rfl
@[simp] theorem State.setResponse_hw (r : Response) (s : State) : (State.setResponse r s).hw = s.hw := rfl
@[simp] theorem State.setResponse_issues (r : Response) (s : State) : (State.setResponse r s).issues = s.issues := rfl
@[simp] theorem State.setResponse_trace (r : Response) (s : State) : (State.setResponse r s).trace = s.trace := rfl
@[simp] theorem State.setResponse_freeCount (r : Response) (s : State) :
    (State.setResponse r s).freeCount = s.freeCount := rfl

/-! ### respond -/

@[simp] theorem respond_params (c : Byte) (s : State) : (respond c s).params = s.params := rfl
@[simp] theorem respond_seq (c : Byte) (s : State) : (respond c s).seq = s.seq := rfl
@[simp] theorem respond_rspCaller (c : Byte) (s : State) :
    (respond c s).rspCaller = if s.flow = .caller then ⟨c, Config.freeRspHigh s.freeCount, true⟩ else s.rspCaller := rfl
@[simp] theorem respond_rspEvent (c : Byte) (s : State) :
    (respond c s).rspEvent = if s.flow = .event then ⟨c, Config.freeRspHigh s.freeCount, true⟩ else s.rspEvent := rfl
@[simp] theorem respond_cfgTimeout (c : Byte) (s : State) : (respond c s).cfgTimeout = s.cfgTimeout := rfl
@[simp] theorem respond_cfgBlb (c : Byte) (s : State) : (respond c s).cfgBlb = s.cfgBlb := rfl
@[simp] theorem respond_rx (c : Byte) (s : State) : (respond c s).rx = s.rx := rfl
@[simp] theorem respond_tx (c : Byte) (s : State) : (respond c s).tx = s.tx := rfl
@[simp] theorem respond_mem (c : Byte) (s : State) : (respond c s).mem = s.mem := rfl
@[simp] theorem respond_flow (c : Byte) (s : State) : (respond c s).flow = s.flow := rfl
@[simp] theorem respond_hw (c : Byte) (s : State) : (respond c s).hw = s.hw := rfl
@[simp] theorem respond_issues (c : Byte) (s : State) : (respond c s).issues = s.issues := rfl
@[simp] theorem respond_trace (c : Byte) (s : State) : (respond c s).trace = s.trace := rfl
@[simp] theorem respond_freeCount (c : Byte) (s : State) : (respond c s).freeCount = s.freeCount + 1 := rfl

/-! ### respondByte -/

@[simp] theorem respondByte_params (b : Byte) (s : State) : (respondByte b s).params = s.params := rfl
@[simp] theorem respondByte_seq (b : Byte) (s : State) : (respondByte b s).seq = s.seq := rfl
@[simp] theorem respondByte_rspCaller (b : Byte) (s : State) :
    (respondByte b s).rspCaller = if s.flow = .caller then ⟨Status.success.code, b, true⟩ else s.rspCaller := rfl
@[simp] theorem respondByte_rspEvent (b : Byte) (s : State) :
    (respondByte b s).rspEvent = if s.flow = .event then ⟨Status.success.code, b, true⟩ else s.rspEvent := rfl
@[simp] theorem respondByte_cfgTimeout (b : Byte) (s : State) : (respondByte b s).cfgTimeout = s.cfgTimeout := rfl
@[simp] theorem respondByte_cfgBlb (b : Byte) (s : State) : (respondByte b s).cfgBlb = s.cfgBlb := rfl
@[simp] theorem respondByte_rx (b : Byte) (s : State) : (respondByte b s).rx = s.rx := rfl
@[simp] theorem respondByte_tx (b : Byte) (s : State) : (respondByte b s).tx = s.tx := rfl
@[simp] theorem respondByte_mem (b : Byte) (s : State) : (respondByte b s).mem = s.mem := rfl
@[simp] theorem respondByte_flow (b : Byte) (s : State) : (respondByte b s).flow = s.flow := rfl
@[simp] theorem respondByte_hw (b : Byte) (s : State) : (respondByte b s).hw = s.hw := rfl
@[simp] theorem respondByte_issues (b : Byte) (s : State) : (respondByte b s).issues = s.issues := rfl
@[simp] theorem respondByte_trace (b : Byte) (s : State) : (respondByte b s).trace = s.trace := rfl
@[simp] theorem respondByte_freeCount (b : Byte) (s : State) : (respondByte b s).freeCount = s.freeCount := rfl

/-! ### respondIllegal -/

@[simp] theorem respondIllegal_params (s : State) : (respondIllegal s).params = s.params := rfl
@[simp] theorem respondIllegal_seq (s : State) : (respondIllegal s).seq = s.seq := rfl
@[simp] theorem respondIllegal_rspCaller (s : State) :
    (respondIllegal s).rspCaller = if s.flow = .caller then ⟨0xFF#8, 0x00#8, true⟩ else s.rspCaller := rfl
@[simp] theorem respondIllegal_rspEvent (s : State) :
    (respondIllegal s).rspEvent = if s.flow = .event then ⟨0xFF#8, 0x00#8, true⟩ else s.rspEvent := rfl
@[simp] theorem respondIllegal_cfgTimeout (s : State) : (respondIllegal s).cfgTimeout = s.cfgTimeout := rfl
@[simp] theorem respondIllegal_cfgBlb (s : State) : (respondIllegal s).cfgBlb = s.cfgBlb := rfl
@[simp] theorem respondIllegal_rx (s : State) : (respondIllegal s).rx = s.rx := rfl
@[simp] theorem respondIllegal_tx (s : State) : (respondIllegal s).tx = s.tx := rfl
@[simp] theorem respondIllegal_mem (s : State) : (respondIllegal s).mem = s.mem := rfl
@[simp] theorem respondIllegal_flow (s : State) : (respondIllegal s).flow = s.flow := rfl
@[simp] theorem respondIllegal_hw (s : State) : (respondIllegal s).hw = s.hw := rfl
@[simp] theorem respondIllegal_issues (s : State) : (respondIllegal s).issues = s.issues := rfl
@[simp] theorem respondIllegal_trace (s : State) : (respondIllegal s).trace = s.trace := rfl
@[simp] theorem respondIllegal_freeCount (s : State) : (respondIllegal s).freeCount = s.freeCount := rfl

/-! ### armControl -/

@[simp] theorem armControl_params (a : Assign) (s : State) : (armControl a s).params = s.params := rfl
@[simp] theorem armControl_seq (a : Assign) (s : State) : (armControl a s).seq = s.seq := rfl
@[simp] theorem armControl_rspCaller (a : Assign) (s : State) : (armControl a s).rspCaller = s.rspCaller := rfl
@[simp] theorem armControl_rspEvent (a : Assign) (s : State) : (armControl a s).rspEvent = s.rspEvent := rfl
@[simp] theorem armControl_cfgTimeout (a : Assign) (s : State) : (armControl a s).cfgTimeout = s.cfgTimeout := rfl
@[simp] theorem armControl_cfgBlb (a : Assign) (s : State) : (armControl a s).cfgBlb = s.cfgBlb := rfl
@[simp] theorem armControl_rx (a : Assign) (s : State) : (armControl a s).rx = s.rx := rfl
@[simp] theorem armControl_tx (a : Assign) (s : State) : (armControl a s).tx = s.tx := rfl
@[simp] theorem armControl_mem (a : Assign) (s : State) : (armControl a s).mem = s.mem := rfl
@[simp] theorem armControl_flow (a : Assign) (s : State) : (armControl a s).flow = s.flow := rfl
@[simp] theorem armControl_hw (a : Assign) (s : State) :
    (armControl a s).hw = { s.hw with
      ctrl := s.hw.ctrl.apply a
      event := if a.intClear = some true then false else s.hw.event } := rfl
@[simp] theorem armControl_issues (a : Assign) (s : State) : (armControl a s).issues = s.issues := rfl
@[simp] theorem armControl_trace (a : Assign) (s : State) : (armControl a s).trace = s.trace ++ [.arm a] := rfl
@[simp] theorem armControl_freeCount (a : Assign) (s : State) : (armControl a s).freeCount = s.freeCount := rfl

/-! ### writeData -/

@[simp] theorem writeData_params (b : Byte) (s : State) : (writeData b s).params = s.params := rfl
@[simp] theorem writeData_seq (b : Byte) (s : State) : (writeData b s).seq = s.seq := rfl
@[simp] theorem writeData_rspCaller (b : Byte) (s : State) : (writeData b s).rspCaller = s.rspCaller := rfl
@[simp] theorem writeData_rspEvent (b : Byte) (s : State) : (writeData b s).rspEvent = s.rspEvent := rfl
@[simp] theorem writeData_cfgTimeout (b : Byte) (s : State) : (writeData b s).cfgTimeout = s.cfgTimeout := rfl
@[simp] theorem writeData_cfgBlb (b : Byte) (s : State) : (writeData b s).cfgBlb = s.cfgBlb := rfl
@[simp] theorem writeData_rx (b : Byte) (s : State) : (writeData b s).rx = s.rx := rfl
@[simp] theorem writeData_tx (b : Byte) (s : State) : (writeData b s).tx = s.tx := rfl
@[simp] theorem writeData_mem (b : Byte) (s : State) : (writeData b s).mem = s.mem := rfl
@[simp] theorem writeData_flow (b : Byte) (s : State) : (writeData b s).flow = s.flow := rfl
@[simp] theorem writeData_hw (b : Byte) (s : State) : (writeData b s).hw = { s.hw with dataReg := b } := rfl
@[simp] theorem writeData_issues (b : Byte) (s : State) : (writeData b s).issues = s.issues := rfl
@[simp] theorem writeData_trace (b : Byte) (s : State) : (writeData b s).trace = s.trace ++ [.writeData b] := rfl
@[simp] theorem writeData_freeCount (b : Byte) (s : State) : (writeData b s).freeCount = s.freeCount := rfl

/-! ### eventComplete -/

@[simp] theorem eventComplete_params (s : State) : ((eventComplete s).2).params = s.params := rfl
@[simp] theorem eventComplete_seq (s : State) : ((eventComplete s).2).seq = s.seq := rfl
@[simp] theorem eventComplete_rspCaller (s : State) : ((eventComplete s).2).rspCaller = s.rspCaller := rfl
@[simp] theorem eventComplete_rspEvent (s : State) : ((eventComplete s).2).rspEvent = s.rspEvent := rfl
@[simp] theorem eventComplete_cfgTimeout (s : State) : ((eventComplete s).2).cfgTimeout = s.cfgTimeout := rfl
@[simp] theorem eventComplete_cfgBlb (s : State) : ((eventComplete s).2).cfgBlb = s.cfgBlb := rfl
@[simp] theorem eventComplete_rx (s : State) : ((eventComplete s).2).rx = s.rx := rfl
@[simp] theorem eventComplete_tx (s : State) : ((eventComplete s).2).tx = s.tx := rfl
@[simp] theorem eventComplete_mem (s : State) : ((eventComplete s).2).mem = s.mem := rfl
@[simp] theorem eventComplete_flow (s : State) : ((eventComplete s).2).flow = s.flow := rfl
@[simp] theorem eventComplete_hw (s : State) :
    ((eventComplete s).2).hw = { s.hw with event := s.hw.eventNow, raises := s.hw.raises.take.2 } := rfl
@[simp] theorem eventComplete_issues (s : State) : ((eventComplete s).2).issues = s.issues := rfl
@[simp] theorem eventComplete_trace (s : State) :
    ((eventComplete s).2).trace = s.trace ++ [.eventComplete s.hw.eventNow] := rfl
@[simp] theorem eventComplete_freeCount (s : State) : ((eventComplete s).2).freeCount = s.freeCount := rfl

/-! ### readStatus -/

@[simp] theorem readStatus_params (s : State) : ((readStatus s).2).params = s.params := rfl
@[simp] theorem readStatus_seq (s : State) : ((readStatus s).2).seq = s.seq := rfl
@[simp] theorem readStatus_rspCaller (s : State) : ((readStatus s).2).rspCaller = s.rspCaller := rfl
@[simp] theorem readStatus_rspEvent (s : State) : ((readStatus s).2).rspEvent = s.rspEvent := rfl
@[simp] theorem readStatus_cfgTimeout (s : State) : ((readStatus s).2).cfgTimeout = s.cfgTimeout := rfl
@[simp] theorem readStatus_cfgBlb (s : State) : ((readStatus s).2).cfgBlb = s.cfgBlb := rfl
@[simp] theorem readStatus_rx (s : State) : ((readStatus s).2).rx = s.rx := rfl
@[simp] theorem readStatus_tx (s : State) : ((readStatus s).2).tx = s.tx := rfl
@[simp] theorem readStatus_mem (s : State) : ((readStatus s).2).mem = s.mem := rfl
@[simp] theorem readStatus_flow (s : State) : ((readStatus s).2).flow = s.flow := rfl
@[simp] theorem readStatus_hw (s : State) : ((readStatus s).2).hw = { s.hw with codes := s.hw.codes.take.2 } := rfl
@[simp] theorem readStatus_issues (s : State) : ((readStatus s).2).issues = s.issues := rfl
@[simp] theorem readStatus_trace (s : State) :
    ((readStatus s).2).trace = s.trace ++ [.readStatus s.nextCode] := rfl
@[simp] theorem readStatus_freeCount (s : State) : ((readStatus s).2).freeCount = s.freeCount := rfl

/-! ### readData -/

@[simp] theorem readData_params (s : State) : ((readData s).2).params = s.params := rfl
@[simp] theorem readData_seq (s : State) : ((readData s).2).seq = s.seq := rfl
@[simp] theorem readData_rspCaller (s : State) : ((readData s).2).rspCaller = s.rspCaller := rfl
@[simp] theorem readData_rspEvent (s : State) : ((readData s).2).rspEvent = s.rspEvent := rfl
@[simp] theorem readData_cfgTimeout (s : State) : ((readData s).2).cfgTimeout = s.cfgTimeout := rfl
@[simp] theorem readData_cfgBlb (s : State) : ((readData s).2).cfgBlb = s.cfgBlb := rfl
@[simp] theorem readData_rx (s : State) : ((readData s).2).rx = s.rx := rfl
@[simp] theorem readData_tx (s : State) : ((readData s).2).tx = s.tx := rfl
@[simp] theorem readData_mem (s : State) : ((readData s).2).mem = s.mem := rfl
@[simp] theorem readData_flow (s : State) : ((readData s).2).flow = s.flow := rfl
@[simp] theorem readData_hw (s : State) : ((readData s).2).hw = { s.hw with received := s.hw.received.take.2 } := rfl
@[simp] theorem readData_issues (s : State) : ((readData s).2).issues = s.issues := rfl
@[simp] theorem readData_trace (s : State) : ((readData s).2).trace = s.trace ++ [.readData s.hw.received.take.1] := rfl
@[simp] theorem readData_freeCount (s : State) : ((readData s).2).freeCount = s.freeCount := rfl

/-! ### enterEventFlow -/

@[simp] theorem enterEventFlow_params (s : State) : (enterEventFlow s).params = s.params := rfl
@[simp] theorem enterEventFlow_seq (s : State) : (enterEventFlow s).seq = s.seq := rfl
@[simp] theorem enterEventFlow_rspCaller (s : State) : (enterEventFlow s).rspCaller = s.rspCaller := rfl
@[simp] theorem enterEventFlow_rspEvent (s : State) : (enterEventFlow s).rspEvent = s.rspEvent := rfl
@[simp] theorem enterEventFlow_cfgTimeout (s : State) : (enterEventFlow s).cfgTimeout = s.cfgTimeout := rfl
@[simp] theorem enterEventFlow_cfgBlb (s : State) : (enterEventFlow s).cfgBlb = s.cfgBlb := rfl
@[simp] theorem enterEventFlow_rx (s : State) : (enterEventFlow s).rx = s.rx := rfl
@[simp] theorem enterEventFlow_tx (s : State) : (enterEventFlow s).tx = s.tx := rfl
@[simp] theorem enterEventFlow_mem (s : State) : (enterEventFlow s).mem = s.mem := rfl
@[simp] theorem enterEventFlow_flow (s : State) : (enterEventFlow s).flow = .event := rfl
@[simp] theorem enterEventFlow_hw (s : State) : (enterEventFlow s).hw = { s.hw with event := true } := rfl
@[simp] theorem enterEventFlow_issues (s : State) : (enterEventFlow s).issues = s.issues := rfl
@[simp] theorem enterEventFlow_trace (s : State) : (enterEventFlow s).trace = s.trace := rfl
@[simp] theorem enterEventFlow_freeCount (s : State) : (enterEventFlow s).freeCount = s.freeCount := rfl

/-! ### leaveEventFlow -/

@[simp] theorem leaveEventFlow_params (s : State) : (leaveEventFlow s).params = s.params := rfl
@[simp] theorem leaveEventFlow_seq (s : State) : (leaveEventFlow s).seq = s.seq := rfl
@[simp] theorem leaveEventFlow_rspCaller (s : State) : (leaveEventFlow s).rspCaller = s.rspCaller := rfl
@[simp] theorem leaveEventFlow_rspEvent (s : State) : (leaveEventFlow s).rspEvent = s.rspEvent := rfl
@[simp] theorem leaveEventFlow_cfgTimeout (s : State) : (leaveEventFlow s).cfgTimeout = s.cfgTimeout := rfl
@[simp] theorem leaveEventFlow_cfgBlb (s : State) : (leaveEventFlow s).cfgBlb = s.cfgBlb := rfl
@[simp] theorem leaveEventFlow_rx (s : State) : (leaveEventFlow s).rx = s.rx := rfl
@[simp] theorem leaveEventFlow_tx (s : State) : (leaveEventFlow s).tx = s.tx := rfl
@[simp] theorem leaveEventFlow_mem (s : State) : (leaveEventFlow s).mem = s.mem := rfl
@[simp] theorem leaveEventFlow_flow (s : State) : (leaveEventFlow s).flow = .caller := rfl
@[simp] theorem leaveEventFlow_hw (s : State) : (leaveEventFlow s).hw = s.hw := rfl
@[simp] theorem leaveEventFlow_issues (s : State) : (leaveEventFlow s).issues = s.issues := rfl
@[simp] theorem leaveEventFlow_trace (s : State) : (leaveEventFlow s).trace = s.trace := rfl
@[simp] theorem leaveEventFlow_freeCount (s : State) : (leaveEventFlow s).freeCount = s.freeCount := rfl

/-! ### State.resetBlock -/

@[simp] theorem State.resetBlock_params (s : State) : (State.resetBlock s).params = s.params := rfl
@[simp] theorem State.resetBlock_seq (s : State) : (State.resetBlock s).seq = .idle := rfl
@[simp] theorem State.resetBlock_rspCaller (s : State) : (State.resetBlock s).rspCaller = .atReset := rfl
@[simp] theorem State.resetBlock_rspEvent (s : State) : (State.resetBlock s).rspEvent = .atReset := rfl
@[simp] theorem State.resetBlock_cfgTimeout (s : State) : (State.resetBlock s).cfgTimeout = s.params.resetTimeout := rfl
@[simp] theorem State.resetBlock_cfgBlb (s : State) : (State.resetBlock s).cfgBlb = s.params.resetBlb := rfl
@[simp] theorem State.resetBlock_rx (s : State) : (State.resetBlock s).rx = .atReset := rfl
@[simp] theorem State.resetBlock_tx (s : State) : (State.resetBlock s).tx = .atReset := rfl
@[simp] theorem State.resetBlock_mem (s : State) : (State.resetBlock s).mem = s.mem := rfl
@[simp] theorem State.resetBlock_flow (s : State) : (State.resetBlock s).flow = .caller := rfl
@[simp] theorem State.resetBlock_hw (s : State) : (State.resetBlock s).hw = s.hw := rfl
@[simp] theorem State.resetBlock_issues (s : State) : (State.resetBlock s).issues = s.issues := rfl
@[simp] theorem State.resetBlock_trace (s : State) : (State.resetBlock s).trace = s.trace := rfl
@[simp] theorem State.resetBlock_freeCount (s : State) : (State.resetBlock s).freeCount = s.freeCount := rfl

/-! ### The values the inputs answer -/

@[simp] theorem eventComplete_fst (s : State) : (eventComplete s).1 = s.hw.eventNow := rfl
@[simp] theorem readStatus_fst (s : State) : (readStatus s).1 = s.nextCode := rfl
@[simp] theorem readData_fst (s : State) : (readData s).1 = s.hw.received.take.1 := rfl

/-! ### Answers -/

theorem Answers.take_of_cons {α : Type} {a : Answers α} {y : α} {ys : List α} (h : a.queue = y :: ys) :
    a.take = (y, { a with queue := ys }) := by
  simp [Answers.take, h]

theorem Answers.take_of_nil {α : Type} {a : Answers α} (h : a.queue = []) :
    a.take = (a.after, { a with queue := a.loop }) := by
  simp [Answers.take, h]

theorem Answers.take_fst {α : Type} (a : Answers α) : a.take.1 = a.queue.headD a.after := by
  cases h : a.queue <;> simp [Answers.take, h]

/-- Without a loop the queue only gets shorter. -/
theorem Answers.take_queue {α : Type} {a : Answers α} (h : a.loop = []) : a.take.2.queue = a.queue.tail := by
  cases hq : a.queue <;> simp [Answers.take, hq, h]

@[simp] theorem Answers.take_after {α : Type} (a : Answers α) : a.take.2.after = a.after := by
  cases h : a.queue <;> simp [Answers.take, h]

@[simp] theorem Answers.take_loop {α : Type} (a : Answers α) : a.take.2.loop = a.loop := by
  cases h : a.queue <;> simp [Answers.take, h]

@[simp] theorem Answers.always_take {α : Type} (x : α) : (Answers.always x).take = (x, .always x) := rfl

/-! ### Sequencing -/

section
variable {α β : Type}

@[simp] theorem andThen_next (a : α) (f : α → Host.Outcome β Fault Refusal) : andThen (.next a) f = f a := rfl
@[simp] theorem andThen_fault (r : Fault) (f : α → Host.Outcome β Fault Refusal) :
    andThen (.fault r) f = .fault r := rfl
@[simp] theorem andThen_refused (r : Refusal) (f : α → Host.Outcome β Fault Refusal) :
    andThen (.refused r) f = .refused r := rfl

/-- A sequence answers next only if both parts do. -/
theorem andThen_eq_next {o : Host.Outcome α Fault Refusal} {f : α → Host.Outcome β Fault Refusal} {b : β} :
    andThen o f = .next b ↔ ∃ a, o = .next a ∧ f a = .next b := by
  cases o <;> simp

/-- A sequence faults only if its first part does, or its second part does after the first has answered. -/
theorem andThen_eq_fault {o : Host.Outcome α Fault Refusal} {f : α → Host.Outcome β Fault Refusal} {r : Fault} :
    andThen o f = .fault r ↔ o = .fault r ∨ ∃ a, o = .next a ∧ f a = .fault r := by
  cases o <;> simp

/-- A sequence refuses only if its first part does, or its second part does after the first has answered. -/
theorem andThen_eq_refused {o : Host.Outcome α Fault Refusal} {f : α → Host.Outcome β Fault Refusal} {r : Refusal} :
    andThen o f = .refused r ↔ o = .refused r ∨ ∃ a, o = .next a ∧ f a = .refused r := by
  cases o <;> simp

end

/-! ### Who issues what -/

@[simp] theorem onlyFlow_same (s : State) (k : Result) : onlyFlow s.flow s k = k := by simp [onlyFlow]

/-- A command that one flow only may issue answers next only in that flow. -/
theorem onlyFlow_eq_next {f : Flow} {s t : State} {k : Result} : onlyFlow f s k = .next t ↔ s.flow = f ∧ k = .next t := by
  unfold onlyFlow; split <;> simp_all

end Sys2Proof.Machine
end

