-- ==== Sys2Proof/Laws/Ops.lean ====
section
/-! SUPPORT. What each shared operation can do, said once: the buffer accesses, the clock, the deadline of a composite, the
event steps, the boundary before an atomic action. -/

namespace Sys2Proof.Machine

/-! ## Buffer accesses and the clock -/

/-- A buffer read answers next exactly when the byte exists; it reads memory and records the access. -/
theorem memRead_eq_next {a : Nat} {s : State} {p : Byte × State} :
    memRead a s = .next p ↔ a < s.memSize ∧ p = (s.mem.read a, s.record (.memRead a (s.mem.read a))) := by
  unfold memRead; split <;> simp_all [eq_comm]

/-- A buffer write answers next exactly when the byte exists; it writes memory and records the access. -/
theorem memWrite_eq_next {a : Nat} {v : Byte} {s t : State} :
    memWrite a v s = .next t ↔
      a < s.memSize ∧ t = State.record (.memWrite a v) { s with mem := s.mem.write a v } := by
  unfold memWrite; split <;> simp_all [eq_comm]

/-- A clock sample answers next exactly when the clock has not gone back (R67). -/
theorem now_eq_next {s : State} {p : Time × State} :
    now s = .next p ↔ s.hw.lastNow ≤ s.nextTime ∧
      p = (s.nextTime, State.record (.now s.nextTime)
        { s with hw := { s.hw with clock := s.hw.clock.take.2, lastNow := s.nextTime } }) := by
  unfold now
  split
  · rename_i h
    exact ⟨nofun, fun h' => absurd h (Nat.not_lt.2 h'.1)⟩
  · rename_i h
    rw [Host.Outcome.next.injEq, eq_comm]
    exact (and_iff_right (Nat.not_lt.1 h)).symm

/-- The deadline of a composite (R180, R188): a clock sample, then the sum, when it stays below `2^TW` (R10). -/
theorem sampleDeadline_eq_next {s t : State} {k : Deadline → State → State} :
    sampleDeadline s k = .next t ↔
      ∃ p dl, now s = .next p ∧ mkDeadline s.widths p.1 s.cfgTimeout = some dl ∧ k dl p.2 = t := by
  unfold sampleDeadline
  rw [andThen_eq_next]
  constructor
  · rintro ⟨p, hp, h⟩
    split at h
    · rename_i dl hd
      exact ⟨p, dl, hp, hd, by simpa using h⟩
    · cases h
  · rintro ⟨p, dl, hp, hd, h⟩
    exact ⟨p, hp, by rw [hd]; exact congrArg _ h⟩

/-! ## The event steps -/

/-- What an event step of the receiver can do (R210 to R213): ignore the event, accept or decline an addressing, decline a
byte, or store one. -/
theorem rxEventStep_cases {s t : State} (h : rxEventStep s = .next t) :
    (t = respond 0#8 (readStatus s).2) ∨
    (t = respond 0#8 (armControl .armSlaveNack (readStatus s).2)) ∨
    (s.rx.pending = true ∧ t = respond 0#8 (armControl .armSlaveAck ((readStatus s).2.setRxCursor 0))) ∨
    (s.rx.pending = true ∧ bufferAddr s.rx.ptr s.rx.cursor < s.memSize ∧
      t = respond 0#8 (rxArmNext ((State.record
        (.memWrite (bufferAddr s.rx.ptr s.rx.cursor) (readData (readStatus s).2).1)
        { (readData (readStatus s).2).2 with
          mem := s.mem.write (bufferAddr s.rx.ptr s.rx.cursor) (readData (readStatus s).2).1 }).setRxCursor
        (s.rx.cursor + 1)))) := by
  unfold rxEventStep at h
  obtain ⟨u, hu, ht⟩ := andThen_eq_next.1 h
  replace ht : t = respond 0#8 u := by simpa [eq_comm] using ht
  subst ht
  cases hc : basicSlave (s.classify (readStatus s).1) <;> simp only [hc, rxReact] at hu
  case addressedAsReceiver =>
    replace hu : u = rxAddressed (readStatus s).2 := by simpa [eq_comm] using hu
    subst hu
    unfold rxAddressed
    split
    · rename_i hp
      exact .inr (.inr (.inl ⟨by simpa using hp, rfl⟩))
    · exact .inr (.inl rfl)
  case dataAccepted =>
    unfold rxDataAccepted at hu
    split at hu
    · rename_i hp
      obtain ⟨v, hv, hu⟩ := andThen_eq_next.1 hu
      obtain ⟨ha, rfl⟩ := memWrite_eq_next.1 hv
      replace hu := (Host.Outcome.next.injEq _ _).mp hu
      subst hu
      exact .inr (.inr (.inr ⟨by simpa using hp, by simpa using ha, by simp⟩))
    · replace hu := (Host.Outcome.next.injEq _ _).mp hu
      subst hu
      exact .inr (.inl rfl)
  all_goals
    replace hu := (Host.Outcome.next.injEq _ _).mp hu
    subst hu
    exact .inl rfl

/-- What the byte-emission step can do (R232): decline, or hand out one byte. -/
theorem txEmit_cases {s t : State} (h : txEmit s = .next t) :
    (s.tx.pending = false ∧ t = armControl .armSlaveNack s) ∨
    (s.tx.pending = true ∧ bufferAddr s.tx.ptr s.tx.cursor < s.memSize ∧
      t = (armControl .armSlaveAck (writeData (s.mem.read (bufferAddr s.tx.ptr s.tx.cursor))
        (s.record (.memRead (bufferAddr s.tx.ptr s.tx.cursor) (s.mem.read (bufferAddr s.tx.ptr s.tx.cursor)))))).setTxCursor
        (s.tx.cursor + 1)) := by
  unfold txEmit at h
  split at h
  · rename_i hp
    obtain ⟨p, hv, ht⟩ := andThen_eq_next.1 h
    obtain ⟨ha, rfl⟩ := memRead_eq_next.1 hv
    exact .inr ⟨hp, ha, by simpa [eq_comm] using ht⟩
  · rename_i hp
    exact .inl ⟨by simpa using hp, by simpa [eq_comm] using h⟩

/-- What an event step of the transmitter can do (R230 to R233): ignore the event, or emit from the cursor it has or from
0. -/
theorem txEventStep_cases {s t : State} (h : txEventStep s = .next t) :
    (t = respond 0#8 (readStatus s).2) ∨
    (∃ u, txEmit (readStatus s).2 = .next u ∧ t = respond 0#8 u) ∨
    (s.tx.pending = true ∧ ∃ u, txEmit ((readStatus s).2.setTxCursor 0) = .next u ∧ t = respond 0#8 u) := by
  unfold txEventStep at h
  obtain ⟨u, hu, ht⟩ := andThen_eq_next.1 h
  replace ht : t = respond 0#8 u := by simpa [eq_comm] using ht
  subst ht
  cases hc : basicSlave (s.classify (readStatus s).1) <;> simp only [hc, txReact] at hu
  case addressedAsTransmitter =>
    unfold txAddressed at hu
    split at hu
    · rename_i hp
      exact .inr (.inr ⟨by simpa using hp, u, hu, rfl⟩)
    · exact .inr (.inl ⟨u, hu, rfl⟩)
  case nextDataAccepted => exact .inr (.inl ⟨u, hu, rfl⟩)
  all_goals
    replace hu := (Host.Outcome.next.injEq _ _).mp hu
    subst hu
    exact .inl rfl

/-! ## Runs of the event flow and of actions -/

/-- With nothing scheduled for it the event flow does nothing at a boundary (R266). -/
theorem atBoundary_quiet {s : State} (h : s.hw.interrupts = .always []) : atBoundary s = .next s := by
  obtain ⟨params, seq, rc, re, ct, cb, rx, tx, mem, flow, hw, is, tr, fc⟩ := s
  obtain ⟨_, _, _, _, _, _, _, _, ints⟩ := hw
  simp only at h
  subst h
  rfl

/-- No action is left when the sequencer is idle. -/
theorem advance_idle {s : State} (h : s.seq = .idle) (n : Nat) : advance n s = .next s := by
  cases n <;> simp [advance, h]

/-- One action of a running command, the event flow not invoked. -/
theorem advance_succ {s : State} {r : Run} (h : s.seq = .run r) (hq : s.hw.interrupts = .always []) (n : Nat) :
    advance (n + 1) s = andThen (action r s) (advance n) := by
  simp [advance, h, boundaryAction, atBoundary_quiet hq]

/-- Two groups of actions in a row are one (log 1). -/
theorem advance_add (m n : Nat) (s : State) : advance (m + n) s = andThen (advance m s) (advance n) := by
  induction m generalizing s with
  | zero => simp [advance]
  | succ m ih =>
    rw [Nat.succ_add]
    cases hs : s.seq with
    | idle => simp [advance_idle hs]
    | run r =>
      simp only [advance, hs]
      cases hb : boundaryAction r s with
      | next u => simpa using ih u
      | fault f => rfl
      | refused f => rfl

end Sys2Proof.Machine
end

