-- ==== Sys2Proof/Laws/Engine.lean ====
section
/-! SUPPORT. The engine's actions, said once for each position inside a primitive; what the calls of a wait keep; how many
actions a wait takes (41_master_engine.md R141, R142). -/

namespace Sys2Proof.Machine

/-! ## Runs -/

@[simp] theorem Run.goto_goto (r : Run) (p q : Phase) : (r.goto p).goto q = r.goto q := rfl
@[simp] theorem Run.goto_op (r : Run) (p : Phase) : (r.goto p).op = r.op := rfl
@[simp] theorem Run.goto_step (r : Run) (p : Phase) : (r.goto p).step = r.step := rfl
@[simp] theorem Run.goto_idx (r : Run) (p : Phase) : (r.goto p).idx = r.idx := rfl
@[simp] theorem Run.goto_ctx (r : Run) (p : Phase) : (r.goto p).ctx = r.ctx := rfl
@[simp] theorem Run.goto_phase (r : Run) (p : Phase) : (r.goto p).phase = p := rfl
@[simp] theorem Run.goto_got (r : Run) (p : Phase) : (r.goto p).got = r.got := rfl
@[simp] theorem Run.goto_prim (r : Run) (p : Phase) : (r.goto p).prim? = r.prim? := rfl
@[simp] theorem Run.goto_nextStep (r : Run) (p : Phase) : (r.goto p).nextStep = r.nextStep := rfl
@[simp] theorem Run.goto_nextByte (r : Run) (p : Phase) : (r.goto p).nextByte = r.nextByte := rfl
@[simp] theorem Run.goto_restart (r : Run) (p : Phase) : (r.goto p).restart = r.restart := rfl

/-- A run is itself at its own phase. -/
theorem Run.goto_self (r : Run) : r.goto r.phase = r := rfl

/-! ## A state whose sequencer is set: the calls do not look at it -/

@[simp] theorem State.setRun_setRun (r r' : Run) (s : State) : (s.setRun r).setRun r' = s.setRun r' := rfl
@[simp] theorem State.setRun_setIdle (r : Run) (s : State) : (s.setRun r).setIdle = s.setIdle := rfl
@[simp] theorem armControl_setRun (a : Assign) (r : Run) (s : State) :
    armControl a (s.setRun r) = (armControl a s).setRun r := rfl
@[simp] theorem writeData_setRun (b : Byte) (r : Run) (s : State) :
    writeData b (s.setRun r) = (writeData b s).setRun r := rfl
@[simp] theorem eventComplete_setRun (r : Run) (s : State) :
    (eventComplete (s.setRun r)).2 = (eventComplete s).2.setRun r := rfl
@[simp] theorem readStatus_setRun (r : Run) (s : State) :
    (readStatus (s.setRun r)).2 = (readStatus s).2.setRun r := rfl
@[simp] theorem readData_setRun (r : Run) (s : State) : (readData (s.setRun r)).2 = (readData s).2.setRun r := rfl
@[simp] theorem classify_setRun (r : Run) (s : State) (c : RawCode) : (s.setRun r).classify c = s.classify c := rfl

theorem now_setRun {s u : State} {t : Time} (h : now s = .next (t, u)) (r : Run) :
    now (s.setRun r) = .next (t, u.setRun r) := by
  obtain ⟨hm, hp⟩ := now_eq_next.1 h
  simp only [Prod.mk.injEq] at hp
  obtain ⟨rfl, rfl⟩ := hp
  exact now_eq_next.2 ⟨hm, rfl⟩

theorem memRead_setRun {s u : State} {a : Nat} {b : Byte} (h : memRead a s = .next (b, u)) (r : Run) :
    memRead a (s.setRun r) = .next (b, u.setRun r) := by
  obtain ⟨hm, hp⟩ := memRead_eq_next.1 h
  simp only [Prod.mk.injEq] at hp
  obtain ⟨rfl, rfl⟩ := hp
  exact memRead_eq_next.2 ⟨hm, rfl⟩

theorem memWrite_setRun {s u : State} {a : Nat} {b : Byte} (h : memWrite a b s = .next u) (r : Run) :
    memWrite a b (s.setRun r) = .next (u.setRun r) := by
  obtain ⟨hm, rfl⟩ := memWrite_eq_next.1 h
  exact memWrite_eq_next.2 ⟨hm, rfl⟩

/-! ## Responses -/

/-- A result code is returned to the flow in execution (R99). -/
theorem respond_eq_answered (c : Byte) (s : State) : respond c s = s.answered s.flow c := by
  cases h : s.flow <;> simp [respond, State.answered, State.setResponse, h]

/-- An illegal packet answers the flow in execution (R96). -/
theorem respondIllegal_caller {s : State} (h : s.flow = .caller) :
    respondIllegal s = { s with rspCaller := { code := 0xFF#8, high := 0x00#8, returned := true } } := by
  simp [respondIllegal, State.setResponse, h]

theorem respondIllegal_event {s : State} (h : s.flow = .event) :
    respondIllegal s = { s with rspEvent := { code := 0xFF#8, high := 0x00#8, returned := true } } := by
  simp [respondIllegal, State.setResponse, h]

/-! ## One action, by position -/

@[simp] theorem action_enter (r : Run) (s : State) :
    action (r.goto .enter) s = sampleDeadline s fun dl s' => s'.setRun (((r.goto .enter).withDeadline dl).goto .begin) := rfl
@[simp] theorem action_begin (r : Run) (s : State) : action (r.goto .begin) s = beginStep (r.goto .begin) s := rfl
@[simp] theorem action_put (r : Run) (b : Byte) (s : State) :
    action (r.goto (.put b)) s = .next ((writeData b s).setRun (r.goto (.arm .sendBuf))) := rfl
@[simp] theorem action_arm (r : Run) (w : WaitPrim) (s : State) :
    action (r.goto (.arm w)) s = .next ((armControl .armGo s).setRun (r.goto (.poll w))) := rfl
@[simp] theorem action_poll (r : Run) (w : WaitPrim) (s : State) :
    action (r.goto (.poll w)) s = .next (pollEvent w (r.goto (.poll w)) s) := rfl
@[simp] theorem action_clock (r : Run) (w : WaitPrim) (s : State) :
    action (r.goto (.clock w)) s = pollClock w (r.goto (.clock w)) s := rfl
@[simp] theorem action_decode (r : Run) (w : WaitPrim) (s : State) :
    action (r.goto (.decode w)) s = .next (decodeNow w (r.goto (.decode w)) s) := rfl
@[simp] theorem action_nackStop (r : Run) (st : Status) (s : State) :
    action (r.goto (.nackStop st)) s = .next (primFailed st (r.goto (.nackStop st)) (armControl .armStop s)) := rfl
@[simp] theorem action_takeByte (r : Run) (s : State) :
    action (r.goto .takeByte) s =
      .next (stepSucceeded ((r.goto .takeByte).gotByte (readData s).1) (readData s).2) := rfl
@[simp] theorem action_takeBuf (r : Run) (s : State) :
    action (r.goto .takeBuf) s = .next ((readData s).2.setRun (r.goto (.store (readData s).1))) := rfl
@[simp] theorem action_store (r : Run) (b : Byte) (s : State) :
    action (r.goto (.store b)) s =
      andThen (memWrite (bufferAddr r.ctx.ptr r.idx) b s) fun s' => .next (s'.setRun r.nextByte) := rfl
@[simp] theorem action_abort (r : Run) (s : State) :
    action (r.goto .abort) s = .next (finish .busLost (r.goto .abort) (armControl .armGo s)) := rfl
@[simp] theorem action_extend (r : Run) (s : State) :
    action (r.goto .extend) s = sampleDeadline s fun dl s' => s'.setRun (Run.withDeadline dl (r.goto .extend)).restart := rfl

/-- Only `BusLost` is not propagated (R189). -/
theorem primFailed_of_ne {st : Status} (h : st ≠ .busLost) (r : Run) (s : State) :
    primFailed st r s = finish st r s := by
  simp [primFailed, h]

/-- A command that fails returns its status (R99, R189). -/
theorem finish_failed {st : Status} (h : st ≠ .success) (r : Run) (s : State) :
    finish st r s = respond st.code s.setIdle := by
  unfold finish; split <;> simp_all

/-- How a command ends does not depend on the position it ends at. -/
@[simp] theorem primFailed_goto (st : Status) (r : Run) (p : Phase) (s : State) :
    primFailed st (r.goto p) s = primFailed st r s := rfl

@[simp] theorem stepSucceeded_goto (r : Run) (p : Phase) (s : State) :
    stepSucceeded (r.goto p) s = stepSucceeded r s := rfl
@[simp] theorem gotByte_goto (r : Run) (p : Phase) (b : Byte) : (r.goto p).gotByte b = (r.gotByte b).goto p := rfl
@[simp] theorem stepSucceeded_setRun (r r' : Run) (s : State) : stepSucceeded r (s.setRun r') = stepSucceeded r s := rfl
@[simp] theorem waitSucceeded_goto (w : WaitPrim) (r : Run) (p : Phase) (s : State) :
    waitSucceeded w (r.goto p) s = waitSucceeded w r s := by cases w <;> rfl
@[simp] theorem waitSucceeded_setRun (w : WaitPrim) (r r' : Run) (s : State) :
    waitSucceeded w r (s.setRun r') = waitSucceeded w r s := by cases w <;> rfl

@[simp] theorem finish_setRun (st : Status) (r r' : Run) (s : State) : finish st r (s.setRun r') = finish st r s := rfl
@[simp] theorem primFailed_setRun (st : Status) (r r' : Run) (s : State) :
    primFailed st r (s.setRun r') = primFailed st r s := rfl
@[simp] theorem afterDecode_setRun (st : Status) (w : WaitPrim) (r r' : Run) (s : State) :
    afterDecode st w r (s.setRun r') = afterDecode st w r s := by
  cases st <;> rfl

/-! ## What the calls keep -/

/-- What no call of a master command changes, outside the event flow. -/
structure Kept (s u : State) : Prop where
  quiet : u.hw.interrupts = s.hw.interrupts
  params : u.params = s.params
  timeout : u.cfgTimeout = s.cfgTimeout
  blb : u.cfgBlb = s.cfgBlb
  flow : u.flow = s.flow
  seq : u.seq = s.seq
  raises : u.hw.raises.after = s.hw.raises.after
  codes : u.hw.codes.after = s.hw.codes.after
  settles : s.hw.Settles → u.hw.Settles
  raisesLen : s.hw.Settles → u.hw.raises.queue.length ≤ s.hw.raises.queue.length
  clockLen : s.hw.Settles → u.hw.clock.queue.length ≤ s.hw.clock.queue.length
  codesLen : s.hw.Settles → u.hw.codes.queue.length ≤ s.hw.codes.queue.length

theorem Kept.refl (s : State) : Kept s s := by constructor <;> simp

/-- A call keeps what `Kept` names when it changes the collaborator only so far. -/
theorem Kept.of_hw {s u : State} (hp : u.params = s.params) (ht : u.cfgTimeout = s.cfgTimeout) (hb : u.cfgBlb = s.cfgBlb)
    (hf : u.flow = s.flow) (hs : u.seq = s.seq) (hi : u.hw.interrupts = s.hw.interrupts)
    (hr : u.hw.raises = s.hw.raises ∨ u.hw.raises = s.hw.raises.take.2)
    (hc : u.hw.codes = s.hw.codes ∨ u.hw.codes = s.hw.codes.take.2)
    (hk : u.hw.clock = s.hw.clock ∨ u.hw.clock = s.hw.clock.take.2) : Kept s u := by
  have after {α : Type} {a b : Answers α} (h : a = b ∨ a = b.take.2) : a.after = b.after := by
    rcases h with rfl | rfl <;> simp
  have loop {α : Type} {a b : Answers α} (h : a = b ∨ a = b.take.2) : a.loop = b.loop := by
    rcases h with rfl | rfl <;> simp
  have len {α : Type} {a b : Answers α} (h : a = b ∨ a = b.take.2) (hl : b.loop = []) :
      a.queue.length ≤ b.queue.length := by
    rcases h with rfl | rfl <;> simp [Answers.take_queue, hl]
  exact ⟨hi, hp, ht, hb, hf, hs, after hr, after hc,
    fun h => ⟨(loop hr).trans h.raises, (loop hc).trans h.codes, (loop hk).trans h.clock⟩,
    fun h => len hr h.raises, fun h => len hk h.clock, fun h => len hc h.codes⟩

theorem Kept.trans {s u v : State} (h : Kept s u) (k : Kept u v) : Kept s v :=
  ⟨k.quiet.trans h.quiet, k.params.trans h.params, k.timeout.trans h.timeout, k.blb.trans h.blb, k.flow.trans h.flow,
    k.seq.trans h.seq, k.raises.trans h.raises, k.codes.trans h.codes, fun hs => k.settles (h.settles hs),
    fun hs => (k.raisesLen (h.settles hs)).trans (h.raisesLen hs),
    fun hs => (k.clockLen (h.settles hs)).trans (h.clockLen hs),
    fun hs => (k.codesLen (h.settles hs)).trans (h.codesLen hs)⟩

theorem kept_armControl (a : Assign) (s : State) : Kept s (armControl a s) := by apply Kept.of_hw <;> simp
theorem kept_writeData (b : Byte) (s : State) : Kept s (writeData b s) := by apply Kept.of_hw <;> simp
theorem kept_eventComplete (s : State) : Kept s (eventComplete s).2 := by apply Kept.of_hw <;> simp
theorem kept_readStatus (s : State) : Kept s (readStatus s).2 := by apply Kept.of_hw <;> simp
theorem kept_readData (s : State) : Kept s (readData s).2 := by apply Kept.of_hw <;> simp
theorem kept_now {s u : State} {t : Time} (h : now s = .next (t, u)) : Kept s u := by
  obtain ⟨-, hp⟩ := now_eq_next.1 h
  simp only [Prod.mk.injEq] at hp
  obtain ⟨rfl, rfl⟩ := hp
  apply Kept.of_hw <;> simp
theorem kept_memRead {s u : State} {a : Nat} {b : Byte} (h : memRead a s = .next (b, u)) : Kept s u := by
  obtain ⟨-, hp⟩ := memRead_eq_next.1 h
  simp only [Prod.mk.injEq] at hp
  obtain ⟨rfl, rfl⟩ := hp
  apply Kept.of_hw <;> simp
theorem kept_memWrite {s u : State} {a : Nat} {b : Byte} (h : memWrite a b s = .next u) : Kept s u := by
  obtain ⟨-, rfl⟩ := memWrite_eq_next.1 h
  apply Kept.of_hw <;> simp
theorem kept_stopOnNack (st : Status) (s : State) : Kept s (stopOnNack st s) := by
  cases st <;> first | exact Kept.refl s | exact kept_armControl _ s

theorem WaitEvent.kept {dl : Deadline} {s u : State} {b : Bool} (h : WaitEvent dl s b u) : Kept s u := by
  induction h with
  | completed he => exact kept_eventComplete _
  | again he hd hw ih => exact (kept_eventComplete _).trans ih
  | timedOut he hd hn hl => exact (kept_eventComplete _).trans (kept_now hn)
  | inTime he hd hn hl hw ih => exact ((kept_eventComplete _).trans (kept_now hn)).trans ih

theorem Waits.kept {ctx : MasterCtx} {dl : Deadline} {s u : State} {st : Status} (h : Waits ctx dl s st u) : Kept s u := by
  cases h with
  | timeout hw => exact hw.kept
  | decoded hw => exact hw.kept.trans (kept_readStatus _)

/-! ## Groups of actions -/

/-- `n` actions lead from `s` to `t`. -/
def Reaches (n : Nat) (s t : State) : Prop := ∀ k, advance (n + k) s = advance k t

theorem Reaches.zero (s : State) : Reaches 0 s s := fun k => by rw [Nat.zero_add]

theorem Reaches.trans {m n : Nat} {s t u : State} (h : Reaches m s t) (k : Reaches n t u) : Reaches (m + n) s u :=
  fun j => by rw [Nat.add_assoc, h, k]

theorem Reaches.one {r : Run} {s t : State} (hq : s.hw.interrupts = .always []) (h : action r (s.setRun r) = .next t) :
    Reaches 1 (s.setRun r) t := fun k => by
  rw [Nat.add_comm, advance_succ (r := r) rfl (by simpa using hq), h, andThen_next]

/-- A group of actions that ends with the sequencer idle is the whole command. -/
theorem Reaches.advance {n m : Nat} {s t : State} (h : Reaches n s t) (hi : t.seq = .idle) (hm : n ≤ m) :
    Machine.advance m s = .next t := by
  obtain ⟨k, rfl⟩ := Nat.exists_eq_add_of_le hm
  rw [h, advance_idle hi]

/-! ## The wait -/

/-- The answers that are queued for a wait. -/
def State.waitQueue (s : State) : Nat := s.hw.raises.queue.length + s.hw.clock.queue.length

/-- A wait that no further answer can end does not end (R306). -/
theorem WaitEvent.not_stalled {dl : Deadline} {s u : State} {b : Bool} (h : WaitEvent dl s b u) (hs : s.hw.Settles)
    (he : s.hw.event = false) (hr : s.hw.raises.queue = []) (ha : s.hw.raises.after = false)
    (hc : ∀ d, dl = .atTime d → s.hw.clock.queue = [] ∧ s.hw.clock.after % 2 ^ s.widths.tw ≤ d) : False := by
  have hn (s : State) (he : s.hw.event = false) (hr : s.hw.raises.queue = []) (ha : s.hw.raises.after = false) :
      s.hw.eventNow = false := by simp [Collaborator.eventNow, he, Answers.take_fst, hr, ha]
  induction h with
  | completed h => simp [hn _ he hr ha] at h
  | again h hd hw ih =>
    refine ih ((kept_eventComplete _).settles hs) (by simpa using h) (by simp [Answers.take_queue hs.raises, hr])
      (by simpa using ha) fun d h' => ?_
    simp [hd] at h'
  | timedOut h hd ht hl =>
    obtain ⟨hq, hle⟩ := hc _ hd
    obtain ⟨-, hp⟩ := now_eq_next.1 ht
    simp only [Prod.mk.injEq] at hp
    obtain ⟨rfl, rfl⟩ := hp
    simp only [State.nextTime_eq, eventComplete_hw, Answers.take_fst, hq, List.headD_nil, eventComplete_params] at hl
    exact absurd hle (Nat.not_le.2 hl)
  | inTime h hd ht hl hw ih =>
    obtain ⟨hq, hle⟩ := hc _ hd
    have hk := (kept_eventComplete _).trans (kept_now ht)
    obtain ⟨-, hp⟩ := now_eq_next.1 ht
    simp only [Prod.mk.injEq] at hp
    obtain ⟨rfl, rfl⟩ := hp
    refine ih (hk.settles hs) (by simpa using h) (by simp [Answers.take_queue hs.raises, hr]) (by simpa using ha)
      fun d' h' => ?_
    obtain ⟨hq', hle'⟩ := hc _ h'
    exact ⟨by simp [Answers.take_queue hs.clock, hq'], by simpa using hle'⟩

/-- A wait reads no status, and it leaves the signal as it last sampled it. -/
theorem WaitEvent.signal {dl : Deadline} {s u : State} {b : Bool} (h : WaitEvent dl s b u) :
    u.hw.codes = s.hw.codes ∧ u.hw.event = b ∧ u.hw.ctrl = s.hw.ctrl := by
  have hnow {s u : State} {t : Time} (hn : now s = .next (t, u)) :
      u.hw.codes = s.hw.codes ∧ u.hw.event = s.hw.event ∧ u.hw.ctrl = s.hw.ctrl := by
    obtain ⟨-, hp⟩ := now_eq_next.1 hn
    simp only [Prod.mk.injEq] at hp
    obtain ⟨rfl, rfl⟩ := hp
    exact ⟨rfl, rfl, rfl⟩
  induction h with
  | completed he => exact ⟨rfl, he, rfl⟩
  | again he hd hw ih => exact ih
  | timedOut he hd hn hl => exact ⟨(hnow hn).1, (hnow hn).2.1.trans he, (hnow hn).2.2⟩
  | inTime he hd hn hl hw ih => exact ⟨ih.1.trans (hnow hn).1, ih.2.1, ih.2.2.trans (hnow hn).2.2⟩

/-- A wait with its decode makes no arm call: the control register is as it was before (R141, R142). -/
theorem Waits.ctrl {ctx : MasterCtx} {dl : Deadline} {s u : State} {st : Status} (h : Waits ctx dl s st u) :
    u.hw.ctrl = s.hw.ctrl := by
  cases h with
  | timeout h => exact h.signal.2.2
  | decoded h => exact h.signal.2.2

/-- A completed wait has used up a queued answer, or the environment completes every later wait at once. -/
theorem WaitEvent.completed_cases {dl : Deadline} {s u : State} {b : Bool} (h : WaitEvent dl s b u) (hs : s.hw.Settles)
    (hb : b = true) (he : s.hw.event = false) :
    u.waitQueue < s.waitQueue ∨ (u.hw.raises.queue = [] ∧ u.hw.raises.after = true) := by
  induction h with
  | @completed s h =>
    have h' : s.hw.raises.take.1 = true := by simpa [Collaborator.eventNow, he] using h
    rcases hr : s.hw.raises.queue with _ | ⟨x, xs⟩
    · exact .inr ⟨by simp [Answers.take_queue hs.raises, hr], by simpa [Answers.take_fst, hr] using h'⟩
    · exact .inl (by simp [State.waitQueue, Answers.take_queue hs.raises, hr])
  | @again s u b h hd hw ih =>
    have hk := kept_eventComplete s
    refine (ih (hk.settles hs) hb (by simpa using h)).imp_left fun hlt => hlt.trans_le ?_
    have := hk.raisesLen hs
    have := hk.clockLen hs
    unfold State.waitQueue
    omega
  | timedOut => cases hb
  | @inTime s v u d t b h hd hn hl hw ih =>
    have hev : v.hw.event = false := by
      obtain ⟨-, hp⟩ := now_eq_next.1 hn
      simp only [Prod.mk.injEq] at hp
      obtain ⟨rfl, rfl⟩ := hp
      simpa using h
    have hk := (kept_eventComplete s).trans (kept_now hn)
    refine (ih (hk.settles hs) hb hev).imp_left fun hlt => hlt.trans_le ?_
    have := hk.raisesLen hs
    have := hk.clockLen hs
    unfold State.waitQueue
    omega

/-- A sample that finds the event complete goes on to the decode (R141, R142). -/
theorem pollEvent_complete {s : State} (he : (eventComplete s).1 = true) (w : WaitPrim) (r : Run) (p : Phase) :
    pollEvent w (r.goto p) s = (eventComplete s).2.setRun (r.goto (.decode w)) := if_pos he

/-- A sample that finds the event not complete goes on to the clock, or polls again without a deadline (R141). -/
theorem pollEvent_again {s : State} (he : (eventComplete s).1 = false) (w : WaitPrim) (r : Run) (p : Phase) :
    pollEvent w (r.goto p) s =
      (eventComplete s).2.setRun (r.goto (if isTimed r.ctx.dl then .clock w else .poll w)) := by
  unfold pollEvent
  rw [if_neg (by simpa using he), Run.goto_ctx]
  split <;> rfl

/-- Where a wait leads the running command (R141): the decode, or the end with `Timeout`. -/
def afterWait (w : WaitPrim) (r : Run) (b : Bool) (u : State) : State :=
  if b then u.setRun (r.goto (.decode w)) else primFailed .timeout r u

/-- A wait leads to its end; where no input answers in a loop it takes at most two actions for each answer queued for it,
and one or two more. -/
theorem WaitEvent.reaches {dl : Deadline} {s u : State} {b : Bool} (h : WaitEvent dl s b u) {w : WaitPrim} {r : Run}
    (hd : r.ctx.dl = dl) (hq : s.hw.interrupts = .always []) :
    ∃ n, Reaches n (s.setRun (r.goto (.poll w))) (afterWait w r b u) ∧
      (s.hw.Settles → n + 2 * u.waitQueue ≤ 2 * s.waitQueue + (if b then 1 else 2)) := by
  induction h with
  | @completed s he =>
    refine ⟨1, .one hq ?_, fun hs => ?_⟩
    · simp [pollEvent_complete (s := s.setRun (r.goto (.poll w))) he, afterWait]
    · simp [State.waitQueue, Answers.take_queue hs.raises]; omega
  | @again s u b he hdl hw ih =>
    obtain ⟨n, hn, hm⟩ := ih (by simpa using hq)
    refine ⟨1 + n, Reaches.trans (.one hq ?_) hn, fun hs => ?_⟩
    · simp [pollEvent_again (s := s.setRun (r.goto (.poll w))) he, hd, hdl, isTimed]
    · have hs' := (kept_eventComplete s).settles hs
      have hrne : s.hw.raises.queue ≠ [] := fun h0 => by
        have hf : s.hw.event = false ∧ s.hw.raises.after = false := by
          simpa [Collaborator.eventNow, Answers.take_fst, h0] using he
        exact hw.not_stalled hs' (by simpa using he) (by simp [Answers.take_queue hs.raises, h0]) (by simpa using hf.2)
          (fun d h' => by simp [hdl] at h')
      have : 0 < s.hw.raises.queue.length := List.length_pos_iff.2 hrne
      have := hm hs'
      simp [State.waitQueue, Answers.take_queue hs.raises] at this ⊢
      omega
  | @timedOut s u d t he hdl hn hl =>
    refine ⟨1 + 1, Reaches.trans (.one (t := (eventComplete s).2.setRun (r.goto (.clock w))) hq ?_)
      (.one (by simpa using hq) ?_), fun hs => ?_⟩
    · simp [pollEvent_again (s := s.setRun (r.goto (.poll w))) he, hd, hdl, isTimed]
    · rw [action_clock, pollClock, now_setRun hn, andThen_next, Run.goto_ctx, hd, hdl]
      simp [expired, hl, afterWait, primFailed, finish, respond]
    · have hk := (kept_eventComplete s).trans (kept_now hn)
      have := hk.raisesLen hs
      have := hk.clockLen hs
      simp only [State.waitQueue]
      simp
      omega
  | @inTime s v u d t b he hdl hn hl hw ih =>
    obtain ⟨n, hr, hm⟩ := ih (by rw [(kept_now hn).quiet]; simpa using hq)
    refine ⟨1 + 1 + n, Reaches.trans (Reaches.trans
      (.one (t := (eventComplete s).2.setRun (r.goto (.clock w))) hq ?_) (.one (by simpa using hq) ?_)) hr, fun hs => ?_⟩
    · simp [pollEvent_again (s := s.setRun (r.goto (.poll w))) he, hd, hdl, isTimed]
    · rw [action_clock, pollClock, now_setRun hn, andThen_next, Run.goto_ctx, hd, hdl]
      simp [expired, Nat.not_lt.2 hl]
    · have hs' := ((kept_eventComplete s).trans (kept_now hn)).settles hs
      obtain ⟨-, hp⟩ := now_eq_next.1 hn
      simp only [Prod.mk.injEq] at hp
      obtain ⟨ht, hvv⟩ := hp
      have hne : s.hw.raises.queue ≠ [] ∨ s.hw.clock.queue ≠ [] := by
        by_contra h0
        obtain ⟨h0, h0'⟩ : s.hw.raises.queue = [] ∧ s.hw.clock.queue = [] := by simpa using h0
        have hf : s.hw.event = false ∧ s.hw.raises.after = false := by
          simpa [Collaborator.eventNow, Answers.take_fst, h0] using he
        refine hw.not_stalled hs' (by simpa [hvv] using he) (by simp [hvv, Answers.take_queue hs.raises, h0])
          (by simpa [hvv] using hf.2) fun d' h' => ⟨by simp [hvv, Answers.take_queue hs.clock, h0'], ?_⟩
        have hdd : d = d' := by simpa [hdl] using h'
        rw [← hdd]
        refine le_trans (le_of_eq ?_) hl
        rw [ht, hvv]
        simp [Answers.take_fst, h0']
      have : 0 < s.hw.raises.queue.length ∨ 0 < s.hw.clock.queue.length := by
        simpa [List.length_pos_iff] using hne
      have := hm hs'
      simp [hvv, State.waitQueue, Answers.take_queue hs.raises, Answers.take_queue hs.clock] at this ⊢
      omega

end Sys2Proof.Machine
end

