-- ==== Sys2Proof/Laws/Driver.lean ====
section
/-! SUPPORT. The pseudocode of a primitive and of the driver, as relations (Safety.lean), against the actions that the machine
makes: where they lead, and how many actions it takes (41_master_engine.md R150 to R161; 42_master_policy.md R186). -/

namespace Sys2Proof.Machine

/-! ## The decode (R142, R143) -/

/-- `BusLost` has one cause (R261). -/
theorem masterStatus_busLost {ctx : MasterCtx} {c : Cond} : masterStatus ctx c = .busLost ↔ c = .arbLost := by
  cases ctx <;> cases c <;> decide

/-- The decoder never answers `Timeout` (R123). -/
theorem masterStatus_ne_timeout (ctx : MasterCtx) (c : Cond) : masterStatus ctx c ≠ .timeout := by
  cases ctx <;> cases c <;> decide

/-- A start or a receive is never answered by a NACK (R150, R157). -/
theorem masterStatus_no_nack {ctx : MasterCtx} (h : ctx = .start ∨ ctx = .recv) (c : Cond) :
    masterStatus ctx c ≠ .addressNACK ∧ masterStatus ctx c ≠ .dataNACK := by
  rcases h with rfl | rfl <;> cases c <;> decide

theorem stopOnNack_of_ne {st : Status} (h : st ≠ .addressNACK) (h' : st ≠ .dataNACK) (s : State) :
    stopOnNack st s = s := by
  cases st <;> first | rfl | exact absurd rfl h | exact absurd rfl h'

/-- A wait of a start or a receive ends without an implicit stop (R143). -/
theorem Waits.stopOnNack {ctx : MasterCtx} {dl : Deadline} {s u : State} {st : Status} (h : Waits ctx dl s st u)
    (hc : ctx = .start ∨ ctx = .recv) (v : State) : Machine.stopOnNack st v = v := by
  cases h with
  | timeout hw => rfl
  | decoded hw => exact stopOnNack_of_ne (masterStatus_no_nack hc _).1 (masterStatus_no_nack hc _).2 v

@[simp] theorem afterDecode_goto (st : Status) (w : WaitPrim) (r : Run) (p : Phase) (s : State) :
    afterDecode st w (r.goto p) s = afterDecode st w r s := by
  cases st <;> simp [afterDecode]

/-- A wait with its decode: where it leads, and how many actions it takes (R141, R142). -/
theorem Waits.reaches {ctx : MasterCtx} {dl : Deadline} {s u : State} {st : Status} (h : Waits ctx dl s st u)
    {w : WaitPrim} {r : Run} (hd : r.ctx.dl = dl) (hw : w.ctx = ctx) (hq : s.hw.interrupts = .always []) :
    ∃ n, Reaches n (s.setRun (r.goto (.poll w))) (afterDecode st w r u) ∧
      (s.hw.Settles → n + 2 * u.waitQueue ≤ 2 * s.waitQueue + 2) := by
  cases h with
  | timeout h =>
    obtain ⟨n, hn, hm⟩ := h.reaches (w := w) hd hq
    exact ⟨n, hn, by simpa using hm⟩
  | @decoded v h =>
    obtain ⟨n, hn, hm⟩ := h.reaches (w := w) hd hq
    refine ⟨n + 1, hn.trans (.one (by rw [h.kept.quiet]; exact hq) ?_), fun hs => ?_⟩
    · rw [action_decode]
      simp [decodeNow, hw]
    · have := hm hs
      simp [State.waitQueue] at this ⊢
      omega

/-- A primitive's wait, with the implicit stop: where it leads, and how many actions it takes (R141 to R143). -/
theorem Waits.settles {ctx : MasterCtx} {dl : Deadline} {s u : State} {st : Status} (h : Waits ctx dl s st u)
    {w : WaitPrim} {r : Run} (hd : r.ctx.dl = dl) (hw : w.ctx = ctx) (hq : s.hw.interrupts = .always []) :
    ∃ n, Reaches n (s.setRun (r.goto (.poll w)))
        (if st = .success then waitSucceeded w r u else primFailed st r (Machine.stopOnNack st u)) ∧
      (s.hw.Settles →
        n + 2 * u.waitQueue ≤ 2 * s.waitQueue + (if st = .addressNACK ∨ st = .dataNACK then 3 else 2)) := by
  obtain ⟨n, hn, hm⟩ := h.reaches hd hw hq
  have hq' : u.hw.interrupts = .always [] := by rw [h.kept.quiet]; exact hq
  have hstop (st : Status) : Reaches 1 (u.setRun (r.goto (.nackStop st))) (primFailed st r (armControl .armStop u)) :=
    .one hq' (by simp)
  cases st <;> first
    | exact ⟨n, hn, hm⟩
    | exact ⟨n + 1, hn.trans (hstop _), fun hs => by have := hm hs; simp; omega⟩

/-- The class of the status that the environment repeats once its queue is used up. -/
def State.repeated (s : State) : Cond := s.classify (s.hw.codes.after % 2 ^ s.widths.rcw)

theorem Kept.repeated {s u : State} (h : Kept s u) : u.repeated = s.repeated := by
  simp [State.repeated, State.classify, h.params, h.codes]

/-- A decoded status was queued, or it is the one that the environment repeats. -/
theorem Waits.codes {ctx : MasterCtx} {dl : Deadline} {s u : State} {st : Status} (h : Waits ctx dl s st u)
    (hs : s.hw.Settles) :
    st = .timeout ∨ u.hw.codes.queue.length + 1 = s.hw.codes.queue.length ∨
      (s.hw.codes.queue = [] ∧ st = masterStatus ctx s.repeated) := by
  cases h with
  | timeout h => exact .inl rfl
  | @decoded v h =>
    refine .inr ?_
    have hc := h.signal.1
    have hk := h.kept
    rcases hq : s.hw.codes.queue with _ | ⟨x, xs⟩
    · exact .inr ⟨rfl, by simp [State.repeated, Answers.take_fst, hc, hq, State.classify, hk.params]⟩
    · exact .inl (by simp [hc, Answers.take_queue hs.codes, hq])

/-- The environment answers every later status read with arbitration loss, and every later wait at once. -/
structure State.Lost (s : State) : Prop where
  settles : s.hw.Settles
  codes : s.hw.codes.queue = []
  lost : s.repeated = .arbLost
  raises : s.hw.raises.queue = []
  after : s.hw.raises.after = true

/-- A clock sample does not end an arbitration that is lost for ever. -/
theorem State.Lost.now {s u : State} {t : Time} (h : s.Lost) (hn : Machine.now s = .next (t, u)) : u.Lost := by
  have hk := kept_now hn
  have hl : u.repeated = .arbLost := hk.repeated.trans h.lost
  obtain ⟨-, hp⟩ := now_eq_next.1 hn
  simp only [Prod.mk.injEq] at hp
  obtain ⟨rfl, rfl⟩ := hp
  exact ⟨hk.settles h.settles, h.codes, hl, h.raises, h.after⟩

/-- A wait that ends in `BusLost` has used up a queued answer, or arbitration is lost for ever. -/
theorem Waits.busLost {ctx : MasterCtx} {dl : Deadline} {s u : State} (h : Waits ctx dl s .busLost u)
    (hs : s.hw.Settles) (he : s.hw.event = false) :
    u.waitQueue < s.waitQueue ∨ u.hw.codes.queue.length < s.hw.codes.queue.length ∨ u.Lost := by
  have hk := h.kept
  rcases h.codes hs with h0 | h1 | ⟨h1, h2⟩
  · cases h0
  · exact .inr (.inl (by omega))
  · generalize hst : Status.busLost = st at h
    cases h with
    | timeout h => cases hst
    | @decoded v h =>
      rcases h.completed_cases hs rfl he with h3 | ⟨h3, h4⟩
      · exact .inl (by simpa [State.waitQueue] using h3)
      · refine .inr (.inr ⟨hk.settles hs, ?_, ?_, by simpa using h3, by simpa using h4⟩)
        · simp [h.signal.1, Answers.take_queue hs.codes, h1]
        · rw [hk.repeated]
          exact masterStatus_busLost.1 h2.symm

/-- The answers that are queued for the engine. -/
def State.queued (s : State) : Nat := s.waitQueue + s.hw.codes.queue.length

/-- A later `BusLost` is queued, or it is what the environment repeats. -/
def State.mayLose (s : State) : Prop := s.hw.codes.queue ≠ [] ∨ s.repeated = .arbLost

/-- `n` actions that end in `BusLost` have used up queued answers enough to pay for them and for one more, or arbitration
is lost for ever. -/
def Paid (n : Nat) (s u : State) : Prop := (n + 1 + 8 * u.queued ≤ 8 * s.queued ∨ u.Lost) ∧ s.mayLose

/-- A success before a `BusLost` has used up a queued status. -/
theorem Waits.success_codes {ctx : MasterCtx} {dl : Deadline} {s u : State} (h : Waits ctx dl s .success u)
    (hs : s.hw.Settles) (hu : u.mayLose) : u.hw.codes.queue.length + 1 = s.hw.codes.queue.length := by
  have hk := h.kept
  rcases h.codes hs with h0 | h1 | ⟨h1, h2⟩
  · cases h0
  · exact h1
  · have hnil : u.hw.codes.queue = [] :=
      List.length_eq_zero_iff.1 (by have := hk.codesLen hs; simp [h1] at this; simpa using this)
    rcases hu with h3 | h3
    · exact absurd hnil h3
    · rw [hk.repeated] at h3
      exact absurd (h2.trans (masterStatus_busLost.2 h3)) (by decide)

/-- A wait that ends in `BusLost`, and the few actions around it, are paid for. -/
theorem Waits.paid {ctx : MasterCtx} {dl : Deadline} {s u : State} (h : Waits ctx dl s .busLost u)
    (hs : s.hw.Settles) (he : s.hw.event = false) {n : Nat} (hn : n + 2 * u.waitQueue ≤ 2 * s.waitQueue + 5) : Paid n s u := by
  have hk := h.kept
  refine ⟨?_, ?_⟩
  · rcases h.busLost hs he with h1 | h1 | h1
    · have := hk.codesLen hs
      exact .inl (by unfold State.queued; omega)
    · have := hk.raisesLen hs
      have := hk.clockLen hs
      exact .inl (by unfold State.queued State.waitQueue at *; omega)
    · exact .inr h1
  · rcases h.codes hs with h0 | h1 | ⟨h1, h2⟩
    · cases h0
    · exact .inl (List.ne_nil_of_length_pos (by omega))
    · exact .inr (masterStatus_busLost.1 h2.symm)

/-- Actions before a `BusLost` that has been paid for, when they have used up a status of their own. -/
theorem Paid.before {n m : Nat} {s v u : State} (h : Paid n v u)
    (hc : v.hw.codes.queue.length + 1 = s.hw.codes.queue.length) (hm : m + 2 * v.waitQueue ≤ 2 * s.waitQueue + 8)
    (hv : v.waitQueue ≤ s.waitQueue) : Paid (m + n) s u := by
  refine ⟨h.1.imp_left fun h1 => ?_, .inl (List.ne_nil_of_length_pos (by omega))⟩
  unfold State.queued at *
  omega

/-! ## The primitives -/

/-- Where a primitive that has ended leads the command (R31, R186). -/
def arrives (st : Status) (g : Option Byte) (r : Run) (u : State) : State :=
  if st = .success then stepSucceeded { r with got := g <|> r.got } u else primFailed st r u

theorem arrives_success (g : Option Byte) (r : Run) (u : State) :
    arrives .success g r u = stepSucceeded { r with got := g <|> r.got } u := rfl

theorem arrives_failed {st : Status} (h : st ≠ .success) (g : Option Byte) (r : Run) (u : State) :
    arrives st g r u = primFailed st r u := if_neg h

/-- The first action of a step that waits. -/
theorem beginStep_wait {r : Run} {w : WaitPrim} (hp : r.prim? = some (.wait w)) (p : Phase) (s : State) :
    beginStep (r.goto p) s = beginWait w (r.goto p) s := by
  simp only [beginStep, Run.goto_prim, hp]

theorem SendLoop.kept {ptr : Addr} {len : Len} {dl : Deadline} {i : Nat} {s u : State} {st : Status}
    (h : SendLoop ptr len dl i s st u) : Kept s u := by
  induction h with
  | done => exact .refl _
  | sent hi hm hw hl ih =>
    exact ((((kept_memRead hm).trans (kept_writeData _ _)).trans (kept_armControl _ _)).trans hw.kept).trans ih
  | failed hi hm hw hs =>
    exact ((((kept_memRead hm).trans (kept_writeData _ _)).trans (kept_armControl _ _)).trans hw.kept).trans
      (kept_stopOnNack _ _)

theorem RecvLoop.kept {ptr : Addr} {len : Len} {dl : Deadline} {i : Nat} {s u : State} {st : Status}
    (h : RecvLoop ptr len dl i s st u) : Kept s u := by
  induction h with
  | done => exact .refl _
  | stored hi hw hm hl ih =>
    exact ((((kept_armControl _ _).trans hw.kept).trans (kept_readData _)).trans (kept_memWrite hm)).trans ih
  | failed hi hw hs => exact (kept_armControl _ _).trans hw.kept

theorem PrimRuns.kept {c : Ctx} {p : Prim} {s u : State} {st : Status} {g : Option Byte}
    (h : PrimRuns c p s st g u) : Kept s u := by
  cases h with
  | start hw | stopStart hw => exact (kept_armControl _ _).trans hw.kept
  | addrW hw | addrR hw | sendData hw | sendReg hw =>
    exact (((kept_writeData _ _).trans (kept_armControl _ _)).trans hw.kept).trans (kept_stopOnNack _ _)
  | sendBuf hl => exact hl.kept
  | recvByte hw => exact ((kept_armControl _ _).trans hw.kept).trans (kept_readData _)
  | recvFailed hw hs => exact (kept_armControl _ _).trans hw.kept
  | recvBuf hl => exact hl.kept
  | stop | clear => exact kept_armControl _ _

/-- The first two calls of a byte of the send loop (R156): the buffer read, the data register. -/
theorem Reaches.sendByte {s v : State} {r : Run} {i : Nat} {b : Byte} (hp : r.prim? = some (.wait .sendBuf))
    (hi : r.idx = i) (hlt : i < r.ctx.len) (hm : memRead (bufferAddr r.ctx.ptr i) s = .next (b, v))
    (hq : s.hw.interrupts = .always []) :
    Reaches 3 (s.setRun (r.goto .begin)) ((armControl .armGo (writeData b v)).setRun (r.goto (.poll .sendBuf))) := by
  have hqv : v.hw.interrupts = .always [] := by rw [(kept_memRead hm).quiet]; exact hq
  have h1 : Reaches 1 (s.setRun (r.goto .begin)) (v.setRun (r.goto (.put b))) := .one hq (by
    rw [action_begin, beginStep_wait hp]
    simp only [beginWait, Run.goto_idx, Run.goto_ctx, hi, hlt, if_true, memRead_setRun hm, andThen_next]
    rfl)
  have h2 : Reaches 1 (v.setRun (r.goto (.put b))) ((writeData b v).setRun (r.goto (.arm .sendBuf))) := .one hqv (by simp)
  exact (h1.trans h2).trans (.one (by simpa using hqv) (by simp))

/-- A buffer form whose index has reached the length has succeeded (R156, R160). -/
theorem Reaches.bufferDone {s : State} {r : Run} {w : WaitPrim} (hp : r.prim? = some (.wait w)) (hw : w.isBuffer = true)
    (hle : r.ctx.len ≤ r.idx) (hq : s.hw.interrupts = .always []) :
    Reaches 1 (s.setRun (r.goto .begin)) (arrives .success none r s) := .one hq (by
  rw [action_begin, beginStep_wait hp]
  cases w <;> simp [WaitPrim.isBuffer] at hw <;>
    simp only [beginWait, Run.goto_idx, Run.goto_ctx, Nat.not_lt.2 hle, if_false] <;> rfl)

/-- The send loop: where it leads, and how many actions it takes (R156). -/
theorem SendLoop.reaches {ptr : Addr} {len : Len} {dl : Deadline} {i : Nat} {s u : State} {st : Status}
    (h : SendLoop ptr len dl i s st u) {r : Run} (hp : r.prim? = some (.wait .sendBuf)) (hptr : r.ctx.ptr = ptr)
    (hlen : r.ctx.len = len) (hd : r.ctx.dl = dl) (hi : r.idx = i) (hq : s.hw.interrupts = .always []) :
    ∃ n j, Reaches n (s.setRun (r.goto .begin)) (arrives st none { r with idx := j } u) ∧
      (s.hw.Settles →
        n + 2 * u.waitQueue ≤ 2 * s.waitQueue + 6 * (len - i) + 1 ∧ (st = .busLost → Paid n s u)) := by
  induction h generalizing r with
  | @done i s hle => exact ⟨1, r.idx, .bufferDone hp rfl (by rw [hlen, hi]; exact hle) hq, fun _ => ⟨by omega, nofun⟩⟩
  | @sent i b st s v w u hlt hm hw hl ih =>
    subst hptr hlen
    have hk := (((kept_memRead hm).trans (kept_writeData b v)).trans (kept_armControl .armGo _))
    have hq3 : (armControl .armGo (writeData b v)).hw.interrupts = .always [] := by rw [hk.quiet]; exact hq
    have hqw : w.hw.interrupts = .always [] := by rw [hw.kept.quiet]; exact hq3
    obtain ⟨n, hn, hb⟩ := hw.settles (w := .sendBuf) (r := r) hd rfl hq3
    obtain ⟨m, j, hm', hb'⟩ := ih (r := r.nextByte) hp rfl rfl hd (by simp [Run.nextByte, hi]) hqw
    refine ⟨3 + n + m, j, ((Reaches.sendByte hp hi hlt hm hq).trans hn).trans hm', fun hs => ?_⟩
    have hs3 := hk.settles hs
    obtain ⟨hb', hpay⟩ := hb' (hw.kept.settles hs3)
    have e : (armControl .armGo (writeData b v)).hw.codes = s.hw.codes ∧
        (armControl .armGo (writeData b v)).waitQueue = s.waitQueue := by
      obtain ⟨-, hp⟩ := memRead_eq_next.1 hm
      simp only [Prod.mk.injEq] at hp
      rw [hp.2]; exact ⟨rfl, rfl⟩
    have hr := hw.kept.raisesLen hs3
    have hk := hw.kept.clockLen hs3
    replace hb := hb hs3
    simp at hb
    have e2 := e.2
    refine ⟨by omega, fun hst => (hpay hst).before ?_ (by omega) ?_⟩
    · rw [← e.1]; exact hw.success_codes hs3 (hpay hst).2
    · rw [← e.2]; unfold State.waitQueue; omega
  | @failed i b st s v w hlt hm hw hst =>
    subst hptr hlen
    have hk := (((kept_memRead hm).trans (kept_writeData b v)).trans (kept_armControl .armGo _))
    have hq3 : (armControl .armGo (writeData b v)).hw.interrupts = .always [] := by rw [hk.quiet]; exact hq
    obtain ⟨n, hn, hb⟩ := hw.settles (w := .sendBuf) (r := r) hd rfl hq3
    rw [if_neg hst] at hn
    refine ⟨3 + n, r.idx, ?_, fun hs => ?_⟩
    · rw [arrives_failed hst]
      exact (Reaches.sendByte hp hi hlt hm hq).trans hn
    · have hs3 := hk.settles hs
      replace hb := hb hs3
      have ev : v = s.record (.memRead (bufferAddr r.ctx.ptr i) (s.mem.read (bufferAddr r.ctx.ptr i))) := by
        obtain ⟨-, hp⟩ := memRead_eq_next.1 hm
        simp only [Prod.mk.injEq] at hp
        exact hp.2
      have e' : (armControl .armGo (writeData b v)).waitQueue = s.waitQueue := by rw [ev]; rfl
      have e'' : (stopOnNack st w).waitQueue = w.waitQueue := by cases st <;> rfl
      refine ⟨by split at hb <;> omega, fun hst => ?_⟩
      subst hst
      have := hw.paid (n := 3 + n) hs3 rfl (by simp at hb; omega)
      rw [ev] at this
      exact this

/-- The arm call of a byte of the receive loop (R157, R160). -/
theorem Reaches.armByte {s : State} {r : Run} {i : Nat} (hp : r.prim? = some (.wait .recvBuf)) (hi : r.idx = i)
    (hlt : i < r.ctx.len) (hq : s.hw.interrupts = .always []) :
    Reaches 1 (s.setRun (r.goto .begin))
      ((armControl (.armRx (decide (i + 1 < r.ctx.len))) s).setRun (r.goto (.poll .recvBuf))) := .one hq (by
  rw [action_begin, beginStep_wait hp]
  simp [beginWait, hi, hlt])

/-- The receive loop: where it leads, and how many actions it takes (R160). -/
theorem RecvLoop.reaches {ptr : Addr} {len : Len} {dl : Deadline} {i : Nat} {s u : State} {st : Status}
    (h : RecvLoop ptr len dl i s st u) {r : Run} (hp : r.prim? = some (.wait .recvBuf)) (hptr : r.ctx.ptr = ptr)
    (hlen : r.ctx.len = len) (hd : r.ctx.dl = dl) (hi : r.idx = i) (hq : s.hw.interrupts = .always []) :
    ∃ n j, Reaches n (s.setRun (r.goto .begin)) (arrives st none { r with idx := j } u) ∧
      (s.hw.Settles →
        n + 2 * u.waitQueue ≤ 2 * s.waitQueue + 6 * (len - i) + 1 ∧ (st = .busLost → Paid n s u)) := by
  induction h generalizing r with
  | @done i s hle => exact ⟨1, r.idx, .bufferDone hp rfl (by rw [hlen, hi]; exact hle) hq, fun _ => ⟨by omega, nofun⟩⟩
  | @stored i st s v w u hlt hw hm hl ih =>
    subst hptr hlen
    obtain ⟨n, hn, hb⟩ := hw.settles (w := .recvBuf) (r := r) hd rfl (by simpa using hq)
    have hqv : v.hw.interrupts = .always [] := by rw [hw.kept.quiet]; exact hq
    have hqw : w.hw.interrupts = .always [] := by rw [(kept_memWrite hm).quiet]; exact hqv
    obtain ⟨m, j, hm', hb'⟩ := ih (r := r.nextByte) hp rfl rfl hd (by simp [Run.nextByte, hi]) hqw
    have h2 : Reaches 1 (v.setRun (r.goto .takeBuf)) ((readData v).2.setRun (r.goto (.store (readData v).1))) :=
      .one hqv (by simp)
    have h3 : Reaches 1 ((readData v).2.setRun (r.goto (.store (readData v).1))) (w.setRun r.nextByte) :=
      .one (by simpa using hqv) (by rw [action_store, hi, memWrite_setRun hm]; rfl)
    refine ⟨1 + n + 1 + 1 + m, j, (((((Reaches.armByte hp hi hlt hq).trans hn).trans h2).trans h3).trans hm'),
      fun hs => ?_⟩
    have hs1 := (kept_armControl (.armRx (decide (i + 1 < r.ctx.len))) s).settles hs
    obtain ⟨hb', hpay⟩ := hb' ((kept_memWrite hm).settles ((kept_readData v).settles (hw.kept.settles hs1)))
    have e : w.waitQueue = v.waitQueue ∧ w.hw.codes = v.hw.codes := by
      obtain ⟨-, rfl⟩ := memWrite_eq_next.1 hm
      exact ⟨rfl, rfl⟩
    have e' : (armControl (.armRx (decide (i + 1 < r.ctx.len))) s).waitQueue = s.waitQueue := rfl
    have hr := hw.kept.raisesLen hs1
    have hk := hw.kept.clockLen hs1
    replace hb := hb hs1
    simp at hb
    have e1 := e.1
    refine ⟨by omega, fun hst => (hpay hst).before ?_ (by omega) ?_⟩
    · rw [e.2]
      refine hw.success_codes hs1 ?_
      have := (hpay hst).2
      obtain ⟨-, rfl⟩ := memWrite_eq_next.1 hm
      exact this
    · rw [e.1, ← e']; unfold State.waitQueue; omega
  | @failed i st s v hlt hw hst =>
    subst hptr hlen
    obtain ⟨n, hn, hb⟩ := hw.settles (w := .recvBuf) (r := r) hd rfl (by simpa using hq)
    rw [if_neg hst, hw.stopOnNack (.inr rfl)] at hn
    refine ⟨1 + n, r.idx, ?_, fun hs => ?_⟩
    · rw [arrives_failed hst]
      exact (Reaches.armByte hp hi hlt hq).trans hn
    · have hs1 := (kept_armControl (.armRx (decide (i + 1 < r.ctx.len))) s).settles hs
      replace hb := hb hs1
      have e' : (armControl (.armRx (decide (i + 1 < r.ctx.len))) s).waitQueue = s.waitQueue := rfl
      refine ⟨by split at hb <;> omega, fun hst => ?_⟩
      subst hst
      exact hw.paid (n := 1 + n) hs1 rfl (by simp at hb; omega)

/-- The most actions a primitive takes beyond two for each answer of its waits. -/
def Prim.weight (len : Nat) : Prim → Nat
  | .stop | .clear => 1
  | .wait .sendBuf | .wait .recvBuf => 6 * len + 1
  | .wait .start | .wait .stopStart | .wait .addrW | .wait .addrR | .wait .sendData | .wait .sendReg
  | .wait .recvB => 5

/-- A waiting primitive of one byte. -/
def Prim.single : Prim → Bool
  | .stop | .clear | .wait .sendBuf | .wait .recvBuf => false
  | .wait .start | .wait .stopStart | .wait .addrW | .wait .addrR | .wait .sendData | .wait .sendReg
  | .wait .recvB => true

theorem stopOnNack_waitQueue (st : Status) (s : State) : (stopOnNack st s).waitQueue = s.waitQueue := by
  cases st <;> rfl
theorem stopOnNack_codes (st : Status) (s : State) : (stopOnNack st s).hw.codes = s.hw.codes := by cases st <;> rfl

/-- What a primitive's run of actions is said to take: its bound, where no input answers in a loop. -/
def Bounded (n weight : Nat) (st : Status) (s u : State) : Prop :=
  s.hw.Settles → n + 2 * u.waitQueue ≤ 2 * s.waitQueue + weight ∧ (st = .busLost → Paid n s u)

theorem PrimRuns.reaches_start {a : Assign} {w : WaitPrim} {s u : State} {st : Status} {r : Run}
    (hw : Waits .start r.ctx.dl (armControl a s) st u) (hc : w.ctx = .start) (ha : a.intClear = some true)
    (hb : beginStep (r.goto .begin) (s.setRun (r.goto .begin)) = .next ((armControl a s).setRun (r.goto (.poll w))))
    (hsu : ∀ v, waitSucceeded w r v = stepSucceeded r v) (hq : s.hw.interrupts = .always []) :
    ∃ n, Reaches n (s.setRun (r.goto .begin)) (arrives st none r u) ∧ Bounded n 5 st s u := by
  obtain ⟨n, hn, hb'⟩ := hw.settles (w := w) (r := r) rfl hc (by simpa using hq)
  have h1 : Reaches 1 (s.setRun (r.goto .begin)) ((armControl a s).setRun (r.goto (.poll w))) := .one hq hb
  refine ⟨1 + n, ?_, fun hs => ?_⟩
  · rw [hw.stopOnNack (.inl rfl), hsu] at hn
    exact h1.trans hn
  · have hs1 := (kept_armControl a s).settles hs
    have e : (armControl a s).waitQueue = s.waitQueue := rfl
    replace hb' := hb' hs1
    refine ⟨by split at hb' <;> omega, fun hst => ?_⟩
    subst hst
    exact hw.paid (n := 1 + n) hs1 (by simp [ha]) (by simp at hb'; omega)

theorem PrimRuns.reaches_write {ctx : MasterCtx} {b : Byte} {w : WaitPrim} {s u : State} {st : Status} {r : Run}
    (hw : Waits ctx r.ctx.dl (armControl .armGo (writeData b s)) st u) (hc : w.ctx = ctx)
    (hb : beginStep (r.goto .begin) (s.setRun (r.goto .begin)) = .next ((writeData b s).setRun (r.goto (.arm w))))
    (hsu : ∀ v, waitSucceeded w r v = stepSucceeded r v) (hq : s.hw.interrupts = .always []) :
    ∃ n, Reaches n (s.setRun (r.goto .begin)) (arrives st none r (stopOnNack st u)) ∧
      Bounded n 5 st s (stopOnNack st u) := by
  obtain ⟨n, hn, hb'⟩ := hw.settles (w := w) (r := r) rfl hc (by simpa using hq)
  have h1 : Reaches 1 (s.setRun (r.goto .begin)) ((writeData b s).setRun (r.goto (.arm w))) := .one hq hb
  have h2 : Reaches 1 ((writeData b s).setRun (r.goto (.arm w)))
      ((armControl .armGo (writeData b s)).setRun (r.goto (.poll w))) := .one (by simpa using hq) (by simp)
  refine ⟨1 + 1 + n, ?_, fun hs => ?_⟩
  · have : (if st = .success then waitSucceeded w r u else primFailed st r (stopOnNack st u)) =
        arrives st none r (stopOnNack st u) := by
      unfold arrives
      split
      · rename_i h; subst h; rw [hsu]; rfl
      · rfl
    rw [this] at hn
    exact (h1.trans h2).trans hn
  · have hs1 := (kept_armControl .armGo (writeData b s)).settles ((kept_writeData b s).settles hs)
    have e : (armControl .armGo (writeData b s)).waitQueue = s.waitQueue := rfl
    replace hb' := hb' hs1
    rw [stopOnNack_waitQueue]
    refine ⟨by split at hb' <;> omega, fun hst => ?_⟩
    subst hst
    exact hw.paid (n := 1 + 1 + n) hs1 rfl (by simp at hb'; omega)

/-- A primitive: where it leads, and how many actions it takes (R150 to R161). -/
theorem PrimRuns.reaches {c : Ctx} {p : Prim} {s u : State} {st : Status} {g : Option Byte} (h : PrimRuns c p s st g u)
    {r : Run} (hp : r.prim? = some p) (hc : r.ctx = c) (hi : r.idx = 0) (hq : s.hw.interrupts = .always []) :
    ∃ n j, Reaches n (s.setRun (r.goto .begin)) (arrives st g { r with idx := j } u) ∧
      Bounded n (p.weight c.len) st s u := by
  subst hc
  have hrecv : Reaches 1 (s.setRun (r.goto .begin)) ((armControl (.armRx false) s).setRun (r.goto (.poll .recvB))) ∨
      p ≠ .wait .recvB := by
    by_cases h : p = .wait .recvB
    · subst h
      exact .inl (.one hq (by rw [action_begin, beginStep_wait hp]; rfl))
    · exact .inr h
  cases h with
  | start hw =>
    obtain ⟨n, h⟩ := PrimRuns.reaches_start (w := .start) hw rfl rfl
      (by rw [beginStep_wait hp]; rfl) (fun _ => rfl) hq
    exact ⟨n, r.idx, h⟩
  | stopStart hw =>
    obtain ⟨n, h⟩ := PrimRuns.reaches_start (w := .stopStart) hw rfl rfl
      (by rw [beginStep_wait hp]; rfl) (fun _ => rfl) hq
    exact ⟨n, r.idx, h⟩
  | addrW hw =>
    obtain ⟨n, h⟩ := PrimRuns.reaches_write (w := .addrW) hw rfl (by rw [beginStep_wait hp]; rfl) (fun _ => rfl) hq
    exact ⟨n, r.idx, h⟩
  | addrR hw =>
    obtain ⟨n, h⟩ := PrimRuns.reaches_write (w := .addrR) hw rfl (by rw [beginStep_wait hp]; rfl) (fun _ => rfl) hq
    exact ⟨n, r.idx, h⟩
  | sendData hw =>
    obtain ⟨n, h⟩ := PrimRuns.reaches_write (w := .sendData) hw rfl (by rw [beginStep_wait hp]; rfl) (fun _ => rfl) hq
    exact ⟨n, r.idx, h⟩
  | sendReg hw =>
    obtain ⟨n, h⟩ := PrimRuns.reaches_write (w := .sendReg) hw rfl (by rw [beginStep_wait hp]; rfl) (fun _ => rfl) hq
    exact ⟨n, r.idx, h⟩
  | sendBuf hl => exact hl.reaches hp rfl rfl rfl hi hq
  | recvBuf hl => exact hl.reaches hp rfl rfl rfl hi hq
  | @recvByte _ v hw =>
    obtain ⟨n, hn, hb'⟩ := hw.settles (w := .recvB) (r := r) rfl rfl (by simpa using hq)
    have hqv : v.hw.interrupts = .always [] := by rw [hw.kept.quiet]; exact hq
    have h2 : Reaches 1 (v.setRun (r.goto .takeByte)) (arrives .success (some (readData v).1) r (readData v).2) :=
      .one hqv (by simp; rfl)
    refine ⟨1 + n + 1, r.idx, ((hrecv.resolve_right (by simp)).trans hn).trans h2, fun hs => ⟨?_, nofun⟩⟩
    replace hb' := hb' ((kept_armControl (.armRx false) s).settles hs)
    have e : (armControl (.armRx false) s).waitQueue = s.waitQueue := rfl
    have e2 : (readData v).2.waitQueue = v.waitQueue := rfl
    simp [Prim.weight] at hb' ⊢
    omega
  | recvFailed hw hst =>
    obtain ⟨n, hn, hb'⟩ := hw.settles (w := .recvB) (r := r) rfl rfl (by simpa using hq)
    rw [if_neg hst, hw.stopOnNack (.inr rfl)] at hn
    refine ⟨1 + n, r.idx, ?_, fun hs => ?_⟩
    · rw [arrives_failed hst]
      exact (hrecv.resolve_right (by simp)).trans hn
    · have hs1 := (kept_armControl (.armRx false) s).settles hs
      replace hb' := hb' hs1
      have e : (armControl (.armRx false) s).waitQueue = s.waitQueue := rfl
      refine ⟨by simp only [Prim.weight]; split at hb' <;> omega, fun hst => ?_⟩
      subst hst
      exact hw.paid (n := 1 + n) hs1 rfl (by simp at hb'; omega)
  | stop =>
    refine ⟨1, r.idx, .one hq (by simp only [action_begin, beginStep, Run.goto_prim, hp]; rfl), fun _ => ⟨?_, nofun⟩⟩
    have e : (armControl .armStop s).waitQueue = s.waitQueue := rfl
    simp [Prim.weight]; omega
  | clear =>
    refine ⟨1, r.idx, .one hq (by simp only [action_begin, beginStep, Run.goto_prim, hp]; rfl), fun _ => ⟨?_, nofun⟩⟩
    have e : (armControl .armGo s).waitQueue = s.waitQueue := rfl
    simp [Prim.weight]; omega

/-- A primitive of one byte that succeeds before a `BusLost` has used up a queued status. -/
theorem PrimRuns.success_codes {c : Ctx} {p : Prim} {s u : State} {g : Option Byte} (h : PrimRuns c p s .success g u)
    (hs : s.hw.Settles) (hp : p.single = true) (hu : u.mayLose) : u.hw.codes.queue.length + 1 = s.hw.codes.queue.length := by
  generalize hst : Status.success = st at h
  have ha (a : Assign) := (kept_armControl a s).settles hs
  have hw' (b : Byte) := (kept_armControl .armGo (writeData b s)).settles ((kept_writeData b s).settles hs)
  cases h with
  | start hw | stopStart hw => subst hst; exact hw.success_codes (ha _) hu
  | recvByte hw => exact hw.success_codes (ha _) hu
  | addrW hw | addrR hw | sendData hw | sendReg hw => subst hst; exact hw.success_codes (hw' _) hu
  | recvFailed hw hs => exact absurd hst.symm hs
  | sendBuf hl | recvBuf hl => cases hp
  | stop | clear => cases hp

/-- A stop and a clear cannot fail (R261). -/
theorem PrimRuns.cannot_fail {c : Ctx} {p : Prim} {s u : State} {st : Status} {g : Option Byte}
    (h : PrimRuns c p s st g u) (hp : p = .stop ∨ p = .clear) : st = .success := by
  rcases hp with rfl | rfl <;> cases h <;> rfl

/-! ## The driver (R186) -/

/-- The shape of every step list: waiting primitives of one byte, then at most one buffer form, then stops. -/
def leads : List Prim → Prop
  | [] => True
  | p :: ps => (p.single = true ∧ leads ps) ∨ ∀ q ∈ ps, q = .stop ∨ q = .clear

/-- The most actions an attempt takes beyond two for each answer of its waits. -/
def weights (len : Nat) (ps : List Prim) : Nat := (ps.map (Prim.weight len)).sum

theorem Attempt.kept {c : Ctx} {ps : List Prim} {s u : State} {st : Status} {g : Option Byte}
    (h : Attempt c ps s st g u) : Kept s u := by
  induction h with
  | done => exact .refl _
  | step hp hl ih => exact hp.kept.trans ih
  | failed hp hs => exact hp.kept

theorem Attempt.cannot_fail {c : Ctx} {ps : List Prim} {s u : State} {st : Status} {g : Option Byte}
    (h : Attempt c ps s st g u) (hps : ∀ q ∈ ps, q = .stop ∨ q = .clear) : st = .success := by
  induction h with
  | done => rfl
  | step hp hl ih => exact ih fun q hq => hps q (List.mem_cons_of_mem _ hq)
  | failed hp hs => exact absurd (hp.cannot_fail (hps _ List.mem_cons_self)) hs

theorem Driver.kept {ps : List Prim} {c : Ctx} {s u : State} {st : Status} {g : Option Byte}
    (h : Driver ps c s st g u) : Kept s u := by
  induction h with
  | ends ha hs => exact ha.kept
  | abort ha hb => exact ha.kept.trans (kept_armControl _ _)
  | retry ha hb hr ih => exact ha.kept.trans ih
  | extend ha hb hn hd hr ih => exact (ha.kept.trans (kept_now hn)).trans ih

theorem CompositeRuns.kept {ps : List Prim} {c : Ctx} {s u : State} {st : Status} {g : Option Byte}
    (h : CompositeRuns ps c s st g u) : Kept s u := by
  obtain ⟨t, v, dl, hn, -, hd⟩ := h
  exact (kept_now hn).trans hd.kept

/-- Where an attempt leads the command: past the end of its list, or to the failure of a step. -/
def attempted (st : Status) (r : Run) (u : State) : State :=
  if st = .success then u.setRun r else primFailed st r u

/-- An attempt: where it leads, and how many actions it takes (R186). -/
theorem Attempt.reaches {c : Ctx} {ps : List Prim} {s u : State} {st : Status} {g : Option Byte}
    (h : Attempt c ps s st g u) {r : Run} (hps : (steps r.op r.ctx).drop r.step = ps) (hc : r.ctx = c) (hi : r.idx = 0)
    (ho : r.op.isComposite = true) (hl : leads ps) (hq : s.hw.interrupts = .always []) :
    ∃ n r', Reaches n (s.setRun (r.goto .begin)) (attempted st r' u) ∧ r'.op = r.op ∧ r'.ctx = c ∧
      (st = .success → r'.phase = .begin ∧ r'.prim? = none ∧ r'.got = (g <|> r.got)) ∧
      Bounded n (weights c.len ps) st s u := by
  induction h generalizing r with
  | done =>
    refine ⟨0, r.goto .begin, .zero _, rfl, hc, fun _ => ⟨rfl, ?_, by simp⟩, fun _ => ⟨by simp [weights], nofun⟩⟩
    rw [Run.goto_prim, Run.prim?, List.getElem?_eq_none_iff]
    exact List.drop_eq_nil_iff.1 hps
  | @step p ps s v u st g g' hp hat ih =>
    have hpr : r.prim? = some p := by
      rw [Run.prim?, ← Nat.add_zero r.step, ← List.getElem?_drop, hps]; rfl
    obtain ⟨n, j, hn, hb⟩ := hp.reaches hpr hc hi hq
    rw [arrives_success, stepSucceeded, if_pos ho] at hn
    have hqv : v.hw.interrupts = .always [] := by rw [hp.kept.quiet]; exact hq
    have hps' : (steps r.op r.ctx).drop (r.step + 1) = ps := by
      rw [← List.drop_drop, hps]; rfl
    have hl' : leads ps := by
      rcases hl with h | h
      · exact h.2
      · clear ih hps hps' hat
        induction ps with
        | nil => trivial
        | cons q qs _ => exact .inr fun x hx => h x (List.mem_cons_of_mem _ hx)
    obtain ⟨m, r', hm, hop, hctx, hsu, hb'⟩ :=
      ih (r := { r.nextStep with got := g <|> r.got }) hps' hc rfl ho hl' hqv
    refine ⟨n + m, r', hn.trans hm, hop, hctx, fun h => ?_, fun hs => ?_⟩
    · obtain ⟨h1, h2, h3⟩ := hsu h
      refine ⟨h1, h2, ?_⟩
      rw [h3]
      cases g' <;> simp
    · have hk := hp.kept
      obtain ⟨hb, -⟩ := hb hs
      obtain ⟨hb', hpay⟩ := hb' (hk.settles hs)
      have hwt : weights c.len (p :: ps) = p.weight c.len + weights c.len ps := by simp [weights]
      refine ⟨by omega, fun h => ?_⟩
      rcases hl with ⟨hsg, -⟩ | htail
      · have h5 : p.weight c.len ≤ 5 := by
          revert hsg
          rcases p with (_ | _ | _ | _ | _ | _ | _ | _ | _) | _ | _ <;> simp [Prim.single, Prim.weight]
        refine (hpay h).before (hp.success_codes hs hsg (hpay h).2) (by omega) ?_
        have := hk.raisesLen hs
        have := hk.clockLen hs
        unfold State.waitQueue; omega
      · exact absurd (hat.cannot_fail htail) (by simp [h])
  | @failed p ps s u st g hp hs =>
    have hpr : r.prim? = some p := by
      rw [Run.prim?, ← Nat.add_zero r.step, ← List.getElem?_drop, hps]; rfl
    obtain ⟨n, j, hn, hb⟩ := hp.reaches hpr hc hi hq
    rw [arrives_failed hs] at hn
    refine ⟨n, { r with idx := j }, ?_, rfl, hc, fun h => absurd h hs, fun hset => ⟨?_, (hb hset).2⟩⟩
    · rw [attempted, if_neg hs]; exact hn
    · have := (hb hset).1
      simp [weights]; omega

/-- Under a retry policy the driver does not end while arbitration is lost for ever (R192, R306). -/
theorem Driver.not_lost {ps : List Prim} {c : Ctx} {s u : State} {st : Status} {g : Option Byte}
    (h : Driver (.wait .start :: ps) c s st g u) (hs : s.Lost) (hb : s.cfgBlb ≠ .abort) : False := by
  have key {c : Ctx} {s v : State} {st : Status} {g : Option Byte} (ha : Attempt c (.wait .start :: ps) s st g v)
      (hs : s.Lost) : st = .busLost ∧ v.Lost := by
    have hw {st : Status} {v : State} (hw : Waits .start c.dl (armControl .armStart s) st v) :
        st = .busLost ∧ v.Lost := by
      have hev : (armControl .armStart s).hw.eventNow = true := by
        simp [Collaborator.eventNow, Answers.take_fst, hs.raises, hs.after]
      have hwe {b : Bool} {x : State} (he : WaitEvent c.dl (armControl .armStart s) b x) :
          b = true ∧ x = (eventComplete (armControl .armStart s)).2 := by
        cases he with
        | completed => exact ⟨rfl, rfl⟩
        | again he => exact absurd (hev.symm.trans he) (by decide)
        | timedOut he => exact absurd (hev.symm.trans he) (by decide)
        | inTime he => exact absurd (hev.symm.trans he) (by decide)
      cases hw with
      | timeout h => cases (hwe h).1
      | @decoded x h =>
        obtain ⟨-, rfl⟩ := hwe h
        refine ⟨?_, ?_⟩
        · rw [masterStatus_busLost]
          have := hs.lost
          simp only [State.repeated] at this
          simpa [Answers.take_fst, hs.codes, State.classify] using this
        · have hk := h.kept.trans (kept_readStatus _)
          exact ⟨hk.settles ((kept_armControl .armStart s).settles hs.settles),
            by simp [Answers.take_queue hs.settles.codes, hs.codes], hk.repeated.trans hs.lost,
            by simp [Answers.take_queue hs.settles.raises, hs.raises], by simpa using hs.after⟩
    generalize hps : Prim.wait .start :: ps = qs at ha
    cases ha with
    | done => cases hps
    | step hp hl =>
      cases hps
      generalize hsu : Status.success = st' at hp
      cases hp with
      | start h => exact absurd (hsu.trans (hw h).1) (by decide)
    | failed hp =>
      cases hps
      cases hp with
      | start h => exact hw h
  induction h with
  | ends ha hne => exact hne (key ha hs).1
  | abort ha hab => exact hb (ha.kept.blb ▸ hab)
  | retry ha hr hd ih => exact ih (key ha hs).2 (by rw [ha.kept.blb]; exact hb)
  | @extend c s v w u st g g' t dl ha hr hn hm hd ih =>
    exact ih ((key ha hs).2.now hn) (by rw [(kept_now hn).blb, ha.kept.blb]; exact hb)

/-- What a composite's driver leaves: the response returned, the sequencer idle. -/
theorem Driver.reaches {ps : List Prim} {c : Ctx} {s u : State} {st : Status} {g : Option Byte}
    (h : Driver (.wait .start :: ps) c s st g u) {r : Run} (hps : ∀ dl, steps r.op { c with dl := dl } = .wait .start :: ps)
    (hc : r.ctx = c) (hi : r.idx = 0) (hr : r.step = 0) (hop : r.op.isComposite = true)
    (hl : leads (.wait .start :: ps)) (hq : s.hw.interrupts = .always []) :
    ∃ n r', Reaches n (s.setRun (r.goto .begin)) (finish st r' u) ∧ r'.op = r.op ∧
      (st = .success → ∃ x, r'.got = (g <|> x)) ∧
      (s.hw.Settles → n + 8 * u.queued ≤ 8 * s.queued + weights c.len (.wait .start :: ps) + 1) := by
  have hlen {s u : State} (hk : Kept s u) (hs : s.hw.Settles) :
      u.hw.codes.queue.length ≤ s.hw.codes.queue.length ∧ u.waitQueue ≤ s.waitQueue := by
    have := hk.raisesLen hs; have := hk.clockLen hs
    exact ⟨hk.codesLen hs, by unfold State.waitQueue; omega⟩
  induction h generalizing r with
  | @ends c s u st g ha hne =>
    obtain ⟨n, r', hn, ho, hx, hs, hb⟩ := ha.reaches (r := r) (by rw [hr, hc]; exact hps c.dl) hc hi hop hl hq
    by_cases hst : st = .success
    · subst hst
      obtain ⟨h1, h2, h3⟩ := hs rfl
      refine ⟨n + 1, r', hn.trans (.one (r := r') (t := finish .success r' u) ?_ ?_), ho, fun _ => ⟨_, h3⟩, fun h => ?_⟩
      · rw [ha.kept.quiet]; exact hq
      · rw [show r' = r'.goto .begin by rw [← h1]; rfl, action_begin]
        simp only [beginStep, Run.goto_prim, h2]
        rfl
      · have := hlen ha.kept h; have := (hb h).1
        unfold State.queued; omega
    · refine ⟨n, r', ?_, ho, fun h => absurd h hst, fun h => ?_⟩
      · rw [attempted, if_neg hst, primFailed_of_ne hne] at hn
        exact hn
      · have := hlen ha.kept h; have := (hb h).1
        unfold State.queued; omega
  | @abort c s u g ha hab =>
    obtain ⟨n, r', hn, ho, hx, hs, hb⟩ := ha.reaches (r := r) (by rw [hr, hc]; exact hps c.dl) hc hi hop hl hq
    refine ⟨n + 1, r'.goto .abort, ?_, ho, nofun, fun h => ?_⟩
    · have hpf : attempted .busLost r' u = u.setRun (r'.goto .abort) := by
        simp [attempted, primFailed, ho, hop, hab]
      rw [hpf] at hn
      exact hn.trans (.one (by rw [ha.kept.quiet]; exact hq) (by simp))
    · have := hlen ha.kept h; have := (hb h).1
      have e : (armControl .armGo u).queued = u.queued := rfl
      unfold State.queued at *; omega
  | @retry c s v u st g g' ha hrt hd ih =>
    obtain ⟨n, r', hn, ho, hx, hs, hb⟩ := ha.reaches (r := r) (by rw [hr, hc]; exact hps c.dl) hc hi hop hl hq
    have hpf : attempted .busLost r' v = v.setRun (r'.restart.goto .begin) := by
      simp [attempted, primFailed, ho, hop, hrt]; rfl
    rw [hpf] at hn
    obtain ⟨m, r2, hm, ho2, hs2, hb2⟩ := ih (r := r'.restart) (by simpa [Run.restart, ho] using hps) hx rfl rfl
      (by simpa [Run.restart, ho] using hop) (by rw [ha.kept.quiet]; exact hq)
    refine ⟨n + m, r2, hn.trans hm, by rw [ho2]; exact ho, hs2, fun h => ?_⟩
    have := hb2 (ha.kept.settles h)
    rcases ((hb h).2 rfl).1 with h1 | h1
    · omega
    · exact (hd.not_lost h1 (by simp [hrt])).elim
  | @extend c s v w u st g g' t dl ha hrt hnow hm hd ih =>
    obtain ⟨n, r', hn, ho, hx, hs, hb⟩ := ha.reaches (r := r) (by rw [hr, hc]; exact hps c.dl) hc hi hop hl hq
    have hpf : attempted .busLost r' v = v.setRun (r'.goto .extend) := by
      simp [attempted, primFailed, ho, hop, hrt]
    rw [hpf] at hn
    have hqv : v.hw.interrupts = .always [] := by rw [ha.kept.quiet]; exact hq
    have hk := kept_now hnow
    have h1 : Reaches 1 (v.setRun (r'.goto .extend)) (w.setRun ((Run.withDeadline dl r').restart.goto .begin)) :=
      .one hqv (by
        rw [action_extend, sampleDeadline_eq_next]
        refine ⟨(t, w.setRun (r'.goto .extend)), dl, now_setRun hnow _, ?_, rfl⟩
        rw [← hm, hk.timeout, show w.widths = v.widths by simp [hk.params]]; rfl)
    obtain ⟨m, r2, hm2, ho2, hs2, hb2⟩ := ih (r := (Run.withDeadline dl r').restart)
      (by simpa [Run.restart, Run.withDeadline, ho] using hps)
      (by simp [Run.restart, Run.withDeadline, hx]) rfl rfl (by simpa [Run.restart, Run.withDeadline, ho] using hop)
      (by rw [hk.quiet]; exact hqv)
    refine ⟨n + 1 + m, r2, (hn.trans h1).trans hm2, by rw [ho2]; exact ho, hs2, fun h => ?_⟩
    have hsv := ha.kept.settles h
    have hb2 := hb2 (hk.settles hsv)
    rcases ((hb h).2 rfl).1 with h2 | h2
    · have := hlen hk hsv
      unfold State.queued at *; simp at hb2; omega
    · exact (hd.not_lost (h2.now hnow) (by rw [hk.blb, hrt]; decide)).elim

/-! ## A whole command -/

/-- A master command that may be issued runs from its first action (R31). -/
theorem issueMaster_ready {s : State} (h : s.Ready) {op : MasterOp} {c : Ctx} (hc : c.fits s.widths = true) :
    issueMaster op c s = advance (actionBudget c.len s) (s.setRun (.issue op c)) := by
  simp only [issueMaster, onlyFlow, h.flow, h.seq, hc, if_true]

/-- How many actions a step groups covers what is queued. -/
theorem actionBudget_queued (len : Nat) (s : State) : 8 * s.queued + 8 * len + 128 = actionBudget len s := by
  unfold actionBudget State.queued State.waitQueue; omega

/-- A failed or unanswered-byte end of a command in the caller flow (R99). -/
theorem finish_returned {st : Status} {r : Run} {s : State} (hf : s.flow = .caller)
    (h : r.op.returnsByte = false ∨ st ≠ .success) : finish st r s = s.returned st := by
  have : finish st r s = respond st.code s.setIdle := by
    unfold finish
    split
    · simp_all
    · rfl
  rw [this, respond_eq_answered]
  simp only [State.setIdle_flow, hf]
  rfl

/-- The end of a command that returns a received byte (R99, R159, R183). -/
theorem finish_returnedByte {r : Run} {s : State} {b : Byte} (hf : s.flow = .caller)
    (h : r.op.returnsByte = true) (hg : r.got = some b) :
    finish .success r s = { s with seq := .idle, rspCaller := { code := 0x00#8, high := b, returned := true } } := by
  unfold finish
  rw [h, hg]
  simp [respondByte, State.setResponse, State.setIdle, hf, Status.code]

/-- A primitive issued on its own (R145): where its actions lead, and how many they are. -/
theorem primitive_reaches {op : MasterOp} {c : Ctx} {p : Prim} {s u : State} {st : Status} {g : Option Byte} (hs : s.Ready)
    (hop : op.isComposite = false) (hst : steps op c = [p]) (h : PrimRuns c p s st g u) :
    ∃ n r, Reaches n (s.setRun (.issue op c)) (finish st r u) ∧ r.op = op ∧ (st = .success → ∃ x, r.got = (g <|> x)) ∧
      (s.hw.Settles → n ≤ actionBudget c.len s) := by
  have hbud := actionBudget_queued c.len s
  have hiss : Run.issue op c = (Run.issue op c).goto .begin := by simp [Run.issue, hop, Run.goto]
  obtain ⟨n, j, hn, hb⟩ := h.reaches (r := .issue op c)
    (by show (steps op c)[0]? = some p; rw [hst]; rfl) rfl rfl hs.quiet
  have hw : p.weight c.len ≤ 8 * c.len + 100 := by
    rcases p with (_ | _ | _ | _ | _ | _ | _ | _ | _) | _ | _ <;> simp only [Prim.weight] <;> omega
  have hq : 2 * s.waitQueue ≤ 8 * s.queued := by unfold State.queued; omega
  rw [hiss]
  have hop' : (Run.issue op c).op.isComposite = false := hop
  refine ⟨n, { Run.issue op c with idx := j, got := if st = .success then g <|> (Run.issue op c).got else none }, ?_, rfl,
    fun h => ⟨_, if_pos h⟩, fun h => by have := (hb h).1; omega⟩
  unfold arrives at hn
  by_cases hsu : st = .success
  · subst hsu
    simpa [stepSucceeded, hop'] using hn
  · simpa [hsu, primFailed, hop', finish_failed] using hn

/-- A composite (R180, R186): where its actions lead, and how many they are. -/
theorem composite_reaches {op : MasterOp} {c : Ctx} {ps : List Prim} {s u : State} {st : Status} {g : Option Byte}
    (hs : s.Ready) (hop : op.isComposite = true) (hst : ∀ dl, steps op { c with dl := dl } = .wait .start :: ps)
    (hl : leads (.wait .start :: ps)) (hw : weights c.len (.wait .start :: ps) ≤ 8 * c.len + 100)
    (h : CompositeRuns (.wait .start :: ps) c s st g u) :
    ∃ n r, Reaches n (s.setRun (.issue op c)) (finish st r u) ∧ r.op = op ∧ (st = .success → ∃ x, r.got = (g <|> x)) ∧
      (s.hw.Settles → n ≤ actionBudget c.len s) := by
  obtain ⟨t, v, dl, hn, hd, hdr⟩ := h
  have hbud := actionBudget_queued c.len s
  have hiss : Run.issue op c = (Run.issue op c).goto .enter := by simp [Run.issue, hop, Run.goto]
  have hk := kept_now hn
  have h1 : Reaches 1 (s.setRun ((Run.issue op c).goto .enter))
      (v.setRun ((Run.withDeadline dl (Run.issue op c)).goto .begin)) := .one hs.quiet (by
    rw [action_enter, sampleDeadline_eq_next]
    exact ⟨(t, v.setRun _), dl, now_setRun hn _, hd, rfl⟩)
  obtain ⟨n, r, hr, ho, hg, hb⟩ := hdr.reaches (r := Run.withDeadline dl (Run.issue op c)) hst rfl rfl rfl
    hop hl (by rw [hk.quiet]; exact hs.quiet)
  rw [hiss]
  refine ⟨1 + n, r, h1.trans hr, ho, hg, fun h => ?_⟩
  have hq : v.queued ≤ s.queued := by
    have := hk.raisesLen h; have := hk.clockLen h; have := hk.codesLen h
    unfold State.queued State.waitQueue; omega
  have := hb (hk.settles h)
  simp at this hw
  omega

/-- A command whose actions lead to its end within one step's group: it has completed in that step (log 1). -/
theorem issueMaster_reaches {op : MasterOp} {c : Ctx} {s u : State} {st : Status} {n : Nat} {r : Run} (hs : s.Ready)
    (hc : c.fits s.widths = true) (h : Reaches n (s.setRun (.issue op c)) (finish st r u))
    (hn : n ≤ actionBudget c.len s) : issueMaster op c s = .next (finish st r u) := by
  rw [issueMaster_ready hs hc]
  exact h.advance (by unfold finish; split <;> rfl) hn

end Sys2Proof.Machine
end

