-- ==== Sys2Proof/Laws/Frames.lean ====
section
/-! SUPPORT. What an action, a run of the event flow and a group of actions leave unchanged (41_master_engine.md R140 to
R161; 60_exceptions.md R266). -/

namespace Sys2Proof.Machine

/-! ## The record -/

/-- The record only grows, and every arm call in what is added is one of the table of R13. -/
def State.Records (s t : State) : Prop := ∃ tr, t.trace = s.trace ++ tr ∧ ∀ a, .arm a ∈ tr → a ∈ armTable

theorem State.Records.refl (s : State) : s.Records s := ⟨[], by simp, by simp⟩

theorem State.Records.trans {s t u : State} (h : s.Records t) (k : t.Records u) : s.Records u := by
  obtain ⟨x, hx, h1⟩ := h
  obtain ⟨y, hy, h2⟩ := k
  refine ⟨x ++ y, by rw [hy, hx, List.append_assoc], fun a ha => ?_⟩
  rcases List.mem_append.1 ha with ha | ha
  · exact h1 a ha
  · exact h2 a ha

theorem State.Records.of_eq {s t : State} (h : t.trace = s.trace) : s.Records t := ⟨[], by simp [h], by simp⟩

theorem State.Records.one {s t : State} {a : Atom} (h : t.trace = s.trace ++ [a])
    (ha : ∀ b, a = .arm b → b ∈ armTable) : s.Records t :=
  ⟨[a], h, fun b hb => ha b (by simpa [eq_comm] using hb)⟩

/-! ## What every piece of a step keeps -/

/-- What neither an action of a master command nor an event step changes, and the record it adds to. -/
structure Steady (s t : State) : Prop where
  params : t.params = s.params
  timeout : t.cfgTimeout = s.cfgTimeout
  blb : t.cfgBlb = s.cfgBlb
  issues : t.issues = s.issues
  others : t.hw.ctrl.others = s.hw.ctrl.others
  records : s.Records t

theorem Steady.refl (s : State) : Steady s s := ⟨rfl, rfl, rfl, rfl, rfl, .refl s⟩

theorem Steady.trans {s t u : State} (h : Steady s t) (k : Steady t u) : Steady s u :=
  ⟨k.params.trans h.params, k.timeout.trans h.timeout, k.blb.trans h.blb, k.issues.trans h.issues,
    k.others.trans h.others, h.records.trans k.records⟩

@[simp] theorem Ctrl.apply_others (a : Assign) (c : Ctrl) : (c.apply a).others = c.others := rfl

theorem steady_armControl {a : Assign} (h : a ∈ armTable) (s : State) : Steady s (armControl a s) :=
  ⟨rfl, rfl, rfl, rfl, rfl, .one rfl fun b hb => by cases hb; exact h⟩
theorem steady_writeData (b : Byte) (s : State) : Steady s (writeData b s) :=
  ⟨rfl, rfl, rfl, rfl, rfl, .one rfl fun b hb => by cases hb⟩
theorem steady_eventComplete (s : State) : Steady s (eventComplete s).2 :=
  ⟨rfl, rfl, rfl, rfl, rfl, .one rfl fun b hb => by cases hb⟩
theorem steady_readStatus (s : State) : Steady s (readStatus s).2 :=
  ⟨rfl, rfl, rfl, rfl, rfl, .one rfl fun b hb => by cases hb⟩
theorem steady_readData (s : State) : Steady s (readData s).2 :=
  ⟨rfl, rfl, rfl, rfl, rfl, .one rfl fun b hb => by cases hb⟩
theorem steady_now {s : State} {p : Time × State} (h : now s = .next p) : Steady s p.2 := by
  obtain ⟨-, rfl⟩ := now_eq_next.1 h
  exact ⟨rfl, rfl, rfl, rfl, rfl, .one rfl fun b hb => by cases hb⟩
theorem steady_memRead {s : State} {a : Nat} {p : Byte × State} (h : memRead a s = .next p) : Steady s p.2 := by
  obtain ⟨-, rfl⟩ := memRead_eq_next.1 h
  exact ⟨rfl, rfl, rfl, rfl, rfl, .one rfl fun b hb => by cases hb⟩
theorem steady_memWrite {s t : State} {a : Nat} {b : Byte} (h : memWrite a b s = .next t) : Steady s t := by
  obtain ⟨-, rfl⟩ := memWrite_eq_next.1 h
  exact ⟨rfl, rfl, rfl, rfl, rfl, .one rfl fun b hb => by cases hb⟩
theorem steady_setRun (r : Run) (s : State) : Steady s (s.setRun r) :=
  ⟨rfl, rfl, rfl, rfl, rfl, .of_eq rfl⟩
theorem steady_setIdle (s : State) : Steady s s.setIdle :=
  ⟨rfl, rfl, rfl, rfl, rfl, .of_eq rfl⟩
theorem steady_respond (c : Byte) (s : State) : Steady s (respond c s) :=
  ⟨rfl, rfl, rfl, rfl, rfl, .of_eq rfl⟩
theorem steady_respondByte (b : Byte) (s : State) : Steady s (respondByte b s) :=
  ⟨rfl, rfl, rfl, rfl, rfl, .of_eq rfl⟩
theorem steady_setRxCursor (n : Nat) (s : State) : Steady s (s.setRxCursor n) :=
  ⟨rfl, rfl, rfl, rfl, rfl, .of_eq rfl⟩
theorem steady_setTxCursor (n : Nat) (s : State) : Steady s (s.setTxCursor n) :=
  ⟨rfl, rfl, rfl, rfl, rfl, .of_eq rfl⟩

theorem Steady.widths {s t : State} (h : Steady s t) : t.widths = s.widths := by simp [h.params]
theorem Steady.memSize {s t : State} (h : Steady s t) : t.memSize = s.memSize := by simp [h.params]

/-! ## One action of a master command -/

/-- What a call of a master command changes beside the record and the collaborator: a byte of memory at the address it
stores to, if it stores. -/
structure Calls (store : Option (Nat × Byte)) (s u : State) : Prop extends Steady s u where
  rx : u.rx = s.rx
  tx : u.tx = s.tx
  flow : u.flow = s.flow
  rspCaller : u.rspCaller = s.rspCaller
  rspEvent : u.rspEvent = s.rspEvent
  freeCount : u.freeCount = s.freeCount
  quiet : u.hw.interrupts = s.hw.interrupts
  mem : match store with
    | none => u.mem = s.mem
    | some (a, b) => a < s.memSize ∧ u.mem = s.mem.write a b

theorem Calls.refl (s : State) : Calls none s s := ⟨.refl s, rfl, rfl, rfl, rfl, rfl, rfl, rfl, rfl⟩
theorem calls_armControl {a : Assign} (h : a ∈ armTable) (s : State) : Calls none s (armControl a s) :=
  ⟨steady_armControl h s, rfl, rfl, rfl, rfl, rfl, rfl, rfl, rfl⟩
theorem calls_writeData (b : Byte) (s : State) : Calls none s (writeData b s) :=
  ⟨steady_writeData b s, rfl, rfl, rfl, rfl, rfl, rfl, rfl, rfl⟩
theorem calls_eventComplete (s : State) : Calls none s (eventComplete s).2 :=
  ⟨steady_eventComplete s, rfl, rfl, rfl, rfl, rfl, rfl, rfl, rfl⟩
theorem calls_readStatus (s : State) : Calls none s (readStatus s).2 :=
  ⟨steady_readStatus s, rfl, rfl, rfl, rfl, rfl, rfl, rfl, rfl⟩
theorem calls_readData (s : State) : Calls none s (readData s).2 :=
  ⟨steady_readData s, rfl, rfl, rfl, rfl, rfl, rfl, rfl, rfl⟩
theorem calls_now {s : State} {p : Time × State} (h : now s = .next p) : Calls none s p.2 := by
  have hs := steady_now h
  obtain ⟨-, rfl⟩ := now_eq_next.1 h
  exact ⟨hs, rfl, rfl, rfl, rfl, rfl, rfl, rfl, rfl⟩
theorem calls_memRead {s : State} {a : Nat} {p : Byte × State} (h : memRead a s = .next p) : Calls none s p.2 := by
  have hs := steady_memRead h
  obtain ⟨-, rfl⟩ := memRead_eq_next.1 h
  exact ⟨hs, rfl, rfl, rfl, rfl, rfl, rfl, rfl, rfl⟩
theorem calls_memWrite {s t : State} {a : Nat} {b : Byte} (h : memWrite a b s = .next t) : Calls (some (a, b)) s t := by
  have hs := steady_memWrite h
  obtain ⟨ha, rfl⟩ := memWrite_eq_next.1 h
  exact ⟨hs, rfl, rfl, rfl, rfl, rfl, rfl, rfl, ha, rfl⟩

/-- What an action stores: a byte at the current place of the buffer, in the store of `RECV_BUF`, else nothing. -/
def Run.stores (r : Run) : Option (Nat × Byte) :=
  match r.phase with
  | .store b => some (bufferAddr r.ctx.ptr r.idx, b)
  | .enter | .begin | .put _ | .arm _ | .poll _ | .clock _ | .decode _ | .nackStop _ | .takeByte | .takeBuf | .abort
  | .extend => none

/-- Where a running command goes: it stays the same command with the same operands, but for a new deadline. -/
def Run.Same (r r' : Run) : Prop := r'.op = r.op ∧ ∃ dl, r'.ctx = { r.ctx with dl := dl }

theorem Run.Same.refl (r : Run) : r.Same r := ⟨rfl, r.ctx.dl, rfl⟩
theorem Run.Same.trans {r r' r'' : Run} (h : r.Same r') (k : r'.Same r'') : r.Same r'' := by
  obtain ⟨h1, d, h2⟩ := h
  obtain ⟨k1, e, k2⟩ := k
  exact ⟨k1.trans h1, e, by rw [k2, h2]⟩

/-- Everything an action can do: one call at most; then the command goes on, or it completes with a status (R8, R31). -/
inductive Acts (r : Run) (s : State) : State → Prop where
  | goes {u : State} {r' : Run} (hc : Calls r.stores s u) (hr : r.Same r') : Acts r s (u.setRun r')
  | ends {u : State} {r' : Run} {st : Status} (hc : Calls r.stores s u) (hr : r.Same r') : Acts r s (finish st r' u)

theorem primFailed_acts {r : Run} {s u : State} (hc : Calls r.stores s u) (st : Status) :
    Acts r s (primFailed st r u) := by
  unfold primFailed
  split
  · split
    · exact .goes hc (.refl r)
    · exact .goes hc (.refl r)
    · exact .goes hc (.refl r)
  · exact .ends hc (.refl r)

theorem stepSucceeded_acts {r r' : Run} {s u : State} (hc : Calls r.stores s u) (hr : r.Same r') :
    Acts r s (stepSucceeded r' u) := by
  unfold stepSucceeded
  split
  · exact .goes hc hr
  · exact .ends hc hr

theorem waitSucceeded_acts {r : Run} {s u : State} (hc : Calls r.stores s u) (w : WaitPrim) :
    Acts r s (waitSucceeded w r u) := by
  cases w <;> first | exact stepSucceeded_acts hc (.refl r) | exact .goes hc (.refl r)

theorem action_acts {r : Run} {s t : State} (h : action r s = .next t) : Acts r s t := by
  unfold action at h
  split at h
  case h_1 hp =>
    have hn : r.stores = none := by simp [Run.stores, hp]
    obtain ⟨p, dl, hs, -, rfl⟩ := sampleDeadline_eq_next.1 h
    exact .goes (hn ▸ calls_now hs) ⟨rfl, dl, rfl⟩
  case h_2 hp =>
    have hn : r.stores = none := by simp [Run.stores, hp]
    unfold beginStep at h
    split at h
    · cases h; exact .ends (hn ▸ Calls.refl s) (.refl r)
    · rename_i w hw
      cases w <;> simp only [beginWait] at h
      case start => cases h; exact .goes (hn ▸ calls_armControl (by decide) s) (.refl r)
      case stopStart => cases h; exact .goes (hn ▸ calls_armControl (by decide) s) (.refl r)
      case addrW => cases h; exact .goes (hn ▸ calls_writeData _ s) (.refl r)
      case addrR => cases h; exact .goes (hn ▸ calls_writeData _ s) (.refl r)
      case sendData => cases h; exact .goes (hn ▸ calls_writeData _ s) (.refl r)
      case sendReg => cases h; exact .goes (hn ▸ calls_writeData _ s) (.refl r)
      case sendBuf =>
        split at h
        · obtain ⟨p, hm, hk⟩ := andThen_eq_next.1 h
          cases hk; exact .goes (hn ▸ calls_memRead hm) (.refl r)
        · cases h; exact stepSucceeded_acts (hn ▸ Calls.refl s) (.refl r)
      case recvB => cases h; exact .goes (hn ▸ calls_armControl (by decide) s) (.refl r)
      case recvBuf =>
        split at h
        · cases h
          refine .goes (hn ▸ calls_armControl ?_ s) (.refl r)
          cases decide (r.idx + 1 < r.ctx.len) <;> decide
        · cases h; exact stepSucceeded_acts (hn ▸ Calls.refl s) (.refl r)
    · cases h; exact stepSucceeded_acts (hn ▸ calls_armControl (by decide) s) (.refl r)
    · cases h; exact stepSucceeded_acts (hn ▸ calls_armControl (by decide) s) (.refl r)
  case h_3 hp => cases h; exact .goes (by simpa [Run.stores, hp] using calls_writeData _ s) (.refl r)
  case h_4 hp => cases h; exact .goes (by simpa [Run.stores, hp] using calls_armControl (by decide) s) (.refl r)
  case h_5 hp =>
    have hc : Calls r.stores s (eventComplete s).2 := by simpa [Run.stores, hp] using calls_eventComplete s
    cases h
    unfold pollEvent
    split
    · exact .goes hc (.refl r)
    · split
      · exact .goes hc (.refl r)
      · exact .goes hc (.refl r)
  case h_6 hp =>
    have hn : r.stores = none := by simp [Run.stores, hp]
    unfold pollClock at h
    obtain ⟨p, hs, hk⟩ := andThen_eq_next.1 h
    have hc : Calls r.stores s p.2 := hn ▸ calls_now hs
    split at hk
    · cases hk; exact primFailed_acts hc _
    · cases hk; exact .goes hc (.refl r)
  case h_7 hp =>
    have hc : Calls r.stores s (readStatus s).2 := by simpa [Run.stores, hp] using calls_readStatus s
    cases h
    unfold decodeNow
    cases masterStatus _ _ <;> simp only [afterDecode]
    case success =>
      exact waitSucceeded_acts hc _
    all_goals first | exact primFailed_acts hc _ | exact .goes hc (.refl r)
  case h_8 hp =>
    cases h
    exact primFailed_acts (by simpa [Run.stores, hp] using calls_armControl (by decide) s) _
  case h_9 hp => cases h; exact stepSucceeded_acts (by simpa [Run.stores, hp] using calls_readData s) (.refl r)
  case h_10 hp => cases h; exact .goes (by simpa [Run.stores, hp] using calls_readData s) (.refl r)
  case h_11 hp =>
    obtain ⟨u, hm, hk⟩ := andThen_eq_next.1 h
    cases hk
    exact .goes (by simpa [Run.stores, hp] using calls_memWrite hm) (.refl r)
  case h_12 hp => cases h; exact .ends (by simpa [Run.stores, hp] using calls_armControl (by decide) s) (.refl r)
  case h_13 hp =>
    have hn : r.stores = none := by simp [Run.stores, hp]
    obtain ⟨p, dl, hs, -, rfl⟩ := sampleDeadline_eq_next.1 h
    exact .goes (hn ▸ calls_now hs) ⟨rfl, dl, rfl⟩

theorem finish_flow (st : Status) (r : Run) (s : State) : (finish st r s).flow = s.flow := by
  unfold finish; split <;> rfl
theorem finish_seq (st : Status) (r : Run) (s : State) : (finish st r s).seq = .idle := by
  unfold finish; split <;> rfl
theorem finish_mem (st : Status) (r : Run) (s : State) : (finish st r s).mem = s.mem := by
  unfold finish; split <;> rfl
theorem finish_rx (st : Status) (r : Run) (s : State) : (finish st r s).rx = s.rx := by
  unfold finish; split <;> rfl
theorem finish_tx (st : Status) (r : Run) (s : State) : (finish st r s).tx = s.tx := by
  unfold finish; split <;> rfl
theorem finish_hw (st : Status) (r : Run) (s : State) : (finish st r s).hw = s.hw := by
  unfold finish; split <;> rfl
theorem finish_trace (st : Status) (r : Run) (s : State) : (finish st r s).trace = s.trace := by
  unfold finish; split <;> rfl
theorem finish_rspEvent {s : State} (h : s.flow = .caller) (st : Status) (r : Run) :
    (finish st r s).rspEvent = s.rspEvent := by
  unfold finish; split <;> simp [h]
theorem finish_rspCaller {s : State} (h : s.flow = .caller) (st : Status) (r : Run) :
    (finish st r s).rspCaller.code = st.code := by
  unfold finish; split <;> simp [h]
theorem steady_finish (st : Status) (r : Run) (s : State) : Steady s (finish st r s) := by
  unfold finish
  split
  · exact (steady_setIdle s).trans (steady_respondByte _ _)
  · exact (steady_setIdle s).trans (steady_respond _ _)

theorem Acts.steady {r : Run} {s t : State} (h : Acts r s t) : Steady s t := by
  cases h with
  | goes hc hr => exact hc.toSteady.trans (steady_setRun _ _)
  | ends hc hr => exact hc.toSteady.trans (steady_finish _ _ _)

theorem Acts.flow {r : Run} {s t : State} (h : Acts r s t) : t.flow = s.flow := by
  cases h with
  | goes hc hr => exact hc.flow
  | ends hc hr => exact (finish_flow _ _ _).trans hc.flow

theorem Acts.rx {r : Run} {s t : State} (h : Acts r s t) : t.rx = s.rx := by
  cases h with
  | goes hc hr => exact hc.rx
  | ends hc hr => exact (finish_rx _ _ _).trans hc.rx

theorem Acts.tx {r : Run} {s t : State} (h : Acts r s t) : t.tx = s.tx := by
  cases h with
  | goes hc hr => exact hc.tx
  | ends hc hr => exact (finish_tx _ _ _).trans hc.tx

theorem Acts.quiet {r : Run} {s t : State} (h : Acts r s t) : t.hw.interrupts = s.hw.interrupts := by
  cases h with
  | goes hc hr => exact hc.quiet
  | ends hc hr => rw [finish_hw]; exact hc.quiet

theorem Acts.rspEvent {r : Run} {s t : State} (h : Acts r s t) (hf : s.flow = .caller) : t.rspEvent = s.rspEvent := by
  cases h with
  | goes hc hr => exact hc.rspEvent
  | ends hc hr => exact (finish_rspEvent (hc.flow.trans hf) _ _).trans hc.rspEvent

theorem Acts.seq {r : Run} {s t : State} (h : Acts r s t) : t.seq = .idle ∨ ∃ r', t.seq = .run r' ∧ r.Same r' := by
  cases h with
  | goes hc hr => exact .inr ⟨_, rfl, hr⟩
  | ends hc hr => exact .inl (finish_seq _ _ _)

/-- Memory after an action: as before, or with the byte that the action stores. -/
theorem Acts.mem {r : Run} {s t : State} (h : Acts r s t) : (r.stores = none ∧ t.mem = s.mem) ∨
    ∃ b, r.phase = .store b ∧ bufferAddr r.ctx.ptr r.idx < s.memSize ∧
      t.mem = s.mem.write (bufferAddr r.ctx.ptr r.idx) b := by
  have key : ∀ {u : State}, Calls r.stores s u → t.mem = u.mem → (r.stores = none ∧ t.mem = s.mem) ∨
      ∃ b, r.phase = .store b ∧ bufferAddr r.ctx.ptr r.idx < s.memSize ∧
        t.mem = s.mem.write (bufferAddr r.ctx.ptr r.idx) b := by
    intro u hc hu
    have hm := hc.mem
    cases hp : r.phase
    case store b =>
      simp only [Run.stores, hp] at hm
      exact .inr ⟨b, rfl, hm.1, hu.trans hm.2⟩
    all_goals
      simp only [Run.stores, hp] at hm
      exact .inl ⟨by simp [Run.stores, hp], hu.trans hm⟩
  cases h with
  | goes hc hr => exact key hc rfl
  | ends hc hr => exact key hc (finish_mem _ _ _)

/-! ## An event step and a run of the event flow -/

/-- The event flow's arm calls (R210, R230). -/
def slaveArms : List Assign := [.armSlaveAck, .armSlaveNack]

/-- What an event step leaves unchanged, whichever it is (R26, R266): everything but the cursors, the response of the flow
in execution, bytes of the bound receive buffer, the collaborator's data and status, and the record. -/
structure EventFrame (s t : State) : Prop extends Steady s t where
  flow : t.flow = s.flow
  seq : t.seq = s.seq
  rspCaller : s.flow = .event → t.rspCaller = s.rspCaller
  quiet : t.hw.interrupts = s.hw.interrupts
  clock : t.hw.clock = s.hw.clock
  arms : ∃ tr, t.trace = s.trace ++ tr ∧ ∀ a, .arm a ∈ tr → a ∈ slaveArms
  rxPtr : t.rx.ptr = s.rx.ptr
  rxLen : t.rx.len = s.rx.len
  txPtr : t.tx.ptr = s.tx.ptr
  txLen : t.tx.len = s.tx.len
  outside : ∀ a, ¬ s.rx.Holds a → t.mem.read a = s.mem.read a
  wf : s.mem.wf s.memSize = true → t.mem.wf s.memSize = true
  rxBound : s.rx.cursor ≤ s.rx.len → t.rx.cursor ≤ t.rx.len
  txBound : s.tx.cursor ≤ s.tx.len → t.tx.cursor ≤ t.tx.len

theorem EventFrame.refl (s : State) : EventFrame s s :=
  ⟨.refl s, rfl, rfl, fun _ => rfl, rfl, rfl, ⟨[], by simp, by simp⟩, rfl, rfl, rfl, rfl, fun _ _ => rfl, id, id, id⟩

theorem EventFrame.trans {s t u : State} (h : EventFrame s t) (k : EventFrame t u) : EventFrame s u := by
  refine ⟨h.toSteady.trans k.toSteady, k.flow.trans h.flow, k.seq.trans h.seq,
    fun hf => (k.rspCaller (h.flow.trans hf)).trans (h.rspCaller hf), k.quiet.trans h.quiet, k.clock.trans h.clock, ?_,
    k.rxPtr.trans h.rxPtr, k.rxLen.trans h.rxLen, k.txPtr.trans h.txPtr, k.txLen.trans h.txLen,
    fun a ha => ?_, fun hw => ?_, fun hb => k.rxBound (h.rxBound hb), fun hb => k.txBound (h.txBound hb)⟩
  · obtain ⟨x, hx, h1⟩ := h.arms
    obtain ⟨y, hy, h2⟩ := k.arms
    refine ⟨x ++ y, by rw [hy, hx, List.append_assoc], fun a ha => ?_⟩
    rcases List.mem_append.1 ha with ha | ha
    · exact h1 a ha
    · exact h2 a ha
  · rw [k.outside a (by unfold Desc.Holds; rw [h.rxPtr, h.rxLen]; exact ha), h.outside a ha]
  · have := k.wf (by rw [h.memSize]; exact h.wf hw)
    rwa [h.memSize] at this

theorem eventFrame_readStatus (s : State) : EventFrame s (readStatus s).2 :=
  ⟨steady_readStatus s, rfl, rfl, fun _ => rfl, rfl, rfl, ⟨_, rfl, by simp⟩, rfl, rfl, rfl, rfl, fun _ _ => rfl, id, id, id⟩
theorem eventFrame_readData (s : State) : EventFrame s (readData s).2 :=
  ⟨steady_readData s, rfl, rfl, fun _ => rfl, rfl, rfl, ⟨_, rfl, by simp⟩, rfl, rfl, rfl, rfl, fun _ _ => rfl, id, id, id⟩
theorem eventFrame_writeData (b : Byte) (s : State) : EventFrame s (writeData b s) :=
  ⟨steady_writeData b s, rfl, rfl, fun _ => rfl, rfl, rfl, ⟨_, rfl, by simp⟩, rfl, rfl, rfl, rfl, fun _ _ => rfl, id, id, id⟩
theorem eventFrame_respond (c : Byte) (s : State) : EventFrame s (respond c s) :=
  ⟨steady_respond c s, rfl, rfl, fun h => by simp [h], rfl, rfl, ⟨[], by simp, by simp⟩, rfl, rfl, rfl, rfl, fun _ _ => rfl, id, id, id⟩
theorem eventFrame_arm {a : Assign} (h : a ∈ slaveArms) (s : State) : EventFrame s (armControl a s) := by
  have ht : a ∈ armTable := by
    simp only [slaveArms, List.mem_cons, List.not_mem_nil, or_false] at h
    rcases h with rfl | rfl <;> decide
  exact ⟨steady_armControl ht s, rfl, rfl, fun _ => rfl, rfl, rfl,
    ⟨_, rfl, fun b hb => by simp only [List.mem_singleton, Atom.arm.injEq] at hb; exact hb ▸ h⟩, rfl, rfl, rfl, rfl, fun _ _ => rfl, id, id, id⟩
theorem eventFrame_memRead (a : Nat) (b : Byte) (s : State) : EventFrame s (s.record (.memRead a b)) :=
  ⟨⟨rfl, rfl, rfl, rfl, rfl, .one rfl fun c hc => by cases hc⟩, rfl, rfl, fun _ => rfl, rfl, rfl,
    ⟨_, rfl, by simp⟩, rfl, rfl, rfl, rfl, fun _ _ => rfl, id, id, id⟩
theorem eventFrame_rxCursor {n : Nat} (s : State) (h : n ≤ s.rx.len) : EventFrame s (s.setRxCursor n) :=
  ⟨steady_setRxCursor n s, rfl, rfl, fun _ => rfl, rfl, rfl, ⟨[], by simp, by simp⟩, rfl, rfl, rfl, rfl, fun _ _ => rfl, id, fun _ => h, id⟩
theorem eventFrame_txCursor {n : Nat} (s : State) (h : n ≤ s.tx.len) : EventFrame s (s.setTxCursor n) :=
  ⟨steady_setTxCursor n s, rfl, rfl, fun _ => rfl, rfl, rfl, ⟨[], by simp, by simp⟩, rfl, rfl, rfl, rfl, fun _ _ => rfl, id, id, fun _ => h⟩

theorem eventFrame_respondIllegal (s : State) : EventFrame s (respondIllegal s) :=
  ⟨⟨rfl, rfl, rfl, rfl, rfl, .of_eq rfl⟩, rfl, rfl, fun h => by simp [h], rfl, rfl, ⟨[], by simp, by simp⟩, rfl, rfl, rfl,
    rfl, fun _ _ => rfl, id, id, id⟩

theorem Desc.pending_iff {d : Desc} : d.pending = true ↔ d.cursor < d.len := by simp [Desc.pending]

theorem eventFrame_memWrite {s t : State} {b : Byte} (hp : s.rx.pending = true)
    (h : memWrite (bufferAddr s.rx.ptr s.rx.cursor) b s = .next t) : EventFrame s t := by
  have hs := steady_memWrite h
  have hp := Desc.pending_iff.1 hp
  obtain ⟨ha, rfl⟩ := memWrite_eq_next.1 h
  refine ⟨hs, rfl, rfl, fun _ => rfl, rfl, rfl, ⟨_, rfl, by simp⟩, rfl, rfl, rfl, rfl, fun a hh => ?_, Memory.wf_write ha, id, id⟩
  exact Memory.read_write_other fun e => hh (by
    subst e; exact ⟨Nat.le_add_right _ _, Nat.add_lt_add_left hp _⟩)

theorem eventFrame_rxArmNext (s : State) : EventFrame s (rxArmNext s) := by
  unfold rxArmNext; split <;> exact eventFrame_arm (by decide) s

theorem rxReact_frame {ev : BasicSlaveStatus} {s t : State} (h : rxReact ev s = .next t) : EventFrame s t := by
  cases ev <;> simp only [rxReact] at h
  case addressedAsReceiver =>
    cases h
    unfold rxAddressed
    split
    · exact (eventFrame_rxCursor s (Nat.zero_le _)).trans (eventFrame_arm (by decide) _)
    · exact eventFrame_arm (by decide) s
  case dataAccepted =>
    unfold rxDataAccepted at h
    split at h
    · rename_i hp
      obtain ⟨u, hu, hk⟩ := andThen_eq_next.1 h
      cases hk
      have hrx : u.rx = s.rx := by obtain ⟨-, rfl⟩ := memWrite_eq_next.1 hu; rfl
      refine ((eventFrame_readData s).trans (eventFrame_memWrite hp hu)).trans
        ((eventFrame_rxCursor u ?_).trans (eventFrame_rxArmNext _))
      rw [hrx]
      exact Desc.pending_iff.1 hp
    · cases h; exact eventFrame_arm (by decide) s
  all_goals cases h; exact .refl s

theorem txEmit_frame {s t : State} (h : txEmit s = .next t) : EventFrame s t := by
  unfold txEmit at h
  split at h
  · rename_i hp
    obtain ⟨p, hm, hk⟩ := andThen_eq_next.1 h
    obtain ⟨-, rfl⟩ := memRead_eq_next.1 hm
    cases hk
    exact ((eventFrame_memRead _ _ s).trans (eventFrame_writeData _ _)).trans
      ((eventFrame_arm (by decide) _).trans (eventFrame_txCursor _ (Desc.pending_iff.1 hp)))
  · cases h; exact eventFrame_arm (by decide) s

theorem txReact_frame {ev : BasicSlaveStatus} {s t : State} (h : txReact ev s = .next t) : EventFrame s t := by
  cases ev <;> simp only [txReact] at h
  case addressedAsTransmitter =>
    unfold txAddressed at h
    split at h
    · exact (eventFrame_txCursor s (Nat.zero_le _)).trans (txEmit_frame h)
    · exact txEmit_frame h
  case nextDataAccepted => exact txEmit_frame h
  all_goals cases h; exact .refl s

theorem eventStep_frame {e : EventStep} {s t : State} (h : eventStep e s = .next t) : EventFrame s t := by
  cases e <;> simp only [eventStep, rxEventStep, txEventStep] at h
  · obtain ⟨u, hu, hk⟩ := andThen_eq_next.1 h
    cases hk
    exact ((eventFrame_readStatus s).trans (rxReact_frame hu)).trans (eventFrame_respond _ _)
  · obtain ⟨u, hu, hk⟩ := andThen_eq_next.1 h
    cases hk
    exact ((eventFrame_readStatus s).trans (txReact_frame hu)).trans (eventFrame_respond _ _)

theorem runDispatch_frame {es : List EventStep} {s t : State} (h : runDispatch es s = .next t) : EventFrame s t := by
  induction es generalizing s with
  | nil => cases h; exact .refl _
  | cons e es ih =>
    obtain ⟨u, hu, hk⟩ := andThen_eq_next.1 h
    exact (eventStep_frame hu).trans (ih hk)

/-- An event-flow command packet among these binds this receive buffer (R215). -/
def RxBinds (w : Widths) (ps : List Preemption) (ptr : Addr) (len : Len) : Prop :=
  ∃ p rest, .command p ∈ ps ∧ decode w p = .ok (.rxBind ptr len, rest)

/-- An event-flow command packet among these binds this transmit buffer (R234). -/
def TxBinds (w : Widths) (ps : List Preemption) (ptr : Addr) (len : Len) : Prop :=
  ∃ p rest, .command p ∈ ps ∧ decode w p = .ok (.txBind ptr len, rest)

/-- What the event flow leaves unchanged when it does these things (R26, R266, R267); the caller flow is in execution after
it. -/
structure FlowFrame (ps : List Preemption) (s t : State) : Prop extends Steady s t where
  flow : s.flow = .caller → t.flow = .caller
  seq : t.seq = s.seq
  rspCaller : t.rspCaller = s.rspCaller
  quiet : t.hw.interrupts = s.hw.interrupts
  clock : t.hw.clock = s.hw.clock
  arms : ∃ tr, t.trace = s.trace ++ tr ∧ ∀ a, .arm a ∈ tr → a ∈ slaveArms
  rx : (t.rx.ptr = s.rx.ptr ∧ t.rx.len = s.rx.len) ∨ RxBinds s.widths ps t.rx.ptr t.rx.len
  tx : (t.tx.ptr = s.tx.ptr ∧ t.tx.len = s.tx.len) ∨ TxBinds s.widths ps t.tx.ptr t.tx.len
  outside : ∀ a, ¬ s.rx.Holds a → (∀ ptr len, RxBinds s.widths ps ptr len → ¬ (ptr ≤ a ∧ a < ptr + len)) →
    t.mem.read a = s.mem.read a
  wf : s.mem.wf s.memSize = true → t.mem.wf s.memSize = true
  rxGood : s.rx.good s.widths = true → t.rx.good s.widths = true
  txGood : s.tx.good s.widths = true → t.tx.good s.widths = true

theorem FlowFrame.refl (s : State) : FlowFrame [] s s :=
  ⟨.refl s, id, rfl, rfl, rfl, rfl, ⟨[], by simp, by simp⟩, .inl ⟨rfl, rfl⟩, .inl ⟨rfl, rfl⟩, fun _ _ _ => rfl, id, id, id⟩

theorem FlowFrame.trans {ps qs : List Preemption} {s t u : State} (h : FlowFrame ps s t) (k : FlowFrame qs t u) :
    FlowFrame (ps ++ qs) s u := by
  have hw : t.widths = s.widths := h.widths
  have left {ptr : Addr} {len : Len} : RxBinds s.widths ps ptr len → RxBinds s.widths (ps ++ qs) ptr len :=
    fun ⟨p, rest, hp, hd⟩ => ⟨p, rest, List.mem_append_left _ hp, hd⟩
  have right {ptr : Addr} {len : Len} : RxBinds t.widths qs ptr len → RxBinds s.widths (ps ++ qs) ptr len :=
    fun ⟨p, rest, hp, hd⟩ => ⟨p, rest, List.mem_append_right _ hp, hw ▸ hd⟩
  have left' {ptr : Addr} {len : Len} : TxBinds s.widths ps ptr len → TxBinds s.widths (ps ++ qs) ptr len :=
    fun ⟨p, rest, hp, hd⟩ => ⟨p, rest, List.mem_append_left _ hp, hd⟩
  have right' {ptr : Addr} {len : Len} : TxBinds t.widths qs ptr len → TxBinds s.widths (ps ++ qs) ptr len :=
    fun ⟨p, rest, hp, hd⟩ => ⟨p, rest, List.mem_append_right _ hp, hw ▸ hd⟩
  refine ⟨h.toSteady.trans k.toSteady, fun hf => k.flow (h.flow hf), k.seq.trans h.seq, k.rspCaller.trans h.rspCaller,
    k.quiet.trans h.quiet, k.clock.trans h.clock, ?_, ?_, ?_, fun a ha hb => ?_, fun hm => ?_, fun hg => ?_, fun hg => ?_⟩
  · obtain ⟨x, hx, h1⟩ := h.arms
    obtain ⟨y, hy, h2⟩ := k.arms
    refine ⟨x ++ y, by rw [hy, hx, List.append_assoc], fun a ha => ?_⟩
    rcases List.mem_append.1 ha with ha | ha
    · exact h1 a ha
    · exact h2 a ha
  · rcases k.rx with ⟨k1, k2⟩ | k1
    · rw [k1, k2]; exact h.rx.imp_right left
    · exact .inr (right k1)
  · rcases k.tx with ⟨k1, k2⟩ | k1
    · rw [k1, k2]; exact h.tx.imp_right left'
    · exact .inr (right' k1)
  · rw [k.outside a ?_ fun ptr len hr => hb ptr len (right hr), h.outside a ha fun ptr len hr => hb ptr len (left hr)]
    unfold Desc.Holds
    rcases h.rx with ⟨h1, h2⟩ | h1
    · rw [h1, h2]; exact ha
    · exact hb _ _ (left h1)
  · have := k.wf (by rw [h.memSize]; exact h.wf hm)
    rwa [h.memSize] at this
  · have := k.rxGood (by rw [hw]; exact h.rxGood hg)
    rwa [hw] at this
  · have := k.txGood (by rw [hw]; exact h.txGood hg)
    rwa [hw] at this

/-- A run of event steps, entered and left, is what the event flow does for one thing (R265 to R267). -/
theorem FlowFrame.of_steps {p : Preemption} {s t : State} {e : Bool}
    (f : EventFrame { s with flow := .event, hw := { s.hw with event := e } } t) : FlowFrame [p] s (leaveEventFlow t) := by
  refine ⟨⟨f.params, f.timeout, f.blb, f.issues, f.others, f.records⟩, fun _ => rfl, f.seq, f.rspCaller rfl, f.quiet,
    f.clock, f.arms, .inl ⟨f.rxPtr, f.rxLen⟩, .inl ⟨f.txPtr, f.txLen⟩, fun a ha _ => f.outside a ha, f.wf, fun h => ?_,
    fun h => ?_⟩ <;>
    simp only [Desc.good, Desc.bounded, Bool.and_eq_true, leaveEventFlow_rx, leaveEventFlow_tx] at h ⊢
  · exact ⟨decide_eq_true (f.rxBound (of_decide_eq_true h.1)), by rw [f.rxPtr, f.rxLen]; exact h.2⟩
  · exact ⟨decide_eq_true (f.txBound (of_decide_eq_true h.1)), by rw [f.txPtr, f.txLen]; exact h.2⟩

theorem runEventFlow_frame {p : Preemption} {s t : State} (h : runEventFlow s = .next t) : FlowFrame [p] s t := by
  obtain ⟨u, hu, hk⟩ := andThen_eq_next.1 h
  cases hk
  exact .of_steps (runDispatch_frame hu)

/-- A packet is served by running its command in its flow, or by the answer to an illegal packet (R90, R96). -/
theorem servePacket_cases {run : Instr → State → Result} {f : Flow} {packet : Packet} {s t : State}
    (h : servePacket run f packet s = .next t) :
    (∃ i rest u, decode s.widths packet = .ok (i, rest) ∧ run i { s with flow := f } = .next u ∧ t = leaveEventFlow u) ∨
    t = leaveEventFlow (respondIllegal { s with flow := f }) := by
  unfold servePacket at h
  split at h
  · rename_i i rest hd
    obtain ⟨u, hu, hk⟩ := andThen_eq_next.1 h
    cases hk
    exact .inl ⟨i, rest, u, hd, hu, rfl⟩
  · cases h
  all_goals cases h; exact .inr rfl

/-- What a command of the event flow is: an event step, a cursor back to 0, a buffer bound, or one that does not fit
(R112). -/
theorem eventCommand_cases {i : Instr} {s t : State} (h : eventCommand i s = .next t) :
    (∃ e, eventStep e s = .next t) ∨ t = respond 0#8 (s.setRxCursor 0) ∨ t = respond 0#8 (s.setTxCursor 0) ∨
    (∃ ptr len, i = .rxBind ptr len ∧ bufferFits s.widths ptr len = true ∧
      t = respond 0#8 { s with rx := { ptr := ptr, len := len, cursor := 0 } }) ∨
    (∃ ptr len, i = .txBind ptr len ∧ bufferFits s.widths ptr len = true ∧
      t = respond 0#8 { s with tx := { ptr := ptr, len := len, cursor := 0 } }) ∨
    t = respondIllegal s := by
  cases i <;> simp only [eventCommand, reduceCtorEq] at h
  case rxEvent => exact .inl ⟨.rx, (onlyFlow_eq_next.1 h).2⟩
  case txEvent => exact .inl ⟨.tx, (onlyFlow_eq_next.1 h).2⟩
  case rxNext => cases h; exact .inr (.inl rfl)
  case txAgain => cases h; exact .inr (.inr (.inl rfl))
  case rxBind ptr len =>
    unfold execRxBind at h
    split at h
    · rename_i hb; cases h; exact .inr (.inr (.inr (.inl ⟨ptr, len, rfl, hb, rfl⟩)))
    · cases h; exact .inr (.inr (.inr (.inr (.inr rfl))))
  case txBind ptr len =>
    unfold execTxBind at h
    split at h
    · rename_i hb; cases h; exact .inr (.inr (.inr (.inr (.inl ⟨ptr, len, rfl, hb, rfl⟩))))
    · cases h; exact .inr (.inr (.inr (.inr (.inr rfl))))

theorem servePreemption_frame {p : Preemption} {s t : State} (h : servePreemption p s = .next t) : FlowFrame [p] s t := by
  cases p with
  | hwEvent => exact runEventFlow_frame h
  | readResponse =>
    obtain ⟨q, hq, hk⟩ := andThen_eq_next.1 h
    cases hk
    unfold readResponse at hq
    split at hq
    · cases hq
      exact ⟨.refl s, id, rfl, rfl, rfl, rfl, ⟨[], by simp, by simp⟩, .inl ⟨rfl, rfl⟩, .inl ⟨rfl, rfl⟩, fun _ _ _ => rfl,
        id, id, id⟩
    · cases hq
  | command packet =>
    rcases servePacket_cases h with ⟨i, rest, u, hd, hu, rfl⟩ | rfl
    · rcases eventCommand_cases hu with ⟨e, he⟩ | rfl | rfl | ⟨ptr, len, rfl, hb, rfl⟩ | ⟨ptr, len, rfl, hb, rfl⟩ | rfl
      · exact .of_steps (e := s.hw.event) (eventStep_frame he)
      · exact .of_steps (e := s.hw.event) ((eventFrame_rxCursor _ (Nat.zero_le _)).trans (eventFrame_respond _ _))
      · exact .of_steps (e := s.hw.event) ((eventFrame_txCursor _ (Nat.zero_le _)).trans (eventFrame_respond _ _))
      · exact ⟨⟨rfl, rfl, rfl, rfl, rfl, .of_eq rfl⟩, fun _ => rfl, rfl, by simp, rfl, rfl, ⟨[], by simp, by simp⟩,
          .inr ⟨packet, rest, List.mem_cons_self, hd⟩, .inl ⟨rfl, rfl⟩, fun _ _ _ => rfl, id,
          fun _ => by simpa [Desc.good, Desc.bounded] using hb, id⟩
      · exact ⟨⟨rfl, rfl, rfl, rfl, rfl, .of_eq rfl⟩, fun _ => rfl, rfl, by simp, rfl, rfl, ⟨[], by simp, by simp⟩,
          .inl ⟨rfl, rfl⟩, .inr ⟨packet, rest, List.mem_cons_self, hd⟩, fun _ _ _ => rfl, id, id,
          fun _ => by simpa [Desc.good, Desc.bounded] using hb⟩
      · exact .of_steps (e := s.hw.event) (eventFrame_respondIllegal _)
    · exact .of_steps (e := s.hw.event) (eventFrame_respondIllegal _)

theorem servePreemptions_frame {ps : List Preemption} {s t : State} (h : servePreemptions ps s = .next t) :
    FlowFrame ps s t := by
  induction ps generalizing s with
  | nil => cases h; exact .refl _
  | cons p ps ih =>
    obtain ⟨u, hu, hk⟩ := andThen_eq_next.1 h
    exact (servePreemption_frame hu).trans (ih hk)

/-- What one boundary of the caller flow leaves unchanged, and the schedule after it (R266). -/
structure BoundaryFrame (s t : State) : Prop extends Steady s t where
  flow : s.flow = .caller → t.flow = .caller
  seq : t.seq = s.seq
  rspCaller : t.rspCaller = s.rspCaller
  schedule : t.hw.interrupts = s.hw.interrupts.take.2
  clock : t.hw.clock = s.hw.clock
  arms : ∃ tr, t.trace = s.trace ++ tr ∧ ∀ a, .arm a ∈ tr → a ∈ slaveArms
  rx : (t.rx.ptr = s.rx.ptr ∧ t.rx.len = s.rx.len) ∨ RxBinds s.widths s.hw.interrupts.take.1 t.rx.ptr t.rx.len
  tx : (t.tx.ptr = s.tx.ptr ∧ t.tx.len = s.tx.len) ∨ TxBinds s.widths s.hw.interrupts.take.1 t.tx.ptr t.tx.len
  outside : ∀ a, ¬ s.rx.Holds a →
    (∀ ptr len, RxBinds s.widths s.hw.interrupts.take.1 ptr len → ¬ (ptr ≤ a ∧ a < ptr + len)) → t.mem.read a = s.mem.read a
  wf : s.mem.wf s.memSize = true → t.mem.wf s.memSize = true
  rxGood : s.rx.good s.widths = true → t.rx.good s.widths = true
  txGood : s.tx.good s.widths = true → t.tx.good s.widths = true

theorem atBoundary_frame {s t : State} (h : atBoundary s = .next t) : BoundaryFrame s t := by
  have f := servePreemptions_frame h
  exact ⟨⟨f.params, f.timeout, f.blb, f.issues, f.others, f.records⟩, f.flow, f.seq, f.rspCaller, f.quiet, f.clock, f.arms,
    f.rx, f.tx, f.outside, f.wf, f.rxGood, f.txGood⟩

/-! ## Groups of actions -/

/-- A relation that a boundary with an action keeps holds after any group of actions. -/
theorem advance_induction {P : State → Prop} (n : Nat)
    (hstep : ∀ (r : Run) (s u t : State), s.seq = .run r → P s → atBoundary s = .next u → action r u = .next t → P t)
    {s t : State} (hs : P s) (h : advance n s = .next t) : P t := by
  induction n generalizing s with
  | zero => cases h; exact hs
  | succ n ih =>
    unfold advance at h
    split at h
    · cases h; exact hs
    · rename_i r hr
      obtain ⟨v, hv, hk⟩ := andThen_eq_next.1 h
      obtain ⟨u, hu, ha⟩ := andThen_eq_next.1 hv
      exact ih (hstep r s u v hr hs hu ha) hk

end Sys2Proof.Machine
end

