-- ==== Sys2Proof/Laws/Invariant.lean ====
section
/-! SUPPORT. The sequencer's part of the invariant (10_state.md R30, R31, R36): what a running command in good order says, and
that every action keeps it and never faults. -/

namespace Sys2Proof.Machine

theorem Run.good_iff {w : Widths} {r : Run} : r.good w = true ↔ r.stepGood = true ∧ r.idxGood = true ∧
    r.ctx.fits w = true ∧ r.phaseGood = true ∧ r.gotGood = true := by
  simp only [Run.good, Bool.and_eq_true, and_assoc]

theorem Ctx.fits_iff {w : Widths} {c : Ctx} : c.fits w = true ↔ bufferFits w c.ptr c.len = true ∧ c.dl.fits w = true := by
  simp only [Ctx.fits, Bool.and_eq_true]

theorem Run.isAt_iff {r : Run} {w : WaitPrim} : r.isAt w = true ↔ r.prim? = some (.wait w) := by
  simp only [Run.isAt, decide_eq_true_eq]

theorem Run.waitsIn_iff {r : Run} {w : WaitPrim} :
    r.waitsIn w = true ↔ r.prim? = some (.wait w) ∧ (w.isBuffer = true → r.idx < r.ctx.len) := by
  cases hw : w.isBuffer <;> simp [Run.waitsIn, Run.isAt_iff, Run.inBuffer, hw]

theorem Run.inList_iff {r : Run} : r.inList = true ↔ r.step < (steps r.op r.ctx).length := decide_eq_true_iff

/-- A command at a step is inside its list. -/
theorem Run.inList_of_prim {r : Run} {p : Prim} (h : r.prim? = some p) : r.inList = true := by
  rw [Run.inList_iff]
  by_contra hn
  rw [Run.prim?, List.getElem?_eq_none (by omega)] at h
  cases h

/-- Where a command stands in its list (R30, R31). -/
theorem Run.stepGood_iff {r : Run} : r.stepGood = true ↔
    if r.op.isComposite then r.step ≤ (steps r.op r.ctx).length else r.step = 0 := by
  unfold Run.stepGood; split <;> exact decide_eq_true_iff

/-- Going to another position keeps everything but the position. -/
theorem Run.good_goto {w : Widths} {r : Run} (h : r.good w = true) {p : Phase} (hp : (r.goto p).phaseGood = true) :
    (r.goto p).good w = true := by
  obtain ⟨h1, h2, h3, -, h5⟩ := Run.good_iff.1 h
  exact Run.good_iff.2 ⟨h1, h2, h3, hp, h5⟩

theorem Run.phaseGood_of_good {w : Widths} {r : Run} (h : r.good w = true) : r.phaseGood = true :=
  (Run.good_iff.1 h).2.2.2.1

theorem Run.fits_of_good {w : Widths} {r : Run} (h : r.good w = true) : r.ctx.fits w = true := (Run.good_iff.1 h).2.2.1

/-- The next step of a composite's list, with the byte that was received if this one receives it (R31, R159). -/
theorem Run.good_nextStep {w : Widths} {r : Run} (h : r.good w = true) (hc : r.op.isComposite = true) {p : Prim}
    (hp : r.prim? = some p) {g : Option Byte} (hg : g = r.got ∨ g.isSome = true) (hr : p = .wait .recvB → g.isSome = true) :
    ({ r.nextStep with got := g } : Run).good w = true := by
  obtain ⟨h1, h2, h3, -, h5⟩ := Run.good_iff.1 h
  have hlt := Run.inList_iff.1 (Run.inList_of_prim hp)
  refine Run.good_iff.2 ⟨Run.stepGood_iff.2 ?_, by simp [Run.idxGood, Run.nextStep], h3, rfl, ?_⟩
  · show if r.op.isComposite then _ else _
    rw [if_pos hc]; exact hlt
  obtain ⟨op, step, idx, ctx, phase, got⟩ := r
  simp only [Run.prim?] at hp hlt h5
  cases op <;> simp only [Run.gotGood, Run.nextStep]
  case mRecvB =>
    simp only [Bool.or_eq_true]
    rcases Nat.lt_or_ge step 2 with hs | hs
    · exact .inl (decide_eq_true hs)
    · right
      rcases Nat.eq_or_lt_of_le hs with rfl | hs
      · simp only [steps, List.cons_append, List.getElem?_cons_succ, List.getElem?_cons_zero, Option.some.injEq] at hp
        exact hr hp.symm
      · simp only [Run.gotGood, Bool.or_eq_true, decide_eq_true_eq] at h5
        rcases hg with rfl | hg
        · exact h5.resolve_left (by omega)
        · exact hg

/-- The next byte of a buffer (R31). -/
theorem Run.good_nextByte {ws : Widths} {r : Run} (h : r.good ws = true) {w : WaitPrim} (hw : w = .sendBuf ∨ w = .recvBuf)
    (hp : r.waitsIn w = true) : r.nextByte.good ws = true := by
  obtain ⟨h1, h2, h3, -, h5⟩ := Run.good_iff.1 h
  obtain ⟨ha, hb⟩ := Run.waitsIn_iff.1 hp
  have hlt : r.idx < r.ctx.len := hb (by rcases hw with rfl | rfl <;> rfl)
  refine Run.good_iff.2 ⟨h1, ?_, h3, rfl, h5⟩
  have ha' : r.nextByte.prim? = some (.wait w) := ha
  simp only [Run.idxGood, Bool.or_eq_true, Bool.and_eq_true, Run.isAt_iff, decide_eq_true_eq]
  exact .inr ⟨by rcases hw with rfl | rfl <;> simp [ha'], hlt⟩

theorem steps_withDeadline (dl : Deadline) (r : Run) : steps r.op (r.withDeadline dl).ctx = steps r.op r.ctx := by
  cases r.op <;> rfl

/-- A deadline made from the clock has `TW` bits (R10). -/
theorem mkDeadline_fits {w : Widths} {t timeout : Time} {dl : Deadline} (h : mkDeadline w t timeout = some dl) :
    dl.fits w = true := by
  unfold mkDeadline at h
  split at h
  · cases h; rfl
  · split at h
    · rename_i hl; cases h; exact decide_eq_true hl
    · cases h

theorem Ctx.fits_withDeadline {w : Widths} {r : Run} (h : r.ctx.fits w = true) {dl : Deadline} (hd : dl.fits w = true) :
    (r.withDeadline dl).ctx.fits w = true := Ctx.fits_iff.2 ⟨(Ctx.fits_iff.1 h).1, hd⟩

/-- A new deadline, and the command from the beginning again (R180, R188). -/
theorem Run.good_restart {w : Widths} {r : Run} (h : r.good w = true) : r.restart.good w = true := by
  obtain ⟨h1, h2, h3, -, h5⟩ := Run.good_iff.1 h
  refine Run.good_iff.2 ⟨Run.stepGood_iff.2 ?_, by simp [Run.idxGood, Run.restart], h3, rfl, ?_⟩
  · split
    · exact Nat.zero_le _
    · rfl
  · unfold Run.gotGood Run.restart
    split <;> simp

theorem Run.good_withDeadline {w : Widths} {r : Run} (h : r.good w = true) {dl : Deadline} (hd : dl.fits w = true) :
    ((r.withDeadline dl).goto .begin).good w = true := by
  obtain ⟨h1, h2, h3, -, h5⟩ := Run.good_iff.1 h
  refine Run.good_iff.2 ⟨Run.stepGood_iff.2 ?_, ?_, Ctx.fits_withDeadline h3 hd, rfl, h5⟩
  · have := Run.stepGood_iff.1 h1
    show if r.op.isComposite then r.step ≤ (steps r.op (r.withDeadline dl).ctx).length else r.step = 0
    rw [steps_withDeadline]; exact this
  · have hp : ((r.withDeadline dl).goto .begin).prim? = r.prim? := by
      show (steps r.op (r.withDeadline dl).ctx)[r.step]? = (steps r.op r.ctx)[r.step]?
      rw [steps_withDeadline]
    simp only [Run.idxGood, Run.isAt] at h2 ⊢
    rw [hp]; exact h2

/-- A command at issue is in good order (R31). -/
theorem Run.good_issue {w : Widths} (op : MasterOp) {c : Ctx} (h : c.fits w = true) : (Run.issue op c).good w = true := by
  refine Run.good_iff.2 ⟨Run.stepGood_iff.2 ?_, by simp [Run.idxGood, Run.issue], h, ?_, ?_⟩
  · split
    · exact Nat.zero_le _
    · rfl
  · cases op <;> simp [Run.phaseGood, Run.issue, MasterOp.isComposite, Run.inList, steps]
  · cases op <;> simp [Run.gotGood, Run.issue]

theorem Seq.good_finish (w : Widths) (st : Status) (r : Run) (s : State) : (finish st r s).seq.good w = true := by
  rw [finish_seq]; rfl

theorem Seq.good_primFailed {w : Widths} {r : Run} (h : r.good w = true) (hl : r.inList = true) (st : Status) (s : State) :
    (primFailed st r s).seq.good w = true := by
  unfold primFailed
  split
  · rename_i hc
    split
    · exact Run.good_goto h (Bool.and_eq_true_iff.2 ⟨hc.1, hl⟩)
    · exact Run.good_restart h
    · exact Run.good_goto h (Bool.and_eq_true_iff.2 ⟨hc.1, hl⟩)
  · exact Seq.good_finish _ _ _ _

/-- A step that has succeeded leaves the sequencer in good order (R31). -/
theorem Seq.good_stepSucceeded {w : Widths} {r : Run} (h : r.good w = true) {p : Prim} (hp : r.prim? = some p)
    {g : Option Byte} (hg : g = r.got ∨ g.isSome = true) (hr : p = .wait .recvB → g.isSome = true) (s : State) :
    (stepSucceeded { r with got := g } s).seq.good w = true := by
  unfold stepSucceeded
  split
  · rename_i hc; exact Run.good_nextStep h hc hp hg hr
  · exact Seq.good_finish _ _ _ _

theorem phaseGood_wait {r : Run} {w : WaitPrim} (hp : r.prim? = some (.wait w)) (hb : w.isBuffer = true → r.idx < r.ctx.len) :
    r.waitsIn w = true := Run.waitsIn_iff.2 ⟨hp, hb⟩

/-- Every action keeps the sequencer in good order (R30, R31). -/
theorem action_good {w : Widths} {r : Run} {s t : State} (hw : s.widths = w) (hg : r.good w = true)
    (h : action r s = .next t) : t.seq.good w = true := by
  have hph := Run.phaseGood_of_good hg
  unfold action at h
  split at h
  case h_1 hp =>
    obtain ⟨p, dl, hs, hd, rfl⟩ := sampleDeadline_eq_next.1 h
    exact Run.good_withDeadline hg (mkDeadline_fits (hw ▸ hd))
  case h_2 hp =>
    unfold beginStep at h
    split at h
    · cases h; exact Seq.good_finish _ _ _ _
    · rename_i w hp'
      cases w <;> simp only [beginWait] at h
      case sendBuf =>
        split at h
        · rename_i hi
          obtain ⟨p, hm, hk⟩ := andThen_eq_next.1 h
          cases hk
          exact Run.good_goto hg (phaseGood_wait (w := .sendBuf) hp' fun _ => hi)
        · cases h; exact Seq.good_stepSucceeded hg hp' (.inl rfl) (by simp) _
      case recvBuf =>
        split at h
        · rename_i hi
          cases h
          exact Run.good_goto hg (phaseGood_wait (w := .recvBuf) hp' fun _ => hi)
        · cases h; exact Seq.good_stepSucceeded hg hp' (.inl rfl) (by simp) _
      all_goals
        cases h
        exact Run.good_goto hg (Run.waitsIn_iff.2 ⟨hp', by simp [WaitPrim.isBuffer]⟩)
    · rename_i hp'; cases h; exact Seq.good_stepSucceeded hg hp' (.inl rfl) (by simp) _
    · rename_i hp'; cases h; exact Seq.good_stepSucceeded hg hp' (.inl rfl) (by simp) _
  case h_3 hp => cases h; simp only [Run.phaseGood, hp] at hph; exact Run.good_goto hg hph
  case h_4 hp => cases h; simp only [Run.phaseGood, hp] at hph; exact Run.good_goto hg hph
  case h_5 hp =>
    cases h
    simp only [Run.phaseGood, hp] at hph
    unfold pollEvent
    split
    · exact Run.good_goto hg hph
    · split
      · exact Run.good_goto hg hph
      · exact Run.good_goto hg hph
  case h_6 hp =>
    simp only [Run.phaseGood, hp] at hph
    have hil := Run.inList_of_prim (Run.waitsIn_iff.1 hph).1
    unfold pollClock at h
    obtain ⟨p, hs, hk⟩ := andThen_eq_next.1 h
    split at hk
    · cases hk; exact Seq.good_primFailed hg hil _ _
    · cases hk; exact Run.good_goto hg hph
  case h_7 w hp =>
    simp only [Run.phaseGood, hp] at hph
    have hil := Run.inList_of_prim (Run.waitsIn_iff.1 hph).1
    cases h
    unfold decodeNow
    cases masterStatus _ _ <;> simp only [afterDecode]
    case success =>
      have hp' := (Run.waitsIn_iff.1 hph).1
      cases w <;> simp only [waitSucceeded]
      case sendBuf => exact Run.good_nextByte hg (.inl rfl) hph
      case recvB => exact Run.good_goto hg (Run.isAt_iff.2 hp')
      case recvBuf => exact Run.good_goto hg hph
      all_goals exact Seq.good_stepSucceeded hg hp' (.inl rfl) (by simp) _
    case addressNACK => exact Run.good_goto hg hil
    case dataNACK => exact Run.good_goto hg hil
    all_goals exact Seq.good_primFailed hg hil _ _
  case h_8 hp =>
    simp only [Run.phaseGood, hp] at hph
    have hil := (Bool.and_eq_true_iff.1 hph).2
    cases h; exact Seq.good_primFailed hg hil _ _
  case h_9 hp =>
    cases h
    simp only [Run.phaseGood, hp] at hph
    exact Seq.good_stepSucceeded hg (Run.isAt_iff.1 hph) (g := some _) (.inr rfl) (fun _ => rfl) _
  case h_10 hp => cases h; simp only [Run.phaseGood, hp] at hph; exact Run.good_goto hg hph
  case h_11 hp =>
    obtain ⟨u, hm, hk⟩ := andThen_eq_next.1 h
    cases hk
    simp only [Run.phaseGood, hp] at hph
    exact Run.good_nextByte hg (.inr rfl) hph
  case h_12 hp => cases h; exact Seq.good_finish _ _ _ _
  case h_13 hp =>
    obtain ⟨p, dl, hs, hd, rfl⟩ := sampleDeadline_eq_next.1 h
    rw [← Run.goto_restart _ .begin]
    exact Run.good_restart (Run.good_withDeadline hg (mkDeadline_fits (hw ▸ hd)))

theorem bufferFits_iff {w : Widths} {ptr : Addr} {len : Len} :
    bufferFits w ptr len = true ↔ ptr < 2 ^ w.aw ∧ len < 2 ^ w.lw ∧ ptr + len ≤ 2 ^ w.aw := by
  simp only [bufferFits, Bool.and_eq_true, decide_eq_true_eq, and_assoc]

theorem bufferAddr_lt {w : Widths} {ptr : Addr} {len : Len} {i : Nat} (h : bufferFits w ptr len = true) (hi : i < len) :
    bufferAddr ptr i < 2 ^ w.aw := Nat.lt_of_lt_of_le (Nat.add_lt_add_left hi ptr) (bufferFits_iff.1 h).2.2

theorem memRead_no_fault {a : Nat} {s : State} (h : a < s.memSize) (f : Fault) : memRead a s ≠ .fault f := by
  unfold memRead; rw [if_pos h]; simp

theorem memWrite_no_fault {a : Nat} {s : State} (h : a < s.memSize) (b : Byte) (f : Fault) :
    memWrite a b s ≠ .fault f := by
  unfold memWrite; rw [if_pos h]; simp

theorem now_no_fault (s : State) (f : Fault) : now s ≠ .fault f := by
  unfold now; split <;> simp

theorem andThen_no_fault {α β : Type} {o : Host.Outcome α Fault Refusal} {k : α → Host.Outcome β Fault Refusal} {f : Fault}
    (ho : o ≠ .fault f) (hk : ∀ a, o = .next a → k a ≠ .fault f) : andThen o k ≠ .fault f := by
  cases o with
  | next a => exact hk a rfl
  | fault r => simpa using ho
  | refused r => simp

theorem sampleDeadline_no_fault (s : State) (k : Deadline → State → State) (f : Fault) :
    sampleDeadline s k ≠ .fault f := by
  unfold sampleDeadline
  refine andThen_no_fault (now_no_fault s f) fun p _ => ?_
  split <;> simp

/-- No action of a command in good order faults (R60, R36). -/
theorem action_no_fault {s : State} {r : Run} (hg : r.good s.widths = true) (f : Fault) : action r s ≠ .fault f := by
  have hph := Run.phaseGood_of_good hg
  have hfit := (Ctx.fits_iff.1 (Run.fits_of_good hg)).1
  unfold action
  split
  case h_1 => exact sampleDeadline_no_fault _ _ _
  case h_2 hp =>
    unfold beginStep
    split
    · simp
    · rename_i w hw
      cases w <;> simp only [beginWait]
      case sendBuf =>
        split
        · rename_i hi
          exact andThen_no_fault (memRead_no_fault (bufferAddr_lt hfit hi) f) (by simp)
        · simp
      case recvBuf => split <;> simp
      all_goals simp
    · simp
    · simp
  case h_6 =>
    unfold pollClock
    refine andThen_no_fault (now_no_fault s f) fun p _ => ?_
    split <;> simp
  case h_11 hp =>
    simp only [Run.phaseGood, hp] at hph
    exact andThen_no_fault (memWrite_no_fault (bufferAddr_lt hfit ((Run.waitsIn_iff.1 hph).2 rfl)) _ f) (by simp)
  case h_13 => exact sampleDeadline_no_fault _ _ _
  all_goals simp

/-- An event step of a descriptor in memory does not fault (R36, R60). -/
theorem rxEventStep_no_fault {s : State} (h : bufferFits s.widths s.rx.ptr s.rx.len = true) (f : Fault) : rxEventStep s ≠ .fault f := by
  unfold rxEventStep
  refine andThen_no_fault ?_ (by simp)
  cases basicSlave _ <;> simp only [rxReact] <;> try simp
  unfold rxDataAccepted
  split
  · rename_i hp
    exact andThen_no_fault (memWrite_no_fault (s := (readData (readStatus s).2).2)
      (bufferAddr_lt h (Desc.pending_iff.1 hp)) _ f) (by simp)
  · simp

theorem txEmit_no_fault {s : State} (h : bufferFits s.widths s.tx.ptr s.tx.len = true) (f : Fault) : txEmit s ≠ .fault f := by
  unfold txEmit
  split
  · rename_i hp
    exact andThen_no_fault (memRead_no_fault (bufferAddr_lt h (Desc.pending_iff.1 hp)) f) (by simp)
  · simp

theorem txEventStep_no_fault {s : State} (h : bufferFits s.widths s.tx.ptr s.tx.len = true) (f : Fault) : txEventStep s ≠ .fault f := by
  unfold txEventStep
  refine andThen_no_fault ?_ (by simp)
  cases basicSlave _ <;> simp only [txReact] <;> try simp
  · unfold txAddressed
    split
    · exact txEmit_no_fault (s := (readStatus s).2.setTxCursor 0) h f
    · exact txEmit_no_fault (s := (readStatus s).2) h f
  · exact txEmit_no_fault (s := (readStatus s).2) h f

end Sys2Proof.Machine
end

