-- ==== Sys2Proof/Laws/Commands.lean ====
section
/-! SUPPORT. What any command can do, from any state: how a master command is issued, what `exec`, the event flow and
serving an issue keep (the invariant, the record, the parameters), and that none of them faults in a good state. -/

namespace Sys2Proof.Machine

/-! ## A master command is an illegal packet or a run of actions -/

/-- The master commands that store received bytes (R61). -/
def MasterOp.stores : MasterOp → Bool
  | .recvBuf | .mRecvBuf | .mRecvReg => true
  | .sigStart | .sigStopStart | .sigStop | .addrW | .addrR | .sendB | .sendBuf | .recvB | .clrEvent | .mSendB
  | .mSendBuf | .mRecvB => false

/-- Only a command that stores has a buffer receive in its step list. -/
theorem MasterOp.stores_of_recvBuf {op : MasterOp} {c : Ctx} {k : Nat} (h : (steps op c)[k]? = some (.wait .recvBuf)) :
    op.stores = true := by
  have hm := List.mem_of_getElem? h
  have hf : ∀ b, Prim.wait .recvBuf ∉ finalStop b := by intro b; cases b <;> decide
  cases op <;> simp [steps, hf] at hm <;> rfl

/-- A command that was issued: the block was idle, and its actions ran. -/
structure Issued (i : Instr) (s t : State) (op : MasterOp) (c : Ctx) (n : Nat) : Prop where
  flow : s.flow = .caller
  seq : s.seq = .idle
  fits : c.fits s.widths = true
  runs : advance n (s.setRun (.issue op c)) = .next t
  buffer : op.stores = true → storesTo i = some (c.ptr, c.len)
  noBuffer : op.stores = false → storesTo i = none
  stop : ∀ b, stopOperand i = some b → op.isComposite = true ∧ c.stop = b
  count : (Run.issue op c).requested = requested i

/-- What a master command can do when it answers a next state. -/
theorem exec_master_cases {i : Instr} {s t : State} (hm : isMaster i = true) (h : exec i s = .next t) :
    t = respondIllegal s ∨ ∃ op c n, Issued i s t op c n := by
  have im : ∀ {op c}, issueMaster op c s = .next t →
      (op.stores = true → storesTo i = some (c.ptr, c.len)) → (op.stores = false → storesTo i = none) →
      (∀ b, stopOperand i = some b → op.isComposite = true ∧ c.stop = b) → (Run.issue op c).requested = requested i →
      t = respondIllegal s ∨ ∃ op c n, Issued i s t op c n := by
    intro op c he h1 h2 h3 h4
    obtain ⟨hf, hk⟩ := onlyFlow_eq_next.1 he
    split at hk
    · rename_i hb
      split at hk
      · rename_i hq; exact .inr ⟨op, c, _, hf, hq, hb, hk, h1, h2, h3, h4⟩
      · cases hk
    · cases hk; exact .inl rfl
  cases i <;> first | (cases hm; done) | skip
  all_goals
    simp only [exec] at h
    exact im h (by simp [MasterOp.stores, storesTo]) (by simp [MasterOp.stores, storesTo])
      (by simp [stopOperand, MasterOp.isComposite]) rfl

/-- The running command is still this one, in good order, or it has ended. -/
def State.IsRunning (r₀ : Run) (v : State) : Prop :=
  v.seq = .idle ∨ ∃ r, v.seq = .run r ∧ r.good v.widths = true ∧ r₀.Same r

theorem action_isRunning {r₀ r : Run} {s t : State} (hg : r.good s.widths = true) (hr : r₀.Same r)
    (ha : action r s = .next t) : t.IsRunning r₀ := by
  rcases (action_acts ha).seq with hs | ⟨r', hs, hr'⟩
  · exact .inl hs
  · refine .inr ⟨r', hs, ?_, hr.trans hr'⟩
    have := action_good rfl hg ha
    rw [hs] at this
    rw [(action_acts ha).steady.widths]
    exact this

/-- Which byte an action of a good run stores, if any: one of the buffer. -/
theorem action_mem {w : Widths} {r : Run} {s t : State} (hg : r.good w = true) (ha : action r s = .next t) :
    t.mem = s.mem ∨ (r.op.stores = true ∧ ∃ b, r.idx < r.ctx.len ∧
      t.mem = s.mem.write (bufferAddr r.ctx.ptr r.idx) b) := by
  rcases (action_acts ha).mem with ⟨-, h⟩ | ⟨b, hp, -, h⟩
  · exact .inl h
  · have hph := Run.phaseGood_of_good hg
    simp only [Run.phaseGood, hp] at hph
    obtain ⟨h1, h2⟩ := Run.waitsIn_iff.1 hph
    exact .inr ⟨MasterOp.stores_of_recvBuf h1, b, h2 rfl, h⟩

/-! ## The boundary and the run keep the running command and the steady part of the state -/

theorem atBoundary_seq {s t : State} (h : atBoundary s = .next t) : t.seq = s.seq := (atBoundary_frame h).seq

theorem atBoundary_steady {s t : State} (h : atBoundary s = .next t) :
    Steady s t ∧ (s.flow = .caller → t.flow = .caller) := ⟨(atBoundary_frame h).toSteady, (atBoundary_frame h).flow⟩

theorem advance_steady {n : Nat} {s t : State} (h : advance n s = .next t) :
    Steady s t ∧ (s.flow = .caller → t.flow = .caller) := by
  refine advance_induction (P := fun t => Steady s t ∧ (s.flow = .caller → t.flow = .caller)) n ?_ ⟨.refl s, id⟩ h
  intro r v u t hr hs hb ha
  have b := atBoundary_steady hb
  have a := action_acts ha
  exact ⟨(hs.1.trans b.1).trans a.steady, fun hf => a.flow.trans (b.2 (hs.2 hf))⟩

theorem steady_respondIllegal (s : State) : Steady s (respondIllegal s) := ⟨rfl, rfl, rfl, rfl, rfl, .of_eq rfl⟩

theorem issueMaster_steady {op : MasterOp} {c : Ctx} {s t : State} (he : issueMaster op c s = .next t) :
    Steady s t ∧ t.flow = s.flow := by
  obtain ⟨hf, hk⟩ := onlyFlow_eq_next.1 he
  split at hk
  · split at hk
    · have h := advance_steady hk
      exact ⟨(steady_setRun _ s).trans h.1, (h.2 hf).trans hf.symm⟩
    · cases hk
  · cases hk
    exact ⟨steady_respondIllegal s, rfl⟩

/-! ## What every command keeps -/

/-- The part of the state that no command writes, and the record, which only grows. -/
structure ExecFrame (s t : State) : Prop where
  params : t.params = s.params
  issues : t.issues = s.issues
  others : t.hw.ctrl.others = s.hw.ctrl.others
  records : s.Records t
  flow : t.flow = s.flow

theorem ExecFrame.of {s t : State} (h : Steady s t) (hf : t.flow = s.flow) : ExecFrame s t :=
  ⟨h.params, h.issues, h.others, h.records, hf⟩

theorem exec_frame {i : Instr} {s t : State} (he : exec i s = .next t) : ExecFrame s t := by
  have query : ∀ {c : Byte}, onlyFlow .caller s (.next (respond c (readStatus s).2)) = .next t → ExecFrame s t := by
    intro c h
    obtain ⟨-, hk⟩ := onlyFlow_eq_next.1 h
    cases hk
    exact .of ((steady_readStatus s).trans (steady_respond _ _)) rfl
  cases i <;> simp only [exec] at he
  case stMaster => exact query he
  case stBasic => exact query he
  case stDetail => exact query he
  case rxEvent =>
    obtain ⟨-, hk⟩ := onlyFlow_eq_next.1 he
    have f := eventStep_frame (e := .rx) hk
    exact .of f.toSteady f.flow
  case txEvent =>
    obtain ⟨-, hk⟩ := onlyFlow_eq_next.1 he
    have f := eventStep_frame (e := .tx) hk
    exact .of f.toSteady f.flow
  case rxNext => cases he; exact ⟨rfl, rfl, rfl, .of_eq rfl, rfl⟩
  case txAgain => cases he; exact ⟨rfl, rfl, rfl, .of_eq rfl, rfl⟩
  case rxBind => unfold execRxBind at he; split at he <;> cases he <;> exact ⟨rfl, rfl, rfl, .of_eq rfl, rfl⟩
  case txBind => unfold execTxBind at he; split at he <;> cases he <;> exact ⟨rfl, rfl, rfl, .of_eq rfl, rfl⟩
  case rxAvail => obtain ⟨-, hk⟩ := onlyFlow_eq_next.1 he; cases hk; exact ⟨rfl, rfl, rfl, .of_eq rfl, rfl⟩
  case txDone => obtain ⟨-, hk⟩ := onlyFlow_eq_next.1 he; cases hk; exact ⟨rfl, rfl, rfl, .of_eq rfl, rfl⟩
  case setTimeout =>
    obtain ⟨-, hk⟩ := onlyFlow_eq_next.1 he
    split at hk <;> cases hk <;> exact ⟨rfl, rfl, rfl, .of_eq rfl, rfl⟩
  case setBlb => obtain ⟨-, hk⟩ := onlyFlow_eq_next.1 he; cases hk; exact ⟨rfl, rfl, rfl, .of_eq rfl, rfl⟩
  all_goals (have h := issueMaster_steady he; exact .of h.1 h.2)

/-- What serving an issue keeps. -/
structure ServeFrame (s t : State) : Prop where
  params : t.params = s.params
  others : t.hw.ctrl.others = s.hw.ctrl.others
  records : s.Records t
  flow : s.flow = .caller → t.flow = .caller

theorem serve_frame {i : Issue} {s t : State} (he : serve i s = .next t) : ServeFrame s t := by
  cases i <;> simp only [serve] at he
  case command fl p =>
    rcases servePacket_cases he with ⟨i, rest, u, -, hu, rfl⟩ | rfl
    · have f := exec_frame hu
      exact ⟨f.params, f.others, f.records, fun _ => rfl⟩
    · exact ⟨rfl, rfl, .of_eq rfl, fun _ => rfl⟩
  case hwEvent =>
    have f := runEventFlow_frame (p := .hwEvent) he
    exact ⟨f.params, f.others, f.records, f.flow⟩
  case callerRead =>
    obtain ⟨u, hu, hk⟩ := andThen_eq_next.1 he
    unfold callerRead at hu
    split at hu
    · split at hu <;> cases hu
      cases hk
      exact ⟨rfl, rfl, .of_eq rfl, id⟩
    · cases hu
  case callerWrite a b =>
    unfold callerWrite at he
    split at he
    · split at he <;> cases he
      exact ⟨rfl, rfl, .of_eq rfl, id⟩
    · cases he
  case readResponse =>
    obtain ⟨u, hu, hk⟩ := andThen_eq_next.1 he
    unfold readResponse at hu
    split at hu <;> cases hu
    cases hk
    exact ⟨rfl, rfl, .of_eq rfl, id⟩
  case resetEvent => cases he; exact ⟨rfl, rfl, .of_eq rfl, fun _ => rfl⟩

/-! ## What keeps the invariant -/

theorem Desc.good_iff {w : Widths} {d : Desc} :
    d.good w = true ↔ d.cursor ≤ d.len ∧ bufferFits w d.ptr d.len = true := by
  simp [Desc.good, Desc.bounded]

theorem Desc.good_cursor {w : Widths} {d : Desc} {n : Nat} (h : d.good w = true) (hn : n ≤ d.len) :
    Desc.good w { d with cursor := n } = true := Desc.good_iff.2 ⟨hn, (Desc.good_iff.1 h).2⟩

/-- The invariant over a change of the descriptors, the memory and the sequencer only. -/
theorem State.Inv.of_steady {s t : State} (h : s.Inv) (st : Steady s t) (hm : t.mem.wf s.memSize = true)
    (hr : t.rx.good s.widths = true) (ht : t.tx.good s.widths = true) (hs : t.seq.good s.widths = true) : t.Inv :=
  ⟨by rw [st.params]; exact h.params, by rw [st.memSize]; exact hm, by rw [st.widths]; exact hr,
    by rw [st.widths]; exact ht, by rw [st.widths]; exact hs, by rw [st.widths, st.timeout]; exact h.timeout⟩

/-- The invariant reads only the parameters, the memory, the descriptors, the sequencer and the timeout. -/
theorem State.Inv.of_eq {s t : State} (h : s.Inv) (hp : t.params = s.params) (hm : t.mem = s.mem) (hr : t.rx = s.rx)
    (ht : t.tx = s.tx) (hs : t.seq = s.seq) (hc : t.cfgTimeout = s.cfgTimeout) : t.Inv := by
  have hw : t.widths = s.widths := congrArg Params.widths hp
  have hz : t.memSize = s.memSize := congrArg (fun w : Widths => 2 ^ w.aw) hw
  exact ⟨by rw [hp]; exact h.params, by rw [hm, hz]; exact h.mem, by rw [hr, hw]; exact h.rx, by rw [ht, hw]; exact h.tx,
    by rw [hs, hw]; exact h.seq, by rw [hc, hw]; exact h.timeout⟩

theorem State.Inv.of_event {s t : State} (h : s.Inv) (f : EventFrame s t) : t.Inv :=
  h.of_steady f.toSteady (f.wf h.mem)
    (Desc.good_iff.2 ⟨f.rxBound (Desc.good_iff.1 h.rx).1, by rw [f.rxPtr, f.rxLen]; exact (Desc.good_iff.1 h.rx).2⟩)
    (Desc.good_iff.2 ⟨f.txBound (Desc.good_iff.1 h.tx).1, by rw [f.txPtr, f.txLen]; exact (Desc.good_iff.1 h.tx).2⟩)
    (by rw [f.seq]; exact h.seq)

theorem eventStep_inv {e : EventStep} {s t : State} (h : s.Inv) (he : eventStep e s = .next t) : t.Inv :=
  h.of_event (eventStep_frame he)

theorem State.Inv.of_flow {ps : List Preemption} {s t : State} (h : s.Inv) (f : FlowFrame ps s t) : t.Inv :=
  h.of_steady f.toSteady (f.wf h.mem) (f.rxGood h.rx) (f.txGood h.tx) (by rw [f.seq]; exact h.seq)

theorem runEventFlow_inv {s t : State} (h : s.Inv) (he : runEventFlow s = .next t) : t.Inv :=
  h.of_flow (runEventFlow_frame (p := .hwEvent) he)

theorem atBoundary_inv {s t : State} (h : s.Inv) (he : atBoundary s = .next t) : t.Inv := by
  have f := atBoundary_frame he
  exact h.of_steady f.toSteady (f.wf h.mem) (f.rxGood h.rx) (f.txGood h.tx) (by rw [f.seq]; exact h.seq)

theorem State.Inv.run {s : State} {r : Run} (h : s.Inv) (hs : s.seq = .run r) : r.good s.widths = true := by
  have := h.seq; rw [hs] at this; exact this

theorem action_inv {r : Run} {s t : State} (hs : s.seq = .run r) (h : s.Inv) (ha : action r s = .next t) : t.Inv := by
  have f := action_acts ha
  refine h.of_steady f.steady ?_ (by rw [f.rx]; exact h.rx) (by rw [f.tx]; exact h.tx) (action_good rfl (h.run hs) ha)
  rcases f.mem with ⟨-, hm⟩ | ⟨b, -, hb, hm⟩
  · rw [hm]; exact h.mem
  · rw [hm]; exact Memory.wf_write hb h.mem

theorem advance_inv {n : Nat} {s t : State} (h : s.Inv) (ha : advance n s = .next t) : t.Inv := by
  refine advance_induction (P := State.Inv) n ?_ h ha
  intro r s u t hr hs hb ha
  exact action_inv ((atBoundary_seq hb).trans hr) (atBoundary_inv hs hb) ha

theorem issue_inv {op : MasterOp} {c : Ctx} {s : State} (hb : c.fits s.widths = true) (h : s.Inv) :
    (s.setRun (.issue op c)).Inv :=
  h.of_steady (steady_setRun _ s) h.mem h.rx h.tx (Run.good_issue op hb)

theorem issueMaster_inv {op : MasterOp} {c : Ctx} {s t : State} (h : s.Inv) (he : issueMaster op c s = .next t) :
    t.Inv := by
  obtain ⟨-, hk⟩ := onlyFlow_eq_next.1 he
  split at hk
  · rename_i hb
    split at hk
    · exact advance_inv (issue_inv hb h) hk
    · cases hk
  · cases hk; exact h.of_eq rfl rfl rfl rfl rfl rfl

theorem exec_inv {i : Instr} {s t : State} (h : s.Inv) (he : exec i s = .next t) : t.Inv := by
  have same : ∀ {u : State}, u.params = s.params → u.mem = s.mem → u.rx = s.rx → u.tx = s.tx → u.seq = s.seq →
      u.cfgTimeout = s.cfgTimeout → u.Inv := h.of_eq
  cases i <;> simp only [exec] at he
  case rxEvent => obtain ⟨-, hk⟩ := onlyFlow_eq_next.1 he; exact eventStep_inv (e := .rx) h hk
  case txEvent => obtain ⟨-, hk⟩ := onlyFlow_eq_next.1 he; exact eventStep_inv (e := .tx) h hk
  case rxNext =>
    cases he
    exact h.of_steady ⟨rfl, rfl, rfl, rfl, rfl, .of_eq rfl⟩ h.mem (Desc.good_cursor h.rx (Nat.zero_le _)) h.tx h.seq
  case txAgain =>
    cases he
    exact h.of_steady ⟨rfl, rfl, rfl, rfl, rfl, .of_eq rfl⟩ h.mem h.rx (Desc.good_cursor h.tx (Nat.zero_le _)) h.seq
  case rxBind =>
    unfold execRxBind at he
    split at he
    · rename_i hb; cases he
      exact h.of_steady ⟨rfl, rfl, rfl, rfl, rfl, .of_eq rfl⟩ h.mem (Desc.good_iff.2 ⟨Nat.zero_le _, hb⟩) h.tx h.seq
    · cases he; exact same rfl rfl rfl rfl rfl rfl
  case txBind =>
    unfold execTxBind at he
    split at he
    · rename_i hb; cases he
      exact h.of_steady ⟨rfl, rfl, rfl, rfl, rfl, .of_eq rfl⟩ h.mem h.rx (Desc.good_iff.2 ⟨Nat.zero_le _, hb⟩) h.seq
    · cases he; exact same rfl rfl rfl rfl rfl rfl
  case setTimeout =>
    obtain ⟨-, hk⟩ := onlyFlow_eq_next.1 he
    split at hk
    · rename_i hb; cases hk; exact ⟨h.params, h.mem, h.rx, h.tx, h.seq, hb⟩
    · cases hk; exact same rfl rfl rfl rfl rfl rfl
  all_goals first
    | exact issueMaster_inv h he
    | (obtain ⟨-, hk⟩ := onlyFlow_eq_next.1 he; cases hk; exact same rfl rfl rfl rfl rfl rfl)

theorem reset_inv {s : State} (h : s.Inv) : s.resetBlock.Inv := by
  obtain ⟨hp, ht⟩ := Bool.and_eq_true_iff.1 h.params
  have hd : Desc.good s.widths .atReset = true := by
    refine Desc.good_iff.2 ⟨Nat.le_refl _, bufferFits_iff.2 ⟨?_, ?_, ?_⟩⟩ <;> simp [Desc.atReset]
  exact ⟨h.params, h.mem, hd, hd, rfl, ht⟩

theorem serve_inv {i : Issue} {s t : State} (h : s.Inv) (he : serve i s = .next t) : t.Inv := by
  cases i <;> simp only [serve] at he
  case command f p =>
    rcases servePacket_cases he with ⟨i, rest, u, -, hu, rfl⟩ | rfl
    · exact (exec_inv (s := { s with flow := f }) (h.of_eq rfl rfl rfl rfl rfl rfl) hu).of_eq rfl rfl rfl rfl rfl rfl
    · exact h.of_eq rfl rfl rfl rfl rfl rfl
  case hwEvent => exact runEventFlow_inv h he
  case callerRead =>
    obtain ⟨u, hu, hk⟩ := andThen_eq_next.1 he
    unfold callerRead at hu
    split at hu
    · split at hu <;> cases hu
      cases hk
      exact h
    · cases hu
  case callerWrite a b =>
    unfold callerWrite at he
    split at he
    · rename_i ha
      split at he <;> cases he
      exact h.of_steady ⟨rfl, rfl, rfl, rfl, rfl, .of_eq rfl⟩ (Memory.wf_write ha h.mem) h.rx h.tx h.seq
    · cases he
  case readResponse =>
    obtain ⟨u, hu, hk⟩ := andThen_eq_next.1 he
    unfold readResponse at hu
    split at hu <;> cases hu
    cases hk
    exact h
  case resetEvent => cases he; exact reset_inv h

/-! ## No faults in a good state -/

theorem eventStep_no_fault {e : EventStep} {s : State} (h : s.Inv) (f : Fault) : eventStep e s ≠ .fault f := by
  cases e
  · exact rxEventStep_no_fault (Desc.good_iff.1 h.rx).2 f
  · exact txEventStep_no_fault (Desc.good_iff.1 h.tx).2 f

theorem runDispatch_no_fault {es : List EventStep} {s : State} (h : s.Inv) (f : Fault) : runDispatch es s ≠ .fault f := by
  induction es generalizing s with
  | nil => simp [runDispatch]
  | cons e es ih => exact andThen_no_fault (eventStep_no_fault h f) fun a ha => ih (eventStep_inv h ha)

theorem runEventFlow_no_fault {s : State} (h : s.Inv) (f : Fault) : runEventFlow s ≠ .fault f :=
  andThen_no_fault (runDispatch_no_fault (s := enterEventFlow s) (h.of_eq rfl rfl rfl rfl rfl rfl) f) (by simp)

theorem onlyFlow_no_fault {fl : Flow} {s : State} {k : Result} {f : Fault} (h : k ≠ .fault f) :
    onlyFlow fl s k ≠ .fault f := by
  unfold onlyFlow
  split
  · exact h
  · simp

/-- A packet faults only through the command it stands for. -/
theorem servePacket_no_fault {run : Instr → State → Result} {fl : Flow} {p : Packet} {s : State} {f : Fault}
    (h : ∀ i, run i { s with flow := fl } ≠ .fault f) : servePacket run fl p s ≠ .fault f := by
  unfold servePacket
  split
  · exact andThen_no_fault (h _) (by simp)
  all_goals simp

theorem eventCommand_no_fault {i : Instr} {s : State} (h : s.Inv) (f : Fault) : eventCommand i s ≠ .fault f := by
  cases i <;> simp only [eventCommand]
  case rxEvent => exact onlyFlow_no_fault (eventStep_no_fault (e := .rx) h f)
  case txEvent => exact onlyFlow_no_fault (eventStep_no_fault (e := .tx) h f)
  case rxNext => simp [execRxNext]
  case txAgain => simp [execTxAgain]
  case rxBind => unfold execRxBind; split <;> simp
  case txBind => unfold execTxBind; split <;> simp
  all_goals simp

theorem readResponse_no_fault (fl : Flow) (s : State) (f : Fault) : readResponse fl s ≠ .fault f := by
  unfold readResponse; split <;> simp

theorem servePreemption_no_fault {p : Preemption} {s : State} (h : s.Inv) (f : Fault) : servePreemption p s ≠ .fault f := by
  cases p with
  | hwEvent => exact runEventFlow_no_fault h f
  | command packet =>
    exact servePacket_no_fault fun i => eventCommand_no_fault (s := { s with flow := .event }) (h.of_eq rfl rfl rfl rfl rfl rfl) f
  | readResponse => exact andThen_no_fault (readResponse_no_fault _ _ f) (by simp)

theorem servePreemptions_no_fault {ps : List Preemption} {s : State} (h : s.Inv) (f : Fault) :
    servePreemptions ps s ≠ .fault f := by
  induction ps generalizing s with
  | nil => simp [servePreemptions]
  | cons p ps ih =>
    exact andThen_no_fault (servePreemption_no_fault h f) fun a ha => ih (h.of_flow (servePreemption_frame ha))

theorem atBoundary_no_fault {s : State} (h : s.Inv) (f : Fault) : atBoundary s ≠ .fault f :=
  servePreemptions_no_fault (s := { s with hw := { s.hw with interrupts := s.hw.interrupts.take.2 } })
    (h.of_eq rfl rfl rfl rfl rfl rfl) f

theorem advance_no_fault {n : Nat} {s : State} (h : s.Inv) (f : Fault) : advance n s ≠ .fault f := by
  induction n generalizing s with
  | zero => simp [advance]
  | succ n ih =>
    unfold advance
    split
    · simp
    · rename_i r hr
      refine andThen_no_fault (andThen_no_fault (atBoundary_no_fault h f) fun u hu => ?_) fun v hv => ?_
      · exact action_no_fault ((atBoundary_inv h hu).run ((atBoundary_seq hu).trans hr)) f
      · obtain ⟨u, hu, ha⟩ := andThen_eq_next.1 hv
        exact ih (action_inv ((atBoundary_seq hu).trans hr) (atBoundary_inv h hu) ha)

theorem issueMaster_no_fault {op : MasterOp} {c : Ctx} {s : State} (h : s.Inv) (f : Fault) :
    issueMaster op c s ≠ .fault f := by
  apply onlyFlow_no_fault
  split
  · rename_i hb
    split
    · exact advance_no_fault (issue_inv hb h) f
    · simp
  · simp

theorem exec_no_fault {i : Instr} {s : State} (h : s.Inv) (f : Fault) : exec i s ≠ .fault f := by
  cases i <;> simp only [exec]
  case rxEvent => exact onlyFlow_no_fault (eventStep_no_fault (e := .rx) h f)
  case txEvent => exact onlyFlow_no_fault (eventStep_no_fault (e := .tx) h f)
  case rxNext => simp [execRxNext]
  case txAgain => simp [execTxAgain]
  case rxBind => unfold execRxBind; split <;> simp
  case txBind => unfold execTxBind; split <;> simp
  case setTimeout => apply onlyFlow_no_fault; split <;> simp
  all_goals first
    | exact issueMaster_no_fault h f
    | exact onlyFlow_no_fault (by simp)

/-- The one fault in a good state: an access of the caller's own to an address outside buffer memory (R60). -/
theorem serve_fault {i : Issue} {s : State} {f : Fault} (h : s.Inv) (he : serve i s = .fault f) :
    ∃ a, f = .noSuchByte a ∧ s.memSize ≤ a ∧ (i = .callerRead a ∨ ∃ b, i = .callerWrite a b) := by
  cases i <;> simp only [serve] at he
  case command fl p =>
    exact absurd he (servePacket_no_fault fun i =>
      exec_no_fault (s := { s with flow := fl }) (h.of_eq rfl rfl rfl rfl rfl rfl) f)
  case hwEvent => exact absurd he (runEventFlow_no_fault h f)
  case callerRead a =>
    unfold callerRead at he
    split at he
    · split at he <;> simp at he
    · rename_i ha
      simp only [andThen_fault, Host.Outcome.fault.injEq] at he
      exact ⟨a, he.symm, Nat.le_of_not_lt ha, .inl rfl⟩
  case callerWrite a b =>
    unfold callerWrite at he
    split at he
    · split at he <;> simp at he
    · rename_i ha
      simp only [Host.Outcome.fault.injEq] at he
      exact ⟨a, he.symm, Nat.le_of_not_lt ha, .inr ⟨b, rfl⟩⟩
  case readResponse fl => exact absurd he (andThen_no_fault (readResponse_no_fault _ _ f) (by simp))
  case resetEvent => simp at he

end Sys2Proof.Machine
end

