-- ==== Sys2Proof/Laws/Stops.lean ====
section
/-! SUPPORT. The stop calls of a composite (42_master_policy.md R187, R189, R190; 41_master_engine.md R143): what the record of
a running composite holds, and that every action keeps it. -/

namespace Sys2Proof.Machine

/-! ## Counting -/

theorem stopCount_append (x y : List Atom) : stopCount (x ++ y) = stopCount x + stopCount y := by simp [stopCount]

theorem stopCount_other (tr : List Atom) {a : Atom} (h : a ≠ .arm .armStop) : stopCount (tr ++ [a]) = stopCount tr := by
  rw [stopCount_append]; simp [stopCount, h]

theorem stopCount_stop (tr : List Atom) : stopCount (tr ++ [.arm .armStop]) = stopCount tr + 1 := by
  rw [stopCount_append]; simp [stopCount]

/-- The event flow makes no stop call. -/
theorem stopCount_slaveArms {tr : List Atom} (h : ∀ a, Atom.arm a ∈ tr → a ∈ slaveArms) : stopCount tr = 0 := by
  simp only [stopCount, List.countP_eq_zero, decide_eq_true_eq]
  rintro a ha rfl
  have := h _ ha
  revert this
  decide

/-! ## Where a composite's stop stands in its step list -/

theorem prim_lt {r : Run} {p : Prim} (h : r.prim? = some p) : r.step < (steps r.op r.ctx).length :=
  Run.inList_iff.1 (Run.inList_of_prim h)

/-- The stop step is the last, and is there only when `stop` is 1 (R186). -/
theorem prim_stop_last {r : Run} (hc : r.op.isComposite = true) (h : r.prim? = some .stop) :
    r.ctx.stop = true ∧ r.step + 1 = (steps r.op r.ctx).length := by
  obtain ⟨op, step, idx, ctx, phase, got⟩ := r
  have hl := prim_lt h
  simp only [Run.prim?] at h hl
  cases hs : ctx.stop <;> cases op <;> simp [MasterOp.isComposite] at hc <;> simp [steps, hs, finalStop] at hl h ⊢
  all_goals (rcases step with _ | _ | _ | _ | _ | _ | _ | _ <;> simp at h hl ⊢)

/-- A waiting step is the last only when `stop` is 0 (R186). -/
theorem prim_wait_last {r : Run} (hc : r.op.isComposite = true) {w : WaitPrim} (h : r.prim? = some (.wait w)) :
    r.step + 1 < (steps r.op r.ctx).length ∨ r.ctx.stop = false := by
  obtain ⟨op, step, idx, ctx, phase, got⟩ := r
  have hl := prim_lt h
  simp only [Run.prim?] at h hl
  cases hs : ctx.stop <;> cases op <;> simp [MasterOp.isComposite] at hc <;> simp [steps, hs, finalStop] at hl h ⊢
  all_goals (rcases step with _ | _ | _ | _ | _ | _ | _ | _ <;> simp at h hl ⊢)

/-- No composite clears the event as a step. -/
theorem prim_ne_clear {r : Run} (hc : r.op.isComposite = true) : r.prim? ≠ some .clear := by
  intro h
  obtain ⟨op, step, idx, ctx, phase, got⟩ := r
  have hl := prim_lt h
  simp only [Run.prim?] at h hl
  cases hs : ctx.stop <;> cases op <;> simp [MasterOp.isComposite] at hc <;> simp [steps, hs, finalStop] at hl h
  all_goals (rcases step with _ | _ | _ | _ | _ | _ | _ | _ <;> simp at h hl)

/-! ## What the record of a running composite holds -/

theorem stopsMade_of_lt {r : Run} (h : r.step < (steps r.op r.ctx).length) : r.stopsMade = 0 := by
  unfold Run.stopsMade
  rw [if_neg]
  omega

theorem stopsMade_nextStep {r : Run} (hc : r.op.isComposite = true) {w : WaitPrim} (h : r.prim? = some (.wait w)) :
    r.nextStep.stopsMade = 0 := by
  unfold Run.stopsMade
  rw [if_neg]
  rintro ⟨h1, h2⟩
  rcases prim_wait_last hc h with h3 | h3
  · have e1 : r.nextStep.step = r.step + 1 := rfl
    have e2 : (steps r.nextStep.op r.nextStep.ctx).length = (steps r.op r.ctx).length := rfl
    omega
  · have e : r.nextStep.ctx = r.ctx := rfl
    rw [e, h3] at h1
    cases h1

theorem stopsByCode_nack {stop : Bool} {st : Status} (h : st = .addressNACK ∨ st = .dataNACK) :
    stopsByCode stop st.code = 1 := by
  rcases h with rfl | rfl <;> simp [stopsByCode, Status.code]

theorem stopsByCode_other {stop : Bool} {st : Status} (h1 : st ≠ .success) (h2 : st ≠ .addressNACK) (h3 : st ≠ .dataNACK) :
    stopsByCode stop st.code = 0 := by
  cases st <;> simp_all [stopsByCode, Status.code]

/-- A running composite, `m` stop calls made before and the record `tr` since. `Q` says that no event interrupts it: then a
stop call is the last. -/
structure StopsRun (w : Widths) (m : Nat) (stop : Bool) (Q : Prop) (tr : List Atom) (r : Run) : Prop where
  good : r.good w = true
  comp : r.op.isComposite = true
  stop : r.ctx.stop = stop
  count : stopCount tr + m = r.stopsMade
  last : Q → stopCount tr = 1 → tr.getLast? = some (.arm .armStop)

/-- A composite, running or ended, `m` stop calls made before and the record `tr` since. -/
def Stops (m : Nat) (stop : Bool) (Q : Prop) (tr : List Atom) (v : State) : Prop :=
  match v.seq with
  | .idle => stopCount tr + m = stopsByCode stop v.rspCaller.code ∧ (Q → stopCount tr = 1 → tr.getLast? = some (.arm .armStop))
  | .run r => StopsRun v.widths m stop Q tr r

section
variable {w : Widths} {m : Nat} {stop : Bool} {Q : Prop} {tr tr' : List Atom} {r r' : Run} {s t : State} {base : List Atom}

theorem StopsRun.move (hj : StopsRun w m stop Q tr r) (hg : r'.good w = true) (ho : r.Same r') (h0 : stopCount tr' + m = 0)
    (hf : r'.stopsMade = 0) :
    StopsRun w m stop Q tr' r' := by
  obtain ⟨o, dl, c⟩ := ho
  exact ⟨hg, by rw [o]; exact hj.comp, by rw [c]; exact hj.stop, by rw [h0, hf], fun _ h => by omega⟩

theorem stops_finish (st : Status) (hfl : s.flow = .caller) (h : stopCount tr' + m = stopsByCode stop st.code)
    (hl : Q → stopCount tr' = 1 → tr'.getLast? = some (.arm .armStop)) : Stops m stop Q tr' (finish st r s) := by
  unfold Stops
  rw [finish_seq]
  simp only []
  rw [finish_rspCaller hfl]
  exact ⟨h, hl⟩

theorem primFailed_trace (st : Status) (r : Run) (u : State) : (primFailed st r u).trace = u.trace := by
  unfold primFailed
  split
  · split <;> rfl
  · exact finish_trace _ _ _

theorem stops_primFailed (hj : StopsRun w m stop Q tr r) {st : Status} (h1 : st ≠ .success) (h2 : st ≠ .addressNACK)
    (h3 : st ≠ .dataNACK) (hfl : s.flow = .caller) (hl : r.step < (steps r.op r.ctx).length) (h0 : stopCount tr' + m = 0)
    (hw : s.widths = w) : Stops m stop Q tr' (primFailed st r s) := by
  subst hw
  unfold primFailed
  split
  · rename_i hc
    have hg : ∀ {p : Phase}, p = .abort ∨ p = .extend → (r.goto p).good s.widths = true := by
      rintro _ (rfl | rfl) <;> exact Run.good_goto hj.good (Bool.and_eq_true_iff.2 ⟨hc.1, Run.inList_iff.2 hl⟩)
    split
    · exact hj.move (hg (.inl rfl)) ⟨rfl, _, rfl⟩ h0 (stopsMade_of_lt hl)
    · refine hj.move (Run.good_restart hj.good) ⟨rfl, _, rfl⟩ h0 (stopsMade_of_lt ?_)
      exact lt_of_le_of_lt (Nat.zero_le _) hl
    · exact hj.move (hg (.inr rfl)) ⟨rfl, _, rfl⟩ h0 (stopsMade_of_lt hl)
  · exact stops_finish st hfl (by rw [h0, stopsByCode_other h1 h2 h3]) (fun _ h => by omega)

theorem stepSucceeded_composite (hc : r.op.isComposite = true) (s : State) : stepSucceeded r s = s.setRun r.nextStep :=
  if_pos hc

/-- Every action of a running composite keeps what its record holds. -/
theorem action_stops (hj : StopsRun s.widths m stop Q tr r) (hs : s.trace = base ++ tr) (hfl : s.flow = .caller)
    (h : action r s = .next t) : ∃ tr', t.trace = base ++ tr' ∧ Stops m stop Q tr' t := by
  have hg := hj.good
  have hgt := action_good rfl hg h
  have hph := Run.phaseGood_of_good hg
  have stay : ∀ {u : State} {p : Phase} {a : Atom}, a ≠ .arm .armStop → u.trace = s.trace ++ [a] → u.widths = s.widths →
      (r.goto p).good s.widths = true → r.step < (steps r.op r.ctx).length →
      ∃ tr', (u.setRun (r.goto p)).trace = base ++ tr' ∧ Stops m stop Q tr' (u.setRun (r.goto p)) := by
    intro u p a ha hu hwu hgd hl
    refine ⟨tr ++ [a], by rw [State.setRun_trace, hu, hs, List.append_assoc], ?_⟩
    show StopsRun u.widths m stop Q _ _
    rw [hwu]
    exact hj.move hgd ⟨rfl, _, rfl⟩ (by rw [stopCount_other _ ha, hj.count, stopsMade_of_lt hl]) (stopsMade_of_lt hl)
     
  unfold action at h
  split at h
  case h_1 hp =>
    obtain ⟨p, dl, hn, hd, rfl⟩ := sampleDeadline_eq_next.1 h
    obtain ⟨-, rfl⟩ := now_eq_next.1 hn
    simp only [Run.phaseGood, hp, Bool.and_eq_true] at hph
    have hl := Run.inList_iff.1 hph.2
    refine ⟨tr ++ [.now s.nextTime], by simp [hs], ?_⟩
    refine hj.move (Run.good_withDeadline hg (mkDeadline_fits hd)) ⟨rfl, dl, rfl⟩
      (by rw [stopCount_other _ (by simp), hj.count, stopsMade_of_lt hl]) ?_
    apply stopsMade_of_lt
    show r.step < (steps r.op (r.withDeadline dl).ctx).length
    rw [steps_withDeadline]
    exact hl
  case h_2 hp =>
    unfold beginStep at h
    split at h
    · rename_i hw
      cases h
      have hle := Run.stepGood_iff.1 (Run.good_iff.1 hg).1
      rw [if_pos hj.comp] at hle
      have hge : (steps r.op r.ctx).length ≤ r.step := by
        by_contra hn
        rw [Run.prim?, List.getElem?_eq_getElem (by omega)] at hw
        cases hw
      have he : r.step = (steps r.op r.ctx).length := by omega
      refine ⟨tr, by rw [finish_trace, hs], stops_finish _ hfl ?_ hj.last⟩
      rw [hj.count, ← hj.stop]
      simp [Run.stopsMade, stopsByCode, he, Status.code]
    · rename_i w hw
      have hl := prim_lt hw
      have hz : stopCount tr + m = 0 := by rw [hj.count, stopsMade_of_lt hl]
      cases w <;> simp only [beginWait] at h
      case sendBuf =>
        split at h
        · obtain ⟨p, hm, hk⟩ := andThen_eq_next.1 h
          obtain ⟨-, rfl⟩ := memRead_eq_next.1 hm
          cases hk
          exact stay (by simp) rfl rfl hgt hl
        · rw [stepSucceeded_composite hj.comp] at h
          cases h
          exact ⟨tr, hs, hj.move hgt ⟨rfl, _, rfl⟩ hz (stopsMade_nextStep hj.comp hw)⟩
      case recvBuf =>
        split at h
        · cases h
          refine stay ?_ rfl rfl hgt hl
          cases decide (r.idx + 1 < r.ctx.len) <;> decide
        · rw [stepSucceeded_composite hj.comp] at h
          cases h
          exact ⟨tr, hs, hj.move hgt ⟨rfl, _, rfl⟩ hz (stopsMade_nextStep hj.comp hw)⟩
      all_goals
        cases h
        refine stay ?_ rfl rfl hgt hl
        first | decide | simp
    · rename_i hw
      rw [stepSucceeded_composite hj.comp] at h
      cases h
      obtain ⟨h1, h2⟩ := prim_stop_last hj.comp hw
      have hz : stopCount tr + m = 0 := by rw [hj.count, stopsMade_of_lt (prim_lt hw)]
      refine ⟨tr ++ [.arm .armStop], by simp [hs], hgt, hj.comp, hj.stop, ?_, by simp⟩
      have hs1 : r.nextStep.stopsMade = 1 := if_pos ⟨h1, h2⟩
      rw [stopCount_stop, hs1]
      omega
    · rename_i hw
      exact absurd hw (prim_ne_clear hj.comp)
  case h_3 hp =>
    cases h
    simp only [Run.phaseGood, hp] at hph
    exact stay (by simp) rfl rfl hgt (prim_lt (Run.waitsIn_iff.1 hph).1)
  case h_4 hp =>
    cases h
    simp only [Run.phaseGood, hp] at hph
    exact stay (by decide) rfl rfl hgt (prim_lt (Run.waitsIn_iff.1 hph).1)
  case h_5 hp =>
    cases h
    simp only [Run.phaseGood, hp] at hph
    have hl := prim_lt (Run.waitsIn_iff.1 hph).1
    unfold pollEvent at hgt ⊢
    split at hgt
    · rename_i h; rw [if_pos h]; exact stay (by simp) rfl rfl hgt hl
    · rename_i h
      rw [if_neg h]
      split at hgt
      · rename_i h; rw [if_pos h]; exact stay (by simp) rfl rfl hgt hl
      · rename_i h; rw [if_neg h]; exact stay (by simp) rfl rfl hgt hl
  case h_6 hp =>
    simp only [Run.phaseGood, hp] at hph
    have hl := prim_lt (Run.waitsIn_iff.1 hph).1
    unfold pollClock at h
    obtain ⟨p, hn, hk⟩ := andThen_eq_next.1 h
    obtain ⟨-, rfl⟩ := now_eq_next.1 hn
    split at hk
    · cases hk
      refine ⟨tr ++ [.now s.nextTime], by rw [primFailed_trace]; simp [hs],
        stops_primFailed hj (by decide) (by decide) (by decide) (by exact hfl) hl ?_ rfl⟩
      rw [stopCount_other _ (by simp), hj.count, stopsMade_of_lt hl]
    · cases hk
      exact stay (by simp) rfl rfl hgt hl
  case h_7 w hp =>
    simp only [Run.phaseGood, hp] at hph
    have hw := (Run.waitsIn_iff.1 hph).1
    have hl := prim_lt hw
    cases h
    have hz : stopCount (tr ++ [.readStatus s.nextCode]) + m = 0 := by
      rw [stopCount_other _ (by simp), hj.count, stopsMade_of_lt hl]
    unfold decodeNow at hgt ⊢
    revert hgt
    cases masterStatus _ _ <;> intro hgt <;> simp only [afterDecode] at hgt ⊢
    case success =>
      cases w
      all_goals simp only [waitSucceeded, stepSucceeded_composite hj.comp] at hgt ⊢
      case sendBuf =>
        refine ⟨tr ++ [.readStatus s.nextCode], by simp [hs],
          hj.move hgt ⟨rfl, _, rfl⟩ hz (stopsMade_of_lt ?_)⟩
        exact hl
      case recvB => exact stay (by simp) rfl rfl hgt hl
      case recvBuf => exact stay (by simp) rfl rfl hgt hl
      all_goals
        exact ⟨tr ++ [.readStatus s.nextCode], by simp [hs],
          hj.move hgt ⟨rfl, _, rfl⟩ hz (stopsMade_nextStep hj.comp hw)⟩
    case addressNACK => exact stay (by simp) rfl rfl hgt hl
    case dataNACK => exact stay (by simp) rfl rfl hgt hl
    all_goals
      exact ⟨tr ++ [.readStatus s.nextCode], by rw [primFailed_trace]; simp [hs],
        stops_primFailed hj (by decide) (by decide) (by decide) (by exact hfl) hl hz rfl⟩
  case h_8 st hp =>
    cases h
    simp only [Run.phaseGood, hp, Bool.and_eq_true] at hph
    have hl := Run.inList_iff.1 hph.2
    replace hph := of_decide_eq_true hph.1
    have hz : stopCount tr + m = 0 := by rw [hj.count, stopsMade_of_lt hl]
    have hb : st ≠ .busLost := by rcases hph with rfl | rfl <;> decide
    rw [primFailed_of_ne hb]
    refine ⟨tr ++ [.arm .armStop], by rw [finish_trace]; simp [hs], stops_finish st hfl ?_ (by simp)⟩
    rw [stopCount_stop, stopsByCode_nack hph]
    omega
  case h_9 hp =>
    rw [stepSucceeded_composite (by exact hj.comp)] at h
    cases h
    simp only [Run.phaseGood, hp] at hph
    have hw := Run.isAt_iff.1 hph
    exact ⟨tr ++ [.readData s.hw.received.take.1], by simp [hs], hj.move hgt ⟨rfl, _, rfl⟩
      (by rw [stopCount_other _ (by simp), hj.count, stopsMade_of_lt (prim_lt hw)]) (stopsMade_nextStep hj.comp hw)
     ⟩
  case h_10 hp =>
    cases h
    simp only [Run.phaseGood, hp] at hph
    exact stay (by simp) rfl rfl hgt (prim_lt (Run.waitsIn_iff.1 hph).1)
  case h_11 b hp =>
    obtain ⟨u, hm, hk⟩ := andThen_eq_next.1 h
    obtain ⟨-, rfl⟩ := memWrite_eq_next.1 hm
    cases hk
    simp only [Run.phaseGood, hp] at hph
    have hl := prim_lt (Run.waitsIn_iff.1 hph).1
    exact ⟨tr ++ [.memWrite (bufferAddr r.ctx.ptr r.idx) b], by simp [hs], hj.move hgt ⟨rfl, _, rfl⟩
      (by rw [stopCount_other _ (by simp), hj.count, stopsMade_of_lt hl]) (stopsMade_of_lt hl)⟩
  case h_12 hp =>
    cases h
    simp only [Run.phaseGood, hp, Bool.and_eq_true] at hph
    have hl := Run.inList_iff.1 hph.2
    have hz : stopCount (tr ++ [.arm .armGo]) + m = 0 := by rw [stopCount_other _ (by decide), hj.count, stopsMade_of_lt hl]
    refine ⟨tr ++ [.arm .armGo], by rw [finish_trace]; simp [hs], stops_finish .busLost hfl ?_ (fun _ h => ?_)⟩
    · rw [hz]; rfl
    · omega
  case h_13 hp =>
    obtain ⟨p, dl, hn, hd, rfl⟩ := sampleDeadline_eq_next.1 h
    obtain ⟨-, rfl⟩ := now_eq_next.1 hn
    simp only [Run.phaseGood, hp, Bool.and_eq_true] at hph
    have hl := Run.inList_iff.1 hph.2
    refine ⟨tr ++ [.now s.nextTime], by simp [hs], ?_⟩
    refine hj.move hgt ⟨rfl, dl, rfl⟩ (by rw [stopCount_other _ (by simp), hj.count, stopsMade_of_lt hl]) ?_
     
    apply stopsMade_of_lt
    show 0 < (steps r.op (r.withDeadline dl).ctx).length
    rw [steps_withDeadline]
    omega

end

/-- A composite at its issue. -/
theorem stopsRun_issue {w : Widths} {op : MasterOp} {c : Ctx} (hc : op.isComposite = true) (hb : c.fits w = true)
    (Q : Prop) : StopsRun w 0 c.stop Q [] (.issue op c) := by
  have hl : 0 < (steps op c).length := by cases op <;> simp [MasterOp.isComposite] at hc <;> simp [steps]
  exact ⟨Run.good_issue op hb, hc, rfl, (stopsMade_of_lt (r := .issue op c) hl).symm ▸ rfl, by simp [stopCount]⟩

end Sys2Proof.Machine
end

