-- ==== Sys2Proof/Laws/Acks.lean ====
section
/-! SUPPORT. The acknowledge policy (41_master_engine.md R158): what the record of a running command says of the bytes it has
armed, and that every action keeps it. -/

namespace Sys2Proof.Machine

/-! ## Records -/

theorem lastAck_append_one (tr : List Atom) (a : Atom) : lastAck (tr ++ [a]) =
    match a with
    | .arm x => x.ackEnable <|> lastAck tr
    | .writeData _ | .eventComplete _ | .now _ | .readStatus _ | .readData _ | .memRead _ _ | .memWrite _ _ => lastAck tr := by
  cases a <;> simp [lastAck, List.foldl_append]

theorem byteIndex_append_one (n : Nat) (tr : List Atom) (a : Atom) : byteIndex n (tr ++ [a]) =
    match a with
    | .writeData _ => 0
    | .memWrite _ _ => byteIndex n tr + 1
    | .arm _ | .eventComplete _ | .now _ | .readStatus _ | .readData _ | .memRead _ _ => byteIndex n tr := by
  cases a <;> simp [byteIndex, List.foldl_append]

theorem AcksEachByte.nil (n : Option Len) (k : Nat) : AcksEachByte n k [] := by
  intro pre post a h
  simp at h

/-- One more atom. -/
theorem AcksEachByte.append_one {n : Option Len} {k : Nat} {tr : List Atom} (h : AcksEachByte n k tr) {x : Atom}
    (hx : ∀ a, x = .arm a → a.ackEnable ≠ none →
      ∃ m, n = some m ∧ byteIndex k tr < m ∧ a = .armRx (decide (byteIndex k tr + 1 < m))) :
    AcksEachByte n k (tr ++ [x]) := by
  intro pre post a he ha
  rcases List.eq_nil_or_concat post with rfl | ⟨q, y, rfl⟩
  · obtain ⟨rfl, h2⟩ := List.append_inj' he rfl
    exact hx a (by simpa using h2) ha
  · rw [List.concat_eq_append, ← List.cons_append, ← List.append_assoc] at he
    obtain ⟨rfl, -⟩ := List.append_inj' he rfl
    exact h pre q a rfl ha

/-! ## Where a receive stands in its step list -/

/-- A receive is at the beginning of a primitive's list or follows `ADDR_R` (R145, R183 to R185). -/
theorem prim_recv {op : MasterOp} {c : Ctx} {k : Nat} {w : WaitPrim} (hw : w = .recvB ∨ w = .recvBuf)
    (h : (steps op c)[k]? = some (.wait w)) :
    (k = 0 ∧ op.isComposite = false) ∨ ∃ j, k = j + 1 ∧ (steps op c)[j]? = some (.wait .addrR) := by
  have hf : ∀ {b : Bool} {j : Nat}, (finalStop b)[j]? ≠ some (.wait w) := by
    intro b j; cases b <;> cases j <;> simp [finalStop]
  have hs := @hf c.stop
  cases op
  case mRecvB => rcases hw with rfl | rfl <;> rcases k with _ | _ | _ | k <;> simp [steps, hs] at h ⊢
  case mRecvBuf => rcases hw with rfl | rfl <;> rcases k with _ | _ | _ | k <;> simp [steps, hs] at h ⊢
  case mRecvReg =>
    rcases hw with rfl | rfl <;> cases hr : c.rs <;> rcases k with _ | _ | _ | _ | _ | _ | k <;> simp [steps, hr, hs] at h ⊢
  case recvB => rcases k with _ | k <;> simp [steps, MasterOp.isComposite] at h ⊢
  case recvBuf => rcases k with _ | k <;> simp [steps, MasterOp.isComposite] at h ⊢
  all_goals
    have hm := List.mem_of_getElem? h
    rcases hw with rfl | rfl <;> simp [steps, finalStop] at hm

/-! ## What the record of a running command holds -/

/-- The acknowledge flag after one atomic action (R42, R65). -/
def ackAfter (b : Bool) : Atom → Bool
  | .arm a => a.ackEnable.getD b
  | .writeData _ | .eventComplete _ | .now _ | .readStatus _ | .readData _ | .memRead _ _ | .memWrite _ _ => b

theorem lastAck_getD (tr : List Atom) (a : Atom) (b : Bool) :
    (lastAck (tr ++ [a])).getD b = ackAfter ((lastAck tr).getD b) a := by
  rw [lastAck_append_one]
  cases a <;> simp [ackAfter]

/-- A running command that requests `n` bytes, the record `tr` since a point where it was at byte `k`. -/
structure AckRun (w : Widths) (n : Option Len) (k : Nat) (tr : List Atom) (r : Run) : Prop where
  good : r.good w = true
  count : r.requested = n
  acks : AcksEachByte n k tr
  index : (r.prim? = some (.wait .recvB) ∨ r.prim? = some (.wait .recvBuf)) → byteIndex k tr = r.idx
  written : r.prim? = some (.wait .addrR) → r.phase ≠ .begin → byteIndex k tr = 0

/-- A command, running or ended, whose flag was `b` before the record. -/
def Acks (n : Option Len) (k : Nat) (b : Bool) (tr : List Atom) (v : State) : Prop :=
  v.hw.ctrl.ackEnable = (lastAck tr).getD b ∧
  match v.seq with
  | .idle => AcksEachByte n k tr
  | .run r => AckRun v.widths n k tr r

/-- What a receive's arm call says of its byte. -/
theorem requested_of_recv {r : Run} {p : WaitPrim} (hp : r.prim? = some (.wait p))
    (hw : p = .recvB ∨ p = .recvBuf) :
    r.requested = some (if p = .recvB then 1 else r.ctx.len) := by
  obtain ⟨op, step, idx, ctx, phase, got⟩ := r
  have hm := List.mem_of_getElem? hp
  have hf : ∀ b q, Prim.wait q ∉ finalStop b := by intro b q; cases b <;> simp [finalStop]
  rcases hw with rfl | rfl <;> cases op <;> cases hr : ctx.rs <;> simp [steps, hf, hr] at hm <;> rfl

theorem recvB_idx {r : Run} {w : Widths} (hg : r.good w = true) (hp : r.prim? = some (.wait .recvB)) : r.idx = 0 := by
  have h := (Run.good_iff.1 hg).2.1
  simpa [Run.idxGood, Run.isAt, hp] using h

/-- The record of a command, running or ended, follows the policy. -/
theorem Acks.record {n : Option Len} {k : Nat} {b : Bool} {tr : List Atom} {v : State} (h : Acks n k b tr v) :
    AcksEachByte n k tr := by
  obtain ⟨-, h⟩ := h
  split at h
  · exact h
  · exact h.acks

section
variable {w : Widths} {n : Option Len} {k : Nat} {b : Bool} {tr : List Atom} {r r' : Run} {s t : State} {base : List Atom}

theorem acks_finish (st : Status) (r : Run) (u : State) (hf : u.hw.ctrl.ackEnable = (lastAck tr).getD b)
    (h : AcksEachByte n k tr) : Acks n k b tr (finish st r u) := by
  unfold Acks
  rw [finish_seq, finish_hw]
  exact ⟨hf, h⟩

/-- The run of a command after one more atom that is no receive's arm call: it has the count it had. -/
theorem AckRun.next (hj : AckRun w n k tr r) {a : Atom} (hg : r'.good w = true) (ho : r.Same r')
    (ha : ∀ x, a = .arm x → x.ackEnable = none)
    (hi : (r'.prim? = some (.wait .recvB) ∨ r'.prim? = some (.wait .recvBuf)) → byteIndex k (tr ++ [a]) = r'.idx)
    (hw : r'.prim? = some (.wait .addrR) → r'.phase ≠ .begin → byteIndex k (tr ++ [a]) = 0) :
    AckRun w n k (tr ++ [a]) r' := by
  obtain ⟨h1, d, h2⟩ := ho
  refine ⟨hg, ?_, hj.acks.append_one fun x hx hne => absurd (ha x hx) hne, hi, hw⟩
  rw [← hj.count]
  unfold Run.requested
  rw [h1, h2]

/-- The same without an atom. -/
theorem AckRun.silent (hj : AckRun w n k tr r) (hg : r'.good w = true) (ho : r.Same r')
    (hi : (r'.prim? = some (.wait .recvB) ∨ r'.prim? = some (.wait .recvBuf)) → byteIndex k tr = r'.idx)
    (hw : r'.prim? = some (.wait .addrR) → r'.phase ≠ .begin → byteIndex k tr = 0) : AckRun w n k tr r' := by
  obtain ⟨h1, d, h2⟩ := ho
  refine ⟨hg, ?_, hj.acks, hi, hw⟩
  rw [← hj.count]
  unfold Run.requested
  rw [h1, h2]

/-- The first step of a composite is no receive and no `ADDR_R`. -/
theorem prim_first {r : Run} (hc : r.op.isComposite = true) (hs : r.step = 0) : r.prim? = some (.wait .start) := by
  obtain ⟨op, step, idx, ctx, phase, got⟩ := r
  cases op <;> simp [MasterOp.isComposite] at hc <;> simp_all [Run.prim?, steps]

theorem prim_withDeadline (r : Run) (dl : Deadline) (p : Phase) : ((r.withDeadline dl).goto p).prim? = r.prim? := by
  show (steps r.op (r.withDeadline dl).ctx)[r.step]? = (steps r.op r.ctx)[r.step]?
  rw [steps_withDeadline]

/-- What the next step of a composite is at its beginning. -/
theorem nextStep_index {r : Run} (tr' : List Atom) (hz : r.prim? = some (.wait .addrR) → byteIndex k tr' = 0) :
    (r.nextStep.prim? = some (.wait .recvB) ∨ r.nextStep.prim? = some (.wait .recvBuf)) →
      byteIndex k tr' = r.nextStep.idx := by
  have h : ∀ {p : WaitPrim}, p = .recvB ∨ p = .recvBuf → r.nextStep.prim? = some (.wait p) →
      byteIndex k tr' = r.nextStep.idx := by
    intro p hp h
    rcases prim_recv hp h with ⟨h0, -⟩ | ⟨j, hk, hp'⟩
    · cases h0
    · obtain rfl : r.step = j := Nat.succ_injective hk
      exact hz hp'
  rintro (h1 | h1)
  · exact h (.inl rfl) h1
  · exact h (.inr rfl) h1

/-- A failed primitive, one quiet atom after the state the record is of. -/
theorem acks_primFailed (hj : AckRun w n k tr r) (st : Status) (u : State) (hf : u.hw.ctrl.ackEnable = (lastAck tr).getD b)
    (hl : r.inList = true) (hw : u.widths = w) (hph : r.phase ≠ .begin) : Acks n k b tr (primFailed st r u) := by
  subst hw
  unfold primFailed
  split
  · rename_i hc
    have hg : ∀ {p : Phase}, p = .abort ∨ p = .extend → (r.goto p).good u.widths = true := by
      rintro _ (rfl | rfl) <;> exact Run.good_goto hj.good (Bool.and_eq_true_iff.2 ⟨hc.1, hl⟩)
    split
    · exact ⟨hf, hj.silent (hg (.inl rfl)) ⟨rfl, _, rfl⟩ hj.index fun h _ => hj.written h hph⟩
    · refine ⟨hf, hj.silent (Run.good_restart hj.good) ⟨rfl, _, rfl⟩ ?_ ?_⟩
      · rw [prim_first (r := r.restart) hc.1 rfl]; simp
      · intro _ h; exact absurd rfl h
    · exact ⟨hf, hj.silent (hg (.inr rfl)) ⟨rfl, _, rfl⟩ hj.index fun h _ => hj.written h hph⟩
  · exact acks_finish st r u hf hj.acks

theorem acks_stepSucceeded (hj : AckRun w n k tr r) (u : State) (hf : u.hw.ctrl.ackEnable = (lastAck tr).getD b)
    (hg : r.op.isComposite = true → r.nextStep.good w = true) (hw : u.widths = w)
    (hz : r.prim? = some (.wait .addrR) → r.phase ≠ .begin) : Acks n k b tr (stepSucceeded r u) := by
  subst hw
  unfold stepSucceeded
  split
  · rename_i hc
    exact ⟨hf, hj.silent (hg hc) ⟨rfl, _, rfl⟩ (nextStep_index tr fun h => hj.written h (hz h)) fun _ h => absurd rfl h⟩
  · exact acks_finish .success r u hf hj.acks

theorem stepSucceeded_trace (r : Run) (u : State) : (stepSucceeded r u).trace = u.trace := by
  unfold stepSucceeded
  split
  · rfl
  · exact finish_trace _ _ _

theorem Run.good_gotByte {w : Widths} {r : Run} (h : r.good w = true) (x : Byte) : (r.gotByte x).good w = true := by
  obtain ⟨h1, h2, h3, h4, -⟩ := Run.good_iff.1 h
  refine Run.good_iff.2 ⟨h1, h2, h3, h4, ?_⟩
  unfold Run.gotGood Run.gotByte
  split <;> simp

/-- Every action of a running command keeps what its record says. -/
theorem action_acks (hj : AckRun s.widths n k tr r) (hs : s.trace = base ++ tr)
    (hf : s.hw.ctrl.ackEnable = (lastAck tr).getD b) (h : action r s = .next t) :
    ∃ tr', t.trace = base ++ tr' ∧ Acks n k b tr' t := by
  have hg := hj.good
  have hgt := action_good rfl hg h
  have hph := Run.phaseGood_of_good hg
  -- one quiet atom, and the command goes on at another position of the same primitive
  have stay : ∀ {u : State} {p : Phase} {a : Atom}, u.trace = s.trace ++ [a] → u.widths = s.widths →
      u.hw.ctrl.ackEnable = ackAfter s.hw.ctrl.ackEnable a → (∀ x, a = .arm x → x.ackEnable = none) →
      byteIndex k (tr ++ [a]) = byteIndex k tr → r.phase ≠ .begin ∨ r.prim? ≠ some (.wait .addrR) →
      (r.goto p).good s.widths = true →
      ∃ tr', (u.setRun (r.goto p)).trace = base ++ tr' ∧ Acks n k b tr' (u.setRun (r.goto p)) := by
    intro u p a hu hwu hau hn hb hp hgd
    refine ⟨tr ++ [a], by rw [State.setRun_trace, hu, hs, List.append_assoc], ?_, ?_⟩
    · rw [lastAck_getD, ← hf]; exact hau
    · show AckRun u.widths n k _ _
      rw [hwu]
      exact hj.next hgd ⟨rfl, _, rfl⟩ hn (by rw [hb]; exact hj.index)
        (fun hpr _ => by rw [hb]; exact hj.written hpr (hp.resolve_right (fun h => h hpr)))
  have quiet : ∀ {a : Atom}, (∀ x, a = .arm x → x.ackEnable = none) → byteIndex k (tr ++ [a]) = byteIndex k tr →
      AckRun s.widths n k (tr ++ [a]) r ∧ (lastAck (tr ++ [a])).getD b = ackAfter s.hw.ctrl.ackEnable a := by
    intro a hn hb
    exact ⟨hj.next hg (.refl r) hn (by rw [hb]; exact hj.index) (fun h1 h2 => by rw [hb]; exact hj.written h1 h2),
      by rw [lastAck_getD, ← hf]⟩
  have wrote : ∀ {u : State} {w : WaitPrim} {x : Byte}, u.trace = s.trace ++ [.writeData x] → u.widths = s.widths →
      u.hw.ctrl = s.hw.ctrl → (r.goto (.arm w)).good s.widths = true → r.prim? = some (.wait w) → w ≠ .recvB → w ≠ .recvBuf →
      ∃ tr', (u.setRun (r.goto (.arm w))).trace = base ++ tr' ∧ Acks n k b tr' (u.setRun (r.goto (.arm w))) := by
    intro u w x hu hwu hc hgd hpr h1 h2
    refine ⟨tr ++ [.writeData x], by rw [State.setRun_trace, hu, hs, List.append_assoc], ?_, ?_⟩
    · rw [lastAck_getD, ← hf]; exact congrArg Ctrl.ackEnable hc
    · show AckRun u.widths n k _ _
      rw [hwu]
      refine hj.next hgd ⟨rfl, _, rfl⟩ (by simp) ?_ (fun _ _ => byteIndex_append_one ..)
      have e : (r.goto (.arm w)).prim? = some (.wait w) := hpr
      rw [e]
      rintro (h | h) <;> cases h <;> contradiction
  have armed : ∀ {w : WaitPrim} {d : Bool} {m : Len}, r.prim? = some (.wait w) → w ≠ .addrR → n = some m → r.idx < m →
      byteIndex k tr = r.idx → d = decide (r.idx + 1 < m) → (r.goto (.poll w)).good s.widths = true →
      ∃ tr', ((armControl (.armRx d) s).setRun (r.goto (.poll w))).trace = base ++ tr' ∧
        Acks n k b tr' ((armControl (.armRx d) s).setRun (r.goto (.poll w))) := by
    intro w d m hpr hne hn hi hk hd hgd
    refine ⟨tr ++ [.arm (.armRx d)], by simp [hs], ?_, hgd, hj.count, ?_, ?_, ?_⟩
    · rw [lastAck_getD, ← hf]; rfl
    · refine hj.acks.append_one fun x hx _ => ⟨m, hn, by omega, ?_⟩
      cases hx
      rw [hk, hd]
    · rw [byteIndex_append_one]; exact hj.index
    · intro h
      have e : (r.goto (.poll w)).prim? = some (.wait w) := hpr
      rw [e] at h
      cases h
      exact absurd rfl hne
  have ends : ∀ {p : Prim} {a : Atom} {u : State}, r.prim? = some p → p ≠ .wait .recvB →
      (∀ x, a = .arm x → x.ackEnable = none) → byteIndex k (tr ++ [a]) = byteIndex k tr → u.trace = s.trace ++ [a] →
      u.widths = s.widths → u.hw.ctrl.ackEnable = ackAfter s.hw.ctrl.ackEnable a →
      (r.prim? = some (.wait .addrR) → r.phase ≠ .begin) →
      ∃ tr', (stepSucceeded r u).trace = base ++ tr' ∧ Acks n k b tr' (stepSucceeded r u) := by
    intro p a u hpr hne hn hb hu hwu hau hz
    obtain ⟨q1, q2⟩ := quiet hn hb
    exact ⟨tr ++ [a], by rw [stepSucceeded_trace, hu, hs, List.append_assoc], acks_stepSucceeded q1 u (by rw [hau, q2])
      (fun hc => Run.good_nextStep hg hc hpr (.inl rfl) (fun h => absurd h hne)) hwu hz⟩
  unfold action at h
  split at h
  case h_1 hp =>
    obtain ⟨p, dl, hn, hd, rfl⟩ := sampleDeadline_eq_next.1 h
    obtain ⟨-, rfl⟩ := now_eq_next.1 hn
    refine ⟨tr ++ [.now s.nextTime], by simp [hs], ?_, ?_⟩
    · rw [lastAck_getD, ← hf]; rfl
    · refine hj.next (Run.good_withDeadline hg (mkDeadline_fits hd)) ⟨rfl, dl, rfl⟩ (by simp) ?_ ?_
      · rw [prim_withDeadline, byteIndex_append_one]; exact hj.index
      · intro _ h; exact absurd rfl h
  case h_2 hp =>
    unfold beginStep at h
    split at h
    · cases h
      exact ⟨tr, by rw [finish_trace, hs], acks_finish _ _ _ hf hj.acks⟩
    · rename_i w hw
      have done : ∀ {v : State}, .next (stepSucceeded r s) = (.next v : Result) → w ≠ .addrR → w ≠ .recvB →
          ∃ tr', v.trace = base ++ tr' ∧ Acks n k b tr' v := by
        intro v hv hne hnb
        cases hv
        refine ⟨tr, by rw [stepSucceeded_trace, hs], acks_stepSucceeded hj s hf ?_ rfl fun h => ?_⟩
        · intro hc
          exact Run.good_nextStep hg hc hw (.inl rfl) (fun h => absurd (by cases h; rfl) hnb)
        · rw [hw] at h; cases h; exact absurd rfl hne
      cases w <;> simp only [beginWait] at h
      case sendBuf =>
        split at h
        · obtain ⟨p, hm, hk⟩ := andThen_eq_next.1 h
          obtain ⟨-, rfl⟩ := memRead_eq_next.1 hm
          cases hk
          exact stay rfl rfl rfl (by simp) (byteIndex_append_one ..) (.inr (by simp [hw])) hgt
        · exact done h (by simp) (by simp)
      case recvBuf =>
        split at h
        · rename_i hi
          cases h
          exact armed hw (by simp) (hj.count.symm.trans (requested_of_recv hw (.inr rfl))) hi (hj.index (.inr hw)) rfl hgt
        · exact done h (by simp) (by simp)
      case recvB =>
        cases h
        have hi := recvB_idx hg hw
        exact armed hw (by simp) (hj.count.symm.trans (requested_of_recv hw (.inl rfl))) (by simp [hi]) (hj.index (.inl hw))
          (by simp [hi]) hgt
      case start => cases h; exact stay rfl rfl rfl (by simp [Assign.armStart]) (byteIndex_append_one ..) (.inr (by simp [hw])) hgt
      case stopStart => cases h; exact stay rfl rfl rfl (by simp [Assign.armStopStart]) (byteIndex_append_one ..) (.inr (by simp [hw])) hgt
      all_goals
        cases h
        exact wrote rfl rfl rfl hgt hw (by simp) (by simp)
    · rename_i hw
      cases h
      exact ends hw (by simp) (by simp [Assign.armStop]) (byteIndex_append_one ..) rfl rfl rfl (by simp [hw])
    · rename_i hw
      cases h
      exact ends hw (by simp) (by simp [Assign.armGo]) (byteIndex_append_one ..) rfl rfl rfl (by simp [hw])
  case h_3 hp =>
    cases h
    simp only [Run.phaseGood, hp] at hph
    exact wrote rfl rfl rfl hgt (Run.waitsIn_iff.1 hph).1 (by simp) (by simp)
  case h_4 w hp =>
    cases h
    exact stay rfl rfl rfl (by simp [Assign.armGo]) (byteIndex_append_one ..) (.inl (by simp [hp])) hgt
  case h_5 hp =>
    cases h
    unfold pollEvent at hgt ⊢
    split at hgt
    · rename_i h; rw [if_pos h]; exact stay rfl rfl rfl (by simp) (byteIndex_append_one ..) (.inl (by simp [hp])) hgt
    · rename_i h
      rw [if_neg h]
      split at hgt
      · rename_i h; rw [if_pos h]; exact stay rfl rfl rfl (by simp) (byteIndex_append_one ..) (.inl (by simp [hp])) hgt
      · rename_i h; rw [if_neg h]; exact stay rfl rfl rfl (by simp) (byteIndex_append_one ..) (.inl (by simp [hp])) hgt
  case h_6 hp =>
    simp only [Run.phaseGood, hp] at hph
    have hl := Run.inList_of_prim (Run.waitsIn_iff.1 hph).1
    unfold pollClock at h
    obtain ⟨p, hn, hk⟩ := andThen_eq_next.1 h
    obtain ⟨-, rfl⟩ := now_eq_next.1 hn
    split at hk
    · cases hk
      obtain ⟨q1, q2⟩ := quiet (a := .now s.nextTime) (by simp) (byteIndex_append_one ..)
      exact ⟨_, by rw [primFailed_trace]; simp [hs], acks_primFailed q1 .timeout _ q2.symm hl rfl (by simp [hp])⟩
    · cases hk
      exact stay rfl rfl rfl (by simp) (byteIndex_append_one ..) (.inl (by simp [hp])) hgt
  case h_7 w hp =>
    simp only [Run.phaseGood, hp] at hph
    have hw := (Run.waitsIn_iff.1 hph).1
    have hl := Run.inList_of_prim hw
    cases h
    obtain ⟨q1, q2⟩ := quiet (a := .readStatus s.nextCode) (by simp) (byteIndex_append_one ..)
    unfold decodeNow at hgt ⊢
    revert hgt
    cases masterStatus _ _ <;> intro hgt <;> simp only [afterDecode] at hgt ⊢
    case success =>
      cases w <;> simp only [waitSucceeded] at hgt ⊢
      case sendBuf =>
        refine ⟨tr ++ [.readStatus s.nextCode], by simp [hs], by rw [q2]; rfl, ?_⟩
        refine q1.silent hgt ⟨rfl, _, rfl⟩ ?_ (fun _ h => absurd rfl h)
        have e : r.nextByte.prim? = some (.wait .sendBuf) := hw
        rw [e]; simp
      case recvB => exact stay rfl rfl rfl (by simp) (byteIndex_append_one ..) (.inl (by simp [hp])) hgt
      case recvBuf => exact stay rfl rfl rfl (by simp) (byteIndex_append_one ..) (.inl (by simp [hp])) hgt
      all_goals
        exact ends hw (by simp) (by simp) (byteIndex_append_one ..) rfl rfl rfl (by simp [hp])
    case addressNACK => exact stay rfl rfl rfl (by simp) (byteIndex_append_one ..) (.inl (by simp [hp])) hgt
    case dataNACK => exact stay rfl rfl rfl (by simp) (byteIndex_append_one ..) (.inl (by simp [hp])) hgt
    all_goals
      exact ⟨_, by rw [primFailed_trace]; simp [hs], acks_primFailed q1 _ _ q2.symm hl rfl (by simp [hp])⟩
  case h_8 st hp =>
    cases h
    simp only [Run.phaseGood, hp, Bool.and_eq_true] at hph
    obtain ⟨q1, q2⟩ := quiet (a := .arm .armStop) (by simp [Assign.armStop]) (byteIndex_append_one ..)
    exact ⟨_, by rw [primFailed_trace]; simp [hs], acks_primFailed q1 _ _ q2.symm hph.2 rfl (by simp [hp])⟩
  case h_9 hp =>
    cases h
    simp only [Run.phaseGood, hp] at hph
    have hw := Run.isAt_iff.1 hph
    obtain ⟨q1, q2⟩ := quiet (a := .readData s.hw.received.take.1) (by simp) (byteIndex_append_one ..)
    have q3 : AckRun s.widths n k _ (r.gotByte (readData s).1) :=
      q1.silent (Run.good_gotByte hg _) ⟨rfl, _, rfl⟩ q1.index q1.written
    refine ⟨_, by rw [stepSucceeded_trace]; simp [hs], acks_stepSucceeded q3 _ q2.symm (fun hc => ?_) rfl fun h => ?_⟩
    · exact Run.good_nextStep hg hc hw (.inr rfl) (fun _ => rfl)
    · exact absurd (h.symm.trans hw) (by simp)
  case h_10 hp =>
    cases h
    exact stay rfl rfl rfl (by simp) (byteIndex_append_one ..) (.inl (by simp [hp])) hgt
  case h_11 x hp =>
    obtain ⟨u, hm, hk⟩ := andThen_eq_next.1 h
    obtain ⟨-, rfl⟩ := memWrite_eq_next.1 hm
    cases hk
    simp only [Run.phaseGood, hp] at hph
    have hw := (Run.waitsIn_iff.1 hph).1
    refine ⟨tr ++ [.memWrite (bufferAddr r.ctx.ptr r.idx) x], by simp [hs], ?_, ?_⟩
    · rw [lastAck_getD, ← hf]; rfl
    · refine hj.next hgt ⟨rfl, _, rfl⟩ (by simp) (fun _ => ?_) (fun _ h => absurd rfl h)
      rw [byteIndex_append_one]
      exact congrArg (· + 1) (hj.index (.inr hw))
  case h_12 hp =>
    cases h
    obtain ⟨q1, q2⟩ := quiet (a := .arm .armGo) (by simp [Assign.armGo]) (byteIndex_append_one ..)
    exact ⟨_, by rw [finish_trace]; simp [hs], acks_finish .busLost r _ q2.symm q1.acks⟩
  case h_13 hp =>
    obtain ⟨p, dl, hn, hd, rfl⟩ := sampleDeadline_eq_next.1 h
    obtain ⟨-, rfl⟩ := now_eq_next.1 hn
    simp only [Run.phaseGood, hp, Bool.and_eq_true] at hph
    refine ⟨tr ++ [.now s.nextTime], by simp [hs], ?_, ?_⟩
    · rw [lastAck_getD, ← hf]; rfl
    · refine hj.next hgt ⟨rfl, dl, rfl⟩ (by simp) ?_ (fun _ h => absurd rfl h)
      rw [prim_first (r := (r.withDeadline dl).restart) hph.1 rfl]; simp
/-- A group of actions that nothing interrupts keeps what the record says. -/
theorem advance_acks {m : Nat} (hq : s.hw.interrupts = .always []) (hj : Acks n k b tr s) (hs : s.trace = base ++ tr)
    (h : advance m s = .next t) : ∃ tr', t.trace = base ++ tr' ∧ Acks n k b tr' t := by
  have key := advance_induction (P := fun v => v.hw.interrupts = .always [] ∧ ∃ tr', v.trace = base ++ tr' ∧ Acks n k b tr' v)
    m ?_ ⟨hq, tr, hs, hj⟩ h
  · exact key.2
  · rintro r v u x hr ⟨hqv, tr', htr, hf, hv⟩ hb ha
    rw [atBoundary_quiet hqv] at hb
    cases hb
    rw [hr] at hv
    exact ⟨(action_acts ha).quiet.trans hqv, action_acks hv htr hf ha⟩

end

/-- A command at its issue. -/
theorem ackRun_issue {w : Widths} {op : MasterOp} {c : Ctx} (hb : c.fits w = true) {n : Option Len}
    (hn : (Run.issue op c).requested = n) : AckRun w n 0 [] (.issue op c) :=
  ⟨Run.good_issue op hb, hn, .nil _ _, fun _ => rfl, fun _ _ => rfl⟩

/-- A running command at any point: a record that begins there counts from its index. -/
theorem ackRun_here {w : Widths} {r : Run} (hg : r.good w = true) : AckRun w r.requested r.idx [] r := by
  refine ⟨hg, rfl, .nil _ _, fun _ => rfl, fun h _ => ?_⟩
  have hi := (Run.good_iff.1 hg).2.1
  simpa [Run.idxGood, Run.isAt, h, byteIndex] using hi

end Sys2Proof.Machine
end

