-- ==== Sys2Proof/Laws/Completion.lean ====
section
/-! SUPPORT. Completion: in an environment whose event is complete at every sample and that never reports arbitration loss,
every action of a master command brings its end nearer, so the group of actions of one step ends it; and what a command's
actions lead to is reached by steps (log 1). -/

namespace Sys2Proof.Machine

/-! ## A prompt environment -/

/-- An input's answers: the queue, the one after it, the loop. -/
def Answers.all {α : Type} (a : Answers α) : List α := a.after :: (a.queue ++ a.loop)

theorem Answers.take_mem {α : Type} (a : Answers α) : a.take.1 ∈ a.all := by
  cases h : a.queue <;> simp [Answers.take, Answers.all, h]

theorem Answers.take_sub {α : Type} {a : Answers α} {x : α} (hx : x ∈ a.take.2.all) : x ∈ a.all := by
  cases h : a.queue <;> simp [Answers.take, Answers.all, h] at hx ⊢ <;> tauto

theorem State.Prompt.of_eq {s u : State} (h : s.Prompt) (h1 : u.hw.raises = s.hw.raises) (h2 : u.hw.codes = s.hw.codes)
    (h3 : u.params = s.params) : u.Prompt :=
  ⟨by rw [h1]; exact h.raises, by rw [h2]; simp only [State.classify, State.widths_eq, h3]; exact h.codes⟩

theorem State.Prompt.eventNow {s : State} (h : s.Prompt) : s.hw.eventNow = true := by
  have := h.raises _ s.hw.raises.take_mem
  simp [Collaborator.eventNow, this]

theorem State.Prompt.eventComplete {s : State} (h : s.Prompt) : (eventComplete s).2.Prompt :=
  ⟨fun e he => h.raises e (Answers.take_sub he), h.codes⟩

theorem State.Prompt.readStatus {s : State} (h : s.Prompt) : (readStatus s).2.Prompt :=
  ⟨h.raises, fun c hc => h.codes c (Answers.take_sub hc)⟩

theorem State.Prompt.not_lost {s : State} (h : s.Prompt) (ctx : MasterCtx) :
    masterStatus ctx (s.classify (Machine.readStatus s).1) ≠ .busLost := by
  rw [Ne, masterStatus_busLost]
  exact h.codes _ s.hw.codes.take_mem

theorem State.Prompt.now {s : State} {p : Time × State} (h : s.Prompt) (hn : now s = .next p) : p.2.Prompt := by
  obtain ⟨-, rfl⟩ := now_eq_next.1 hn
  exact h.of_eq rfl rfl rfl

/-! ## How many actions a command has left -/

/-- The most actions a step of the list takes from an index on. -/
def Prim.left (len idx : Nat) : Prim → Nat
  | .stop | .clear => 1
  | .wait .sendBuf | .wait .recvBuf => 7 * (len - idx) + 1
  | .wait .start | .wait .stopStart | .wait .addrW | .wait .addrR | .wait .sendData | .wait .sendReg | .wait .recvB => 7

/-- The most actions after the current step. -/
def Run.leftAfter (r : Run) : Nat := (((steps r.op r.ctx).drop (r.step + 1)).map (Prim.left r.ctx.len 0)).sum + 1

/-- The most actions from the beginning of the current step, at the current index. -/
def Run.leftFrom (r : Run) : Nat :=
  match r.prim? with
  | none => 1
  | some p => p.left r.ctx.len r.idx + r.leftAfter

/-- The most actions after the wait of a primitive has succeeded and what follows it is done. -/
def Run.leftByte (r : Run) (w : WaitPrim) : Nat :=
  if w.isBuffer then 7 * (r.ctx.len - (r.idx + 1)) + 1 + r.leftAfter else r.leftAfter

/-- The most actions a running command has left in a prompt environment. -/
def Run.left (r : Run) : Nat :=
  match r.phase with
  | .enter => 1 + r.leftFrom
  | .begin => r.leftFrom
  | .put _ => r.leftByte .sendBuf + 6
  | .arm w => r.leftByte w + 5
  | .clock w => r.leftByte w + 5
  | .poll w => r.leftByte w + 4
  | .decode w => r.leftByte w + 3
  | .nackStop _ => 1
  | .takeByte => r.leftByte .recvB + 2
  | .takeBuf => r.leftByte .recvBuf + 2
  | .store _ => r.leftByte .recvBuf + 1
  | .abort => 1
  | .extend => 1 + r.restart.leftFrom

theorem Run.leftAfter_pos (r : Run) : 1 ≤ r.leftAfter := by unfold Run.leftAfter; omega

theorem Run.leftByte_pos (r : Run) (w : WaitPrim) : 1 ≤ r.leftByte w := by
  have := r.leftAfter_pos
  unfold Run.leftByte; split <;> omega

theorem Run.leftFrom_nextStep (r : Run) : r.nextStep.leftFrom = r.leftAfter := by
  have hp : r.nextStep.prim? = (steps r.op r.ctx)[r.step + 1]? := rfl
  unfold Run.leftFrom
  rw [hp]
  cases h : (steps r.op r.ctx)[r.step + 1]? with
  | none => simp [Run.leftAfter, List.drop_eq_nil_of_le (List.getElem?_eq_none_iff.1 h)]
  | some p =>
    obtain ⟨hl, hp⟩ := List.getElem?_eq_some_iff.1 h
    have e : (steps r.op r.ctx).drop (r.step + 1) = p :: (steps r.op r.ctx).drop (r.step + 1 + 1) := by
      rw [List.drop_eq_getElem_cons hl, hp]
    simp only [Run.leftAfter, Run.nextStep, e, List.map_cons, List.sum_cons]
    omega

theorem Run.leftFrom_of {r : Run} {p : Prim} (h : r.prim? = some p) :
    r.leftFrom = p.left r.ctx.len r.idx + r.leftAfter := by unfold Run.leftFrom; rw [h]

theorem Run.leftFrom_nextByte {r : Run} {w : WaitPrim} (h : r.prim? = some (.wait w)) (hw : w.isBuffer = true) :
    r.nextByte.leftFrom = r.leftByte w := by
  have h' : r.nextByte.prim? = some (.wait w) := h
  rw [Run.leftFrom_of h']
  cases w <;> simp [WaitPrim.isBuffer] at hw <;> rfl

theorem sum_drop_le (l : List Nat) (k : Nat) : (l.drop k).sum ≤ l.sum := by
  have := congrArg List.sum (List.take_append_drop k l)
  rw [List.sum_append] at this
  omega

/-- A whole step list takes few actions beside those of its one buffer. -/
theorem steps_left (op : MasterOp) (c : Ctx) : ((steps op c).map (Prim.left c.len 0)).sum ≤ 7 * c.len + 48 := by
  have hf : ∀ b, ((finalStop b).map (Prim.left c.len 0)).sum ≤ 1 := by intro b; cases b <;> simp [finalStop, Prim.left]
  have := hf c.stop
  cases hr : c.rs <;> cases op <;> simp [steps, Prim.left, hr] <;> omega

theorem Prim.left_le (len idx : Nat) (p : Prim) : p.left len idx ≤ p.left len 0 := by
  rcases p with (_ | _ | _ | _ | _ | _ | _ | _ | _) | _ | _ <;> simp only [Prim.left] <;> omega

theorem Run.leftFrom_le (r : Run) : r.leftFrom ≤ 7 * r.ctx.len + 49 := by
  have hw := steps_left r.op r.ctx
  cases h : r.prim? with
  | none => unfold Run.leftFrom; rw [h]; show 1 ≤ _; omega
  | some p =>
    obtain ⟨hl, hp⟩ := List.getElem?_eq_some_iff.1 h
    have hd := sum_drop_le ((steps r.op r.ctx).map (Prim.left r.ctx.len 0)) r.step
    rw [← List.map_drop, List.drop_eq_getElem_cons hl, hp, List.map_cons, List.sum_cons] at hd
    have := p.left_le r.ctx.len r.idx
    rw [Run.leftFrom_of h]
    unfold Run.leftAfter
    omega

theorem Run.leftByte_le {r : Run} {w : WaitPrim} (h : r.prim? = some (.wait w)) : r.leftByte w ≤ r.leftFrom := by
  rw [Run.leftFrom_of h]
  cases w <;> simp only [Run.leftByte, WaitPrim.isBuffer, Prim.left, if_true, Bool.false_eq_true, if_false] <;> omega

/-- A step's group of actions is more than a command has left (log 1). -/
theorem Run.left_le {r : Run} (h : r.phaseGood = true) : r.left ≤ 8 * r.ctx.len + 128 := by
  have h1 := r.leftFrom_le
  have h2 := r.restart.leftFrom_le
  rw [show r.restart.ctx.len = r.ctx.len from rfl] at h2
  cases hp : r.phase <;> simp only [Run.phaseGood, hp] at h <;> simp only [Run.left, hp]
  case takeByte => have := Run.leftByte_le (Run.isAt_iff.1 h); omega
  all_goals first
    | (have := Run.leftByte_le (Run.waitsIn_iff.1 h).1; omega)
    | omega

/-! ## Every action brings the end nearer -/

/-- The positions from which a prompt run never samples the clock and cannot end with `BusLost`. -/
def Phase.calm : Phase → Bool
  | .enter | .clock _ | .extend | .abort => false
  | .begin | .put _ | .arm _ | .poll _ | .decode _ | .nackStop _ | .takeByte | .takeBuf | .store _ => true

/-- What the caller flow sees of a command that has ended with a status (R31, R99). -/
structure State.Ended (st : Status) (t : State) : Prop where
  seq : t.seq = .idle
  code : t.rspCaller.code = st.code
  returned : t.rspCaller.returned = true

/-- What one action does in a prompt environment: the command has ended, or it goes on and has fewer actions left. -/
inductive Nears (r : Run) (t : State) : Prop where
  | ended {st : Status} (h : t.Ended st) (hb : st = .busLost → r.phase = .abort)
      (ht : st = .timeout → ∃ w, r.phase = .clock w)
  | goes {r' : Run} (h : t.seq = .run r') (hl : r'.left < r.left) (hc : r'.phase.calm = true)

theorem finish_ended {s : State} (hf : s.flow = .caller) (st : Status) (r : Run) : (finish st r s).Ended st := by
  refine ⟨finish_seq _ _ _, finish_rspCaller hf _ _, ?_⟩
  unfold finish; split <;> simp [hf]

theorem State.Prompt.finish {s : State} (h : s.Prompt) (st : Status) (r : Run) : (finish st r s).Prompt :=
  h.of_eq (by rw [finish_hw]) (by rw [finish_hw]) (steady_finish st r s).params

theorem State.Prompt.primFailed {s : State} (h : s.Prompt) (st : Status) (r : Run) : (primFailed st r s).Prompt := by
  unfold Machine.primFailed
  split
  · split <;> exact h.of_eq rfl rfl rfl
  · exact h.finish st r

theorem State.Prompt.stepSucceeded {s : State} (h : s.Prompt) (r : Run) : (stepSucceeded r s).Prompt := by
  unfold Machine.stepSucceeded
  split
  · exact h.of_eq rfl rfl rfl
  · exact h.finish _ r

theorem nears_primFailed {r : Run} {s : State} {st : Status} (hf : s.flow = .caller) (hb : st ≠ .busLost)
    (ht : st = .timeout → ∃ w, r.phase = .clock w) : Nears r (primFailed st r s) := by
  rw [primFailed_of_ne hb]
  exact .ended (finish_ended hf st r) (fun h => absurd h hb) ht

theorem nears_stepSucceeded {r r' : Run} {s : State} (hf : s.flow = .caller) (hl : r'.leftAfter < r.left) :
    Nears r (stepSucceeded r' s) := by
  unfold stepSucceeded
  split
  · exact .goes (r' := r'.nextStep) rfl (by show r'.nextStep.leftFrom < _; rw [Run.leftFrom_nextStep]; exact hl) rfl
  · exact .ended (st := .success) (finish_ended hf _ _) nofun nofun

/-- What the phases that sample the clock need (R10, R67). -/
structure Run.ClockGood (r : Run) (s : State) : Prop where
  sample : r.phase = .enter ∨ r.phase = .extend → s.ClockReady
  wait : (∃ w, r.phase = .clock w) → s.hw.lastNow ≤ s.nextTime

theorem Run.clockGood_of_calm {r : Run} (h : r.phase.calm = true) (s : State) : r.ClockGood s := by
  constructor
  · rintro (h' | h') <;> rw [h'] at h <;> cases h
  · rintro ⟨w, h'⟩; rw [h'] at h; cases h

theorem State.ClockReady.mkDeadline {s : State} (h : s.ClockReady) :
    ∃ dl, mkDeadline s.widths s.nextTime s.cfgTimeout = some dl := by
  unfold Machine.mkDeadline
  rcases h.deadline with hd | hd
  · rw [if_pos hd]; exact ⟨_, rfl⟩
  · split
    · exact ⟨_, rfl⟩
    · exact ⟨_, rfl⟩

theorem now_next {s : State} (h : s.hw.lastNow ≤ s.nextTime) : ∃ v, now s = .next (s.nextTime, v) :=
  ⟨_, now_eq_next.2 ⟨h, rfl⟩⟩

theorem left_byte {len idx k : Nat} (h : idx < len) (a : Nat) (hk : k ≤ 6) :
    7 * (len - (idx + 1)) + 1 + a + k < 7 * (len - idx) + 1 + a := by omega

/-- One action of a command in good order, in a prompt environment. -/
theorem action_nears {r : Run} {s : State} (hg : r.good s.widths = true) (hP : s.Prompt) (hf : s.flow = .caller)
    (hc : r.ClockGood s) : ∃ t, action r s = .next t ∧ t.Prompt ∧ Nears r t := by
  have hph := Run.phaseGood_of_good hg
  have hfit := (Ctx.fits_iff.1 (Run.fits_of_good hg)).1
  have hpos := r.leftAfter_pos
  unfold action
  split
  case h_1 hp =>
    obtain ⟨dl, hd⟩ := (hc.sample (.inl hp)).mkDeadline
    obtain ⟨v, hv⟩ := now_next (hc.sample (.inl hp)).forward
    refine ⟨_, sampleDeadline_eq_next.2 ⟨_, dl, hv, hd, rfl⟩, (hP.now hv).of_eq rfl rfl rfl, .goes rfl ?_ rfl⟩
    have hl : (r.withDeadline dl).leftFrom = r.leftFrom := by
      unfold Run.leftFrom Run.leftAfter Run.prim?
      rw [show (r.withDeadline dl).op = r.op from rfl, steps_withDeadline]
      rfl
    show (r.withDeadline dl).leftFrom < _
    rw [hl]
    simp only [Run.left, hp]
    omega
  case h_2 hp =>
    have hleft : r.left = r.leftFrom := by simp only [Run.left, hp]
    unfold beginStep
    split
    · exact ⟨_, rfl, hP.finish _ _, .ended (finish_ended hf _ _) nofun nofun⟩
    · rename_i w hw
      have hl := Run.leftFrom_of hw
      cases w <;> simp only [beginWait]
      case sendBuf =>
        split
        · rename_i hi
          obtain ⟨p, hm⟩ : ∃ p, memRead (bufferAddr r.ctx.ptr r.idx) s = .next p :=
            ⟨_, memRead_eq_next.2 ⟨bufferAddr_lt hfit hi, rfl⟩⟩
          rw [hm, andThen_next]
          obtain ⟨-, rfl⟩ := memRead_eq_next.1 hm
          refine ⟨_, rfl, hP.of_eq rfl rfl rfl, .goes rfl ?_ rfl⟩
          rw [hleft, hl]
          exact left_byte hi _ (by decide : 6 ≤ 6)
        · exact ⟨_, rfl, hP.stepSucceeded _, nears_stepSucceeded hf (by rw [hleft, hl]; simp only [Prim.left]; omega)⟩
      case recvBuf =>
        split
        · rename_i hi
          refine ⟨_, rfl, hP.of_eq rfl rfl rfl, .goes rfl ?_ rfl⟩
          rw [hleft, hl]
          exact left_byte hi _ (by decide : 4 ≤ 6)
        · exact ⟨_, rfl, hP.stepSucceeded _, nears_stepSucceeded hf (by rw [hleft, hl]; simp only [Prim.left]; omega)⟩
      all_goals
        refine ⟨_, rfl, hP.of_eq rfl rfl rfl, .goes rfl ?_ rfl⟩
        rw [hleft, hl]
        simp only [Run.left, Run.goto, Run.leftByte, WaitPrim.isBuffer, Prim.left, Bool.false_eq_true, if_false]
        show r.leftAfter + _ < _
        omega
    · rename_i hw
      exact ⟨_, rfl, (hP.of_eq (u := armControl .armStop s) rfl rfl rfl).stepSucceeded r,
        nears_stepSucceeded hf (by rw [hleft, Run.leftFrom_of hw]; simp only [Prim.left]; omega)⟩
    · rename_i hw
      exact ⟨_, rfl, (hP.of_eq (u := armControl .armGo s) rfl rfl rfl).stepSucceeded r,
        nears_stepSucceeded hf (by rw [hleft, Run.leftFrom_of hw]; simp only [Prim.left]; omega)⟩
  case h_3 hp =>
    refine ⟨_, rfl, hP.of_eq rfl rfl rfl, .goes rfl ?_ rfl⟩
    simp only [Run.left, hp, Run.goto]
    show r.leftByte _ + 5 < r.leftByte _ + 6
    omega
  case h_4 hp =>
    refine ⟨_, rfl, hP.of_eq rfl rfl rfl, .goes rfl ?_ rfl⟩
    simp only [Run.left, hp, Run.goto]
    show r.leftByte _ + 4 < r.leftByte _ + 5
    omega
  case h_5 w hp =>
    refine ⟨_, rfl, ?_, ?_⟩
    all_goals
      unfold pollEvent
      rw [if_pos (show (eventComplete s).1 = true from hP.eventNow)]
    · exact hP.eventComplete.of_eq rfl rfl rfl
    · refine .goes rfl ?_ rfl
      simp only [Run.left, hp, Run.goto]
      show r.leftByte _ + 3 < r.leftByte _ + 4
      omega
  case h_6 w hp =>
    obtain ⟨v, hv⟩ := now_next (hc.wait ⟨w, hp⟩)
    have hvf : v.flow = .caller := (calls_now hv).flow.trans hf
    unfold pollClock
    rw [hv, andThen_next]
    split
    · exact ⟨_, rfl, (hP.now hv).primFailed _ _, nears_primFailed hvf (by decide) fun _ => ⟨w, hp⟩⟩
    · refine ⟨_, rfl, (hP.now hv).of_eq rfl rfl rfl, .goes rfl ?_ rfl⟩
      simp only [Run.left, hp, Run.goto]
      show r.leftByte _ + 4 < r.leftByte _ + 5
      omega
  case h_7 w hp =>
    have hlb := r.leftByte_pos w
    have hleft : r.left = r.leftByte w + 3 := by simp only [Run.left, hp]
    simp only [Run.phaseGood, hp] at hph
    have hw := (Run.waitsIn_iff.1 hph).1
    refine ⟨_, rfl, ?_⟩
    have hnl := hP.not_lost w.ctx
    have hnt := masterStatus_ne_timeout w.ctx (s.classify (readStatus s).1)
    have hP' := hP.readStatus
    have hf' : (readStatus s).2.flow = .caller := hf
    unfold decodeNow
    generalize masterStatus w.ctx (s.classify (readStatus s).1) = st at hnl hnt
    cases st <;> simp only [afterDecode]
    case success =>
      cases w <;> simp only [waitSucceeded]
      case sendBuf =>
        exact ⟨hP'.of_eq rfl rfl rfl, .goes (r' := r.nextByte) rfl
          (by show r.nextByte.leftFrom < _; rw [Run.leftFrom_nextByte hw rfl, hleft]; omega) rfl⟩
      case recvB =>
        refine ⟨hP'.of_eq rfl rfl rfl, .goes rfl ?_ rfl⟩
        rw [hleft]
        show r.leftByte .recvB + 2 < _
        omega
      case recvBuf =>
        refine ⟨hP'.of_eq rfl rfl rfl, .goes rfl ?_ rfl⟩
        rw [hleft]
        show r.leftByte .recvBuf + 2 < _
        omega
      all_goals
        refine ⟨hP'.stepSucceeded _, nears_stepSucceeded hf' ?_⟩
        rw [hleft]
        show r.leftAfter < r.leftAfter + 3
        omega
    case busLost => exact absurd rfl hnl
    case timeout => exact absurd rfl hnt
    case addressNACK => exact ⟨hP'.of_eq rfl rfl rfl, .goes rfl (by rw [hleft]; show 1 < _; omega) rfl⟩
    case dataNACK => exact ⟨hP'.of_eq rfl rfl rfl, .goes rfl (by rw [hleft]; show 1 < _; omega) rfl⟩
    all_goals exact ⟨hP'.primFailed _ _, nears_primFailed hf' (by decide) nofun⟩
  case h_8 st hp =>
    simp only [Run.phaseGood, hp] at hph
    replace hph := of_decide_eq_true (Bool.and_eq_true_iff.1 hph).1
    exact ⟨_, rfl, (hP.of_eq (u := armControl .armStop s) rfl rfl rfl).primFailed st r, nears_primFailed hf
      (by rcases hph with rfl | rfl <;> decide) (by rcases hph with rfl | rfl <;> nofun)⟩
  case h_9 hp =>
    refine ⟨_, rfl, (hP.of_eq (u := (readData s).2) rfl rfl rfl).stepSucceeded _, nears_stepSucceeded hf ?_⟩
    simp only [Run.left, hp]
    show r.leftAfter < r.leftAfter + 2
    omega
  case h_10 hp =>
    refine ⟨_, rfl, hP.of_eq rfl rfl rfl, .goes rfl ?_ rfl⟩
    simp only [Run.left, hp, Run.goto]
    show r.leftByte _ + 1 < r.leftByte _ + 2
    omega
  case h_11 b hp =>
    simp only [Run.phaseGood, hp] at hph
    obtain ⟨hw, hi⟩ := Run.waitsIn_iff.1 hph
    obtain ⟨u, hm⟩ : ∃ u, memWrite (bufferAddr r.ctx.ptr r.idx) b s = .next u :=
      ⟨_, memWrite_eq_next.2 ⟨bufferAddr_lt hfit (hi rfl), rfl⟩⟩
    rw [hm, andThen_next]
    obtain ⟨-, rfl⟩ := memWrite_eq_next.1 hm
    refine ⟨_, rfl, hP.of_eq rfl rfl rfl, .goes (r' := r.nextByte) rfl ?_ rfl⟩
    simp only [Run.left, hp]
    show r.nextByte.leftFrom < _
    rw [Run.leftFrom_nextByte hw rfl]
    omega
  case h_12 hp =>
    exact ⟨_, rfl, (hP.of_eq (u := armControl .armGo s) rfl rfl rfl).finish _ r,
      .ended (st := .busLost) (finish_ended (by exact hf) _ r) (fun _ => hp) nofun⟩
  case h_13 hp =>
    obtain ⟨dl, hd⟩ := (hc.sample (.inr hp)).mkDeadline
    obtain ⟨v, hv⟩ := now_next (hc.sample (.inr hp)).forward
    refine ⟨_, sampleDeadline_eq_next.2 ⟨_, dl, hv, hd, rfl⟩, (hP.now hv).of_eq rfl rfl rfl,
      .goes (r' := (r.withDeadline dl).restart) rfl ?_ rfl⟩
    have hl : (r.withDeadline dl).restart.leftFrom = r.restart.leftFrom := by
      unfold Run.leftFrom Run.leftAfter Run.prim?
      rw [show (r.withDeadline dl).restart.op = r.op from rfl,
        show steps r.op (r.withDeadline dl).restart.ctx = steps r.op r.ctx from steps_withDeadline dl r]
      rfl
    show (r.withDeadline dl).restart.leftFrom < _
    rw [hl]
    simp only [Run.left, hp]
    omega

theorem Run.left_pos (r : Run) : 1 ≤ r.left := by
  have := r.leftAfter_pos
  have hf : ∀ r : Run, 1 ≤ r.leftFrom := by
    intro r; have := r.leftAfter_pos; unfold Run.leftFrom; split <;> omega
  have := hf r
  unfold Run.left
  split <;> omega

/-- A group of actions at least as long as what is left ends the command. -/
theorem advance_ends {n : Nat} {r : Run} {s : State} (hn : r.left ≤ n) (hs : s.seq = .run r) (hg : r.good s.widths = true) (hP : s.Prompt)
    (hf : s.flow = .caller) (hq : s.hw.interrupts = .always []) (hc : r.ClockGood s) :
    ∃ st t, advance n s = .next t ∧ t.Ended st ∧ (st = .busLost → r.phase = .abort) ∧
      (st = .timeout → ∃ w, r.phase = .clock w) := by
  induction n generalizing r s with
  | zero => have := r.left_pos; omega
  | succ n ih =>
    obtain ⟨t, ha, hP', hN⟩ := action_nears hg hP hf hc
    rw [advance_succ hs hq, ha, andThen_next]
    cases hN with
    | ended h hb ht => exact ⟨_, t, advance_idle h.seq n, h, hb, ht⟩
    | @goes r' h hl hcalm =>
      have hA := action_acts ha
      have hg' : r'.good t.widths = true := by
        have := action_good rfl hg ha
        rw [h] at this
        rw [hA.steady.widths]
        exact this
      obtain ⟨st, u, hu, he, hb, ht⟩ := ih (r := r') (by omega) h hg' hP' (hA.flow.trans hf)
        (hA.quiet.trans hq) (Run.clockGood_of_calm hcalm t)
      refine ⟨st, u, hu, he, fun h => ?_, fun h => ?_⟩
      · have := hb h; rw [this] at hcalm; cases hcalm
      · obtain ⟨w, this⟩ := ht h; rw [this] at hcalm; cases hcalm

theorem actionBudget_ge {r : Run} {s : State} (h : r.phaseGood = true) : r.left ≤ actionBudget r.ctx.len s := by
  have := Run.left_le h
  unfold actionBudget
  omega

/-- Going on with a running master command in a prompt environment ends it (log 1). -/
theorem resume_ends {r : Run} {s : State} (hs : s.seq = .run r) (hI : s.Inv) (hP : s.Prompt) (hf : s.flow = .caller)
    (hq : s.hw.interrupts = .always []) (hc : r.ClockGood s) :
    ∃ st t, resume r s = .next t ∧ t.Ended st ∧ (st = .busLost → r.phase = .abort) ∧
      (st = .timeout → ∃ w, r.phase = .clock w) :=
  advance_ends (actionBudget_ge (Run.phaseGood_of_good (hI.run hs))) hs (hI.run hs) hP hf hq hc

/-! ## Steps -/

theorem Steps.trans {s t u : State} (h : Steps s t) (k : Steps t u) : Steps s u := by
  induction h with
  | done => exact k
  | next h _ ih => exact .next h (ih k)

/-- With nothing issued that goes before it, a running command goes on (R266). -/
theorem step_resume {s : State} {r : Run} (hs : s.seq = .run r) (h : s.Undisturbed) : step s = resume r s := by
  unfold step
  cases hi : s.issues with
  | nil => rw [hs]
  | cons i rest => rw [hs]; simp only []; rw [if_neg]; rw [h i (by rw [hi]; rfl)]; decide

/-- What a running command's actions lead to is reached by steps, however many groups of actions it takes (log 1). -/
theorem Reaches.steps {n : Nat} {s t : State} (h : Reaches n s t) (hi : t.seq = .idle) (hu : s.Undisturbed) :
    Steps s t := by
  induction n using Nat.strong_induction_on generalizing s with
  | _ n ih =>
    cases hs : s.seq with
    | idle =>
      have := h 0
      rw [advance_idle hs] at this
      cases this
      exact .done
    | run r =>
      by_cases hb : n ≤ actionBudget r.ctx.len s
      · exact .next (by rw [step_resume hs hu]; exact h.advance hi hb) .done
      · obtain ⟨k, hk⟩ := Nat.exists_eq_add_of_lt (Nat.lt_of_not_le hb)
        have hpos : 0 < actionBudget r.ctx.len s := by unfold actionBudget; omega
        have h0 := h 0
        rw [hk, show actionBudget r.ctx.len s + k + 1 + 0 = actionBudget r.ctx.len s + (k + 1) by omega, advance_add] at h0
        obtain ⟨v, hv, -⟩ := andThen_eq_next.1 h0
        have hr : Reaches (k + 1) v t := fun j => by
          have := h j
          rw [hk, show actionBudget r.ctx.len s + k + 1 + j = actionBudget r.ctx.len s + (k + 1 + j) by omega, advance_add,
            hv, andThen_next] at this
          exact this
        refine .next (by rw [step_resume hs hu]; exact hv) (ih (k + 1) (by omega) hr ?_)
        unfold State.Undisturbed
        rw [(advance_steady hv).1.issues]
        exact hu

/-- A master command whose actions lead to its end comes to that end (log 1). -/
theorem completesIn_of_reaches {i : Instr} {op : MasterOp} {c : Ctx} {s t : State} {n : Nat} (hs : s.Ready)
    (he : exec i s = issueMaster op c s) (hc : c.fits s.widths = true) (h : Reaches n (s.setRun (.issue op c)) t)
    (hi : t.seq = .idle) (hn : s.hw.Settles → n ≤ actionBudget c.len s) : CompletesIn i s t := by
  rw [CompletesIn, he, issueMaster_ready hs hc]
  refine ⟨fun h' => h.advance hi (hn h'), fun hu => ?_⟩
  by_cases hb : n ≤ actionBudget c.len s
  · exact ⟨t, h.advance hi hb, .done⟩
  · obtain ⟨k, hk⟩ := Nat.exists_eq_add_of_lt (Nat.lt_of_not_le hb)
    have h0 := h 0
    rw [hk, show actionBudget c.len s + k + 1 + 0 = actionBudget c.len s + (k + 1) by omega, advance_add] at h0
    obtain ⟨v, hv, -⟩ := andThen_eq_next.1 h0
    refine ⟨v, hv, Reaches.steps (n := k + 1) (fun j => ?_) hi ?_⟩
    · have := h j
      rw [hk, show actionBudget c.len s + k + 1 + j = actionBudget c.len s + (k + 1 + j) by omega, advance_add, hv,
        andThen_next] at this
      exact this
    · unfold State.Undisturbed
      rw [(advance_steady hv).1.issues]
      exact hu

end Sys2Proof.Machine
end

