-- ==== Sys2Proof/Laws/Core.lean ====
section
/-! SUPPORT. Runs of the machine behind the host's interface. -/

namespace Sys2Proof.Machine

theorem core_run_zero (s : State) : core.run 0 s = .next s := Host.Core.run.eq_1 core s

/-- One step of a run that answers next. -/
theorem core_run_succ {k : Nat} {s u : State} (h : step s = .next u) : core.run (k + 1) s = core.run k u := by
  have hc : core.step s = .next u := h
  have e := Host.Core.run.eq_2 core s k
  rw [hc] at e
  exact e

end Sys2Proof.Machine
end

