-- ==== Sys2Proof/Laws/Decode.lean ====
section
/-! SUPPORT. The small lemmas of the decoder and the encoder: the fields of a packet, the fields of a packed command word, the
opcode codes, the operand codes (30_encoding.md R91 to R104). -/

namespace Sys2Proof

/-! ## The fields of a packet (R90, R93) -/

/-- The field in front of a packet, read back. -/
@[simp] theorem Packet.take_put (n v : Nat) (p : Packet) : (Packet.put n v p).take n = some (v % 2 ^ n, p) := by
  have hp : 0 < 2 ^ n := Nat.two_pow_pos n
  have hlt : v % 2 ^ n < 2 ^ n := Nat.mod_lt _ hp
  simp only [Packet.take, Packet.put, Nat.le_add_right, if_true, Nat.add_sub_cancel_left, Nat.add_mul_mod_self_left,
    Nat.mod_mod, Nat.add_mul_div_left _ _ hp, Nat.div_eq_of_lt hlt, Nat.zero_add]

/-- What a field that is taken is, and the packet after it. -/
theorem Packet.take_eq_some {n v : Nat} {p q : Packet} : p.take n = some (v, q) ↔
    n ≤ p.bits ∧ v = p.word % 2 ^ n ∧ q = { bits := p.bits - n, word := p.word / 2 ^ n } := by
  unfold Packet.take
  split
  · rename_i h
    simp only [Option.some.injEq, Prod.mk.injEq, h, true_and, eq_comm]
  · rename_i h
    exact ⟨nofun, fun h' => absurd h'.1 h⟩

/-- Two fields in front of each other are one. -/
theorem Packet.word_split (m n v : Nat) : v % 2 ^ (m + n) = v % 2 ^ m + 2 ^ m * (v / 2 ^ m % 2 ^ n) := by
  rw [Nat.pow_add, Nat.mod_mul]

/-- The `k`-th byte of a word put together from bytes. -/
theorem extract_append_low {n m : Nat} (x : BitVec n) (b : BitVec m) : (x ++ b).extractLsb' 0 m = b := by
  apply BitVec.eq_of_getLsbD_eq
  intro i hi
  simp only [BitVec.getLsbD_extractLsb', BitVec.getLsbD_append, Nat.zero_add, decide_eq_true hi, if_pos hi, Bool.true_and]

theorem extract_append_high {n m s k : Nat} (x : BitVec n) (b : BitVec m) (h : s = m + k) (l : Nat) :
    (x ++ b).extractLsb' s l = x.extractLsb' k l := by
  subst h
  apply BitVec.eq_of_getLsbD_eq
  intro i hi
  simp only [BitVec.getLsbD_extractLsb', BitVec.getLsbD_append, if_neg (show ¬ m + k + i < m by omega)]
  congr 2
  omega

theorem extract_whole {n : Nat} (x : BitVec n) : x.extractLsb' 0 n = x := by
  apply BitVec.eq_of_getLsbD_eq
  intro i hi
  simp only [BitVec.getLsbD_extractLsb', Nat.zero_add, decide_eq_true hi, Bool.true_and]

/-! ## The command word (R91) -/

@[simp] theorem cwOpcode_packWord (op : Byte) (f : CmdFields) : cwOpcode (packWord op f) = op :=
  extract_append_low _ _

theorem ofBool_getLsbD_zero (b : Bool) : (BitVec.ofBool b).getLsbD 0 = b := by cases b <;> rfl

theorem getLsbD_append_high {n m s k : Nat} (x : BitVec n) (b : BitVec m) (h : s = m + k) :
    (x ++ b).getLsbD s = x.getLsbD k := by
  subst h
  rw [BitVec.getLsbD_append, if_neg (by omega), Nat.add_sub_cancel_left]

theorem getLsbD_append_low {n m s : Nat} (x : BitVec n) (b : BitVec m) (h : s < m) :
    (x ++ b).getLsbD s = b.getLsbD s := by
  rw [BitVec.getLsbD_append, if_pos h]

@[simp] theorem cwStop_packWord (op : Byte) (f : CmdFields) : cwStop (packWord op f) = f.stop := by
  unfold cwStop packWord
  rw [getLsbD_append_high _ _ (show 8 = 8 + 0 from rfl), getLsbD_append_low _ _ (by decide), ofBool_getLsbD_zero]

@[simp] theorem cwRs_packWord (op : Byte) (f : CmdFields) : cwRs (packWord op f) = f.rs := by
  unfold cwRs packWord
  rw [getLsbD_append_high _ _ (show 9 = 8 + 1 from rfl), getLsbD_append_high _ _ (show 1 = 1 + 0 from rfl),
    getLsbD_append_low _ _ (by decide), ofBool_getLsbD_zero]

@[simp] theorem cwNodl_packWord (op : Byte) (f : CmdFields) : cwNodl (packWord op f) = f.nodl := by
  unfold cwNodl packWord
  rw [getLsbD_append_high _ _ (show 10 = 8 + 2 from rfl), getLsbD_append_high _ _ (show 2 = 1 + 1 from rfl),
    getLsbD_append_high _ _ (show 1 = 1 + 0 from rfl), getLsbD_append_low _ _ (by decide), ofBool_getLsbD_zero]

@[simp] theorem cwReservedLow_packWord (op : Byte) (f : CmdFields) : cwReservedLow (packWord op f) = 0#5 := by
  unfold cwReservedLow packWord
  rw [extract_append_high _ _ (show 11 = 8 + 3 from rfl), extract_append_high _ _ (show 3 = 1 + 2 from rfl),
    extract_append_high _ _ (show 2 = 1 + 1 from rfl), extract_append_high _ _ (show 1 = 1 + 0 from rfl),
    extract_append_low]

@[simp] theorem cwAddr_packWord (op : Byte) (f : CmdFields) : cwAddr (packWord op f) = f.addr := by
  unfold cwAddr packWord
  rw [extract_append_high _ _ (show 16 = 8 + 8 from rfl), extract_append_high _ _ (show 8 = 1 + 7 from rfl),
    extract_append_high _ _ (show 7 = 1 + 6 from rfl), extract_append_high _ _ (show 6 = 1 + 5 from rfl),
    extract_append_high _ _ (show 5 = 5 + 0 from rfl), extract_append_low]

@[simp] theorem cwReservedHigh_packWord (op : Byte) (f : CmdFields) : cwReservedHigh (packWord op f) = false := by
  unfold cwReservedHigh packWord
  rw [getLsbD_append_high _ _ (show 23 = 8 + 15 from rfl), getLsbD_append_high _ _ (show 15 = 1 + 14 from rfl),
    getLsbD_append_high _ _ (show 14 = 1 + 13 from rfl), getLsbD_append_high _ _ (show 13 = 1 + 12 from rfl),
    getLsbD_append_high _ _ (show 12 = 5 + 7 from rfl), getLsbD_append_high _ _ (show 7 = 7 + 0 from rfl),
    getLsbD_append_low _ _ (by decide)]
  rfl

@[simp] theorem cwImm_packWord (op : Byte) (f : CmdFields) : cwImm (packWord op f) = f.imm := by
  unfold cwImm packWord
  rw [extract_append_high _ _ (show 24 = 8 + 16 from rfl), extract_append_high _ _ (show 16 = 1 + 15 from rfl),
    extract_append_high _ _ (show 15 = 1 + 14 from rfl), extract_append_high _ _ (show 14 = 1 + 13 from rfl),
    extract_append_high _ _ (show 13 = 5 + 8 from rfl), extract_append_high _ _ (show 8 = 7 + 1 from rfl),
    extract_append_high _ _ (show 1 = 1 + 0 from rfl), extract_whole]

theorem cwFields_packWord (op : Byte) (f : CmdFields) : cwFields (packWord op f) = f := by
  simp only [cwFields, cwStop_packWord, cwRs_packWord, cwNodl_packWord, cwAddr_packWord, cwImm_packWord]

/-- A command word is its opcode and its fields, if its reserved bits are 0 (R91). -/
theorem packWord_fields (w : CmdWord) (h5 : cwReservedLow w = 0#5) (h1 : cwReservedHigh w = false) :
    packWord (cwOpcode w) (cwFields w) = w := by
  have h5' (i : Nat) (hi : i < 5) : w.getLsbD (11 + i) = false := by
    have := congrArg (fun v => v.getLsbD i) h5
    simpa [cwReservedLow, BitVec.getLsbD_extractLsb', hi] using this
  apply BitVec.eq_of_getLsbD_eq
  intro i hi
  simp only [packWord, cwFields, cwOpcode, cwStop, cwRs, cwNodl, cwAddr, cwImm, BitVec.getLsbD_append,
    BitVec.getLsbD_extractLsb', BitVec.getLsbD_ofBool]
  split_ifs
  · rw [decide_eq_true (by omega), Bool.true_and]; congr 1; omega
  · rw [decide_eq_true (by omega), Bool.true_and]; congr 1; omega
  · rw [decide_eq_true (by omega), Bool.true_and]; congr 1; omega
  · rw [decide_eq_true (by omega), Bool.true_and]; congr 1; omega
  · have := h5' (i - 11) (by omega)
    rw [show 11 + (i - 11) = i by omega] at this
    simp [this]
  · rw [decide_eq_true (by omega), Bool.true_and]; congr 1; omega
  · obtain rfl : i = 23 := by omega
    simpa [cwReservedHigh] using h1.symm
  · rw [decide_eq_true (by omega), Bool.true_and]; congr 1; omega

/-! ## Opcodes and operand codes (R92, R102, R104) -/

theorem ofCode_code (o : Opcode) : Opcode.ofCode o.code = some o := by cases o <;> decide

theorem ofCode_eq_some {b : Byte} {o : Opcode} : Opcode.ofCode b = some o ↔ b = o.code := by
  constructor
  · intro h
    have := List.find?_some h
    simpa using (of_decide_eq_true this).symm
  · rintro rfl; exact ofCode_code o

@[simp] theorem masterCtx_ofCode_code (c : MasterCtx) : MasterCtx.ofCode c.code = some c := by cases c <;> decide
@[simp] theorem blb_ofCode_code (c : BusLostBehaviour) : BusLostBehaviour.ofCode c.code = some c := by cases c <;> decide

theorem masterCtx_ofCode_eq_some {b : Byte} {c : MasterCtx} : MasterCtx.ofCode b = some c ↔ b = c.code := by
  constructor
  · intro h
    have := List.find?_some h
    simpa using (of_decide_eq_true this).symm
  · rintro rfl; exact masterCtx_ofCode_code c

theorem blb_ofCode_eq_some {b : Byte} {c : BusLostBehaviour} : BusLostBehaviour.ofCode b = some c ↔ b = c.code := by
  constructor
  · intro h
    have := List.find?_some h
    simpa using (of_decide_eq_true this).symm
  · rintro rfl; exact blb_ofCode_code c

/-! ## The whole packet -/

/-- A command word without reserved bits and unused fields (R91, R95). -/
theorem checkWord_eq_none {o : Opcode} {w : CmdWord} : checkWord o w = none ↔
    cwReservedLow w = 0#5 ∧ cwReservedHigh w = false ∧ o.uses.allows (cwFields w) = true := by
  unfold checkWord
  split_ifs with h1 h2
  · simp only [false_iff, not_and, Bool.not_eq_true]
    intro ha hb
    rcases h1 with h1 | h1
    · exact absurd ha h1
    · rw [hb] at h1; cases h1
  · simp only [not_or, not_not, Bool.not_eq_true] at h1
    simp [h1.1, h1.2, h2]
  · simp [h2]

/-- Extension words that their widths can hold (R93). -/
structure ExtWords.Fit (w : Widths) (x : ExtWords) : Prop where
  time : x.time < 2 ^ w.tw
  ptr : x.ptr < 2 ^ w.aw
  len : x.len < 2 ^ w.lw

/-- The extension words read back are those written, in each place that the format has (R93). -/
theorem takeExt_putExt (w : Widths) (f : Format) {x : ExtWords} (hx : x.Fit w) (rest : Packet) : ∃ y,
    takeExt w f (putExt w f x rest) = some (y, rest) ∧
      ((f = .d ∨ f = .t ∨ f = .db) → y.time = x.time) ∧ (Machine.hasBuffer f = true → y.ptr = x.ptr ∧ y.len = x.len) := by
  have ht := Nat.mod_eq_of_lt hx.time
  have hp := Nat.mod_eq_of_lt hx.ptr
  have hl := Nat.mod_eq_of_lt hx.len
  cases f <;>
    simp [takeExt, putExt, takeTime, takeBuffer, ht, hp, hl, Machine.hasBuffer, -Prod.exists, -existsAndEq]

/-- What extension words were read from (R93): they fit their widths, and the packet is them in front of the rest. -/
theorem takeExt_eq_some {w : Widths} {f : Format} {p rest : Packet} {x : ExtWords} (h : takeExt w f p = some (x, rest)) :
    x.Fit w ∧ p.bits + 32 = rest.bits + f.packetBits w ∧ rest.word = p.word / 2 ^ (f.packetBits w - 32) ∧
      p.word % 2 ^ (f.packetBits w - 32) = (putExt w f x .empty).word := by
  have pos (n : Nat) : 0 < 2 ^ n := Nat.two_pow_pos n
  have lt (v n : Nat) : v % 2 ^ n < 2 ^ n := Nat.mod_lt _ (pos n)
  cases f <;> simp only [takeExt, takeTime, takeBuffer, Option.some.injEq, Prod.mk.injEq, Option.map_eq_some_iff,
    Option.bind_eq_some_iff, Prod.exists, Packet.take_eq_some] at h
  · obtain ⟨rfl, rfl⟩ := h
    exact ⟨⟨pos _, pos _, pos _⟩, by simp [Format.packetBits], by simp [Format.packetBits],
      by simp [Format.packetBits, putExt, Packet.empty, Nat.mod_one]⟩
  · obtain ⟨v, q, ⟨hb, rfl, rfl⟩, rfl, rfl⟩ := h
    exact ⟨⟨lt _ _, pos _, pos _⟩, by simp [Format.packetBits]; omega, by simp [Format.packetBits],
      by simp [Format.packetBits, putExt, Packet.put, Packet.empty]⟩
  · obtain ⟨x', q, ⟨v, q', ⟨hb, rfl, rfl⟩, rfl, rfl⟩, a, q2, ⟨hb2, rfl, rfl⟩, l, q3, ⟨hb3, rfl, rfl⟩, rfl, rfl⟩ := h
    refine ⟨⟨lt _ _, lt _ _, lt _ _⟩, ?_, ?_, ?_⟩
    · simp only at hb2 hb3; simp only [Format.packetBits]; omega
    · simp [Format.packetBits, Nat.pow_add, Nat.div_div_eq_div_mul, Nat.mul_assoc, show 32 + w.tw + w.aw + w.lw - 32 = w.tw + (w.aw + w.lw) by omega]
    · simp [Format.packetBits, putExt, Packet.put, Packet.empty, show 32 + w.tw + w.aw + w.lw - 32 = w.tw + (w.aw + w.lw) by omega,
        Packet.word_split]
  · obtain ⟨a, q2, ⟨hb2, rfl, rfl⟩, l, q3, ⟨hb3, rfl, rfl⟩, rfl, rfl⟩ := h
    refine ⟨⟨pos _, lt _ _, lt _ _⟩, ?_, ?_, ?_⟩
    · simp only at hb3; simp only [Format.packetBits]; omega
    · simp [Format.packetBits, Nat.pow_add, Nat.div_div_eq_div_mul, show 32 + w.aw + w.lw - 32 = w.aw + w.lw by omega]
    · simp [Format.packetBits, putExt, Packet.put, Packet.empty, show 32 + w.aw + w.lw - 32 = w.aw + w.lw by omega,
        Packet.word_split]
  · obtain ⟨v, q, ⟨hb, rfl, rfl⟩, rfl, rfl⟩ := h
    exact ⟨⟨lt _ _, pos _, pos _⟩, by simp [Format.packetBits]; omega, by simp [Format.packetBits],
      by simp [Format.packetBits, putExt, Packet.put, Packet.empty]⟩

/-- The command word of an encoded command has no reserved bit and no unused field. -/
theorem checkWord_encode (i : Instr) : checkWord i.opcode (packWord i.opcode.code i.fields) = none := by
  rw [checkWord_eq_none, cwFields_packWord]
  refine ⟨cwReservedLow_packWord .., cwReservedHigh_packWord .., ?_⟩
  cases i <;> simp [Instr.opcode, Instr.fields, Opcode.uses, FieldUse.allows, CmdFields.zero]

/-- Everything that a decoded packet is: a word of an assigned opcode without reserved bits and unused fields, the extension
words of its format, operands that a command admits (R90 to R95). -/
theorem decode_cases {w : Widths} {p rest : Packet} {i : Instr} (h : decode w p = .ok (i, rest)) : ∃ (o : Opcode)
    (x : ExtWords), 32 ≤ p.bits ∧ cwOpcode (BitVec.ofNat 32 p.word) = o.code ∧
      checkWord o (BitVec.ofNat 32 p.word) = none ∧
      takeExt w o.format { bits := p.bits - 32, word := p.word / 2 ^ 32 } = some (x, rest) ∧
      assemble w o (cwFields (BitVec.ofNat 32 p.word)) x = .ok i := by
  have hmod (v : Nat) : BitVec.ofNat 32 (v % 2 ^ 32) = BitVec.ofNat 32 v := by
    apply BitVec.eq_of_toNat_eq; simp
  unfold decode at h
  split at h
  · cases h
  · rename_i cw ext hcw
    obtain ⟨hb, rfl, rfl⟩ := Packet.take_eq_some.1 hcw
    rw [hmod] at h
    split at h
    · cases h
    · rename_i o ho
      split at h
      · cases h
      · rename_i hc
        split at h
        · cases h
        · rename_i x tl' hx
          cases ha : assemble w o (cwFields (BitVec.ofNat 32 p.word)) x with
          | error e => rw [ha] at h; cases h
          | ok j => rw [ha] at h; cases h; exact ⟨o, x, hb, ofCode_eq_some.1 ho, hc, hx, ha⟩

/-- A packet put together from its words decodes to what its operands assemble to. -/
theorem decode_words (w : Widths) (cw : CmdWord) (o : Opcode) {x : ExtWords} (hx : x.Fit w) (rest : Packet)
    (ho : cwOpcode cw = o.code) :
    decode w (.put 32 cw.toNat (putExt w o.format x rest)) =
      match checkWord o cw with
      | some e => .error e
      | none => (assemble w o (cwFields cw) x).map fun i => (i, rest) := by
  unfold decode
  rw [Packet.take_put]
  have hcw : BitVec.ofNat 32 (cw.toNat % 2 ^ 32) = cw := by
    rw [Nat.mod_eq_of_lt cw.isLt, BitVec.ofNat_toNat, BitVec.setWidth_eq]
  simp only [hcw, ofCode_eq_some.2 ho]
  cases hc : checkWord o cw with
  | some e => rfl
  | none =>
    obtain ⟨y, hy, ht, hb⟩ := takeExt_putExt w o.format hx rest
    simp only [hy]
    have ha : assemble w o (cwFields cw) y = assemble w o (cwFields cw) x := by
      cases o <;> simp_all [assemble, Opcode.format, withBuffer, Machine.hasBuffer]
    rw [ha]

/-- The command that operands assemble to has their opcode and is well formed. -/
theorem assemble_ok {w : Widths} {o : Opcode} {f : CmdFields} {x : ExtWords} {i : Instr}
    (h : assemble w o f x = .ok i) (hx : x.Fit w) : i.opcode = o ∧ i.wellFormed w = true := by
  have hd : (deadlineOperand f.nodl x.time).fits w = true := by
    cases f.nodl <;> simp [deadlineOperand, Deadline.fits, timeFits, hx.time]
  cases o <;> simp only [assemble, withBuffer] at h <;> (try split at h) <;> cases h <;>
    simp_all [Instr.opcode, Instr.wellFormed, timeFits, hx.time]

/-- It has the same fields, if no unused one is set, and the same extension words, but for a `DLV` that is ignored. -/
theorem assemble_fields {w : Widths} {o : Opcode} {f : CmdFields} {x : ExtWords} {i : Instr}
    (h : assemble w o f x = .ok i) (hu : o.uses.allows f = true) :
    i.fields = f ∧ (f.nodl = false → putExt w o.format i.ext .empty = putExt w o.format x .empty) ∧
      (Machine.hasBuffer o.format = true → i.ext.ptr = x.ptr ∧ i.ext.len = x.len) := by
  obtain ⟨stop, rs, nodl, addr, imm⟩ := f
  cases o <;> simp only [assemble, withBuffer] at h <;> (try split at h) <;> cases h <;> cases nodl <;>
    simp_all [Instr.fields, Instr.ext, Opcode.uses, FieldUse.allows, CmdFields.zero, putExt,
      Opcode.format, deadlineOperand, Deadline.isNone, Deadline.dlv, masterCtx_ofCode_eq_some,
      blb_ofCode_eq_some, Machine.hasBuffer]

/-- The extension words of a well-formed command fit their widths. -/
theorem ext_fit {w : Widths} {i : Instr} (h : i.wellFormed w = true) : i.ext.Fit w := by
  have pos (n : Nat) : 0 < 2 ^ n := Nat.two_pow_pos n
  have hd {dl : Deadline} (h : dl.fits w = true) : dl.dlv < 2 ^ w.tw := by
    cases dl with
    | noDeadline => exact pos _
    | atTime d => simpa [Deadline.fits, timeFits, Deadline.dlv] using h
  cases i <;> simp only [Instr.wellFormed, bufferFits, timeFits, Bool.and_eq_true, decide_eq_true_eq] at h <;>
    constructor <;> simp [Instr.ext, h] <;> first | exact pos _ | exact hd h | exact hd h.2

/-- Two command words are the same when all their fields are. -/
theorem cmdWord_ext {v w : CmdWord} (h0 : cwOpcode v = cwOpcode w) (h1 : cwStop v = cwStop w) (h2 : cwRs v = cwRs w)
    (h3 : cwNodl v = cwNodl w) (h4 : cwReservedLow v = cwReservedLow w) (h5 : cwAddr v = cwAddr w)
    (h6 : cwReservedHigh v = cwReservedHigh w) (h7 : cwImm v = cwImm w) : v = w := by
  have part : ∀ {s l : Nat}, v.extractLsb' s l = w.extractLsb' s l → ∀ i, s ≤ i → i < s + l → v.getLsbD i = w.getLsbD i := by
    intro s l h i hs hl
    have := congrArg (fun x => x.getLsbD (i - s)) h
    simpa only [BitVec.getLsbD_extractLsb', decide_eq_true (show i - s < l by omega), Bool.true_and,
      show s + (i - s) = i by omega] using this
  apply BitVec.eq_of_getLsbD_eq
  intro i hi
  rcases (by omega : i < 8 ∨ i = 8 ∨ i = 9 ∨ i = 10 ∨ (11 ≤ i ∧ i < 16) ∨ (16 ≤ i ∧ i < 23) ∨ i = 23 ∨ 24 ≤ i) with
    h | rfl | rfl | rfl | h | h | rfl | h
  · exact part h0 i (by omega) (by omega)
  · exact h1
  · exact h2
  · exact h3
  · exact part h4 i h.1 h.2
  · exact part h5 i h.1 h.2
  · exact h6
  · exact part h7 i h (by omega)

theorem extractLsb'_and {n : Nat} (x y : BitVec n) (s l : Nat) :
    (x &&& y).extractLsb' s l = x.extractLsb' s l &&& y.extractLsb' s l := by
  apply BitVec.eq_of_getLsbD_eq
  intro i hi
  simp only [BitVec.getLsbD_extractLsb', BitVec.getLsbD_and, decide_eq_true hi, Bool.true_and]

theorem and_ones8 (x : BitVec 8) : x &&& 0xFF#8 = x := BitVec.and_allOnes (x := x)
theorem and_ones7 (x : BitVec 7) : x &&& 0x7F#7 = x := BitVec.and_allOnes (x := x)
theorem and_ones5 (x : BitVec 5) : x &&& 0x1F#5 = x := BitVec.and_allOnes (x := x)

/-- Selecting a row, field by field. -/
theorem mask_fields (w m p : CmdWord) :
    w &&& m = p ↔ cwOpcode w &&& cwOpcode m = cwOpcode p ∧
      (cwStop w && cwStop m) = cwStop p ∧ (cwRs w && cwRs m) = cwRs p ∧ (cwNodl w && cwNodl m) = cwNodl p ∧
      cwReservedLow w &&& cwReservedLow m = cwReservedLow p ∧ cwAddr w &&& cwAddr m = cwAddr p ∧
      (cwReservedHigh w && cwReservedHigh m) = cwReservedHigh p ∧ cwImm w &&& cwImm m = cwImm p := by
  have s : ∀ k, (w &&& m).getLsbD k = (w.getLsbD k && m.getLsbD k) := fun k => BitVec.getLsbD_and
  constructor
  · intro h
    rw [← h]
    exact ⟨(extractLsb'_and _ _ _ _).symm, (s _).symm, (s _).symm, (s _).symm, (extractLsb'_and _ _ _ _).symm,
      (extractLsb'_and _ _ _ _).symm, (s _).symm, (extractLsb'_and _ _ _ _).symm⟩
  · rintro ⟨h0, h1, h2, h3, h4, h5, h6, h7⟩
    exact cmdWord_ext ((extractLsb'_and _ _ _ _).trans h0) ((s _).trans h1) ((s _).trans h2) ((s _).trans h3)
      ((extractLsb'_and _ _ _ _).trans h4) ((extractLsb'_and _ _ _ _).trans h5) ((s _).trans h6)
      ((extractLsb'_and _ _ _ _).trans h7)

/-- The fields of a row's mask: a bit the command does not use is looked at. -/
theorem opcode_mask_fields (o : Opcode) :
    cwOpcode o.mask = 0xFF#8 ∧ cwReservedLow o.mask = 0x1F#5 ∧ cwReservedHigh o.mask = true ∧
      cwStop o.mask = (!o.uses.stop) ∧ cwRs o.mask = (!o.uses.rs) ∧ cwNodl o.mask = (!o.uses.nodl) ∧
      cwAddr o.mask = (if o.uses.addr then 0#7 else 0x7F#7) ∧ cwImm o.mask = (if o.uses.imm then 0#8 else 0xFF#8) := by
  cases o <;> exact ⟨rfl, rfl, rfl, rfl, rfl, rfl, rfl, rfl⟩

/-- The fields of a row's pattern: the opcode byte, and 0 elsewhere. -/
theorem opcode_pattern_fields (o : Opcode) :
    cwOpcode o.pattern = o.code ∧ cwStop o.pattern = false ∧ cwRs o.pattern = false ∧ cwNodl o.pattern = false ∧
      cwReservedLow o.pattern = 0#5 ∧ cwAddr o.pattern = 0#7 ∧ cwReservedHigh o.pattern = false ∧
      cwImm o.pattern = 0#8 := by
  cases o <;> exact ⟨rfl, rfl, rfl, rfl, rfl, rfl, rfl, rfl⟩

/-- A word selects a row of the table exactly when its opcode byte is the row's, and every reserved bit and every field that
the command does not use is 0 (R91, R92). -/
theorem mask_selects (w : CmdWord) (o : Opcode) :
    w &&& o.mask = o.pattern ↔ cwOpcode w = o.code ∧ checkWord o w = none := by
  obtain ⟨f0, f1, f2, f3, f4, f5, f6, f7⟩ := opcode_mask_fields o
  obtain ⟨p0, p1, p2, p3, p4, p5, p6, p7⟩ := opcode_pattern_fields o
  rw [mask_fields, f0, f1, f2, f3, f4, f5, f6, f7, p0, p1, p2, p3, p4, p5, p6, p7, checkWord_eq_none, and_ones8, and_ones5]
  have bit : ∀ x u : Bool, ((x && !u) = false) = ((u || !x) = true) := by decide
  have byte : ∀ (x : BitVec 8) (u : Bool), ((x &&& if u = true then 0#8 else 0xFF#8) = 0#8) = ((u || x == 0#8) = true) := by
    rintro x (_ | _) <;> simp [and_ones8]
  have seven : ∀ (x : BitVec 7) (u : Bool), ((x &&& if u = true then 0#7 else 0x7F#7) = 0#7) = ((u || x == 0#7) = true) := by
    rintro x (_ | _) <;> simp [and_ones7]
  simp only [FieldUse.allows, cwFields, bit, byte, seven, Bool.and_true, Bool.and_eq_true]
  tauto

end Sys2Proof
end

