-- ==== Sys2Proof/Laws/PerInstr.lean ====
section
/-! SUPPORT. The statements made per command: the length of its packet is a function of its opcode alone, and its opcode byte is
that opcode (30_encoding.md R91, R92, R98). -/

namespace Sys2Proof.Laws.PacketLength

/-- At all widths the packet is as long as the format of the opcode says, and `CW[7:0]` is the opcode (R92, R98). -/
def Statement (i : Instr) : Prop :=
  ∀ w : Widths, (encode w i).bits = i.opcode.format.packetBits w ∧ BitVec.ofNat 8 (encode w i).word = i.opcode.code

/-- `CW[7:0]` of every packet is its opcode. -/
theorem opcode_encode (w : Widths) (i : Instr) : BitVec.ofNat 8 (encode w i).word = i.opcode.code := by
  have h : cwOpcode i.cmdWord = i.opcode.code := cwOpcode_packWord _ _
  rw [← h]
  apply BitVec.eq_of_toNat_eq
  show (i.cmdWord.toNat % 2 ^ 32 + 2 ^ 32 * _) % 2 ^ 8 = _
  rw [cwOpcode, BitVec.extractLsb'_toNat, Nat.shiftRight_zero]
  omega

/-- The bits of a packet, by its format. -/
theorem statement_of_bits (i : Instr) (h : ∀ w : Widths, (encode w i).bits = i.opcode.format.packetBits w) : Statement i :=
  fun w => ⟨h w, opcode_encode w i⟩

/-- The fields of a format add up to its length. -/
theorem bits_encode (w : Widths) (i : Instr) : (encode w i).bits = i.opcode.format.packetBits w := by
  show 32 + (putExt w i.opcode.format i.ext .empty).bits = _
  cases i.opcode.format <;> simp only [putExt, Packet.put, Packet.empty, Format.packetBits] <;> omega

theorem stMaster (ctx : MasterCtx) : Statement (.stMaster ctx) := statement_of_bits _ fun w => bits_encode w _
theorem stBasic : Statement .stBasic := statement_of_bits _ fun w => bits_encode w _
theorem stDetail : Statement .stDetail := statement_of_bits _ fun w => bits_encode w _
theorem sigStart (dl : Deadline) : Statement (.sigStart dl) := statement_of_bits _ fun w => bits_encode w _
theorem sigStopStart (dl : Deadline) : Statement (.sigStopStart dl) := statement_of_bits _ fun w => bits_encode w _
theorem sigStop : Statement .sigStop := statement_of_bits _ fun w => bits_encode w _
theorem addrW (addr : BitVec 7) (dl : Deadline) : Statement (.addrW addr dl) := statement_of_bits _ fun w => bits_encode w _
theorem addrR (addr : BitVec 7) (dl : Deadline) : Statement (.addrR addr dl) := statement_of_bits _ fun w => bits_encode w _
theorem sendB (b : Byte) (dl : Deadline) : Statement (.sendB b dl) := statement_of_bits _ fun w => bits_encode w _
theorem sendBuf (ptr : Addr) (len : Len) (dl : Deadline) : Statement (.sendBuf ptr len dl) := statement_of_bits _ fun w => bits_encode w _
theorem recvB (dl : Deadline) : Statement (.recvB dl) := statement_of_bits _ fun w => bits_encode w _
theorem recvBuf (ptr : Addr) (len : Len) (dl : Deadline) : Statement (.recvBuf ptr len dl) := statement_of_bits _ fun w => bits_encode w _
theorem clrEvent : Statement .clrEvent := statement_of_bits _ fun w => bits_encode w _
theorem mSendB (addr : BitVec 7) (b : Byte) (stop : Bool) : Statement (.mSendB addr b stop) := statement_of_bits _ fun w => bits_encode w _
theorem mSendBuf (addr : BitVec 7) (ptr : Addr) (len : Len) (stop : Bool) : Statement (.mSendBuf addr ptr len stop) := statement_of_bits _ fun w => bits_encode w _
theorem mRecvB (addr : BitVec 7) (stop : Bool) : Statement (.mRecvB addr stop) := statement_of_bits _ fun w => bits_encode w _
theorem mRecvBuf (addr : BitVec 7) (ptr : Addr) (len : Len) (stop : Bool) : Statement (.mRecvBuf addr ptr len stop) := statement_of_bits _ fun w => bits_encode w _
theorem mRecvReg (addr : BitVec 7) (b : Byte) (ptr : Addr) (len : Len) (rs : Bool) (stop : Bool) : Statement (.mRecvReg addr b ptr len rs stop) := statement_of_bits _ fun w => bits_encode w _
theorem rxEvent : Statement .rxEvent := statement_of_bits _ fun w => bits_encode w _
theorem txEvent : Statement .txEvent := statement_of_bits _ fun w => bits_encode w _
theorem rxNext : Statement .rxNext := statement_of_bits _ fun w => bits_encode w _
theorem rxBind (ptr : Addr) (len : Len) : Statement (.rxBind ptr len) := statement_of_bits _ fun w => bits_encode w _
theorem rxAvail : Statement .rxAvail := statement_of_bits _ fun w => bits_encode w _
theorem txBind (ptr : Addr) (len : Len) : Statement (.txBind ptr len) := statement_of_bits _ fun w => bits_encode w _
theorem txAgain : Statement .txAgain := statement_of_bits _ fun w => bits_encode w _
theorem txDone : Statement .txDone := statement_of_bits _ fun w => bits_encode w _
theorem setTimeout (time : Time) : Statement (.setTimeout time) := statement_of_bits _ fun w => bits_encode w _
theorem setBlb (blb : BusLostBehaviour) : Statement (.setBlb blb) := statement_of_bits _ fun w => bits_encode w _

end Sys2Proof.Laws.PacketLength
end

