-- ==== Sys2Proof/Tests/Slice0.lean ====
section
/-! SUPPORT. Tests: the smoke test of the well-formedness checks, decoding, one step of each command on the spec's own vectors
(95_test_vectors.md), and a witness for every statement that has hypotheses. -/

namespace Sys2Proof.Tests

open Sys2Proof.Machine

/-! ## Well-formedness: each check refuses an ill-formed term and accepts the boundary (R7, R20, R36, R93, R95) -/

theorem test_wf_send_buf : Instr.wellFormed .default (.sendBuf 0xFFFF 2 .noDeadline) = false := by decide
theorem test_wf_send_buf_deadline : Instr.wellFormed .default (.sendBuf 0 0 (.atTime 0x100000000)) = false := by decide
theorem test_wf_recv_buf : Instr.wellFormed .default (.recvBuf 0xFFFF 2 .noDeadline) = false := by decide
theorem test_wf_m_send_buf : Instr.wellFormed .default (.mSendBuf 0#7 0xFFFF 2 true) = false := by decide
theorem test_wf_m_recv_buf : Instr.wellFormed .default (.mRecvBuf 0#7 0xFFFF 2 true) = false := by decide
theorem test_wf_m_recv_reg : Instr.wellFormed .default (.mRecvReg 0#7 0#8 0xFFFF 2 true true) = false := by decide
theorem test_wf_rx_bind : Instr.wellFormed .default (.rxBind 0xFFFF 2) = false := by decide
theorem test_wf_tx_bind : Instr.wellFormed .default (.txBind 0xFFFF 2) = false := by decide
/-- A reference of more than `AW` bits, and a length of more than `LW` bits. -/
theorem test_wf_operand_widths :
    Instr.wellFormed .default (.rxBind 0x10000 0) = false ∧
    Instr.wellFormed { Widths.default with aw := 17 } (.rxBind 0 0x10000) = false ∧
    Instr.wellFormed { Widths.default with aw := 17, lw := 17 } (.rxBind 0 0x10000) = true := by decide
/-- A deadline and a timeout of more than `TW` bits. -/
theorem test_wf_times :
    [Instr.sigStart (.atTime 0x100000000), .sigStopStart (.atTime 0x100000000), .addrW 0#7 (.atTime 0x100000000),
      .addrR 0#7 (.atTime 0x100000000), .sendB 0#8 (.atTime 0x100000000), .recvB (.atTime 0x100000000),
      .recvBuf 0 0 (.atTime 0x100000000), .setTimeout 0x100000000].map (Instr.wellFormed .default) =
      [false, false, false, false, false, false, false, false] := by decide
theorem test_wf_boundary :
    Instr.wellFormed .default (.rxBind 0xFFFF 1) = true ∧ Instr.wellFormed .default (.setTimeout 0xFFFFFFFF) = true ∧
    Instr.wellFormed .default (.sendBuf 0 0xFFFF (.atTime 0xFFFFFFFF)) = true := by decide

/-! ## Decoding: the packets of V1, as numbers in the numbering of the opcode table, at the default widths -/

/-- The packet is the whole packet of this command. -/
def decodesTo (p : Packet) (i : Instr) : Bool :=
  match decode .default p with
  | .ok (j, rest) => decide (j = i) && decide (rest = .empty)
  | .error _ => false

/-- The packet is illegal. -/
def illegal (p : Packet) (e : DecodeError) : Bool :=
  match decode .default p with
  | .ok _ => false
  | .error d => decide (d = e)

theorem test_decode_st_master :
    decodesTo ⟨32, 0x03000001⟩
      (.stMaster .send) = true := by decide
theorem test_decode_st_basic :
    decodesTo ⟨32, 0x00000002⟩
      (.stBasic) = true := by decide
theorem test_decode_st_detail :
    decodesTo ⟨32, 0x00000003⟩
      (.stDetail) = true := by decide
theorem test_decode_sig_start :
    decodesTo ⟨64, 0x000000C8_00000010⟩
      (.sigStart (.atTime 200)) = true := by decide
theorem test_decode_sig_start_none :
    decodesTo ⟨64, 0xDEADBEEF_00000410⟩
      (.sigStart .noDeadline) = true := by decide
theorem test_decode_sig_stopstart :
    decodesTo ⟨64, 0x000000C8_00000011⟩
      (.sigStopStart (.atTime 200)) = true := by decide
theorem test_decode_sig_stop :
    decodesTo ⟨32, 0x00000012⟩
      (.sigStop) = true := by decide
theorem test_decode_addr_w :
    decodesTo ⟨64, 0x000001F4_00500013⟩
      (.addrW 0x50#7 (.atTime 500)) = true := by decide
theorem test_decode_addr_r :
    decodesTo ⟨64, 0x12345678_007F0414⟩
      (.addrR 0x7F#7 .noDeadline) = true := by decide
theorem test_decode_send_b :
    decodesTo ⟨64, 0x000001F4_3B000015⟩
      (.sendB 0x3B#8 (.atTime 500)) = true := by decide
theorem test_decode_send_buf :
    decodesTo ⟨96, 0x0003_0100_000001F4_00000016⟩
      (.sendBuf 0x0100 3 (.atTime 500)) = true := by decide
theorem test_decode_recv_b :
    decodesTo ⟨64, 0x000001F4_00000017⟩
      (.recvB (.atTime 500)) = true := by decide
theorem test_decode_recv_buf :
    decodesTo ⟨96, 0x0003_0200_00000000_00000418⟩
      (.recvBuf 0x0200 3 .noDeadline) = true := by decide
theorem test_decode_clr_event :
    decodesTo ⟨32, 0x00000019⟩
      (.clrEvent) = true := by decide
theorem test_decode_m_send_b :
    decodesTo ⟨32, 0x07500120⟩
      (.mSendB 0x50#7 0x07#8 true) = true := by decide
theorem test_decode_m_send_buf :
    decodesTo ⟨64, 0x00020100_00500121⟩
      (.mSendBuf 0x50#7 0x0100 2 true) = true := by decide
theorem test_decode_m_recv_b :
    decodesTo ⟨32, 0x00500122⟩
      (.mRecvB 0x50#7 true) = true := by decide
theorem test_decode_m_recv_buf :
    decodesTo ⟨64, 0x00020200_00500023⟩
      (.mRecvBuf 0x50#7 0x0200 2 false) = true := by decide
theorem test_decode_m_recv_reg :
    decodesTo ⟨64, 0x00020200_3B680324⟩
      (.mRecvReg 0x68#7 0x3B#8 0x0200 2 true true) = true := by decide
theorem test_decode_m_recv_reg_off :
    decodesTo ⟨64, 0x00010200_3B680024⟩
      (.mRecvReg 0x68#7 0x3B#8 0x0200 1 false false) = true := by decide
theorem test_decode_rx_event :
    decodesTo ⟨32, 0x00000030⟩
      (.rxEvent) = true := by decide
theorem test_decode_tx_event :
    decodesTo ⟨32, 0x00000031⟩
      (.txEvent) = true := by decide
theorem test_decode_rx_next :
    decodesTo ⟨32, 0x00000032⟩
      (.rxNext) = true := by decide
theorem test_decode_rx_bind :
    decodesTo ⟨64, 0x00030300_00000033⟩
      (.rxBind 0x0300 3) = true := by decide
theorem test_decode_rx_avail :
    decodesTo ⟨32, 0x00000034⟩
      (.rxAvail) = true := by decide
theorem test_decode_tx_bind :
    decodesTo ⟨64, 0x00020400_00000035⟩
      (.txBind 0x0400 2) = true := by decide
theorem test_decode_tx_again :
    decodesTo ⟨32, 0x00000036⟩
      (.txAgain) = true := by decide
theorem test_decode_tx_done :
    decodesTo ⟨32, 0x00000037⟩
      (.txDone) = true := by decide
theorem test_decode_set_timeout :
    decodesTo ⟨64, 0x000003E8_00000040⟩
      (.setTimeout 1000) = true := by decide
theorem test_decode_set_blb :
    decodesTo ⟨32, 0x02000041⟩
      (.setBlb .retryExtendingTimeout) = true := by decide

/-- The illegal packets of V2. -/
theorem test_decode_illegal :
    illegal ⟨32, 0x00000000⟩ .unassignedOpcode = true ∧
    illegal ⟨32, 0x00000025⟩ .unassignedOpcode = true ∧
    illegal ⟨32, 0x000000FF⟩ .unassignedOpcode = true ∧
    illegal ⟨64, 0x000000C8_00000810⟩ .reservedBit = true ∧
    illegal ⟨64, 0x000001F4_00800013⟩ .reservedBit = true ∧
    illegal ⟨32, 0x00000112⟩ .unusedField = true ∧
    illegal ⟨64, 0x000000C8_00000210⟩ .unusedField = true ∧
    illegal ⟨64, 0x000001F4_01000013⟩ .unusedField = true ∧
    illegal ⟨64, 0x000001F4_00500015⟩ .unusedField = true ∧
    illegal ⟨32, 0x00500222⟩ .unusedField = true ∧
    illegal ⟨32, 0x00000420⟩ .unusedField = true ∧
    illegal ⟨32, 0x05000001⟩ .badContext = true ∧
    illegal ⟨32, 0x03000041⟩ .badPolicy = true ∧
    illegal ⟨64, 0x0002FFFF_00000033⟩ .bufferPastTop = true := by decide

/-- The legal boundary of V2. -/
theorem test_decode_boundary :
    decodesTo ⟨64, 0x0001FFFF_00000033⟩ (.rxBind 0xFFFF 1) = true ∧
    decodesTo ⟨64, 0x0000FFFF_00000033⟩ (.rxBind 0xFFFF 0) = true := by decide

/-- Other widths: `TW` 16, `AW` 8, `LW` 4. The extension words follow the command word in the order `DLV`, `BUF` (R93). -/
theorem test_decode_widths :
    decode { tw := 16, rcw := 5, aw := 8, lw := 4 } ⟨60, 0x3_A0_01F4_00000016⟩ = .ok (.sendBuf 0xA0 3 (.atTime 500), .empty) ∧
    decode { tw := 16, rcw := 5, aw := 8, lw := 4 } ⟨44, 0x2_FF_00000033⟩ = .error .bufferPastTop ∧
    decode { tw := 16, rcw := 5, aw := 8, lw := 4 } ⟨44, 0x1_FF_00000033⟩ = .ok (.rxBind 0xFF 1, .empty) := ⟨rfl, rfl, rfl⟩

/-- A packet that ends in its last word, and one with bits beyond it (log 13). -/
theorem test_decode_length :
    illegal ⟨63, 0x000003E8_00000040⟩ .truncated = true ∧
    decode .default ⟨40, 0xAB_00000012⟩ = .ok (.sigStop, ⟨8, 0xAB⟩) := ⟨by decide, rfl⟩

/-- The table's word of `SET_BLB`, whose bits the host numbers. -/
theorem test_decode_table_word : decodeTableWord 32 0x02000041 = some (.setBlb .retryExtendingTimeout) := by decide

/-- V3: the address byte. -/
theorem test_addr_byte :
    addrByte 0x68#7 false = 0xD0#8 ∧ addrByte 0x68#7 true = 0xD1#8 ∧ addrByte 0x00#7 true = 0x01#8 ∧
    addrByte 0x7F#7 false = 0xFE#8 := by decide

/-- U3: the flags in the typical control register, bits 7 to 4; other positions by the parameter. -/
theorem test_ctrl_bits :
    (armControl (.armRx true) State.reset).hw.ctrl.flagWord State.reset.params.ctrlBits = 0xC0 ∧
    (armControl .armStopStart State.reset).hw.ctrl.flagWord State.reset.params.ctrlBits = 0xB0 ∧
    (armControl .armStart State.reset).hw.ctrl.flagWord { intClear := 0, ackEnable := 1, start := 2, stop := 3 } = 5 := by
  decide

/-- V4: deadline arithmetic. -/
theorem test_deadline :
    mkDeadline .default 1000 1000 = some (.atTime 2000) ∧ mkDeadline .default 1000 0 = some (.atTime 1000) ∧
    mkDeadline .default 1000 0xFFFFFFFF = some .noDeadline ∧ mkDeadline .default 0 0xFFFFFFFE = some (.atTime 4294967294) ∧
    mkDeadline .default 2 0xFFFFFFFE = none ∧ expired (.atTime 2000) 2000 = false ∧
    expired (.atTime 2000) 2001 = true ∧ expired .noDeadline 4294967295 = false := by decide

/-! ## The decoder: the rows of V10 -/

/-- One row: the raw code, the codes of the five master contexts, of the basic and of the detailed view. -/
def decoderRow (raw : RawCode) (m : List Byte) (b d : Byte) : Bool :=
  let c := classify defaultRawTable raw
  decide ([MasterCtx.start, .addrW, .addrR, .send, .recv].map (fun k => (masterStatus k c).code) = m) &&
    decide ((basicSlave c).code = b) && decide ((detailedSlave c).code = d)

theorem test_decoder_rows_low :
    decoderRow 0x00 [6#8, 6#8, 6#8, 6#8, 6#8] 1#8 1#8 = true ∧
    decoderRow 0x08 [0#8, 7#8, 7#8, 7#8, 7#8] 10#8 16#8 = true ∧
    decoderRow 0x10 [0#8, 7#8, 7#8, 7#8, 7#8] 10#8 16#8 = true ∧
    decoderRow 0x18 [7#8, 0#8, 7#8, 7#8, 7#8] 10#8 16#8 = true ∧
    decoderRow 0x20 [7#8, 1#8, 7#8, 7#8, 7#8] 10#8 16#8 = true ∧
    decoderRow 0x28 [7#8, 7#8, 7#8, 0#8, 7#8] 10#8 16#8 = true ∧
    decoderRow 0x30 [7#8, 7#8, 7#8, 2#8, 7#8] 10#8 16#8 = true ∧
    decoderRow 0x38 [3#8, 3#8, 3#8, 3#8, 3#8] 10#8 16#8 = true ∧
    decoderRow 0x40 [7#8, 7#8, 0#8, 7#8, 7#8] 10#8 16#8 = true ∧
    decoderRow 0x48 [7#8, 7#8, 1#8, 7#8, 7#8] 10#8 16#8 = true ∧
    decoderRow 0x50 [7#8, 7#8, 7#8, 7#8, 0#8] 10#8 16#8 = true ∧
    decoderRow 0x58 [7#8, 7#8, 7#8, 7#8, 0#8] 10#8 16#8 = true := by decide

theorem test_decoder_rows_slave :
    decoderRow 0x60 [4#8, 4#8, 4#8, 4#8, 4#8] 3#8 3#8 = true ∧
    decoderRow 0x68 [4#8, 4#8, 4#8, 4#8, 4#8] 3#8 4#8 = true ∧
    decoderRow 0x70 [4#8, 4#8, 4#8, 4#8, 4#8] 3#8 5#8 = true ∧
    decoderRow 0x78 [4#8, 4#8, 4#8, 4#8, 4#8] 3#8 6#8 = true ∧
    decoderRow 0x80 [7#8, 7#8, 7#8, 7#8, 7#8] 4#8 7#8 = true ∧
    decoderRow 0x88 [7#8, 7#8, 7#8, 7#8, 7#8] 5#8 8#8 = true ∧
    decoderRow 0x90 [7#8, 7#8, 7#8, 7#8, 7#8] 4#8 9#8 = true ∧
    decoderRow 0x98 [7#8, 7#8, 7#8, 7#8, 7#8] 5#8 10#8 = true ∧
    decoderRow 0xA0 [7#8, 7#8, 7#8, 7#8, 7#8] 2#8 2#8 = true ∧
    decoderRow 0xA8 [4#8, 4#8, 4#8, 4#8, 4#8] 6#8 11#8 = true := by decide

theorem test_decoder_rows_rest :
    decoderRow 0xB0 [4#8, 4#8, 4#8, 4#8, 4#8] 6#8 12#8 = true ∧
    decoderRow 0xB8 [7#8, 7#8, 7#8, 7#8, 7#8] 7#8 13#8 = true ∧
    decoderRow 0xC0 [7#8, 7#8, 7#8, 7#8, 7#8] 8#8 14#8 = true ∧
    decoderRow 0xC8 [7#8, 7#8, 7#8, 7#8, 7#8] 9#8 15#8 = true ∧
    decoderRow 0xF8 [7#8, 7#8, 7#8, 7#8, 7#8] 0#8 0#8 = true ∧
    decoderRow 0x01 [7#8, 7#8, 7#8, 7#8, 7#8] 10#8 16#8 = true ∧
    decoderRow 0x04 [7#8, 7#8, 7#8, 7#8, 7#8] 10#8 16#8 = true ∧
    decoderRow 0xD0 [7#8, 7#8, 7#8, 7#8, 7#8] 10#8 16#8 = true ∧
    decoderRow 0xF0 [7#8, 7#8, 7#8, 7#8, 7#8] 10#8 16#8 = true ∧
    decoderRow 0xFF [7#8, 7#8, 7#8, 7#8, 7#8] 10#8 16#8 = true := by decide

/-! ## One step of each command -/

/-- The machine after reset, with a collaborator that answers as a vector's trace says. -/
def env (ev : List Bool) (nw : List Time) (st : List RawCode) (rd : List Byte) : State :=
  { State.reset with
    hw := { Collaborator.atReset with
      raises := { queue := ev, after := false, loop := [] }
      clock := { queue := nw, after := 0xFFFFFFFF, loop := [] }
      codes := { queue := st, after := 0xF8, loop := [] }
      received := { queue := rd, after := 0#8, loop := [] } } }

/-- A command that has ended: its result code, its trace, and something more about the state. -/
def ends (o : Result) (code : Byte) (tr : List Atom) (p : State → Bool) : Bool :=
  match o with
  | .next t => decide ((t.response t.flow).code = code) && decide (t.seq = .idle) && decide (t.trace = tr) && p t
  | .fault _ => false
  | .refused _ => false

/-- The next state is this one. -/
def nextIs (o : Result) (u : State) : Bool :=
  match o with
  | .next t => decide (t = u)
  | .fault _ => false
  | .refused _ => false

/-- V10, raw code 0x30: a data NACK. -/
theorem test_st_master :
    ends (exec (.stMaster .send) (env [] [] [0x30] [])) 2
      [.readStatus 0x30] (fun _ => true) = true := by decide
/-- V10: the same code in another context. -/
theorem test_st_master_other :
    ends (exec (.stMaster .start) (env [] [] [0x30] [])) 7
      [.readStatus 0x30] (fun _ => true) = true := by decide
/-- V10, raw code 0x78. -/
theorem test_st_basic :
    ends (exec (.stBasic) (env [] [] [0x78] [])) 3
      [.readStatus 0x78] (fun _ => true) = true := by decide
/-- V10, raw code 0x04. -/
theorem test_st_basic_unlisted :
    ends (exec (.stBasic) (env [] [] [0x04] [])) 10
      [.readStatus 0x04] (fun _ => true) = true := by decide
/-- V10, raw code 0x78. -/
theorem test_st_detail :
    ends (exec (.stDetail) (env [] [] [0x78] [])) 6
      [.readStatus 0x78] (fun _ => true) = true := by decide
/-- V10, raw code 0xC8. -/
theorem test_st_detail_last :
    ends (exec (.stDetail) (env [] [] [0xC8] [])) 15
      [.readStatus 0xC8] (fun _ => true) = true := by decide
/-- V62. -/
theorem test_rx_bind :
    ends (exec (.rxBind 0x0500 4) ({ State.reset with rx := { ptr := 0x0300, len := 3, cursor := 2 } })) 0
      [] (fun t => t.rx = { ptr := 0x0500, len := 4, cursor := 0 }) = true := by decide
/-- V63. -/
theorem test_rx_avail_no :
    ends (exec (.rxAvail) ({ State.reset with rx := { ptr := 0x0300, len := 3, cursor := 2 } })) 0
      [] (fun _ => true) = true := by decide
/-- V64. -/
theorem test_rx_avail_yes :
    ends (exec (.rxAvail) ({ State.reset with rx := { ptr := 0x0300, len := 3, cursor := 3 } })) 1
      [] (fun _ => true) = true := by decide
/-- V66. -/
theorem test_rx_next :
    ends (exec (.rxNext) ({ State.reset with rx := { ptr := 0x0300, len := 3, cursor := 3 } })) 0
      [] (fun t => t.rx = { ptr := 0x0300, len := 3, cursor := 0 }) = true := by decide
/-- V68. -/
theorem test_tx_done_yes :
    ends (exec (.txDone) ({ State.reset with tx := { ptr := 0x0400, len := 2, cursor := 2 } })) 1
      [] (fun _ => true) = true := by decide
/-- V69. -/
theorem test_tx_done_no :
    ends (exec (.txDone) ({ State.reset with tx := { ptr := 0x0400, len := 2, cursor := 1 } })) 0
      [] (fun _ => true) = true := by decide
/-- V70. -/
theorem test_tx_again :
    ends (exec (.txAgain) ({ State.reset with tx := { ptr := 0x0400, len := 2, cursor := 2 } })) 0
      [] (fun t => t.tx = { ptr := 0x0400, len := 2, cursor := 0 }) = true := by decide
/-- V71. -/
theorem test_tx_bind :
    ends (exec (.txBind 0x0600 5) ({ State.reset with tx := { ptr := 0x0400, len := 2, cursor := 1 } })) 0
      [] (fun t => t.tx = { ptr := 0x0600, len := 5, cursor := 0 }) = true := by decide
/-- V80. -/
theorem test_set_timeout :
    ends (exec (.setTimeout 1000) ({ State.reset with cfgTimeout := 5 })) 0
      [] (fun t => t.cfgTimeout = 1000) = true := by decide
/-- V82. -/
theorem test_set_blb :
    ends (exec (.setBlb .retryWithinTimeout) (State.reset)) 0
      [] (fun t => t.cfgBlb = .retryWithinTimeout) = true := by decide

/-- V83: the reserved policy code changes nothing and answers 0x00FF. -/
theorem test_set_blb_reserved :
    nextIs (step { State.reset with
        cfgBlb := .retryWithinTimeout, issues := [.command .caller ⟨32, 0x03000041⟩] })
      { State.reset with
        cfgBlb := .retryWithinTimeout, rspCaller := { code := 0xFF#8, high := 0x00#8, returned := true } } = true := by decide

/-- V20: two samples that do not expire, then the event. -/
theorem test_sig_start_success :
    ends (exec (.sigStart (.atTime 200))
        (env [false, false, true] [100, 150] [0x08] [])) 0
      [.arm .armStart, .eventComplete false, .now 100, .eventComplete false, .now 150, .eventComplete true,
       .readStatus 0x08]
      (fun _ => true) = true := by decide

/-- V20: a sample equal to the deadline does not expire, the next does. -/
theorem test_sig_start_timeout :
    ends (exec (.sigStart (.atTime 200))
        (env [false, false] [200, 201] [] [])) 5
      [.arm .armStart, .eventComplete false, .now 200, .eventComplete false, .now 201]
      (fun t => t.hw.ctrl.start) = true := by decide

/-- V20: stop then start. -/
theorem test_sig_stopstart_success :
    ends (exec (.sigStopStart (.atTime 200))
        (env [true] [] [0x08] [])) 0
      [.arm .armStopStart, .eventComplete true, .readStatus 0x08]
      (fun _ => true) = true := by decide

/-- V20: a bus error. -/
theorem test_sig_stopstart_bus_error :
    ends (exec (.sigStopStart (.atTime 200))
        (env [true] [] [0x00] [])) 6
      [.arm .armStopStart, .eventComplete true, .readStatus 0x00]
      (fun _ => true) = true := by decide

/-- V21. -/
theorem test_sig_stop :
    ends (exec (.sigStop)
        (env [] [] [] [])) 0
      [.arm .armStop]
      (fun t => t.hw.ctrl.stop && !t.hw.ctrl.start) = true := by decide

/-- V21. -/
theorem test_clr_event :
    ends (exec (.clrEvent)
        (env [] [] [] [])) 0
      [.arm .armGo]
      (fun _ => true) = true := by decide

/-- V22: the implicit stop. -/
theorem test_addr_w_nack :
    ends (exec (.addrW 0x50#7 (.atTime 500))
        (env [true] [] [0x20] [])) 1
      [.writeData 0xA0#8, .arm .armGo, .eventComplete true, .readStatus 0x20, .arm .armStop]
      (fun _ => true) = true := by decide

/-- V22: arbitration lost and addressed, no stop. -/
theorem test_addr_w_lost_and_addressed :
    ends (exec (.addrW 0x50#7 (.atTime 500))
        (env [true] [] [0x68] [])) 4
      [.writeData 0xA0#8, .arm .armGo, .eventComplete true, .readStatus 0x68]
      (fun _ => true) = true := by decide

/-- V22. -/
theorem test_addr_r_ack :
    ends (exec (.addrR 0x50#7 (.atTime 500))
        (env [true] [] [0x40] [])) 0
      [.writeData 0xA1#8, .arm .armGo, .eventComplete true, .readStatus 0x40]
      (fun _ => true) = true := by decide

/-- V22: no status read after a timeout. -/
theorem test_addr_r_timeout :
    ends (exec (.addrR 0x7F#7 (.atTime 500))
        (env [false] [501] [] [])) 5
      [.writeData 0xFF#8, .arm .armGo, .eventComplete false, .now 501]
      (fun _ => true) = true := by decide

/-- V23. -/
theorem test_send_b_ack :
    ends (exec (.sendB 0x3B#8 (.atTime 500))
        (env [true] [] [0x28] [])) 0
      [.writeData 0x3B#8, .arm .armGo, .eventComplete true, .readStatus 0x28]
      (fun _ => true) = true := by decide

/-- V23: the implicit stop. -/
theorem test_send_b_nack :
    ends (exec (.sendB 0x3B#8 (.atTime 500))
        (env [true] [] [0x30] [])) 2
      [.writeData 0x3B#8, .arm .armGo, .eventComplete true, .readStatus 0x30, .arm .armStop]
      (fun _ => true) = true := by decide

/-- V24: NACK on byte 1, byte 2 is not read. -/
theorem test_send_buf_nack :
    ends (exec (.sendBuf 0x0100 3 (.atTime 500))
        { env [true, true] [] [0x28, 0x30] [] with mem := [(0x0100, 0x11#8), (0x0101, 0x22#8), (0x0102, 0x33#8)] }) 2
      [.memRead 0x0100 0x11#8, .writeData 0x11#8, .arm .armGo, .eventComplete true, .readStatus 0x28,
       .memRead 0x0101 0x22#8, .writeData 0x22#8, .arm .armGo, .eventComplete true, .readStatus 0x30, .arm .armStop]
      (fun _ => true) = true := by decide

/-- V24: a timeout on byte 1. -/
theorem test_send_buf_timeout :
    ends (exec (.sendBuf 0x0100 3 (.atTime 500))
        { env [true, false] [501] [0x28] [] with mem := [(0x0100, 0x11#8), (0x0101, 0x22#8), (0x0102, 0x33#8)] }) 5
      [.memRead 0x0100 0x11#8, .writeData 0x11#8, .arm .armGo, .eventComplete true, .readStatus 0x28,
       .memRead 0x0101 0x22#8, .writeData 0x22#8, .arm .armGo, .eventComplete false, .now 501]
      (fun _ => true) = true := by decide

/-- V25: the byte is in `RSP[15:8]`. -/
theorem test_recv_b_byte :
    ends (exec (.recvB (.atTime 500))
        (env [true] [] [0x58] [0x7E#8])) 0
      [.arm (.armRx false), .eventComplete true, .readStatus 0x58, .readData 0x7E#8]
      (fun t => t.rspCaller.word = 0x7E00) = true := by decide

/-- V25: arbitration lost, the data register is not read. -/
theorem test_recv_b_lost :
    ends (exec (.recvB (.atTime 500))
        (env [true] [] [0x38] [])) 3
      [.arm (.armRx false), .eventComplete true, .readStatus 0x38]
      (fun _ => true) = true := by decide

/-- V26: every byte but the last is ACKed. -/
theorem test_recv_buf_three :
    ends (exec (.recvBuf 0x0200 3 (.atTime 500))
        (env [true, true, true] [] [0x50, 0x50, 0x58] [0xAA#8, 0xBB#8, 0xCC#8])) 0
      [.arm (.armRx true), .eventComplete true, .readStatus 0x50, .readData 0xAA#8, .memWrite 0x0200 0xAA#8,
       .arm (.armRx true), .eventComplete true, .readStatus 0x50, .readData 0xBB#8, .memWrite 0x0201 0xBB#8,
       .arm (.armRx false), .eventComplete true, .readStatus 0x58, .readData 0xCC#8, .memWrite 0x0202 0xCC#8]
      (fun t => t.mem = [(0x0200, 0xAA#8), (0x0201, 0xBB#8), (0x0202, 0xCC#8)]) = true := by decide

/-- V26: a bus error on byte 1 keeps byte 0. -/
theorem test_recv_buf_bus_error :
    ends (exec (.recvBuf 0x0200 3 (.atTime 500))
        (env [true, true] [] [0x50, 0x00] [0xAA#8])) 6
      [.arm (.armRx true), .eventComplete true, .readStatus 0x50, .readData 0xAA#8, .memWrite 0x0200 0xAA#8,
       .arm (.armRx true), .eventComplete true, .readStatus 0x00]
      (fun t => t.mem = [(0x0200, 0xAA#8)]) = true := by decide

/-- V47: the retry completes after the first deadline. -/
theorem test_m_send_b_retry_extending :
    ends (exec (.mSendB 0x50#7 0x07#8 true)
        { env [true, false, true, false, true, true, true] [1000, 1990, 1995, 2500] [0x08, 0x38, 0x08, 0x18, 0x28] [] with cfgTimeout := 1000, cfgBlb := .retryExtendingTimeout }) 0
      [.now 1000, .arm .armStart, .eventComplete true, .readStatus 0x08, .writeData 0xA0#8, .arm .armGo,
       .eventComplete false, .now 1990, .eventComplete true, .readStatus 0x38, .now 1995, .arm .armStart,
       .eventComplete false, .now 2500, .eventComplete true, .readStatus 0x08, .writeData 0xA0#8, .arm .armGo,
       .eventComplete true, .readStatus 0x18, .writeData 0x07#8, .arm .armGo, .eventComplete true,
       .readStatus 0x28, .arm .armStop]
      (fun _ => true) = true := by decide

/-- V46: the retry keeps the first deadline. -/
theorem test_m_send_b_retry_out_of_time :
    ends (exec (.mSendB 0x50#7 0x07#8 true)
        { env [true, true, false, false] [1000, 1900, 2001] [0x08, 0x38] [] with cfgTimeout := 1000, cfgBlb := .retryWithinTimeout }) 5
      [.now 1000, .arm .armStart, .eventComplete true, .readStatus 0x08, .writeData 0xA0#8, .arm .armGo,
       .eventComplete true, .readStatus 0x38, .arm .armStart, .eventComplete false, .now 1900,
       .eventComplete false, .now 2001]
      (fun _ => true) = true := by decide

/-- Program P1, command 3. -/
theorem test_m_send_buf_two :
    ends (exec (.mSendBuf 0x50#7 0x0100 2 true)
        { env [true, true, true, true] [5000] [0x08, 0x18, 0x28, 0x28] [] with cfgTimeout := 1000, mem := [(0x0100, 0x11#8), (0x0101, 0x22#8)] }) 0
      [.now 5000, .arm .armStart, .eventComplete true, .readStatus 0x08, .writeData 0xA0#8, .arm .armGo,
       .eventComplete true, .readStatus 0x18, .memRead 0x0100 0x11#8, .writeData 0x11#8, .arm .armGo,
       .eventComplete true, .readStatus 0x28, .memRead 0x0101 0x22#8, .writeData 0x22#8, .arm .armGo,
       .eventComplete true, .readStatus 0x28, .arm .armStop]
      (fun _ => true) = true := by decide

/-- V55. -/
theorem test_m_send_buf_empty :
    ends (exec (.mSendBuf 0x50#7 0x0100 0 true)
        { env [true, true] [1000] [0x08, 0x18] [] with cfgTimeout := 1000 }) 0
      [.now 1000, .arm .armStart, .eventComplete true, .readStatus 0x08, .writeData 0xA0#8, .arm .armGo,
       .eventComplete true, .readStatus 0x18, .arm .armStop]
      (fun _ => true) = true := by decide

/-- V51. -/
theorem test_m_recv_b_byte :
    ends (exec (.mRecvB 0x50#7 true)
        { env [true, true, true] [1000] [0x08, 0x40, 0x58] [0x7E#8] with cfgTimeout := 1000 }) 0
      [.now 1000, .arm .armStart, .eventComplete true, .readStatus 0x08, .writeData 0xA1#8, .arm .armGo,
       .eventComplete true, .readStatus 0x40, .arm (.armRx false), .eventComplete true, .readStatus 0x58,
       .readData 0x7E#8, .arm .armStop]
      (fun t => t.rspCaller.word = 0x7E00) = true := by decide

/-- V52. -/
theorem test_m_recv_b_nack :
    ends (exec (.mRecvB 0x50#7 true)
        { env [true, true] [1000] [0x08, 0x48] [] with cfgTimeout := 1000 }) 1
      [.now 1000, .arm .armStart, .eventComplete true, .readStatus 0x08, .writeData 0xA1#8, .arm .armGo,
       .eventComplete true, .readStatus 0x48, .arm .armStop]
      (fun _ => true) = true := by decide

/-- V53: the bus is held. -/
theorem test_m_recv_buf_two :
    ends (exec (.mRecvBuf 0x50#7 0x0200 2 false)
        { env [true, true, true, true] [1000] [0x08, 0x40, 0x50, 0x58] [0xAA#8, 0xBB#8] with cfgTimeout := 1000 }) 0
      [.now 1000, .arm .armStart, .eventComplete true, .readStatus 0x08, .writeData 0xA1#8, .arm .armGo,
       .eventComplete true, .readStatus 0x40, .arm (.armRx true), .eventComplete true, .readStatus 0x50,
       .readData 0xAA#8, .memWrite 0x0200 0xAA#8, .arm (.armRx false), .eventComplete true, .readStatus 0x58,
       .readData 0xBB#8, .memWrite 0x0201 0xBB#8]
      (fun t => t.mem = [(0x0200, 0xAA#8), (0x0201, 0xBB#8)]) = true := by decide

/-- V54. -/
theorem test_m_recv_buf_empty :
    ends (exec (.mRecvBuf 0x50#7 0x0200 0 true)
        { env [true, true] [1000] [0x08, 0x40] [] with cfgTimeout := 1000 }) 0
      [.now 1000, .arm .armStart, .eventComplete true, .readStatus 0x08, .writeData 0xA1#8, .arm .armGo,
       .eventComplete true, .readStatus 0x40, .arm .armStop]
      (fun _ => true) = true := by decide

/-- V56. -/
theorem test_m_recv_reg_stop_start :
    ends (exec (.mRecvReg 0x68#7 0x3B#8 0x0200 1 false false)
        { env [true, true, true, true, true, true] [10000] [0x08, 0x18, 0x28, 0x08, 0x40, 0x58] [0x99#8] with cfgTimeout := 1000 }) 0
      [.now 10000, .arm .armStart, .eventComplete true, .readStatus 0x08, .writeData 0xD0#8, .arm .armGo,
       .eventComplete true, .readStatus 0x18, .writeData 0x3B#8, .arm .armGo, .eventComplete true,
       .readStatus 0x28, .arm .armStopStart, .eventComplete true, .readStatus 0x08, .writeData 0xD1#8,
       .arm .armGo, .eventComplete true, .readStatus 0x40, .arm (.armRx false), .eventComplete true,
       .readStatus 0x58, .readData 0x99#8, .memWrite 0x0200 0x99#8]
      (fun _ => true) = true := by decide

/-- V57: a repeated start, then NACK at step 4. -/
theorem test_m_recv_reg_nack :
    ends (exec (.mRecvReg 0x68#7 0x3B#8 0x0200 1 true true)
        { env [true, true, true, true, true] [10000] [0x08, 0x18, 0x28, 0x10, 0x48] [] with cfgTimeout := 1000 }) 1
      [.now 10000, .arm .armStart, .eventComplete true, .readStatus 0x08, .writeData 0xD0#8, .arm .armGo,
       .eventComplete true, .readStatus 0x18, .writeData 0x3B#8, .arm .armGo, .eventComplete true,
       .readStatus 0x28, .arm .armStart, .eventComplete true, .readStatus 0x10, .writeData 0xD1#8, .arm .armGo,
       .eventComplete true, .readStatus 0x48, .arm .armStop]
      (fun t => t.mem = []) = true := by decide

/-- V60: a fresh transfer restarts the cursor (R211 case b). -/
theorem test_rx_event_addressed :
    ends (exec .rxEvent { env [] [] [0x60] [] with
        flow := .event, rx := { ptr := 0x0300, len := 3, cursor := 2 } }) 0
      [.readStatus 0x60, .arm .armSlaveAck]
      (fun t => t.rx = { ptr := 0x0300, len := 3, cursor := 0 }) = true := by decide

/-- V60: the last byte is stored and the next one NACKed (R212). -/
theorem test_rx_event_last_byte :
    ends (exec .rxEvent { env [] [] [0x80] [0xB2#8] with
        flow := .event, rx := { ptr := 0x0300, len := 3, cursor := 2 } }) 0
      [.readStatus 0x80, .readData 0xB2#8, .memWrite 0x0302 0xB2#8, .arm .armSlaveNack]
      (fun t => t.rx = { ptr := 0x0300, len := 3, cursor := 3 }) = true := by decide

/-- V61: an addressing in the middle of a buffer restarts it (R231 case b). -/
theorem test_tx_event_restarts :
    ends (exec .txEvent { env [] [] [0xA8] [] with
        flow := .event, tx := { ptr := 0x0400, len := 2, cursor := 1 }, mem := [(0x0400, 0xC1#8), (0x0401, 0xC2#8)] }) 0
      [.readStatus 0xA8, .memRead 0x0400 0xC1#8, .writeData 0xC1#8, .arm .armSlaveAck]
      (fun t => t.tx = { ptr := 0x0400, len := 2, cursor := 1 }) = true := by decide

/-- V61: everything transmitted (R232). -/
theorem test_tx_event_no_more_data :
    ends (exec .txEvent { env [] [] [0xB8] [] with
        flow := .event, tx := { ptr := 0x0400, len := 2, cursor := 2 }, mem := [(0x0400, 0xC1#8), (0x0401, 0xC2#8)] }) 0
      [.readStatus 0xB8, .arm .armSlaveNack]
      (fun t => t.tx = { ptr := 0x0400, len := 2, cursor := 2 }) = true := by decide

/-! ## Witnesses: each statement's hypotheses are met together -/

/-- `Obligations.DecodeInvertsEncode`: a buffer that ends at the top of memory, at the default and at other widths. -/
theorem witness_well_formed :
    Instr.wellFormed .default (.mRecvReg 0x7F#7 0xFF#8 0xFFFF 1 true true) = true ∧
    Instr.wellFormed { tw := 1, rcw := 1, aw := 1, lw := 1 } (.sendBuf 1 1 (.atTime 1)) = true := by decide

/-- `Obligations.DecodedPacketIsItsEncoding`, `Obligations.PacketLengthFollowsTheOpcode`: one packet of each format. -/
theorem witness_packets :
    decode .default ⟨32, 0x00000012⟩ = .ok (.sigStop, .empty) ∧
    decode .default ⟨64, 0xDEADBEEF_00000417⟩ = .ok (.recvB .noDeadline, .empty) ∧
    decode .default ⟨64, 0xFFFFFFFF_00000040⟩ = .ok (.setTimeout 0xFFFFFFFF, .empty) ∧
    decode .default ⟨72, 0x12_0001_FFFF_00000035⟩ = .ok (.txBind 0xFFFF 1, ⟨8, 0x12⟩) ∧
    decode .default ⟨96, 0x0003_0100_000000C8_00000016⟩ = .ok (.sendBuf 0x0100 3 (.atTime 200), .empty) :=
  ⟨rfl, rfl, rfl, rfl, rfl⟩

/-- `Obligations.OpcodeTableSelectsOneCommand`: a word that matches a row, with every free bit 1. -/
theorem witness_row : (0xFF7F0324 : CmdWord) &&& Opcode.mRecvReg.mask = Opcode.mRecvReg.pattern := by decide

/-- `Obligations.IllegalPacketsAreExactlyThese`: an assigned opcode, and one whose deadline word is ignored. -/
theorem witness_assigned_opcode :
    Opcode.ofCode ((0x00000412 : CmdWord).extractLsb' 0 8) = some .sigStop ∧
    Opcode.ofCode ((0x00000410 : CmdWord).extractLsb' 0 8) = some .sigStart ∧ (0x00000410 : CmdWord).getLsbD 10 = true ∧
    0xFFFFFFFF < 2 ^ Widths.default.tw ∧
    (∃ e, decode .default (.put 32 (0x00000412 : CmdWord).toNat (putExt .default .n {} .empty)) = .error e) ∧
    (∃ p, decode .default (.put 32 (0x00000410 : CmdWord).toNat (putExt .default .d { time := 0xFFFFFFFF } .empty)) = .ok p) :=
  ⟨by decide, by decide, by decide, by decide, ⟨_, rfl⟩, ⟨_, rfl⟩⟩

/-- The illegal packet of V83. -/
def badPolicy : Packet := ⟨32, 0x03000041⟩

/-- `Obligations.IllegalPacketAnswersFF`: an unassigned opcode, and an illegal packet issued by each flow. -/
theorem witness_illegal :
    Opcode.ofCode ((0x000000FF : CmdWord).extractLsb' 0 8) = none ∧
    decode State.reset.widths badPolicy = .error .badPolicy ∧ DecodeError.badPolicy ≠ .truncated ∧
    (∃ s : State, s.widths = .default ∧ s.seq = .idle ∧ s.issues = [.command .caller badPolicy]) ∧
    (∃ s : State, s.widths = .default ∧ s.issues = [.command .event badPolicy]) :=
  ⟨by decide, rfl, by decide, ⟨{ State.reset with issues := [.command .caller badPolicy] }, rfl, rfl, rfl⟩,
    ⟨{ State.reset with issues := [.command .event badPolicy] }, rfl, rfl⟩⟩

/-- A start primitive that waits, for the states in which a master command runs. -/
def waiting (dl : Deadline) : Run := { Run.issue .sigStart { dl := dl } with phase := .poll .start }

/-- `Obligations.StepRunsTheDecodedCommand`: a packet of the caller flow while idle, one of the event flow while a master
command runs, one that the event flow may issue between two actions, a table word. -/
theorem witness_step :
    decode .default ⟨32, 0x00000012⟩ = .ok (.sigStop, .empty) ∧ decode .default ⟨32, 0x00000030⟩ = .ok (.rxEvent, .empty) ∧
    (∃ s : State, s.widths = .default ∧ s.issues = [.command .caller ⟨32, 0x00000012⟩] ∧ s.seq = .idle) ∧
    (∃ s : State, s.widths = .default ∧ s.issues = [.command .event ⟨32, 0x00000030⟩] ∧
      s.seq = .run (waiting .noDeadline)) ∧
    issuer .rxEvent ≠ some .caller ∧ decodeTableWord 32 0x00000030 = some .rxEvent ∧
    decodeTableWord 32 0x00500122 = some (.mRecvB 0x50#7 true) :=
  ⟨rfl, rfl, ⟨{ State.reset with issues := [.command .caller ⟨32, 0x00000012⟩] }, rfl, rfl, rfl⟩,
    ⟨{ State.reset with issues := [.command .event ⟨32, 0x00000030⟩], seq := .run (waiting .noDeadline) }, rfl, rfl, rfl⟩,
    by decide, by decide, by decide⟩

/-- `Obligations.DeadlineArithmetic`: the three clauses at their boundaries, and a composite at a time that its timeout takes
to `2^32`, at its entry and where a retry extends its deadline. -/
theorem witness_deadline :
    Widths.default.timeoutMax = 2 ^ 32 - 1 ∧
    (0xFFFFFFFE ≠ 2 ^ Widths.default.tw - 1 ∧ 1 + 0xFFFFFFFE < 2 ^ Widths.default.tw) ∧
    2 ^ Widths.default.tw ≤ 2 + 0xFFFFFFFE ∧
    ∃ s v t, stopOperand (.mRecvB 0x50#7 true) = some true ∧ Instr.wellFormed s.widths (.mRecvB 0x50#7 true) = true ∧
      State.Ready s ∧ now s = .next (t, v) ∧ s.cfgTimeout ≠ 2 ^ s.widths.tw - 1 ∧ t + s.cfgTimeout = 2 ^ s.widths.tw ∧
      (∃ r : Run, r.phase = .enter) ∧ ∃ r : Run, r.phase = .extend :=
  ⟨by decide, by decide, by decide,
    { env [] [2] [] [] with cfgTimeout := 0xFFFFFFFE }, _, _, rfl, rfl, ⟨rfl, rfl, rfl⟩, rfl, by decide, rfl,
    ⟨Run.issue .mRecvB {}, rfl⟩, ⟨{ Run.issue .mRecvB {} with phase := .extend }, rfl⟩⟩

/-- `Obligations.ClassifyFollowsTheTable`, `Obligations.ListedCodesAreKnown`: a code listed, a code not listed. -/
theorem witness_table :
    (defaultRawTable.map Prod.fst).Nodup ∧ .unknown ∉ defaultRawTable.map Prod.snd ∧
    (0xF8, .noInfo) ∈ defaultRawTable ∧ (0xF8 : RawCode) ∈ defaultRawTable.map Prod.fst ∧
    (0xF0 : RawCode) ∉ defaultRawTable.map Prod.fst := by decide

/-- `Obligations.DecoderQueries`: a code of `RCW` bits, and an answer of more bits. -/
theorem witness_query :
    (∃ (s : State) (raw : RawCode), s.flow = .caller ∧ raw = s.nextCode ∧ raw = 0x68) ∧
    ∃ (s : State) (raw : RawCode), s.flow = .caller ∧ raw = s.nextCode ∧ s.hw.codes.take.1 = 0x168 ∧ raw = 0x68 :=
  ⟨⟨env [] [] [0x68] [], _, rfl, rfl, rfl⟩, ⟨env [] [] [0x168] [], _, rfl, rfl, rfl, rfl⟩⟩

/-- `Obligations.ArmCallsPreserveTheOtherBits`: arm calls with a flag absent, present, and a clear that is not mentioned. -/
theorem witness_arm :
    Assign.armSlaveAck.start = none ∧ Assign.armStop.stop = some true ∧ Assign.armStart.ackEnable = none ∧
    Assign.armSlaveNack.intClear = some true ∧ (Assign.mk none none none none).intClear ≠ some true := by decide

/-- `Obligations.MemoryIsBytes`: the top byte, and the first address that does not exist. -/
theorem witness_memory :
    State.reset.mem.wf State.reset.memSize = true ∧ 0xFFFF < 2 ^ State.reset.widths.aw ∧
    2 ^ State.reset.widths.aw ≤ 0x10000 := by decide

/-- `Obligations.ClockNeverDecreases`: one less than the last answer, and the same as the last answer. -/
theorem witness_clock :
    (∃ s : State, s.nextTime = 0 ∧ s.hw.lastNow = 1) ∧ ∃ s : State, s.nextTime = 7 ∧ s.hw.lastNow = 7 :=
  ⟨⟨{ State.reset with hw := { Collaborator.atReset with lastNow := 1 } }, rfl, rfl⟩,
    ⟨{ State.reset with hw := { Collaborator.atReset with lastNow := 7, clock := .always 7 } }, rfl, rfl⟩⟩

/-- `Obligations.ClockNeverDecreases`, the other inputs: a signal that is set, one set now, one not set; a queue with an
answer, and one used up. -/
theorem witness_inputs :
    (∃ s : State, (s.hw.event || s.hw.raises.take.1) = true ∧ s.hw.event = true) ∧
    (∃ s : State, (s.hw.event || s.hw.raises.take.1) = true ∧ s.hw.event = false) ∧
    (∃ s : State, (s.hw.event || s.hw.raises.take.1) = false) ∧
    (∃ (s : State) (x : Byte), s.hw.received.queue = [x] ∧ s.hw.received.take.1 = x) ∧
    ∃ a : Answers RawCode, a.queue = [] ∧ a.take.2.take = (0x38, { queue := [], after := 0x08, loop := [0x38] }) :=
  ⟨⟨{ State.reset with hw := { Collaborator.atReset with event := true } }, rfl, rfl⟩,
    ⟨env [true] [] [] [], rfl, rfl⟩, ⟨env [false] [] [] [], rfl⟩, ⟨env [] [] [] [0x7E#8], _, rfl, rfl⟩,
    ⟨{ queue := [], after := 0x08, loop := [0x38] }, rfl, rfl⟩⟩

/-! ### The engine -/

/-- A wait whose event is complete at the first sample, and the code read then. -/
def oneEvent (code : RawCode) : State := env [true] [] [code] [0x7E#8]

/-- A wait whose event never completes, at a time later than the deadline 200. -/
def lateClock : State := env [] [201] [] []

theorem ready_env (ev : List Bool) (nw : List Time) (st : List RawCode) (rd : List Byte) : (env ev nw st rd).Ready :=
  ⟨rfl, rfl, rfl⟩

/-- The deadline operands of these witnesses fit (`Obligations.StartPrimitives` and the statements like it). -/
theorem witness_deadline_fits :
    Deadline.fits State.reset.widths (.atTime 200) = true ∧ Deadline.fits State.reset.widths (.atTime 0xFFFFFFFF) = true ∧
    Deadline.fits State.reset.widths .noDeadline = true := by decide

/-- `CompletesIn`: an environment that settles with nothing issued after the command, and one that answers in a loop: the
event completes at every second sample. -/
theorem witness_completes_in :
    (oneEvent 0x08).hw.Settles ∧ (oneEvent 0x08).Undisturbed ∧
    ∃ s u, State.Ready s ∧ s.Undisturbed ∧ ¬ s.hw.Settles ∧ Waits .start .noDeadline (armControl .armStart s) .success u :=
  ⟨⟨rfl, rfl, rfl⟩, nofun,
    { env [] [] [0x08] [] with
      hw := { (env [] [] [0x08] []).hw with raises := { queue := [], after := false, loop := [true] } } }, _,
    ⟨rfl, rfl, rfl⟩, (fun _ h => by cases h), (fun h => absurd h.raises (by decide)),
    .decoded (.again rfl rfl (.completed rfl))⟩

/-- A completed wait and the status decoded after it. -/
theorem waits_decoded {ctx : MasterCtx} {dl : Deadline} {st : Status} {s u : State} (hw : WaitEvent dl s true u)
    (h : masterStatus ctx (u.classify (readStatus u).1) = st) : Waits ctx dl s st (readStatus u).2 := by
  subst h
  exact .decoded hw

/-- `Obligations.StartPrimitives`: success after a sample at the deadline itself, and a timeout. -/
theorem witness_start :
    (∃ s u, State.Ready s ∧ Waits .start (.atTime 200) (armControl .armStart s) .success u) ∧
    (∃ s u, State.Ready s ∧ Waits .start (.atTime 200) (armControl .armStart s) .timeout u) ∧
    ∃ s u, State.Ready s ∧ Waits .start .noDeadline (armControl .armStopStart s) .busLost u :=
  ⟨⟨env [false, true] [200] [0x10] [], _, ready_env _ _ _ _,
      waits_decoded (.inTime rfl rfl rfl (by decide) (.completed rfl)) rfl⟩,
    ⟨lateClock, _, ready_env _ _ _ _, .timeout (.timedOut rfl rfl rfl (by decide))⟩,
    ⟨env [false, true] [] [0x38] [], _, ready_env _ _ _ _, .decoded (.again rfl rfl (.completed rfl))⟩⟩

/-- `Obligations.StopAndClear` and every statement that asks for `State.Ready` alone. -/
theorem witness_ready : State.reset.Ready := ⟨rfl, rfl, rfl⟩

/-- `Obligations.AddressPrimitives`: an acknowledged and a refused address, each way. -/
theorem witness_address :
    (∃ s u, State.Ready s ∧
      Waits .addrW (.atTime 500) (armControl .armGo (writeData (addrByte 0x50#7 false) s)) .success u) ∧
    (∃ s u, State.Ready s ∧
      Waits .addrR .noDeadline (armControl .armGo (writeData (addrByte 0x50#7 true) s)) .addressNACK u) :=
  ⟨⟨oneEvent 0x18, _, ready_env _ _ _ _, .decoded (.completed rfl)⟩,
    ⟨oneEvent 0x48, _, ready_env _ _ _ _, .decoded (.completed rfl)⟩⟩

/-- `Obligations.SendByte`: a byte that is refused. -/
theorem witness_send_byte :
    ∃ s u, State.Ready s ∧ Waits .send .noDeadline (armControl .armGo (writeData 0x3B#8 s)) .dataNACK u :=
  ⟨oneEvent 0x30, _, ready_env _ _ _ _, .decoded (.completed rfl)⟩

/-- `Obligations.SendBuffer`: the last byte of memory sent, an empty buffer, a byte refused. -/
theorem witness_send_buffer :
    bufferFits State.reset.widths 0xFFFF 1 = true ∧
    (∃ s u, State.Ready s ∧ SendLoop 0xFFFF 1 .noDeadline 0 s .success u) ∧
    (∃ s u, State.Ready s ∧ SendLoop 0xFFFF 0 .noDeadline 0 s .success u) ∧
    ∃ s u, State.Ready s ∧ SendLoop 0xFFFF 1 .noDeadline 0 s .dataNACK u :=
  ⟨by decide,
    ⟨oneEvent 0x28, _, ready_env _ _ _ _, .sent (by decide) rfl (.decoded (.completed rfl)) (.done (by decide))⟩,
    ⟨oneEvent 0x28, _, ready_env _ _ _ _, .done (by decide)⟩,
    ⟨oneEvent 0x30, _, ready_env _ _ _ _, .failed (by decide) rfl (.decoded (.completed rfl)) (by decide)⟩⟩

/-- `Obligations.ReceiveByte`, and the third clause of `Obligations.AckIsLeftClearAfterTheLastByte`. -/
theorem witness_receive_byte :
    (∃ s u, State.Ready s ∧ Waits .recv (.atTime 500) (armControl (.armRx false) s) .success u) ∧
    ∃ s u, State.Ready s ∧ Waits .recv (.atTime 500) (armControl (.armRx false) s) .busLost u :=
  ⟨⟨oneEvent 0x58, _, ready_env _ _ _ _, .decoded (.completed rfl)⟩,
    ⟨oneEvent 0x38, _, ready_env _ _ _ _, .decoded (.completed rfl)⟩⟩

/-- `Obligations.ReceiveBuffer`, and the fourth clause of `Obligations.AckIsLeftClearAfterTheLastByte`: a byte received at the
top of memory, an empty buffer, a receive that fails on its last byte, and one that fails before it. -/
theorem witness_receive_buffer :
    bufferFits State.reset.widths 0xFFFF 1 = true ∧ bufferFits State.reset.widths 0xFFFE 2 = true ∧
    (∃ s u, State.Ready s ∧ RecvLoop 0xFFFF 1 .noDeadline 0 s .success u) ∧
    (∃ s u, State.Ready s ∧ RecvLoop 0xFFFF 0 .noDeadline 0 s .success u) ∧
    (∃ s u, State.Ready s ∧ RecvLoop 0xFFFF 1 .noDeadline 0 s .error u ∧ u.hw.ctrl.ackEnable = false) ∧
    ∃ s u, State.Ready s ∧ RecvLoop 0xFFFE 2 .noDeadline 0 s .error u ∧ u.hw.ctrl.ackEnable = true :=
  ⟨by decide, by decide,
    ⟨oneEvent 0x58, _, ready_env _ _ _ _, .stored (by decide) (.decoded (.completed rfl)) rfl (.done (by decide))⟩,
    ⟨oneEvent 0x58, _, ready_env _ _ _ _, .done (by decide)⟩,
    ⟨oneEvent 0x00, _, ready_env _ _ _ _, .failed (by decide) (.decoded (.completed rfl)) (by decide), rfl⟩,
    ⟨oneEvent 0x00, _, ready_env _ _ _ _, .failed (by decide) (.decoded (.completed rfl)) (by decide), rfl⟩⟩

/-! ### The composites -/

/-- The codes of a master command that succeeds; `CFG_TIMEOUT` is 0. -/
def answers (blb : BusLostBehaviour) (codes : List RawCode) : State :=
  { env [true, true, true, true, true, true, true] [1000, 1500] codes [0x7E#8] with cfgBlb := blb }

/-- `Obligations.MasterSendByte`: V40, `Success`. -/
theorem witness_m_send_byte : ∃ s g u, State.Ready s ∧
    CompositeRuns ([.wait .start, .wait .addrW, .wait .sendData] ++ if true = true then [.stop] else [])
      { addr := 0x50#7, data := 0x07#8, stop := true } s .success g u :=
  ⟨answers .abort [0x08, 0x18, 0x28], _, _, ⟨rfl, rfl, rfl⟩, _, _, _, rfl, rfl, .ends
    (.step (.start (.decoded (.completed rfl))) <| .step (.addrW (.decoded (.completed rfl))) <|
      .step (.sendData (.decoded (.completed rfl))) <| .step .stop .done) (by decide)⟩

/-- The policies: V44, `BusLost` under `Abort`; V45, `BusLost` then `Success` within the timeout; `BusLost`, then an address
NACK under a new deadline. -/
theorem witness_policies :
    (∃ s g u, State.Ready s ∧ CompositeRuns ([.wait .start, .wait .addrW, .wait .sendData] ++ if false = true then [.stop] else [])
      { addr := 0x50#7, data := 0x07#8 } s .busLost g u) ∧
    (∃ s g u, State.Ready s ∧ CompositeRuns ([.wait .start, .wait .addrW, .wait .sendData] ++ if false = true then [.stop] else [])
      { addr := 0x50#7, data := 0x07#8 } s .success g u) ∧
    ∃ s g u, State.Ready s ∧ CompositeRuns ([.wait .start, .wait .addrW, .wait .sendData] ++ if false = true then [.stop] else [])
      { addr := 0x50#7, data := 0x07#8 } s .addressNACK g u :=
  ⟨⟨answers .abort [0x08, 0x38], _, _, ⟨rfl, rfl, rfl⟩, _, _, _, rfl, rfl, .abort
      (.step (.start (.decoded (.completed rfl))) <| .failed (.addrW (.decoded (.completed rfl))) (by decide)) rfl⟩,
    ⟨answers .retryWithinTimeout [0x38, 0x08, 0x18, 0x28], _, _, ⟨rfl, rfl, rfl⟩, _, _, _, rfl, rfl, .retry
      (.failed (.start (.decoded (.completed rfl))) (by decide)) rfl <| .ends
      (.step (.start (.decoded (.completed rfl))) <| .step (.addrW (.decoded (.completed rfl))) <|
        .step (.sendData (.decoded (.completed rfl))) .done) (by decide)⟩,
    ⟨answers .retryExtendingTimeout [0x38, 0x08, 0x20], _, _, ⟨rfl, rfl, rfl⟩, _, _, _, rfl, rfl, .extend
      (.failed (.start (.decoded (.completed rfl))) (by decide)) rfl rfl rfl <| .ends
      (.step (.start (.decoded (.completed rfl))) <| .failed (.addrW (.decoded (.completed rfl))) (by decide)) (by decide)⟩⟩

/-- `Obligations.MasterSendBuffer`: one byte at the top of memory. -/
theorem witness_m_send_buffer : bufferFits State.reset.widths 0xFFFF 1 = true ∧ ∃ s g u, State.Ready s ∧
    CompositeRuns ([.wait .start, .wait .addrW, .wait .sendBuf] ++ if true = true then [.stop] else [])
      { addr := 0x50#7, ptr := 0xFFFF, len := 1, stop := true } s .success g u :=
  ⟨by decide, answers .abort [0x08, 0x18, 0x28], _, _, ⟨rfl, rfl, rfl⟩, _, _, _, rfl, rfl, .ends
    (.step (.start (.decoded (.completed rfl))) <| .step (.addrW (.decoded (.completed rfl))) <|
      .step (.sendBuf (.sent (by decide) rfl (.decoded (.completed rfl)) (.done (by decide)))) <| .step .stop .done)
    (by decide)⟩

/-- `Obligations.MasterReceiveByte`: V51. -/
theorem witness_m_receive_byte : ∃ s g u, State.Ready s ∧
    CompositeRuns ([.wait .start, .wait .addrR, .wait .recvB] ++ if true = true then [.stop] else [])
      { addr := 0x50#7, stop := true } s .success g u :=
  ⟨answers .abort [0x08, 0x40, 0x58], _, _, ⟨rfl, rfl, rfl⟩, _, _, _, rfl, rfl, .ends
    (.step (.start (.decoded (.completed rfl))) <| .step (.addrR (.decoded (.completed rfl))) <|
      .step (.recvByte (.decoded (.completed rfl))) <| .step .stop .done) (by decide)⟩

/-- `Obligations.MasterReceiveBuffer`: one byte at the top of memory. -/
theorem witness_m_receive_buffer : bufferFits State.reset.widths 0xFFFF 1 = true ∧ ∃ s g u, State.Ready s ∧
    CompositeRuns ([.wait .start, .wait .addrR, .wait .recvBuf] ++ if false = true then [.stop] else [])
      { addr := 0x50#7, ptr := 0xFFFF, len := 1 } s .success g u :=
  ⟨by decide, answers .abort [0x08, 0x40, 0x58], _, _, ⟨rfl, rfl, rfl⟩, _, _, _, rfl, rfl, .ends
    (.step (.start (.decoded (.completed rfl))) <| .step (.addrR (.decoded (.completed rfl))) <|
      .step (.recvBuf (.stored (by decide) (.decoded (.completed rfl)) rfl (.done (by decide)))) .done) (by decide)⟩

/-- `Obligations.MasterReceiveRegister`: V56, stop then start. -/
theorem witness_m_receive_register : bufferFits State.reset.widths 0x0200 1 = true ∧ ∃ s g u, State.Ready s ∧
    CompositeRuns ([.wait .start, .wait .addrW, .wait .sendReg, if false = true then .wait .start else .wait .stopStart,
        .wait .addrR, .wait .recvBuf] ++ if false = true then [.stop] else [])
      { addr := 0x68#7, reg := 0x3B#8, ptr := 0x0200, len := 1 } s .success g u :=
  ⟨by decide, answers .abort [0x08, 0x18, 0x28, 0x08, 0x40, 0x58], _, _, ⟨rfl, rfl, rfl⟩, _, _, _, rfl, rfl, .ends
    (.step (.start (.decoded (.completed rfl))) <| .step (.addrW (.decoded (.completed rfl))) <|
      .step (.sendReg (.decoded (.completed rfl))) <| .step (.stopStart (.decoded (.completed rfl))) <|
      .step (.addrR (.decoded (.completed rfl))) <|
      .step (.recvBuf (.stored (by decide) (.decoded (.completed rfl)) rfl (.done (by decide)))) .done) (by decide)⟩

/-- The fifth clause of `Obligations.AckIsLeftClearAfterTheLastByte`: a composite that fills its buffer, at the top of memory,
and one that fails before its last byte. -/
theorem witness_ack_composite :
    (∃ (s u : State) (g : Option Byte), s.Ready ∧
      Ctx.fits s.widths { addr := 0x50#7, ptr := 0xFFFF, len := 1, stop := true } = true ∧
      CompositeRuns (steps .mRecvBuf { addr := 0x50#7, ptr := 0xFFFF, len := 1, stop := true })
        { addr := 0x50#7, ptr := 0xFFFF, len := 1, stop := true } s .success g u) ∧
    ∃ (s u : State) (g : Option Byte), s.Ready ∧
      Ctx.fits s.widths { addr := 0x50#7, ptr := 0xFFFE, len := 2, stop := true } = true ∧
      CompositeRuns (steps .mRecvBuf { addr := 0x50#7, ptr := 0xFFFE, len := 2, stop := true })
        { addr := 0x50#7, ptr := 0xFFFE, len := 2, stop := true } s .error g u :=
  ⟨⟨answers .abort [0x08, 0x40, 0x58], _, _, ⟨rfl, rfl, rfl⟩, by decide, _, _, _, rfl, rfl, .ends
    (.step (.start (.decoded (.completed rfl))) <| .step (.addrR (.decoded (.completed rfl))) <|
      .step (.recvBuf (.stored (by decide) (.decoded (.completed rfl)) rfl (.done (by decide)))) <| .step .stop .done)
      (by decide)⟩,
    ⟨answers .abort [0x08, 0x40, 0x00], _, _, ⟨rfl, rfl, rfl⟩, by decide, _, _, _, rfl, rfl, .ends
    (.step (.start (.decoded (.completed rfl))) <| .step (.addrR (.decoded (.completed rfl))) <|
      .failed (.recvBuf (.failed (by decide) (.decoded (.completed rfl)) (by decide))) (by decide)) (by decide)⟩⟩

/-- R158: a retry arms the first of two bytes with 1 again, and the flag stays 1 where the second attempt fails there. -/
theorem test_ack_retry :
    ends (exec (.mRecvBuf 0x50#7 0xFFFE 2 true) (answers .retryWithinTimeout [0x08, 0x40, 0x38, 0x08, 0x40, 0x00])) 6
      [.now 1000, .arm .armStart, .eventComplete true, .readStatus 0x08, .writeData 0xA1#8, .arm .armGo,
       .eventComplete true, .readStatus 0x40, .arm (.armRx true), .eventComplete true, .readStatus 0x38,
       .arm .armStart, .eventComplete true, .readStatus 0x08, .writeData 0xA1#8, .arm .armGo,
       .eventComplete true, .readStatus 0x40, .arm (.armRx true), .eventComplete true, .readStatus 0x00]
      (fun t => t.hw.ctrl.ackEnable) = true := by decide

/-- A prompt environment, at a time that the timeout takes just below `2^32`. -/
def prompt : State :=
  { State.reset with
    cfgTimeout := 0xFFFFFFFE
    hw := { Collaborator.atReset with raises := .always true, clock := .always 1 } }

theorem prompt_prompt (s : State) (hr : s.hw.raises = .always true) (hc : s.hw.codes = .always 0xF8)
    (hp : s.params = .default) : s.Prompt := by
  constructor
  · rw [hr]; decide
  · rw [hc]; simp only [State.classify, State.widths, hp]; decide

/-- `Obligations.MasterCommandsComplete`, the issue. -/
theorem witness_completes : prompt.Ready ∧ prompt.Prompt ∧ prompt.ClockReady ∧
    prompt.nextTime + prompt.cfgTimeout + 1 = 2 ^ prompt.widths.tw :=
  ⟨⟨rfl, rfl, rfl⟩, prompt_prompt _ rfl rfl rfl, ⟨by decide, .inr (by decide)⟩, rfl⟩

/-- A composite that goes on: about to send its address byte, about to sample the clock at the last time that does not
expire, about to clear the event, about to extend its deadline. -/
def goesOn (p : Phase) (step : Nat) : State :=
  { prompt with
    seq := .run { Run.issue .mSendB { addr := 0x50#7, data := 0x07#8, stop := true, dl := .atTime 1 } with
      step := step, phase := p } }

theorem goesOn_inv {p : Phase} {step : Nat} (h : (goesOn p step).seq.good (goesOn p step).widths = true) :
    (goesOn p step).Inv := ⟨rfl, rfl, rfl, rfl, h, rfl⟩

/-- `Obligations.MasterCommandsComplete`, the resumption, and the second clauses of `Obligations.StopCallsByStatus` and
`Obligations.MasterFrame`: such a command at each of these positions. -/
theorem witness_resume :
    (∀ p k, (goesOn p k).Undisturbed ∧ (goesOn p k).flow = .caller ∧ (goesOn p k).hw.interrupts = .always [] ∧
      (goesOn p k).Prompt ∧ (goesOn p k).ClockReady ∧ (goesOn p k).hw.lastNow ≤ (goesOn p k).nextTime ∧
      (goesOn p k).issues.head? ≠ some .resetEvent ∧ ∃ r, (goesOn p k).seq = .run r ∧ r.op.isComposite = true) ∧
    (goesOn .begin 1).Inv ∧ (goesOn (.clock .addrW) 1).Inv ∧ (goesOn .abort 1).Inv ∧ (goesOn .extend 1).Inv ∧
    (goesOn .enter 0).Inv ∧ (goesOn .begin 4).Inv :=
  ⟨fun _ _ => ⟨nofun, rfl, rfl, prompt_prompt _ rfl rfl rfl,
      ⟨(by decide : prompt.hw.lastNow ≤ prompt.nextTime), .inr (by decide : 1 + 0xFFFFFFFE < 2 ^ 32)⟩,
      (by decide : prompt.hw.lastNow ≤ prompt.nextTime), nofun, _, rfl, rfl⟩,
    goesOn_inv rfl, goesOn_inv rfl, goesOn_inv rfl, goesOn_inv rfl, goesOn_inv rfl, goesOn_inv rfl⟩

/-- The steps of two of them: past its final stop a composite answers `Success` without a call; the `Abort` policy clears the
event and answers `BusLost` (R186, R187). -/
theorem witness_resume_ends :
    ends (step (goesOn .begin 4)) 0 [] (fun _ => true) = true ∧
    ends (step (goesOn .abort 1)) 3 [.arm .armGo] (fun _ => true) = true := by decide

/-- `Obligations.StopCallsByStatus`, `Obligations.MasterFrame`, `Obligations.MasterFrameUnderEvents`: composites that end
with `Success`, with and without a stop, with a NACK and with another status. -/
theorem witness_composites_end :
    ends (exec (.mSendB 0x50#7 0x07#8 true) (answers .abort [0x08, 0x18, 0x28])) 0
      [.now 1000, .arm .armStart, .eventComplete true, .readStatus 0x08, .writeData 0xA0#8, .arm .armGo,
       .eventComplete true, .readStatus 0x18, .writeData 0x07#8, .arm .armGo, .eventComplete true, .readStatus 0x28,
       .arm .armStop] (fun _ => true) = true ∧
    ends (exec (.mSendB 0x50#7 0x07#8 false) (answers .abort [0x08, 0x20])) 1
      [.now 1000, .arm .armStart, .eventComplete true, .readStatus 0x08, .writeData 0xA0#8, .arm .armGo,
       .eventComplete true, .readStatus 0x20, .arm .armStop] (fun _ => true) = true ∧
    ends (exec (.mSendB 0x50#7 0x07#8 true) (answers .abort [0x68])) 4
      [.now 1000, .arm .armStart, .eventComplete true, .readStatus 0x68] (fun _ => true) = true := by decide

/-- `Obligations.MasterFrame`: a receive that stores, in a quiet state; `storesTo` names its buffer. -/
theorem witness_master_stores : storesTo (.mRecvBuf 0x50#7 0xFFFF 1 false) = some (0xFFFF, 1) ∧
    isMaster (.mRecvBuf 0x50#7 0xFFFF 1 false) = true ∧ (answers .abort [0x08, 0x40, 0x58]).hw.interrupts = .always [] ∧
    ends (exec (.mRecvBuf 0x50#7 0xFFFF 1 false) (answers .abort [0x08, 0x40, 0x58])) 0
      [.now 1000, .arm .armStart, .eventComplete true, .readStatus 0x08, .writeData 0xA1#8, .arm .armGo,
       .eventComplete true, .readStatus 0x40, .arm (.armRx false), .eventComplete true, .readStatus 0x58,
       .readData 0x7E#8, .memWrite 0xFFFF 0x7E#8] (fun t => t.mem = [(0xFFFF, 0x7E#8)]) = true := by decide

/-- The event flow has these things to do at the first boundary of the next master command. -/
def scheduled (ps : List Preemption) (codes : List RawCode) : State :=
  { env [] [] codes [] with
    rx := { ptr := 0x0300, len := 3, cursor := 1 }
    hw := { (env [] [] codes []).hw with interrupts := { queue := [ps], after := [], loop := [] } } }

/-- `Obligations.MasterFrameUnderEvents`: two events before the one call of `SIG_STOP` (R269); the first addresses the
receiver, the second finds no status. -/
theorem witness_master_events :
    isMaster .sigStop = true ∧ ends (exec .sigStop (scheduled [.hwEvent, .hwEvent] [0x60])) 0
      [.readStatus 0x60, .arm .armSlaveAck, .readStatus 0xF8, .readStatus 0xF8, .readStatus 0xF8, .arm .armStop]
      (fun t => t.rx = { ptr := 0x0300, len := 3, cursor := 0 }) = true := by decide

/-- `Obligations.MasterFrameUnderEvents`: the event flow binds another receive buffer before the one call of `SIG_STOP`
(R112), the last byte of memory, and reads its response. -/
theorem witness_master_binds :
    (scheduled [.command ⟨64, 0x0001_FFFF_00000033⟩, .readResponse] []).MayBindRx 0xFFFF 1 ∧
    ends (exec .sigStop (scheduled [.command ⟨64, 0x0001_FFFF_00000033⟩, .readResponse] [])) 0 [.arm .armStop]
      (fun t => decide (t.rx = { ptr := 0xFFFF, len := 1, cursor := 0 }) && decide (t.rspEvent.code = 0x00#8)) = true :=
  ⟨⟨⟨64, 0x0001_FFFF_00000033⟩, _, ⟨_, List.mem_cons_of_mem _ List.mem_cons_self, List.mem_cons_self⟩, rfl⟩, by decide⟩

/-! ### The slave state machines and the hardware event -/

/-- The event flow in execution, the status code it reads and the descriptors. -/
def inEvent (code : RawCode) (rx tx : Desc) : State := { env [] [] [code] [0xB0#8] with flow := .event, rx := rx, tx := tx }

/-- `Obligations.ReceiverAddressed`. -/
theorem witness_receiver_addressed : ∃ s : State, s.flow = .event ∧
    basicSlave (s.classify s.nextCode) = .addressedAsReceiver :=
  ⟨inEvent 0x60 { ptr := 0x0300, len := 3, cursor := 2 } .atReset, rfl, rfl⟩

/-- `Obligations.ReceiverDataAccepted`: the last byte of a buffer that ends at the top of memory, and a full buffer. -/
theorem witness_receiver_data :
    (∃ s : State, s.flow = .event ∧ basicSlave (s.classify s.nextCode) = .dataAccepted ∧
      bufferFits s.widths s.rx.ptr s.rx.len = true ∧ s.rx.cursor + 1 = s.rx.len) ∧
    ∃ s : State, s.flow = .event ∧ basicSlave (s.classify s.nextCode) = .dataAccepted ∧
      bufferFits s.widths s.rx.ptr s.rx.len = true ∧ s.rx.len ≤ s.rx.cursor :=
  ⟨⟨inEvent 0x80 { ptr := 0xFFFD, len := 3, cursor := 2 } .atReset, rfl, rfl, by decide, rfl⟩,
    ⟨inEvent 0x80 { ptr := 0xFFFD, len := 3, cursor := 3 } .atReset, rfl, rfl, by decide, by decide⟩⟩

/-- `Obligations.SlaveStepsIgnoreTheRest`: a class that both ignore. -/
theorem witness_ignored : ∃ s : State, s.flow = .event ∧ basicSlave (s.classify s.nextCode) = .signalReceived :=
  ⟨inEvent 0xA0 .atReset .atReset, rfl, rfl⟩

/-- `Obligations.ReceiverDescriptorCommands`, `Obligations.TransmitterDescriptorCommands`: the caller flow, and a buffer that
ends at the top of memory. -/
theorem witness_bind : State.reset.flow = .caller ∧ bufferFits State.reset.widths 0xFFFF 1 = true := by decide

/-- `Obligations.TransmitterEmits`: a restart, the last byte, and no more data. -/
theorem witness_transmitter :
    (∃ s : State, s.flow = .event ∧ basicSlave (s.classify s.nextCode) = .addressedAsTransmitter ∧
      s.tx.cursor < s.tx.len ∧ bufferFits s.widths s.tx.ptr s.tx.len = true) ∧
    (∃ s : State, s.flow = .event ∧ basicSlave (s.classify s.nextCode) = .nextDataAccepted ∧
      s.tx.cursor + 1 = s.tx.len ∧ bufferFits s.widths s.tx.ptr s.tx.len = true) ∧
    ∃ s : State, s.flow = .event ∧ basicSlave (s.classify s.nextCode) = .nextDataAccepted ∧
      s.tx.len ≤ s.tx.cursor ∧ bufferFits s.widths s.tx.ptr s.tx.len = true :=
  ⟨⟨inEvent 0xA8 .atReset { ptr := 0x0400, len := 2, cursor := 1 }, rfl, rfl, by decide, by decide⟩,
    ⟨inEvent 0xB8 .atReset { ptr := 0xFFFE, len := 2, cursor := 1 }, rfl, rfl, rfl, by decide⟩,
    ⟨inEvent 0xB8 .atReset { ptr := 0xFFFE, len := 2, cursor := 2 }, rfl, rfl, by decide, by decide⟩⟩

/-- `Obligations.EventStepsOwnOnlyTheirBuffer`: both event steps run. -/
theorem witness_event_steps :
    (∃ s t, exec .rxEvent s = .next t) ∧ (∃ s t, exec .txEvent s = .next t) :=
  ⟨⟨inEvent 0x80 { ptr := 0x0300, len := 3, cursor := 2 } .atReset, _, rfl⟩,
    ⟨inEvent 0xB8 .atReset { ptr := 0x0400, len := 2, cursor := 1 }, _, rfl⟩⟩

/-- `Obligations.CompleteTransfersStay`, `Obligations.EventFlowTouchesOnlyItsOwn`: an event with both transfers complete, a
command of the event flow, and what it does at a boundary. -/
theorem witness_event_flow :
    (∃ s t : State, runEventFlow s = .next t ∧ s.rx.cursor = s.rx.len ∧ s.rx.len = 3 ∧ s.tx.cursor = s.tx.len) ∧
    issuer .rxEvent ≠ some .caller ∧ issuer .rxNext ≠ some .caller ∧
    (∃ s t : State, s.flow = .event ∧ exec .rxNext s = .next t) ∧
    ∃ s t : State, s.flow = .caller ∧ servePreemptions [.hwEvent, .command ⟨32, 0x00000032⟩, .readResponse] s = .next t :=
  ⟨⟨{ inEvent 0x80 { ptr := 0x0300, len := 3, cursor := 3 } .atReset with flow := .caller }, _, rfl, rfl, rfl, rfl⟩,
    by decide, by decide, ⟨inEvent 0x80 .atReset .atReset, _, rfl, rfl⟩, ⟨env [] [] [0x80] [], _, rfl, rfl⟩⟩

/-- `Obligations.ConfigurationCommands`: the caller flow, and the greatest timeout. -/
theorem witness_caller : State.reset.flow = .caller ∧ timeFits State.reset.widths 0xFFFFFFFF = true := by decide

/-- `Obligations.WrongFlowIsRefused`: each flow, issuing a command of the other, and a packet at a boundary. -/
theorem witness_wrong_flow :
    issuer .rxEvent = some .event ∧ State.reset.flow ≠ .event ∧
    issuer .rxAvail = some .caller ∧ (inEvent 0x60 .atReset .atReset).flow ≠ .caller ∧
    decode State.reset.widths ⟨32, 0x00000034⟩ = .ok (.rxAvail, .empty) := ⟨rfl, by decide, rfl, by decide, rfl⟩

/-- `Obligations.SecondMasterCommandIsRefused`: a master command while another waits. -/
theorem witness_busy : ∃ (s : State) (r : Run), isMaster .sigStop = true ∧ Instr.wellFormed s.widths .sigStop = true ∧
    s.flow = .caller ∧ s.seq = .run r :=
  ⟨{ State.reset with seq := .run (waiting .noDeadline) }, _, rfl, rfl, rfl, rfl⟩

/-- The machine after reset with one thing to do. -/
def doing (i : Issue) : State := { State.reset with issues := [i] }

/-- `Obligations.RacingAccessesAreRefused`: the last byte of a buffer that the receiver fills, the byte after one that the
transmitter drains, the last byte of memory and the first address after it. -/
theorem witness_racing :
    (∃ s : State, s.seq = .idle ∧ s.issues = [.callerRead 0x0302] ∧ 0x0302 < s.memSize ∧ s.rx.cursor < s.rx.len ∧
      s.rx.Holds 0x0302 ∧ 0x0302 + 1 = s.rx.ptr + s.rx.len) ∧
    (∃ s : State, s.seq = .idle ∧ s.issues = [.callerWrite 0x0303 1#8] ∧ 0x0303 < s.memSize ∧ s.tx.cursor < s.tx.len ∧
      ¬ (s.tx.cursor < s.tx.len ∧ s.tx.Holds 0x0303) ∧ 0x0303 = s.tx.ptr + s.tx.len) ∧
    (∃ s : State, s.seq = .idle ∧ s.issues = [.callerRead 0xFFFF] ∧ 0xFFFF + 1 = s.memSize) ∧
    ∃ s : State, s.seq = .idle ∧ s.issues = [.callerWrite 0x10000 1#8] ∧ s.memSize = 0x10000 :=
  ⟨⟨{ doing (.callerRead 0x0302) with rx := { ptr := 0x0300, len := 3, cursor := 2 } },
      rfl, rfl, by decide, by decide, ⟨by decide, by decide⟩, rfl⟩,
    ⟨{ doing (.callerWrite 0x0303 1#8) with tx := { ptr := 0x0300, len := 3, cursor := 2 } },
      rfl, rfl, by decide, by decide, fun h => absurd h.2.2 (by decide), rfl⟩,
    ⟨doing (.callerRead 0xFFFF), rfl, rfl, rfl⟩, ⟨doing (.callerWrite 0x10000 1#8), rfl, rfl, rfl⟩⟩

/-- `Obligations.RacingAccessesAreRefused`: a response that is not there yet, and one that is, in each flow. -/
theorem witness_responses :
    (∃ s : State, s.seq = .idle ∧ s.issues = [.readResponse .caller] ∧ s.rspCaller.returned = false) ∧
    (∃ s : State, s.seq = .idle ∧ s.issues = [.readResponse .caller] ∧ s.rspCaller.returned = true) ∧
    (∃ s : State, s.issues = [.readResponse .event] ∧ s.rspEvent.returned = false) ∧
    ∃ s : State, s.issues = [.readResponse .event] ∧ s.rspEvent.returned = true :=
  ⟨⟨doing (.readResponse .caller), rfl, rfl, rfl⟩,
    ⟨{ doing (.readResponse .caller) with rspCaller := { code := 0x00#8, high := 0x00#8, returned := true } }, rfl, rfl, rfl⟩,
    ⟨doing (.readResponse .event), rfl, rfl⟩,
    ⟨{ doing (.readResponse .event) with rspEvent := { code := 0x00#8, high := 0x00#8, returned := true } }, rfl, rfl⟩⟩

/-- `Obligations.HardwareEventRunsBothSteps`: an event between commands, and what the event flow does at a boundary: nothing,
an event and then a packet, a packet, a read of its response. -/
theorem witness_hardware_event :
    State.reset.params.dispatch = .rxThenTx ∧ (doing .hwEvent).issues = [.hwEvent] ∧
    (∃ later, State.reset.hw.interrupts.take = ([], later)) ∧
    (∃ later, (scheduled [.hwEvent, .command ⟨32, 0x00000032⟩] []).hw.interrupts.take =
      ([.hwEvent, .command ⟨32, 0x00000032⟩], later)) ∧
    (∃ later, (scheduled [.command ⟨32, 0x00000032⟩] []).hw.interrupts.take = ([.command ⟨32, 0x00000032⟩], later)) ∧
    ∃ (s : State) (later : Answers (List Preemption)), s.hw.interrupts.take = ([.readResponse], later) ∧
      s.rspEvent.returned = true :=
  ⟨rfl, rfl, ⟨_, rfl⟩, ⟨_, rfl⟩, ⟨_, rfl⟩,
    ⟨{ scheduled [.readResponse] [] with rspEvent := { code := 0x00#8, high := 0x00#8, returned := true } }, _, rfl, rfl⟩⟩

/-! ### Reset, invariants, hangs -/

/-- `Obligations.ResetValues`. -/
theorem witness_reset_event : ∃ s : State, s.issues = [.resetEvent] ∧ s.cfgTimeout ≠ s.params.resetTimeout :=
  ⟨{ State.reset with issues := [.resetEvent], cfgTimeout := 7 }, rfl, by decide⟩

/-- `Obligations.AfterReset`: both kinds of addressing after a reset, and the event flow runs. -/
theorem witness_after_reset :
    (∃ s : State, basicSlave (s.resetBlock.classify s.resetBlock.nextCode) = .addressedAsReceiver ∧
      ∃ t, runEventFlow s.resetBlock = .next t) ∧
    ∃ s : State, basicSlave (s.resetBlock.classify s.resetBlock.nextCode) = .addressedAsTransmitter :=
  ⟨⟨env [] [] [0x60] [], rfl, _, rfl⟩, ⟨env [] [] [0xA8] [], rfl⟩⟩

/-- A command in the middle of a receive into a buffer, in a memory that holds a byte. -/
def midReceive : State :=
  { oneEvent 0x58 with
    mem := [(0xFFFE, 0x11#8)]
    seq := .run { Run.issue .recvBuf { ptr := 0xFFFE, len := 2 } with idx := 1, phase := .poll .recvBuf } }

/-- `Obligations.ResetMeetsTheInvariant`: other legal parameters, with the smallest widths. -/
theorem witness_params :
    Params.legal { Params.default with widths := { tw := 1, rcw := 1, aw := 1, lw := 1 }, resetTimeout := 1 } = true := by
  decide

/-- `Obligations.StepKeepsTheInvariant`, and the second clause of `Obligations.AckIsLeftClearAfterTheLastByte`: a state that
meets the invariant with a command running that nothing disturbs, and steps to a next state. -/
theorem witness_invariant : midReceive.Inv ∧ ends (step midReceive) 0
    [.eventComplete true, .readStatus 0x58, .readData 0x7E#8, .memWrite 0xFFFF 0x7E#8]
    (fun t => t.mem = [(0xFFFE, 0x11#8), (0xFFFF, 0x7E#8)]) = true :=
  ⟨⟨by decide, by decide, by decide, by decide, by decide, by decide⟩, by decide⟩

/-- `Obligations.InvariantStatesDoNotFault`: the one fault, in a state that meets the invariant. -/
theorem witness_fault : (doing (.callerRead 0x10000)).Inv ∧ step (doing (.callerRead 0x10000)) = .fault (.noSuchByte 0x10000) :=
  ⟨⟨by decide, by decide, by decide, by decide, by decide, by decide⟩, rfl⟩

/-- `Obligations.OnlyTableArmCallsAreMade`, `Obligations.StepPreservesWhatNoCommandWrites`,
`Obligations.RegistersAreWrittenByTheirCommands`: steps that go to a next state, with an arm call and with a register written. -/
theorem witness_steps :
    ends (step { State.reset with issues := [.command .caller ⟨32, 0x00000012⟩] }) 0 [.arm .armStop]
      (fun t => t.flow = .caller) = true ∧
    ends (step { State.reset with issues := [.command .caller ⟨64, 0x00000005_00000040⟩] })
      0 [] (fun t => t.cfgTimeout = 5) = true := by decide

/-- `Obligations.HangsAreInfiniteExecutions`, the waits: one without a deadline, and one under a clock that stands still at
the deadline itself, with inputs that answer in a loop. -/
theorem witness_hangs :
    (∃ (s : State) (r : Run), s.seq = .run r ∧ s.issues = [] ∧ s.hw.interrupts = .always [] ∧ s.hw.event = false ∧
      (∀ e ∈ s.hw.raises.after :: (s.hw.raises.queue ++ s.hw.raises.loop), e = false) ∧ r.phase = .poll .start ∧
      r.ctx.dl = .noDeadline) ∧
    ∃ (s : State) (r : Run), s.seq = .run r ∧ s.issues = [] ∧ s.hw.interrupts = .always [] ∧ s.hw.event = false ∧
      (∀ e ∈ s.hw.raises.after :: (s.hw.raises.queue ++ s.hw.raises.loop), e = false) ∧ r.phase = .poll .start ∧
      r.ctx.dl = .atTime 200 ∧
      (∀ x ∈ s.hw.clock.after :: (s.hw.clock.queue ++ s.hw.clock.loop), x % 2 ^ s.widths.tw = 200) ∧ s.hw.lastNow ≤ 200 :=
  ⟨⟨{ State.reset with seq := .run (waiting .noDeadline) }, _, rfl, rfl, rfl, rfl, by decide, rfl, rfl⟩,
    ⟨{ State.reset with
        seq := .run (waiting (.atTime 200))
        hw := { Collaborator.atReset with
          raises := { queue := [false], after := false, loop := [false] }
          clock := { queue := [200], after := 200, loop := [0x100000000 + 200] } } },
      _, rfl, rfl, rfl, rfl, by decide, rfl, rfl, by decide, by decide⟩⟩

/-- A composite at its start, with the event complete at every sample and these status codes. -/
def losing (blb : BusLostBehaviour) (codes : Answers RawCode) : State :=
  { State.reset with
    cfgBlb := blb
    cfgTimeout := 5
    seq := .run { Run.issue .mSendB { addr := 0x50#7 } with phase := .begin }
    hw := { Collaborator.atReset with raises := .always true, codes := codes } }

/-- `Obligations.HangsAreInfiniteExecutions`, the endless losses: at every start under `RetryWithinTimeout`, and at every
address byte, 0x08 and 0x38 by turns, under `RetryExtendingTimeout` with a clock that stands still. -/
theorem witness_endless_loss :
    (∃ r, (losing .retryWithinTimeout (.always 0x38)).seq = .run r ∧ r.op.isComposite = true ∧ r.step = 0 ∧ r.idx = 0 ∧
      r.phase = .begin) ∧
    (losing .retryWithinTimeout (.always 0x38)).classify 0x38 = .arbLost ∧
    (losing .retryWithinTimeout (.always 0x38)).hw.raises = .always true ∧
    ∃ s : State, s = losing .retryExtendingTimeout { queue := [], after := 0x08, loop := [0x38] } ∧ s.issues = [] ∧
      s.hw.interrupts = .always [] ∧ s.hw.codes.queue = [] ∧ s.hw.codes.loop = [0x38] ∧
      s.classify (s.hw.codes.after % 2 ^ s.widths.rcw) = .start ∧ s.classify (0x38 % 2 ^ s.widths.rcw) = .arbLost ∧
      s.cfgBlb = .retryExtendingTimeout ∧
      (∀ x ∈ s.hw.clock.after :: (s.hw.clock.queue ++ s.hw.clock.loop), x % 2 ^ s.widths.tw = 0) ∧ s.hw.lastNow ≤ 0 ∧
      0 + s.cfgTimeout < 2 ^ s.widths.tw :=
  ⟨⟨_, rfl, rfl, rfl, rfl, rfl⟩, rfl, rfl, _, rfl, rfl, rfl, rfl, rfl, rfl, rfl, rfl, by decide, by decide, by decide⟩

/-- R192: 0x08 and 0x38 by turns, endlessly: the first two rounds. -/
theorem test_endless_loss :
    (match advance 14 (losing .retryWithinTimeout { queue := [], after := 0x08, loop := [0x38] }) with
      | .next t => decide (t.seq = (losing .retryWithinTimeout (.always 0)).seq) && decide (t.trace =
          [.arm .armStart, .eventComplete true, .readStatus 0x08, .writeData 0xA0#8, .arm .armGo, .eventComplete true,
           .readStatus 0x38, .arm .armStart, .eventComplete true, .readStatus 0x08, .writeData 0xA0#8, .arm .armGo,
           .eventComplete true, .readStatus 0x38])
      | .fault _ => false
      | .refused _ => false) = true := by decide

/-- R30, R31: a primitive issued on its own is at step 0 until it ends. -/
theorem test_lone_primitive_step :
    (match advance 3 (State.setRun (.issue .sigStart {}) (env [true] [] [0x08] [])) with
      | .next t => decide (t.seq = .idle) && decide (t.trace = [.arm .armStart, .eventComplete true, .readStatus 0x08])
      | .fault _ => false
      | .refused _ => false) = true := by decide

end Sys2Proof.Tests
end

namespace Sys2Proof.Machine

/-! ## One step of the machine, said once -/

/-- Everything a step that answers next can be (R266, R290, R304): the block waits, an issue is served, or the running command
goes on. -/
theorem step_cases {s t : State} (h : step s = .next t) :
    (s.issues = [] ∧ s.seq = .idle ∧ t = s) ∨
    (∃ i rest, s.issues = i :: rest ∧ (s.seq = .idle ∨ i.preempts = true) ∧ serve i { s with issues := rest } = .next t) ∨
    ∃ r, s.seq = .run r ∧ s.Undisturbed ∧ resume r s = .next t := by
  unfold step at h
  split at h
  case h_1 hi hq => cases h; exact .inl ⟨hi, hq, rfl⟩
  case h_2 r hi hq => exact .inr (.inr ⟨r, hq, by simp [State.Undisturbed, hi], h⟩)
  case h_3 i rest hi hq => exact .inr (.inl ⟨i, rest, hi, .inl hq, h⟩)
  case h_4 i rest r hi hq =>
    split at h
    · rename_i hp; exact .inr (.inl ⟨i, rest, hi, .inr hp, h⟩)
    · rename_i hp; exact .inr (.inr ⟨r, hq, by simpa [State.Undisturbed, hi] using hp, h⟩)

/-- A step keeps what serving an issue keeps, whatever it does. -/
theorem step_frame {s t : State} (h : step s = .next t) : ServeFrame s t := by
  rcases step_cases h with ⟨-, -, rfl⟩ | ⟨i, rest, -, -, hi⟩ | ⟨r, -, -, hr⟩
  · exact ⟨rfl, rfl, .refl _, id⟩
  · have f := serve_frame hi
    exact ⟨f.params, f.others, f.records, f.flow⟩
  · obtain ⟨f, hflow⟩ := advance_steady hr
    exact ⟨f.params, f.others, f.records, hflow⟩

/-- Settles O57: the record is part of what every step keeps. -/
theorem onlyTableArmCallsAreMade : Obligations.OnlyTableArmCallsAreMade :=
  fun _ _ h => (step_frame h).records

/-! ## Deadlines (R10) -/

theorem mkDeadline_timeoutMax (w : Widths) (t0 : Time) : mkDeadline w t0 w.timeoutMax = some .noDeadline := if_pos rfl

theorem mkDeadline_of_lt {w : Widths} {t0 timeout : Time} (hm : timeout ≠ w.timeoutMax) (hl : t0 + timeout < 2 ^ w.tw) :
    mkDeadline w t0 timeout = some (.atTime (t0 + timeout)) := by
  rw [mkDeadline, if_neg hm, if_pos hl]

theorem mkDeadline_overflow {w : Widths} {t0 timeout : Time} (hm : timeout ≠ w.timeoutMax) (hl : 2 ^ w.tw ≤ t0 + timeout) :
    mkDeadline w t0 timeout = none := by
  rw [mkDeadline, if_neg hm, if_neg (Nat.not_lt.2 hl)]

@[simp] theorem expired_noDeadline (t : Time) : expired .noDeadline t = false := rfl

@[simp] theorem expired_atTime {d t : Time} : expired (.atTime d) t = true ↔ d < t := decide_eq_true_iff

/-- A sample whose deadline would reach `2^TW` is refused. -/
theorem sampleDeadline_overflow {s v : State} {t : Time} {k : Deadline → State → State} (hn : now s = .next (t, v))
    (hd : mkDeadline s.widths t s.cfgTimeout = none) : sampleDeadline s k = .refused .deadlineOverflow := by
  rw [sampleDeadline, hn, andThen_next, hd]

/-- The two actions that make a deadline (R180, R188) refuse one that would reach `2^TW`. -/
theorem action_overflow {r : Run} {s v : State} {t : Time} (hp : r.phase = .enter ∨ r.phase = .extend)
    (hn : now s = .next (t, v)) (hd : mkDeadline s.widths t s.cfgTimeout = none) :
    action r s = .refused .deadlineOverflow := by
  rcases hp with hp | hp <;> rw [action, hp] <;> exact sampleDeadline_overflow hn hd

/-! ## A composite at its entry (R180) -/

/-- The operands that a command without a buffer and without a deadline leaves at 0 fit every machine. -/
theorem bufferFits_zero (w : Widths) : bufferFits w 0 0 = true := by simp [bufferFits_iff]

/-- A well-formed composite is a master command whose operands fit. -/
theorem exec_composite {i : Instr} {stop : Bool} {w : Widths} (hi : stopOperand i = some stop) (hw : i.wellFormed w = true) :
    ∃ op c, op.isComposite = true ∧ c.fits w = true ∧ exec i = issueMaster op c := by
  have fit {c : Ctx} (hb : bufferFits w c.ptr c.len = true) (hd : c.dl = .noDeadline) : c.fits w = true :=
    Ctx.fits_iff.2 ⟨hb, by rw [hd]; rfl⟩
  cases i <;> simp only [stopOperand, reduceCtorEq] at hi
  case mSendB addr data stop =>
    exact ⟨.mSendB, { addr := addr, data := data, stop := stop }, rfl, fit (bufferFits_zero w) rfl, rfl⟩
  case mSendBuf addr ptr len stop =>
    exact ⟨.mSendBuf, { addr := addr, ptr := ptr, len := len, stop := stop }, rfl, fit hw rfl, rfl⟩
  case mRecvB addr stop =>
    exact ⟨.mRecvB, { addr := addr, stop := stop }, rfl, fit (bufferFits_zero w) rfl, rfl⟩
  case mRecvBuf addr ptr len stop =>
    exact ⟨.mRecvBuf, { addr := addr, ptr := ptr, len := len, stop := stop }, rfl, fit hw rfl, rfl⟩
  case mRecvReg addr reg ptr len rs stop =>
    exact ⟨.mRecvReg, { addr := addr, reg := reg, ptr := ptr, len := len, rs := rs, stop := stop }, rfl, fit hw rfl, rfl⟩

/-- A composite begins with its entry sample. -/
theorem Run.issue_phase_of_composite {op : MasterOp} (h : op.isComposite = true) (c : Ctx) :
    (Run.issue op c).phase = .enter := if_pos h

theorem actionBudget_pos (len : Nat) (s : State) : 0 < actionBudget len s := by unfold actionBudget; omega

/-- A command that may be issued is refused when its first action is. -/
theorem issueMaster_refused {op : MasterOp} {c : Ctx} {s : State} {e : Refusal} (hs : s.Ready) (hc : c.fits s.widths = true)
    (ha : action (.issue op c) (s.setRun (.issue op c)) = .refused e) : issueMaster op c s = .refused e := by
  obtain ⟨n, hn⟩ := Nat.exists_eq_succ_of_ne_zero (actionBudget_pos c.len s).ne'
  rw [issueMaster_ready hs hc, hn, advance_succ (State.setRun_seq _ _) hs.quiet, ha, andThen_refused]

/-- A composite whose entry sample gives a deadline that would reach `2^TW` is refused. -/
theorem exec_composite_overflow {i : Instr} {stop : Bool} {s v : State} {t : Time} (hi : stopOperand i = some stop)
    (hw : i.wellFormed s.widths = true) (hs : s.Ready) (hn : now s = .next (t, v))
    (hd : mkDeadline s.widths t s.cfgTimeout = none) : exec i s = .refused .deadlineOverflow := by
  obtain ⟨op, c, hop, hc, he⟩ := exec_composite hi hw
  rw [he]
  exact issueMaster_refused hs hc
    (action_overflow (.inl (Run.issue_phase_of_composite hop c)) (now_setRun hn _) hd)

/-- Settles O12: the three cases of `mkDeadline`, the strict comparison, and the refusal by the action that makes the deadline,
which for a composite is its first. -/
theorem deadlineArithmetic : Obligations.DeadlineArithmetic := by
  refine ⟨fun w t0 timeout => ⟨?_, mkDeadline_of_lt, mkDeadline_overflow⟩, fun t d => ⟨rfl, expired_atTime⟩, ?_, ?_⟩
  · rintro rfl
    exact mkDeadline_timeoutMax w t0
  · intro i stop s v t hi hw hs hn hm hl
    exact exec_composite_overflow hi hw hs hn (mkDeadline_overflow hm hl)
  · intro r s v t hp hn hm hl
    exact action_overflow hp hn (mkDeadline_overflow hm hl)

/-! ## The arm calls (R13, R108) -/

/-- Settles O11: the table is its eight entries, and the two bit vectors of each are computed. -/
theorem armCallsAreTheTable : Obligations.ArmCallsAreTheTable := by
  constructor
  · rfl
  · decide

end Sys2Proof.Machine

namespace Sys2Proof.Machine

/-! ## Every step, from what serving an issue and a group of actions keep -/

/-- Settles O55: a step that answers next waits, serves an issue or goes on with the running command, and each of these keeps
the invariant. -/
theorem stepKeepsTheInvariant : Obligations.StepKeepsTheInvariant := by
  intro s t hI h
  rcases step_cases h with ⟨-, -, rfl⟩ | ⟨i, rest, -, -, hi⟩ | ⟨r, -, -, hr⟩
  · exact hI
  · exact serve_inv (s := { s with issues := rest }) (hI.of_eq rfl rfl rfl rfl rfl rfl) hi
  · exact advance_inv hI hr

/-- Settles O58: the three facts are part of what every step keeps. -/
theorem stepPreservesWhatNoCommandWrites : Obligations.StepPreservesWhatNoCommandWrites := by
  intro s t h
  obtain ⟨hparams, hothers, -, hflow⟩ := step_frame h
  exact ⟨hothers, hparams, hflow⟩

/-! ## Reset (R50, R290) -/

/-- What is issued next is served when no master command runs or when it goes before the running one (R266, R290, R304). -/
theorem step_serve {s : State} {i : Issue} {rest : List Issue} (hi : s.issues = i :: rest)
    (hp : s.seq = .idle ∨ i.preempts = true) : step s = serve i { s with issues := rest } := by
  unfold step
  cases hs : s.seq with
  | idle => simp only [hi]
  | run r =>
    have hpre : i.preempts = true := hp.resolve_left (by simp [hs])
    simp only [hi, hpre, if_true]

/-- A descriptor after reset is good on every machine: it is empty (R24, R36). -/
theorem Desc.good_atReset (w : Widths) : Desc.good w .atReset = true :=
  Desc.good_iff.2 ⟨Nat.le_refl 0, bufferFits_zero w⟩

/-- The invariant right after reset: empty memory, empty descriptors, `SEQ` idle, the timeout of legal parameters. -/
theorem resetWith_inv {p : Params} (h : p.legal = true) : (State.resetWith p).Inv where
  params := h
  mem := rfl
  rx := Desc.good_atReset p.widths
  tx := Desc.good_atReset p.widths
  seq := rfl
  timeout := (Bool.and_eq_true_iff.1 h).2

/-- Settles O54: `State.reset` has the default parameters, which are legal. -/
theorem resetMeetsTheInvariant : Obligations.ResetMeetsTheInvariant :=
  ⟨resetWith_inv (by decide), fun _ => resetWith_inv⟩

/-- Settles O52: a reset event is served at once, and the values are those of `State.resetBlock` and `State.resetWith`. -/
theorem resetValues : Obligations.ResetValues := by
  constructor
  · intro s rest hi
    exact ⟨({ s with issues := rest } : State).resetBlock, step_serve hi (.inr rfl), rfl, rfl, rfl, rfl, rfl, rfl, rfl, rfl,
      rfl, rfl, rfl, rfl, rfl⟩
  · intro p
    exact ⟨rfl, rfl, rfl, rfl, rfl, rfl, rfl, rfl, rfl, rfl, rfl⟩

/-! ## The configuration and the bindings (R25, R40, R41) -/

/-- The configuration is kept, the schedule of the event flow only gets used up, and a descriptor has the buffer it had or one
that this schedule binds (R112, R215, R234). -/
structure Rebinds (s t : State) : Prop where
  params : t.params = s.params
  timeout : t.cfgTimeout = s.cfgTimeout
  blb : t.cfgBlb = s.cfgBlb
  schedule : ∀ p, t.hw.Schedules p → s.hw.Schedules p
  rx : (t.rx.ptr = s.rx.ptr ∧ t.rx.len = s.rx.len) ∨ s.MayBindRx t.rx.ptr t.rx.len
  tx : (t.tx.ptr = s.tx.ptr ∧ t.tx.len = s.tx.len) ∨ s.MayBindTx t.tx.ptr t.tx.len

theorem Rebinds.refl (s : State) : Rebinds s s := ⟨rfl, rfl, rfl, fun _ => id, .inl ⟨rfl, rfl⟩, .inl ⟨rfl, rfl⟩⟩

theorem Rebinds.mayBindRx {s t : State} (h : Rebinds s t) {ptr : Addr} {len : Len} :
    t.MayBindRx ptr len → s.MayBindRx ptr len := by
  rintro ⟨packet, rest, hs, hd⟩
  rw [State.widths_eq, h.params] at hd
  exact ⟨packet, rest, h.schedule _ hs, hd⟩

theorem Rebinds.mayBindTx {s t : State} (h : Rebinds s t) {ptr : Addr} {len : Len} :
    t.MayBindTx ptr len → s.MayBindTx ptr len := by
  rintro ⟨packet, rest, hs, hd⟩
  rw [State.widths_eq, h.params] at hd
  exact ⟨packet, rest, h.schedule _ hs, hd⟩

theorem Rebinds.trans {s t u : State} (h : Rebinds s t) (k : Rebinds t u) : Rebinds s u where
  params := k.params.trans h.params
  timeout := k.timeout.trans h.timeout
  blb := k.blb.trans h.blb
  schedule p hp := h.schedule p (k.schedule p hp)
  rx := by
    rcases k.rx with ⟨hptr, hlen⟩ | hb
    · rw [hptr, hlen]; exact h.rx
    · exact .inr (h.mayBindRx hb)
  tx := by
    rcases k.tx with ⟨hptr, hlen⟩ | hb
    · rw [hptr, hlen]; exact h.tx
    · exact .inr (h.mayBindTx hb)

/-- What leaves the schedule and both buffers alone rebinds nothing. -/
theorem Steady.rebinds {s t : State} (h : Steady s t) (hi : t.hw.interrupts = s.hw.interrupts)
    (hr : t.rx.ptr = s.rx.ptr ∧ t.rx.len = s.rx.len) (ht : t.tx.ptr = s.tx.ptr ∧ t.tx.len = s.tx.len) : Rebinds s t :=
  ⟨h.params, h.timeout, h.blb, fun p hp => by rwa [Collaborator.Schedules, hi] at hp, .inl hr, .inl ht⟩

theorem EventFrame.rebinds {s t : State} (h : EventFrame s t) : Rebinds s t :=
  h.toSteady.rebinds h.quiet ⟨h.rxPtr, h.rxLen⟩ ⟨h.txPtr, h.txLen⟩

theorem Acts.rebinds {r : Run} {s t : State} (h : Acts r s t) : Rebinds s t :=
  h.steady.rebinds h.quiet (by rw [h.rx]; exact ⟨rfl, rfl⟩) (by rw [h.tx]; exact ⟨rfl, rfl⟩)

/-- What the event flow does at the next boundary is part of its schedule. -/
theorem Collaborator.schedules_next {h : Collaborator} {p : Preemption} (hp : p ∈ h.interrupts.take.1) : h.Schedules p :=
  ⟨_, Answers.take_mem h.interrupts, hp⟩

theorem BoundaryFrame.rebinds {s t : State} (h : BoundaryFrame s t) : Rebinds s t where
  params := h.params
  timeout := h.timeout
  blb := h.blb
  schedule := by
    rintro p ⟨ps, hps, hp⟩
    rw [h.schedule] at hps
    exact ⟨ps, Answers.take_sub hps, hp⟩
  rx := h.rx.imp_right fun ⟨packet, rest, hp, hd⟩ => ⟨packet, rest, Collaborator.schedules_next hp, hd⟩
  tx := h.tx.imp_right fun ⟨packet, rest, hp, hd⟩ => ⟨packet, rest, Collaborator.schedules_next hp, hd⟩

theorem advance_rebinds {n : Nat} {s t : State} (h : advance n s = .next t) : Rebinds s t :=
  advance_induction (P := Rebinds s) n
    (fun _ _ _ _ _ hv hb ha => (hv.trans (atBoundary_frame hb).rebinds).trans (action_acts ha).rebinds) (.refl s) h

theorem issueMaster_rebinds {op : MasterOp} {c : Ctx} {s t : State} (he : issueMaster op c s = .next t) : Rebinds s t := by
  obtain ⟨-, hk⟩ := onlyFlow_eq_next.1 he
  split at hk
  · split at hk
    · exact ((steady_setRun _ s).rebinds rfl ⟨rfl, rfl⟩ ⟨rfl, rfl⟩).trans (advance_rebinds hk)
    · cases hk
  · cases hk
    exact (steady_respondIllegal s).rebinds rfl ⟨rfl, rfl⟩ ⟨rfl, rfl⟩

/-- The four commands that write the configuration or bind a buffer, with what they write (R25, R40, R41). -/
inductive Writes (s : State) : Instr → State → Prop where
  | timeout (time : Time) (hf : s.flow = .caller) : Writes s (.setTimeout time) (respond 0#8 { s with cfgTimeout := time })
  | blb (blb : BusLostBehaviour) (hf : s.flow = .caller) : Writes s (.setBlb blb) (respond 0#8 { s with cfgBlb := blb })
  | rx (ptr : Addr) (len : Len) :
      Writes s (.rxBind ptr len) (respond 0#8 { s with rx := { ptr := ptr, len := len, cursor := 0 } })
  | tx (ptr : Addr) (len : Len) :
      Writes s (.txBind ptr len) (respond 0#8 { s with tx := { ptr := ptr, len := len, cursor := 0 } })

/-- A command writes its own register, or it keeps the configuration and binds at most what is scheduled. -/
theorem exec_writes {i : Instr} {s t : State} (he : exec i s = .next t) : Rebinds s t ∨ Writes s i t := by
  have illegal : Rebinds s (respondIllegal s) := (eventFrame_respondIllegal s).rebinds
  have query {c : Byte} (h : onlyFlow .caller s (.next (respond c (readStatus s).2)) = .next t) : Rebinds s t := by
    obtain ⟨-, hk⟩ := onlyFlow_eq_next.1 h
    cases hk
    exact ((eventFrame_readStatus s).trans (eventFrame_respond _ _)).rebinds
  have answer {c : Byte} (h : onlyFlow .caller s (.next (respond c s)) = .next t) : Rebinds s t := by
    obtain ⟨-, hk⟩ := onlyFlow_eq_next.1 h
    cases hk
    exact (eventFrame_respond _ s).rebinds
  cases i <;> simp only [exec] at he
  case stMaster => exact .inl (query he)
  case stBasic => exact .inl (query he)
  case stDetail => exact .inl (query he)
  case rxEvent => exact .inl (eventStep_frame (e := .rx) (onlyFlow_eq_next.1 he).2).rebinds
  case txEvent => exact .inl (eventStep_frame (e := .tx) (onlyFlow_eq_next.1 he).2).rebinds
  case rxNext => cases he; exact .inl ((eventFrame_rxCursor s (Nat.zero_le _)).trans (eventFrame_respond _ _)).rebinds
  case txAgain => cases he; exact .inl ((eventFrame_txCursor s (Nat.zero_le _)).trans (eventFrame_respond _ _)).rebinds
  case rxAvail => exact .inl (answer he)
  case txDone => exact .inl (answer he)
  case rxBind ptr len =>
    unfold execRxBind at he
    split at he
    · cases he; exact .inr (.rx ptr len)
    · cases he; exact .inl illegal
  case txBind ptr len =>
    unfold execTxBind at he
    split at he
    · cases he; exact .inr (.tx ptr len)
    · cases he; exact .inl illegal
  case setTimeout time =>
    obtain ⟨hf, hk⟩ := onlyFlow_eq_next.1 he
    split at hk
    · cases hk; exact .inr (.timeout time hf)
    · cases hk; exact .inl illegal
  case setBlb blb =>
    obtain ⟨hf, hk⟩ := onlyFlow_eq_next.1 he
    cases hk
    exact .inr (.blb blb hf)
  all_goals exact .inl (issueMaster_rebinds he)

/-- A hardware event binds nothing (R265). -/
theorem runEventFlow_rebinds {s t : State} (h : runEventFlow s = .next t) : Rebinds s t := by
  have f := runEventFlow_frame (p := .hwEvent) h
  refine f.toSteady.rebinds f.quiet (f.rx.resolve_right ?_) (f.tx.resolve_right ?_)
  · rintro ⟨_, _, hp, -⟩; simp at hp
  · rintro ⟨_, _, hp, -⟩; simp at hp

/-- Serving an issue: a reset, a packet that runs one of the four writing commands, or nothing that writes a register. -/
theorem serve_writes {i : Issue} {s t : State} (he : serve i s = .next t) :
    i = .resetEvent ∨ Rebinds s t ∨ ∃ f packet j after u, i = .command f packet ∧
      decode s.widths packet = .ok (j, after) ∧ Writes { s with flow := f } j u ∧ t = leaveEventFlow u := by
  cases i <;> simp only [serve] at he
  case command f packet =>
    rcases servePacket_cases he with ⟨j, after, u, hd, hu, rfl⟩ | rfl
    · rcases exec_writes hu with ⟨hp, ht, hb, hs, hrx, htx⟩ | hw
      · exact .inr (.inl ⟨hp, ht, hb, hs, hrx, htx⟩)
      · exact .inr (.inr ⟨f, packet, j, after, u, rfl, hd, hw, rfl⟩)
    · exact .inr (.inl ⟨rfl, rfl, rfl, fun _ => id, .inl ⟨rfl, rfl⟩, .inl ⟨rfl, rfl⟩⟩)
  case hwEvent => exact .inr (.inl (runEventFlow_rebinds he))
  case callerRead addr =>
    obtain ⟨q, hq, hk⟩ := andThen_eq_next.1 he
    cases hk
    unfold callerRead at hq
    split at hq
    · split at hq <;> cases hq
      exact .inr (.inl (.refl s))
    · cases hq
  case callerWrite addr b =>
    unfold callerWrite at he
    split at he
    · split at he <;> cases he
      exact .inr (.inl ⟨rfl, rfl, rfl, fun _ => id, .inl ⟨rfl, rfl⟩, .inl ⟨rfl, rfl⟩⟩)
    · cases he
  case readResponse f =>
    obtain ⟨q, hq, hk⟩ := andThen_eq_next.1 he
    cases hk
    unfold readResponse at hq
    split at hq <;> cases hq
    exact .inr (.inl (.refl s))
  case resetEvent => exact .inl rfl

/-- Settles O59: by what serving an issue writes; the running command and the boundaries inside it only bind what is
scheduled. -/
theorem registersAreWrittenByTheirCommands : Obligations.RegistersAreWrittenByTheirCommands := by
  intro s t h
  rcases step_cases h with ⟨-, -, rfl⟩ | ⟨i, rest, hi, -, he⟩ | ⟨r, -, -, hr⟩
  · exact .inr ⟨.inl rfl, .inl rfl, .inl ⟨rfl, rfl⟩, .inl ⟨rfl, rfl⟩⟩
  · rcases serve_writes he with rfl | k | ⟨f, packet, j, after, u, rfl, hd, hw, rfl⟩
    · exact .inl ⟨rest, hi⟩
    · exact .inr ⟨.inl k.timeout, .inl k.blb, k.rx.imp_right .inl, k.tx.imp_right .inl⟩
    · refine .inr ?_
      cases hw with
      | timeout time hf =>
        obtain rfl : f = .caller := hf
        exact ⟨.inr ⟨packet, after, rest, hi, hd⟩, .inl rfl, .inl ⟨rfl, rfl⟩, .inl ⟨rfl, rfl⟩⟩
      | blb blb hf =>
        obtain rfl : f = .caller := hf
        exact ⟨.inl rfl, .inr ⟨packet, after, rest, hi, hd⟩, .inl ⟨rfl, rfl⟩, .inl ⟨rfl, rfl⟩⟩
      | rx ptr len =>
        exact ⟨.inl rfl, .inl rfl, .inr (.inr ⟨rfl, f, packet, after, rest, hi, hd⟩), .inl ⟨rfl, rfl⟩⟩
      | tx ptr len =>
        exact ⟨.inl rfl, .inl rfl, .inl ⟨rfl, rfl⟩, .inr (.inr ⟨rfl, f, packet, after, rest, hi, hd⟩)⟩
  · have k := advance_rebinds hr
    exact .inr ⟨.inl k.timeout, .inl k.blb, k.rx.imp_right .inl, k.tx.imp_right .inl⟩

/-! ## The event steps own their cursor and the bound buffer (R26) -/

/-- An address before a descriptor's buffer or past its last byte is not held by it. -/
theorem Desc.not_holds {d : Desc} {a : Nat} (h : a < d.ptr ∨ d.ptr + d.len ≤ a) : ¬ d.Holds a := by
  rintro ⟨hlo, hhi⟩
  rcases h with h | h
  · exact Nat.not_le.2 h hlo
  · exact Nat.not_lt.2 h hhi

theorem rxArmNext_tx (s : State) : (rxArmNext s).tx = s.tx := by unfold rxArmNext; split <;> rfl

/-- The receiver's step leaves the transmitter's descriptor alone. -/
theorem rxEventStep_tx {s t : State} (h : rxEventStep s = .next t) : t.tx = s.tx := by
  rcases rxEventStep_cases h with rfl | rfl | ⟨-, rfl⟩ | ⟨-, -, rfl⟩
  · rfl
  · rfl
  · rfl
  · rw [respond_tx, rxArmNext_tx]; rfl

theorem txEmit_rx_mem {s t : State} (h : txEmit s = .next t) : t.rx = s.rx ∧ t.mem = s.mem := by
  rcases txEmit_cases h with ⟨-, rfl⟩ | ⟨-, -, rfl⟩ <;> exact ⟨rfl, rfl⟩

/-- The transmitter's step leaves the receiver's descriptor and buffer memory alone. -/
theorem txEventStep_rx_mem {s t : State} (h : txEventStep s = .next t) : t.rx = s.rx ∧ t.mem = s.mem := by
  rcases txEventStep_cases h with rfl | ⟨u, hu, rfl⟩ | ⟨-, u, hu, rfl⟩
  · exact ⟨rfl, rfl⟩
  · exact txEmit_rx_mem (s := (readStatus s).2) (t := u) hu
  · exact txEmit_rx_mem (s := (readStatus s).2.setTxCursor 0) (t := u) hu

/-- Settles O42: the bindings and the bytes outside the bound buffer by the frame of an event step, the other descriptor and
the transmitter's memory by what each step can do. -/
theorem eventStepsOwnOnlyTheirBuffer : Obligations.EventStepsOwnOnlyTheirBuffer := by
  intro s t
  constructor
  · intro h
    have hs := (onlyFlow_eq_next.1 h).2
    have f := eventStep_frame (e := .rx) hs
    exact ⟨f.rxPtr, f.rxLen, rxEventStep_tx hs, fun a ha => f.outside a (Desc.not_holds ha)⟩
  · intro h
    have hs := (onlyFlow_eq_next.1 h).2
    have f := eventStep_frame (e := .tx) hs
    exact ⟨f.txPtr, f.txLen, txEventStep_rx_mem hs⟩

/-! ## The buffer a running command stores to (R61) -/

/-- An address that is no byte of a buffer: none of those that the meaning computes for it (R11, R61). -/
def OffBuffer (buf : Option (Addr × Len)) (a : Nat) : Prop :=
  ∀ ptr len, buf = some (ptr, len) → ∀ k, k < len → a ≠ bufferAddr ptr k

theorem offBuffer_of_some {buf : Option (Addr × Len)} {ptr : Addr} {len : Len} {a : Nat} (h : buf = some (ptr, len))
    (ha : ∀ k, k < len → a ≠ bufferAddr ptr k) : OffBuffer buf a := by
  rintro ptr' len' h'
  obtain ⟨rfl, rfl⟩ : ptr = ptr' ∧ len = len' := by simpa using h.symm.trans h'
  exact ha

/-- The buffer of a running command is that of its context when the command stores, and none otherwise. -/
theorem Run.storesTo_eq (r : Run) : r.storesTo = if r.op.stores then some (r.ctx.ptr, r.ctx.len) else none := by
  unfold Run.storesTo
  cases r.op <;> rfl

/-- A command that goes on keeps its buffer: only its deadline can change. -/
theorem Run.Same.storesTo {r r' : Run} (h : r.Same r') : r'.storesTo = r.storesTo := by
  obtain ⟨hop, dl, hctx⟩ := h
  rw [Run.storesTo_eq, Run.storesTo_eq, hop, hctx]

theorem Issued.storesTo {i : Instr} {s t : State} {op : MasterOp} {c : Ctx} {n : Nat} (h : Issued i s t op c n) :
    (Run.issue op c).storesTo = storesTo i := by
  rw [Run.storesTo_eq]
  change (if op.stores then some (c.ptr, c.len) else none) = _
  split
  · rename_i hs; exact (h.buffer hs).symm
  · rename_i hs; exact (h.noBuffer (by simpa using hs)).symm

/-- An action of a command in good order leaves memory alone or stores one byte of the command's buffer. -/
theorem action_stores {w : Widths} {r : Run} {s t : State} (hg : r.good w = true) (ha : action r s = .next t) :
    t.mem = s.mem ∨ ∃ ptr len k b, r.storesTo = some (ptr, len) ∧ k < len ∧ t.mem = s.mem.write (bufferAddr ptr k) b := by
  rcases action_mem hg ha with hm | ⟨hs, b, hlt, hm⟩
  · exact .inl hm
  · exact .inr ⟨r.ctx.ptr, r.ctx.len, r.idx, b, by rw [Run.storesTo_eq, if_pos hs], hlt, hm⟩

/-- An action of a command in good order changes no byte off the command's buffer. -/
theorem action_offBuffer {w : Widths} {r : Run} {s t : State} {a : Nat} (hg : r.good w = true) (ha : action r s = .next t)
    (hoff : OffBuffer r.storesTo a) : t.mem.read a = s.mem.read a := by
  rcases action_stores hg ha with hm | ⟨ptr, len, k, b, hbuf, hlt, hm⟩
  · rw [hm]
  · rw [hm, Memory.read_write_other (hoff ptr len hbuf k hlt).symm]

/-- An action of a command in good order that has no buffer to store to leaves memory alone. -/
theorem action_unwritten {w : Widths} {r : Run} {s t : State} (hg : r.good w = true) (ha : action r s = .next t)
    (hbuf : r.storesTo = none) : t.mem = s.mem := by
  rcases action_stores hg ha with hm | ⟨ptr, len, k, b, hbuf', -⟩
  · exact hm
  · rw [hbuf] at hbuf'; cases hbuf'

/-- A command at issue is running and in good order. -/
theorem isRunning_issue {op : MasterOp} {c : Ctx} {s : State} (hc : c.fits s.widths = true) :
    (s.setRun (.issue op c)).IsRunning (.issue op c) := .inr ⟨_, rfl, Run.good_issue op hc, .refl _⟩

/-- In a state that meets the invariant the running command is in good order. -/
theorem State.Inv.isRunning {s : State} {r : Run} (h : s.Inv) (hs : s.seq = .run r) : s.IsRunning r :=
  .inr ⟨r, hs, h.run hs, .refl r⟩

theorem State.IsRunning.run {r₀ r : Run} {s : State} (h : s.IsRunning r₀) (hs : s.seq = .run r) :
    r.good s.widths = true ∧ r₀.Same r := by
  rcases h with hi | ⟨r', hr, hg, hsame⟩
  · rw [hi] at hs; cases hs
  · obtain rfl : r' = r := by simpa using hr.symm.trans hs
    exact ⟨hg, hsame⟩

/-! ## The frame that no event interrupts -/

/-- What a master command that no event interrupts changes beside `SEQ`, the caller's response, the collaborator and the
record: bytes of its buffer (R61). -/
structure QuietFrame (buf : Option (Addr × Len)) (s t : State) : Prop extends Steady s t where
  rx : t.rx = s.rx
  tx : t.tx = s.tx
  flow : t.flow = s.flow
  rspEvent : s.flow = .caller → t.rspEvent = s.rspEvent
  quiet : t.hw.interrupts = s.hw.interrupts
  unwritten : buf = none → t.mem = s.mem
  outside : ∀ a, OffBuffer buf a → t.mem.read a = s.mem.read a

section
variable {buf : Option (Addr × Len)} {s t u : State}

theorem QuietFrame.refl (s : State) : QuietFrame buf s s :=
  ⟨.refl s, rfl, rfl, rfl, fun _ => rfl, rfl, fun _ => rfl, fun _ _ => rfl⟩

theorem QuietFrame.trans (h : QuietFrame buf s t) (k : QuietFrame buf t u) : QuietFrame buf s u where
  toSteady := h.toSteady.trans k.toSteady
  rx := k.rx.trans h.rx
  tx := k.tx.trans h.tx
  flow := k.flow.trans h.flow
  rspEvent hf := (k.rspEvent (h.flow.trans hf)).trans (h.rspEvent hf)
  quiet := k.quiet.trans h.quiet
  unwritten hb := (k.unwritten hb).trans (h.unwritten hb)
  outside a ha := (k.outside a ha).trans (h.outside a ha)

theorem quietFrame_setRun (r : Run) (s : State) : QuietFrame buf s (s.setRun r) :=
  ⟨steady_setRun r s, rfl, rfl, rfl, fun _ => rfl, rfl, fun _ => rfl, fun _ _ => rfl⟩

theorem quietFrame_respondIllegal (s : State) : QuietFrame buf s (respondIllegal s) :=
  ⟨steady_respondIllegal s, rfl, rfl, rfl, fun hf => by simp [hf], rfl, fun _ => rfl, fun _ _ => rfl⟩

theorem action_quietFrame {w : Widths} {r : Run} (hg : r.good w = true) (ha : action r s = .next t) :
    QuietFrame r.storesTo s t := by
  have f := action_acts ha
  exact ⟨f.steady, f.rx, f.tx, f.flow, f.rspEvent, f.quiet, action_unwritten hg ha, fun _ => action_offBuffer hg ha⟩

/-- A group of actions that nothing interrupts has the frame of its command, which is the one running after it if any is. -/
theorem advance_quietFrame {n : Nat} {r₀ : Run} (hr : s.IsRunning r₀) (hq : s.hw.interrupts = .always [])
    (h : advance n s = .next t) : QuietFrame r₀.storesTo s t ∧ t.IsRunning r₀ := by
  refine advance_induction (P := fun v => QuietFrame r₀.storesTo s v ∧ v.IsRunning r₀) n ?_ ⟨.refl s, hr⟩ h
  rintro r v u x hv ⟨hf, hrun⟩ hb ha
  rw [atBoundary_quiet (hf.quiet.trans hq)] at hb
  cases hb
  obtain ⟨hg, hsame⟩ := hrun.run hv
  exact ⟨hf.trans (hsame.storesTo ▸ action_quietFrame hg ha), action_isRunning hg hsame ha⟩

/-- The frame as one state: everything else is as it was. -/
theorem QuietFrame.state_eq (h : QuietFrame buf s t) (hf : s.flow = .caller) :
    t = { s with
      seq := t.seq, rspCaller := t.rspCaller, mem := t.mem, hw := t.hw, trace := t.trace, freeCount := t.freeCount } := by
  rw [← h.params, ← h.rspEvent hf, ← h.timeout, ← h.blb, ← h.rx, ← h.tx, ← h.flow, ← h.issues]

end

/-- Settles O50: a command that is not an illegal packet is a run of actions, as is each later step of it, and every action has
the frame. -/
theorem masterFrame : Obligations.MasterFrame := by
  constructor
  · intro i s t hm hf hq he
    obtain ⟨k, hrun⟩ : QuietFrame (storesTo i) s t ∧ (s.seq = .idle → ∀ r, t.seq = .run r → r.storesTo = storesTo i) := by
      rcases exec_master_cases hm he with rfl | ⟨op, c, n, hi⟩
      · exact ⟨quietFrame_respondIllegal s, fun hidle r hr => by rw [respondIllegal_seq, hidle] at hr; cases hr⟩
      · obtain ⟨k, hrun⟩ := advance_quietFrame (isRunning_issue hi.fits) hq hi.runs
        rw [hi.storesTo] at k
        exact ⟨(quietFrame_setRun _ s).trans k, fun _ r hr => (hrun.run hr).2.storesTo.trans hi.storesTo⟩
    exact ⟨k.state_eq hf, k.others, k.quiet.trans hq, fun hb => ⟨k.unwritten hb, fun a => by rw [k.unwritten hb]⟩,
      fun ptr len hb a ha => k.outside a (offBuffer_of_some hb ha), hrun⟩
  · intro s t r hs hI hf hq hu h
    rw [step_resume hs hu] at h
    obtain ⟨k, hrun⟩ := advance_quietFrame (hI.isRunning hs) hq h
    exact ⟨k.state_eq hf, k.others, k.quiet.trans hq, fun hb => ⟨k.unwritten hb, fun a => by rw [k.unwritten hb]⟩,
      fun ptr len hb a ha => k.outside a (offBuffer_of_some hb ha),
      fun r' hr' => ⟨(hrun.run hr').2.1, (hrun.run hr').2.storesTo⟩⟩

/-! ## The frame under any events (R26, R266) -/

/-- What a group of actions with the boundaries inside it changes: bindings that are scheduled, bytes of the command's buffer,
bytes of a receive buffer that is bound or may be. -/
structure EventedFrame (buf : Option (Addr × Len)) (s t : State) : Prop extends Rebinds s t where
  outside : ∀ a, OffBuffer buf a → ¬ s.rx.Holds a → (∀ ptr len, s.MayBindRx ptr len → ¬ (ptr ≤ a ∧ a < ptr + len)) →
    t.mem.read a = s.mem.read a

section
variable {buf : Option (Addr × Len)} {s t u : State}

theorem EventedFrame.refl (s : State) : EventedFrame buf s s := ⟨.refl s, fun _ _ _ _ => rfl⟩

/-- A byte outside the bound receive buffer and outside every one that may be bound is outside the one bound later. -/
theorem Rebinds.not_holds (h : Rebinds s t) {a : Nat} (ha : ¬ s.rx.Holds a)
    (hb : ∀ ptr len, s.MayBindRx ptr len → ¬ (ptr ≤ a ∧ a < ptr + len)) : ¬ t.rx.Holds a := by
  rcases h.rx with ⟨hptr, hlen⟩ | hmay
  · rwa [Desc.Holds, hptr, hlen]
  · exact hb _ _ hmay

theorem EventedFrame.trans (h : EventedFrame buf s t) (k : EventedFrame buf t u) : EventedFrame buf s u where
  toRebinds := h.toRebinds.trans k.toRebinds
  outside a hoff ha hb :=
    (k.outside a hoff (h.not_holds ha hb) fun ptr len hm => hb ptr len (h.mayBindRx hm)).trans (h.outside a hoff ha hb)

theorem atBoundary_eventedFrame (h : atBoundary s = .next t) : EventedFrame buf s t where
  toRebinds := (atBoundary_frame h).rebinds
  outside a _ ha hb := (atBoundary_frame h).outside a ha
    fun ptr len ⟨packet, rest, hp, hd⟩ => hb ptr len ⟨packet, rest, Collaborator.schedules_next hp, hd⟩

theorem action_eventedFrame {w : Widths} {r : Run} (hg : r.good w = true) (ha : action r s = .next t) :
    EventedFrame r.storesTo s t :=
  ⟨(action_acts ha).rebinds, fun _ hoff _ _ => action_offBuffer hg ha hoff⟩

/-- A group of actions of a command in good order, whatever the event flow does inside it. -/
theorem advance_eventedFrame {n : Nat} {r₀ : Run} (hr : s.IsRunning r₀) (h : advance n s = .next t) :
    EventedFrame r₀.storesTo s t := by
  refine (advance_induction (P := fun v => EventedFrame r₀.storesTo s v ∧ v.IsRunning r₀) n ?_ ⟨.refl s, hr⟩ h).1
  rintro r v u x hv ⟨hf, hrun⟩ hb ha
  obtain ⟨hg, hsame⟩ := hrun.run hv
  rw [← (atBoundary_steady hb).1.widths] at hg
  exact ⟨(hf.trans (atBoundary_eventedFrame hb)).trans (hsame.storesTo ▸ action_eventedFrame hg ha),
    action_isRunning hg hsame ha⟩

end

/-- In the event flow a command means what the event flow makes of it: one of the caller flow is refused (R112). -/
theorem exec_event {i : Instr} {s : State} (hf : s.flow = .event) : exec i s = eventCommand i s := by
  have refused (k : Result) : onlyFlow .caller s k = .refused .wrongFlow := by simp [onlyFlow, hf]
  cases i <;> first | exact refused _ | rfl

/-- A packet of the event flow is served in the same way between commands and at a boundary. -/
theorem serveCommand_event (packet : Packet) (s : State) :
    serveCommand .event packet s = servePreemption (.command packet) s := by
  show servePacket exec .event packet s = servePacket eventCommand .event packet s
  unfold servePacket
  cases decode s.widths packet with
  | ok q => simp only [exec_event]
  | error e => cases e <;> rfl

/-- What is served although a master command runs is a thing of the event flow, or a reset (R266, R290). -/
theorem serve_preempts {i : Issue} (hp : i.preempts = true) (hr : i ≠ .resetEvent) :
    ∃ p, serve i = servePreemption p ∧ ∀ packet, p = .command packet → i = .command .event packet := by
  cases i with
  | command f packet =>
    cases f with
    | caller => cases hp
    | event => exact ⟨.command packet, funext (serveCommand_event packet), by rintro _ ⟨⟩; rfl⟩
  | hwEvent => exact ⟨.hwEvent, rfl, nofun⟩
  | callerRead => cases hp
  | callerWrite => cases hp
  | readResponse f =>
    cases f with
    | caller => cases hp
    | event => exact ⟨.readResponse, rfl, nofun⟩
  | resetEvent => exact absurd rfl hr

/-- One thing of the event flow changes no byte outside the receive buffer bound before it. -/
theorem servePreemption_outside {p : Preemption} {s t : State} {a : Nat} (h : servePreemption p s = .next t)
    (ha : ¬ s.rx.Holds a) : t.mem.read a = s.mem.read a := by
  cases p with
  | hwEvent =>
    obtain ⟨u, hu, hk⟩ := andThen_eq_next.1 h
    cases hk
    exact (runDispatch_frame hu).outside a ha
  | command packet =>
    rcases servePacket_cases h with ⟨i, rest, u, -, hu, rfl⟩ | rfl
    · rcases eventCommand_cases hu with ⟨e, he⟩ | rfl | rfl | ⟨_, _, -, -, rfl⟩ | ⟨_, _, -, -, rfl⟩ | rfl
      · exact (eventStep_frame he).outside a ha
      all_goals rfl
    · rfl
  | readResponse =>
    obtain ⟨q, hq, hk⟩ := andThen_eq_next.1 h
    cases hk
    unfold readResponse at hq
    split at hq <;> cases hq
    rfl

/-- Settles O51: a group of actions has the frame, and what is served beside a running command is one thing of the event flow,
which binds what its packet says. -/
theorem masterFrameUnderEvents : Obligations.MasterFrameUnderEvents := by
  constructor
  · intro i s t hm hf he
    obtain ⟨hst, hflow, k⟩ : Steady s t ∧ t.flow = .caller ∧ EventedFrame (storesTo i) s t := by
      rcases exec_master_cases hm he with rfl | ⟨op, c, n, hi⟩
      · exact ⟨steady_respondIllegal s, hf, (eventFrame_respondIllegal s).rebinds, fun _ _ _ _ => rfl⟩
      · obtain ⟨hst, hflow⟩ := advance_steady hi.runs
        have k := advance_eventedFrame (isRunning_issue hi.fits) hi.runs
        rw [hi.storesTo] at k
        have k₀ : EventedFrame (storesTo i) s (s.setRun (.issue op c)) :=
          ⟨(steady_setRun _ s).rebinds rfl ⟨rfl, rfl⟩ ⟨rfl, rfl⟩, fun _ _ _ _ => rfl⟩
        exact ⟨(steady_setRun _ s).trans hst, hflow hf, k₀.trans k⟩
    exact ⟨hflow, hst.params, hst.timeout, hst.blb, hst.issues, hst.others, k.rx, k.tx, k.outside⟩
  · intro s t r hs hI hf hreset h
    rcases step_cases h with ⟨-, hidle, -⟩ | ⟨i, rest, hi, hp, he⟩ | ⟨r', hr', -, hrun⟩
    · rw [hidle] at hs; cases hs
    · have hpre : i.preempts = true := hp.resolve_left (by simp [hs])
      obtain ⟨p, hserve, hcmd⟩ := serve_preempts hpre (by rintro rfl; simp [hi] at hreset)
      rw [hserve] at he
      have f := servePreemption_frame he
      have issued {packet : Packet} (hp : .command packet ∈ [p]) : s.issues = .command .event packet :: rest := by
        rw [hi, hcmd packet (List.mem_singleton.1 hp).symm]
      exact ⟨f.flow hf, f.params, f.timeout, f.blb, .inr (by rw [f.issues, hi]; rfl), f.others,
        f.rx.imp_right fun ⟨packet, after, hp, hd⟩ => .inr ⟨packet, after, rest, issued hp, hd⟩,
        f.tx.imp_right fun ⟨packet, after, hp, hd⟩ => .inr ⟨packet, after, rest, issued hp, hd⟩,
        fun a _ ha _ => servePreemption_outside (s := { s with issues := rest }) he ha⟩
    · obtain rfl : r' = r := by simpa using hr'.symm.trans hs
      obtain ⟨hst, hflow⟩ := advance_steady hrun
      have k := advance_eventedFrame (hI.isRunning hs) hrun
      exact ⟨hflow hf, hst.params, hst.timeout, hst.blb, .inl hst.issues, hst.others, k.rx.imp_right .inl,
        k.tx.imp_right .inl, k.outside⟩

/-! ## Completion (R31, R140, R186) -/

/-- A well-formed master command is the issue of one whose operands fit; a composite has a `stop` operand. -/
theorem exec_master {i : Instr} {w : Widths} (hm : isMaster i = true) (hw : i.wellFormed w = true) :
    ∃ op c, c.fits w = true ∧ exec i = issueMaster op c ∧ (op.isComposite = true → stopOperand i ≠ none) := by
  have composite {stop : Bool} (hi : stopOperand i = some stop) :
      ∃ op c, c.fits w = true ∧ exec i = issueMaster op c ∧ (op.isComposite = true → stopOperand i ≠ none) := by
    obtain ⟨op, c, -, hc, he⟩ := exec_composite hi hw
    exact ⟨op, c, hc, he, fun _ => by simp [hi]⟩
  have unbuffered {dl : Deadline} (hd : dl.fits w = true) {c : Ctx} (hp : c.ptr = 0) (hl : c.len = 0) (hdl : c.dl = dl) :
      c.fits w = true := Ctx.fits_iff.2 ⟨by rw [hp, hl]; exact bufferFits_zero w, by rw [hdl]; exact hd⟩
  cases i <;> try cases hm
  case sigStart dl => exact ⟨.sigStart, { dl := dl }, unbuffered hw rfl rfl rfl, rfl, nofun⟩
  case sigStopStart dl => exact ⟨.sigStopStart, { dl := dl }, unbuffered hw rfl rfl rfl, rfl, nofun⟩
  case sigStop => exact ⟨.sigStop, {}, unbuffered rfl rfl rfl rfl, rfl, nofun⟩
  case addrW addr dl => exact ⟨.addrW, { addr := addr, dl := dl }, unbuffered hw rfl rfl rfl, rfl, nofun⟩
  case addrR addr dl => exact ⟨.addrR, { addr := addr, dl := dl }, unbuffered hw rfl rfl rfl, rfl, nofun⟩
  case sendB data dl => exact ⟨.sendB, { data := data, dl := dl }, unbuffered hw rfl rfl rfl, rfl, nofun⟩
  case sendBuf ptr len dl =>
    exact ⟨.sendBuf, { ptr := ptr, len := len, dl := dl }, Ctx.fits_iff.2 (Bool.and_eq_true_iff.1 hw), rfl, nofun⟩
  case recvB dl => exact ⟨.recvB, { dl := dl }, unbuffered hw rfl rfl rfl, rfl, nofun⟩
  case recvBuf ptr len dl =>
    exact ⟨.recvBuf, { ptr := ptr, len := len, dl := dl }, Ctx.fits_iff.2 (Bool.and_eq_true_iff.1 hw), rfl, nofun⟩
  case clrEvent => exact ⟨.clrEvent, {}, unbuffered rfl rfl rfl rfl, rfl, nofun⟩
  all_goals exact composite rfl

/-- A command at issue is at its entry sample when it is a composite, and at its first step otherwise. -/
theorem Run.issue_phase (op : MasterOp) (c : Ctx) :
    (op.isComposite = true ∧ (Run.issue op c).phase = .enter) ∨ (Run.issue op c).phase = .begin := by
  cases h : op.isComposite
  · exact .inr (by simp [Run.issue, h])
  · exact .inl ⟨rfl, by simp [Run.issue, h]⟩

/-- A master command that may be issued ends in the step that issues it, in a prompt environment; it starts where neither
`BusLost` nor `Timeout` comes next. -/
theorem issueMaster_ends {op : MasterOp} {c : Ctx} {s : State} (hs : s.Ready) (hc : c.fits s.widths = true) (hP : s.Prompt)
    (hclk : op.isComposite = true → s.ClockReady) :
    ∃ st t, issueMaster op c s = .next t ∧ t.Ended st ∧ st ≠ .busLost ∧ st ≠ .timeout := by
  have hg := Run.good_issue op hc
  have hphase := Run.issue_phase op c
  have hclock : (Run.issue op c).ClockGood (s.setRun (.issue op c)) := by
    rcases hphase with ⟨hop, hp⟩ | hp
    · exact ⟨fun _ => ⟨(hclk hop).forward, (hclk hop).deadline⟩, by rintro ⟨w, hw⟩; rw [hp] at hw; cases hw⟩
    · exact Run.clockGood_of_calm (by rw [hp]; rfl) _
  obtain ⟨st, t, ht, hend, hbus, htime⟩ := advance_ends (s := s.setRun (.issue op c)) (r := .issue op c)
    (actionBudget_ge (s := s) (Run.phaseGood_of_good hg)) rfl hg (hP.of_eq rfl rfl rfl) hs.flow hs.quiet hclock
  refine ⟨st, t, (issueMaster_ready hs hc).trans ht, hend, fun h => ?_, fun h => ?_⟩
  · rcases hphase with ⟨-, hp⟩ | hp <;> simp [hbus h] at hp
  · obtain ⟨w, hw⟩ := htime h
    rcases hphase with ⟨-, hp⟩ | hp <;> simp [hw] at hp

/-- Settles O34: every action of a command brings its end nearer, and one step groups more actions than are left, at the issue
and at a resumption. -/
theorem masterCommandsComplete : Obligations.MasterCommandsComplete := by
  constructor
  · intro i s hm hw hs hP hclk
    obtain ⟨op, c, hc, he, hcomp⟩ := exec_master hm hw
    obtain ⟨st, t, ht, hend, hbus, htime⟩ := issueMaster_ends hs hc hP fun hop => hclk (hcomp hop)
    exact ⟨st, t, by rw [he]; exact ht, hend.seq, hend.code, hend.returned, hbus, htime⟩
  · intro s r hs hu
    refine ⟨step_resume hs hu, fun hI hP hf hq hsample hwait => ?_⟩
    obtain ⟨st, t, ht, hend, hbus, htime⟩ := resume_ends hs hI hP hf hq ⟨hsample, hwait⟩
    exact ⟨st, t, (step_resume hs hu).trans ht, hend.seq, hend.code, hend.returned, hbus, htime⟩

end Sys2Proof.Machine

namespace Sys2Proof.Machine

/-! ## Buffer memory (R60) -/

theorem memRead_of_ge {a : Nat} {s : State} (h : s.memSize ≤ a) : memRead a s = .fault (.noSuchByte a) :=
  if_neg (Nat.not_lt.2 h)

theorem memWrite_of_ge {a : Nat} {v : Byte} {s : State} (h : s.memSize ≤ a) : memWrite a v s = .fault (.noSuchByte a) :=
  if_neg (Nat.not_lt.2 h)

/-- Settles O19: below `2^AW` both accesses go through and the memory written is `Memory.write`, by its laws a byte of its own;
from `2^AW` on both fault. -/
theorem memoryIsBytes : Obligations.MemoryIsBytes := by
  intro s a v hwf
  constructor
  · intro ha
    exact ⟨memRead_eq_next.2 ⟨ha, rfl⟩, s.mem.write a v, memWrite_eq_next.2 ⟨ha, rfl⟩, Memory.wf_write ha hwf,
      Memory.read_write_same hwf, fun _ hb => Memory.read_write_other hb.symm⟩
  · intro ha
    exact ⟨memRead_of_ge ha, memWrite_of_ge ha⟩

/-! ## The calls of the collaborator (R62 to R67) -/

/-- A clock answer smaller than an earlier one is refused (R67, U8). -/
theorem now_of_lt {s : State} (h : s.nextTime < s.hw.lastNow) : now s = .refused .clockWentBack := if_pos h

/-- Settles O20: the clock by its two cases; every other call is one record update; an input answers from its queue, or from
`after` when that is empty. -/
theorem clockNeverDecreases : Obligations.ClockNeverDecreases := by
  intro s
  refine ⟨?clock, ?writeData, ?readData, ?eventComplete, ?readStatus, ?answers⟩
  case clock =>
    rintro t rfl
    exact ⟨now_of_lt, fun h => now_eq_next.2 ⟨h, rfl⟩⟩
  case writeData => exact fun _ => rfl
  case readData => rintro b rfl; rfl
  case eventComplete => rintro e rfl; rfl
  case readStatus => rintro c rfl; rfl
  case answers => exact fun _ _ => ⟨fun _ _ => Answers.take_of_cons, Answers.take_of_nil⟩

/-! ## The caller's own accesses (R76, U11) -/

/-- What the two accesses test is what a race is: the transfer is not complete and the byte is one of its buffer. -/
theorem Desc.pending_and_covers_iff {d : Desc} {a : Addr} :
    (d.pending && d.covers a) = true ↔ d.cursor < d.len ∧ d.Holds a := by
  simp [Desc.pending_iff, Desc.covers, Desc.Holds]

theorem serve_callerRead_of_race {a : Addr} {s : State} (ha : a < s.memSize) (h : s.rx.cursor < s.rx.len ∧ s.rx.Holds a) :
    serve (.callerRead a) s = .refused .racingAccess := by
  rw [serve, callerRead, if_pos ha, if_pos (Desc.pending_and_covers_iff.2 h), andThen_refused]

/-- A read that does not race changes nothing; the model's caller drops the byte (log 22). -/
theorem serve_callerRead_of_no_race {a : Addr} {s : State} (ha : a < s.memSize)
    (h : ¬ (s.rx.cursor < s.rx.len ∧ s.rx.Holds a)) : serve (.callerRead a) s = .next s := by
  rw [serve, callerRead, if_pos ha, if_neg (mt Desc.pending_and_covers_iff.1 h), andThen_next]

theorem serve_callerRead_of_ge {a : Addr} {s : State} (ha : s.memSize ≤ a) :
    serve (.callerRead a) s = .fault (.noSuchByte a) := by
  rw [serve, callerRead, if_neg (Nat.not_lt.2 ha), andThen_fault]

theorem serve_callerWrite_of_race {a : Addr} {b : Byte} {s : State} (ha : a < s.memSize)
    (h : s.tx.cursor < s.tx.len ∧ s.tx.Holds a) : serve (.callerWrite a b) s = .refused .racingAccess := by
  rw [serve, callerWrite, if_pos ha, if_pos (Desc.pending_and_covers_iff.2 h)]

theorem serve_callerWrite_of_no_race {a : Addr} {b : Byte} {s : State} (ha : a < s.memSize)
    (h : ¬ (s.tx.cursor < s.tx.len ∧ s.tx.Holds a)) :
    serve (.callerWrite a b) s = .next { s with mem := s.mem.write a b } := by
  rw [serve, callerWrite, if_pos ha, if_neg (mt Desc.pending_and_covers_iff.1 h)]

theorem serve_callerWrite_of_ge {a : Addr} {b : Byte} {s : State} (ha : s.memSize ≤ a) :
    serve (.callerWrite a b) s = .fault (.noSuchByte a) := by
  rw [serve, callerWrite, if_neg (Nat.not_lt.2 ha)]

/-! ## Reading a response (R50, U8) -/

theorem serve_readResponse_of_not_returned {f : Flow} {s : State} (h : (s.response f).returned = false) :
    serve (.readResponse f) s = .refused .responseNotReady := by
  rw [serve, readResponse, h, if_neg Bool.false_ne_true, andThen_refused]

/-- A read that is allowed changes nothing; the model's flow drops the word (log 22). -/
theorem serve_readResponse_of_returned {f : Flow} {s : State} (h : (s.response f).returned = true) :
    serve (.readResponse f) s = .next s := by
  rw [serve, readResponse, if_pos h, andThen_next]

/-- Settles O47: each item is served at once, the caller's because no command runs and the event flow's always (R266); a race,
every other access and an access outside memory are the three cases of each access, the two values of `returned` those of a
response read. -/
theorem racingAccessesAreRefused : Obligations.RacingAccessesAreRefused := by
  constructor
  · intro s a b rest hidle
    refine ⟨fun hi => ?read, fun hi => ?write, fun hi => ?response⟩ <;> rw [step_serve hi (.inl hidle)]
    case read =>
      exact ⟨fun ha h => serve_callerRead_of_race ha h, fun ha h => serve_callerRead_of_no_race ha h,
        fun ha => serve_callerRead_of_ge ha⟩
    case write =>
      exact ⟨fun ha h => serve_callerWrite_of_race ha h, fun ha h => serve_callerWrite_of_no_race ha h,
        fun ha => serve_callerWrite_of_ge ha⟩
    case response =>
      exact ⟨fun h => serve_readResponse_of_not_returned h, fun h => serve_readResponse_of_returned h⟩
  · intro s rest hi
    rw [step_serve hi (.inr rfl)]
    exact ⟨fun h => serve_readResponse_of_not_returned h, fun h => serve_readResponse_of_returned h⟩

end Sys2Proof.Machine

namespace Sys2Proof.Machine

/-! ## Packets of commands (R90 to R95) -/

/-- A buffer that fits assembles. -/
theorem withBuffer_of_fits {w : Widths} {x : ExtWords} (h : bufferFits w x.ptr x.len = true) (i : Instr) :
    withBuffer w x i = .ok i := if_pos h

theorem deadlineOperand_dlv (dl : Deadline) : deadlineOperand dl.isNone dl.dlv = dl := by cases dl <;> rfl

/-- The operands of a well-formed command, taken apart into fields and extension words, assemble to it again (R94, R95). -/
theorem assemble_encode {w : Widths} {i : Instr} (h : i.wellFormed w = true) :
    assemble w i.opcode i.fields i.ext = .ok i := by
  cases i with
  | stMaster c | setBlb c => simp [assemble, Instr.opcode, Instr.fields]
  | sigStart dl | sigStopStart dl | addrW _ dl | addrR _ dl | sendB _ dl | recvB dl =>
    simp [assemble, Instr.opcode, Instr.fields, Instr.ext, deadlineOperand_dlv]
  | sendBuf ptr len dl | recvBuf ptr len dl =>
    simpa only [assemble, Instr.opcode, Instr.fields, Instr.ext, deadlineOperand_dlv] using
      withBuffer_of_fits (x := { time := dl.dlv, ptr := ptr, len := len }) (Bool.and_eq_true_iff.1 h).1 _
  | mSendBuf _ ptr len _ | mRecvBuf _ ptr len _ | mRecvReg _ _ ptr len _ _ | rxBind ptr len | txBind ptr len =>
    exact withBuffer_of_fits (x := { ptr := ptr, len := len }) h _
  | _ => rfl

theorem cwOpcode_cmdWord (i : Instr) : cwOpcode i.cmdWord = i.opcode.code := cwOpcode_packWord _ _

theorem cwFields_cmdWord (i : Instr) : cwFields i.cmdWord = i.fields := cwFields_packWord _ _

section
variable {w : Widths} {cw : CmdWord} {o : Opcode} {x : ExtWords}

/-- A packet put together from its words, with a command word that is in order. -/
theorem decode_words_of_check (hx : x.Fit w) (rest : Packet) (ho : cwOpcode cw = o.code) (hc : checkWord o cw = none) :
    decode w (.put 32 cw.toNat (putExt w o.format x rest)) = (assemble w o (cwFields cw) x).map fun i => (i, rest) := by
  rw [decode_words w cw o hx rest ho, hc]

/-- A packet put together from its words, with a reserved bit or an unused field that is not 0. -/
theorem decode_words_of_bad {e : DecodeError} (hx : x.Fit w) (rest : Packet) (ho : cwOpcode cw = o.code)
    (hc : checkWord o cw = some e) : decode w (.put 32 cw.toNat (putExt w o.format x rest)) = .error e := by
  rw [decode_words w cw o hx rest ho, hc]

end

/-- Decoding takes the packet of a well-formed command off the front of any bits. -/
theorem decode_encodeOnto {w : Widths} {i : Instr} (h : i.wellFormed w = true) (rest : Packet) :
    decode w (encodeOnto w i rest) = .ok (i, rest) := by
  rw [encodeOnto, decode_words_of_check (ext_fit h) rest (cwOpcode_cmdWord i) (checkWord_encode i), cwFields_cmdWord,
    assemble_encode h]
  rfl

/-- Settles O1: the fields and the extension words that the encoder writes are read back, and assemble to the command. -/
theorem decodeInvertsEncode : Obligations.DecodeInvertsEncode :=
  fun _ _ rest h => ⟨decode_encodeOnto h rest, decode_encodeOnto h .empty⟩

theorem encode_word (w : Widths) (i : Instr) :
    (encode w i).word = i.cmdWord.toNat + 2 ^ 32 * (putExt w i.opcode.format i.ext .empty).word := by
  show i.cmdWord.toNat % 2 ^ 32 + _ = _
  rw [Nat.mod_eq_of_lt i.cmdWord.isLt]

theorem packetBits_ge (w : Widths) (f : Format) : 32 ≤ f.packetBits w := by
  cases f <;> simp only [Format.packetBits] <;> omega

/-- What stands above a field of `n` bits. -/
theorem div_of_low_field {n a : Nat} (h : a < 2 ^ n) (y : Nat) : (a + 2 ^ n * y) / 2 ^ n = y := by
  rw [Nat.add_mul_div_left _ _ (Nat.two_pow_pos n), Nat.div_eq_of_lt h, Nat.zero_add]

/-- Past the first extension word the words of a packet are its buffer operand (R93). -/
theorem putExt_word_div (w : Widths) {f : Format} {x y : ExtWords}
    (h : hasBuffer f = true → x.ptr = y.ptr ∧ x.len = y.len) :
    (putExt w f x .empty).word / 2 ^ w.tw = (putExt w f y .empty).word / 2 ^ w.tw := by
  have past (t : Time) (p : Packet) : (Packet.put w.tw t p).word / 2 ^ w.tw = p.word :=
    div_of_low_field (Nat.mod_lt t (Nat.two_pow_pos w.tw)) p.word
  cases f with
  | n => rfl
  | d | t => simp only [putExt, past]
  | b | db =>
    obtain ⟨hp, hl⟩ := h rfl
    simp only [putExt, past, hp, hl]

/-- A packet that decodes, against its command (R90 to R95): the same command word, then extension words that differ only in
a `DLV` that is ignored. -/
theorem decode_ok {w : Widths} {p rest : Packet} {i : Instr} (h : decode w p = .ok (i, rest)) :
    i.wellFormed w = true ∧ p.bits = i.opcode.format.packetBits w + rest.bits ∧
      rest.word = p.word / 2 ^ i.opcode.format.packetBits w ∧ BitVec.ofNat 32 p.word = i.cmdWord ∧
      ∃ x : ExtWords, p.word % 2 ^ i.opcode.format.packetBits w =
          i.cmdWord.toNat + 2 ^ 32 * (putExt w i.opcode.format x .empty).word ∧
        (hasBuffer i.opcode.format = true → x.ptr = i.ext.ptr ∧ x.len = i.ext.len) ∧
        (i.fields.nodl = false → putExt w i.opcode.format x .empty = putExt w i.opcode.format i.ext .empty) := by
  obtain ⟨o, x, hbits, hop, hcheck, hext, hi⟩ := decode_cases h
  obtain ⟨hfit, hlen, hrest, hword⟩ := takeExt_eq_some hext
  obtain ⟨hlow, hhigh, huses⟩ := checkWord_eq_none.1 hcheck
  obtain ⟨rfl, hwf⟩ := assemble_ok hi hfit
  obtain ⟨hfields, hsame, hbuf⟩ := assemble_fields hi huses
  have hcw : BitVec.ofNat 32 p.word = i.cmdWord := by
    rw [← packWord_fields _ hlow hhigh, hop, ← hfields, Instr.cmdWord]
  obtain ⟨n, hn⟩ := Nat.exists_eq_add_of_le (packetBits_ge w i.opcode.format)
  simp only [hn, Nat.add_sub_cancel_left] at hlen hrest hword ⊢
  refine ⟨hwf, by omega, ?_, hcw, x, ?_, fun hb => ⟨(hbuf hb).1.symm, (hbuf hb).2.symm⟩, fun hd => (hsame ?_).symm⟩
  · rw [hrest, Nat.div_div_eq_div_mul, ← Nat.pow_add]
  · rw [Packet.word_split, hword, ← hcw, BitVec.toNat_ofNat]
  · rw [← hfields]; exact hd

/-- Settles O2: the command word is the command's, and so is every extension word but a `DLV` that is ignored. -/
theorem decodedPacketIsItsEncoding : Obligations.DecodedPacketIsItsEncoding := by
  intro w p rest i h
  obtain ⟨hwf, hbits, hrest, hcw, x, hword, hbuf, hsame⟩ := decode_ok h
  have past (y : Nat) : (i.cmdWord.toNat + 2 ^ 32 * y) / 2 ^ (32 + w.tw) = y / 2 ^ w.tw := by
    rw [Nat.pow_add, ← Nat.div_div_eq_div_mul, div_of_low_field i.cmdWord.isLt]
  rw [Laws.PacketLength.bits_encode, encode_word, hword, past, past]
  exact ⟨hwf, hbits, hrest, hcw, putExt_word_div w hbuf, fun hd => by rw [hsame hd]⟩

/-! ## The opcode table (R92) -/

theorem Opcode.code_injective : Function.Injective Opcode.code := fun o o' h =>
  Option.some.inj ((ofCode_code o).symm.trans ((congrArg Opcode.ofCode h).trans (ofCode_code o')))

/-- Settles O3: the rows are computed; a word that matches a row has the row's opcode byte, and no two rows have the same. -/
theorem opcodeTableSelectsOneCommand : Obligations.OpcodeTableSelectsOneCommand := by
  refine ⟨rfl, fun w o => ⟨by rw [mask_selects, ofCode_eq_some], fun o' h h' => ?_⟩⟩
  exact Opcode.code_injective (((mask_selects w o).1 h).1.symm.trans ((mask_selects w o').1 h').1)

theorem Opcode.mem_all (o : Opcode) : o ∈ Opcode.all := by cases o <;> decide

theorem ofCode_eq_none {b : Byte} : Opcode.ofCode b = none ↔ b ∉ Opcode.all.map Opcode.code := by
  simp [Opcode.ofCode, List.find?_eq_none, Opcode.mem_all]

/-! ## Operand codes (R102, R104) -/

theorem blb_ofCode_eq (b : Byte) : BusLostBehaviour.ofCode b =
    if b = 0#8 then some .abort else if b = 1#8 then some .retryWithinTimeout
    else if b = 2#8 then some .retryExtendingTimeout else none := by
  simp only [BusLostBehaviour.ofCode, List.find?_cons, BusLostBehaviour.code, List.find?_nil, eq_comm (a := b)]
  split_ifs <;> simp_all

theorem masterCtx_ofCode_eq (b : Byte) : MasterCtx.ofCode b =
    if b = 0#8 then some .start else if b = 1#8 then some .addrW else if b = 2#8 then some .addrR
    else if b = 3#8 then some .send else if b = 4#8 then some .recv else none := by
  simp only [MasterCtx.ofCode, List.find?_cons, MasterCtx.code, List.find?_nil, eq_comm (a := b)]
  split_ifs <;> simp_all

/-- Settles O9: the three tables of result codes are computed, the two selectors tried code by code. -/
theorem resultCodesFollowTheirTables : Obligations.ResultCodesFollowTheirTables :=
  ⟨rfl, rfl, rfl, blb_ofCode_eq, masterCtx_ofCode_eq⟩

theorem blb_ofCode_eq_none {b : Byte} : BusLostBehaviour.ofCode b = none ↔ 2 < b.toNat := by
  rw [blb_ofCode_eq]
  split_ifs <;> simp <;> bv_omega

theorem masterCtx_ofCode_eq_none {b : Byte} : MasterCtx.ofCode b = none ↔ 4 < b.toNat := by
  rw [masterCtx_ofCode_eq]
  split_ifs <;> simp <;> bv_omega

/-! ## Illegal packets (R95, R96) -/

theorem FieldUse.allows_eq_false {u : FieldUse} {f : CmdFields} : u.allows f = false ↔
    (u.stop = false ∧ f.stop = true) ∨ (u.rs = false ∧ f.rs = true) ∨ (u.nodl = false ∧ f.nodl = true) ∨
      (u.addr = false ∧ f.addr ≠ 0#7) ∨ (u.imm = false ∧ f.imm ≠ 0#8) := by
  simp only [FieldUse.allows, Bool.and_eq_false_iff, Bool.or_eq_false_iff, Bool.not_eq_false', beq_eq_false_iff_ne, or_assoc]

theorem withBuffer_eq_error {w : Widths} {x : ExtWords} (hx : x.Fit w) (i : Instr) :
    (∃ e, withBuffer w x i = .error e) ↔ 2 ^ w.aw < x.ptr + x.len := by
  have hb : bufferFits w x.ptr x.len = true ↔ ¬ 2 ^ w.aw < x.ptr + x.len := by
    simp [bufferFits_iff, hx.ptr, hx.len]
  by_cases h : bufferFits w x.ptr x.len = true
  · simp [withBuffer_of_fits h, hb.1 h]
  · simp [withBuffer, h, not_not.1 (mt hb.2 h)]

/-- The operands that no command has (R95): an unassigned context or policy, a buffer past the top of memory. -/
theorem assemble_eq_error {w : Widths} {x : ExtWords} (hx : x.Fit w) (o : Opcode) (f : CmdFields) :
    (∃ e, assemble w o f x = .error e) ↔ (o = .stMaster ∧ 4 < f.imm.toNat) ∨ (o = .setBlb ∧ 2 < f.imm.toNat) ∨
      (hasBuffer o.format = true ∧ 2 ^ w.aw < x.ptr + x.len) := by
  cases o
  case stMaster =>
    rw [← masterCtx_ofCode_eq_none, assemble]
    cases MasterCtx.ofCode f.imm <;> simp [Opcode.format, hasBuffer]
  case setBlb =>
    rw [← blb_ofCode_eq_none, assemble]
    cases BusLostBehaviour.ofCode f.imm <;> simp [Opcode.format, hasBuffer]
  case sendBuf | recvBuf | mSendBuf | mRecvBuf | mRecvReg | rxBind | txBind =>
    simpa [Opcode.format, hasBuffer, assemble] using withBuffer_eq_error hx _
  all_goals simp [Opcode.format, hasBuffer, assemble]

/-- A packet put together from its words is illegal by its command word or by its operands. -/
theorem decode_words_eq_error {w : Widths} {cw : CmdWord} {o : Opcode} {x : ExtWords} (hx : x.Fit w) (rest : Packet)
    (ho : cwOpcode cw = o.code) : (∃ e, decode w (.put 32 cw.toNat (putExt w o.format x rest)) = .error e) ↔
      checkWord o cw ≠ none ∨ ∃ e, assemble w o (cwFields cw) x = .error e := by
  cases hc : checkWord o cw with
  | some e => simp [decode_words_of_bad hx rest ho hc]
  | none =>
    rw [decode_words_of_check hx rest ho hc]
    cases assemble w o (cwFields cw) x <;> simp [Except.map]

theorem checkWord_ne_none {o : Opcode} {cw : CmdWord} : checkWord o cw ≠ none ↔
    cwReservedLow cw ≠ 0#5 ∨ cwReservedHigh cw = true ∨ o.uses.allows (cwFields cw) = false := by
  rw [Ne, checkWord_eq_none, not_and_or, not_and_or, Bool.not_eq_false, Bool.not_eq_true]

/-- Where `NODL_F` is 1 the first extension word is ignored (R95): no command that uses `NODL_F` reads it then, and
`SET_TIMEOUT`, the other command that has one, does not use `NODL_F`. -/
theorem assemble_time_of_nodl {w : Widths} {o : Opcode} {f : CmdFields} {x : ExtWords} (hu : o.uses.allows f = true)
    (hd : f.nodl = true) (t : Time) : assemble w o f { x with time := t } = assemble w o f x := by
  cases o
  case setTimeout => simp [Opcode.uses, FieldUse.allows, hd] at hu
  all_goals simp only [assemble, withBuffer, deadlineOperand, hd, if_true]

/-- Settles O4: a packet written in full is never cut short, so only its command word and its operands can be at fault. -/
theorem illegalPacketsAreExactlyThese : Obligations.IllegalPacketsAreExactlyThese := by
  intro w cw o x rest hop htime hptr hlen
  have ho : cwOpcode cw = o.code := ofCode_eq_some.1 hop
  have hx : x.Fit w := ⟨htime, hptr, hlen⟩
  constructor
  · rw [decode_words_eq_error hx rest ho, checkWord_ne_none, FieldUse.allows_eq_false, assemble_eq_error hx]
    simp only [or_assoc]
    exact Iff.rfl
  · intro hd dlv hdlv
    have hx' : ExtWords.Fit w { x with time := dlv } := ⟨hdlv, hptr, hlen⟩
    cases hc : checkWord o cw with
    | some e => rw [decode_words_of_bad hx rest ho hc, decode_words_of_bad hx' rest ho hc]
    | none =>
      obtain ⟨-, -, hu⟩ := checkWord_eq_none.1 hc
      rw [decode_words_of_check hx rest ho hc, decode_words_of_check hx' rest ho hc,
        assemble_time_of_nodl hu hd dlv]

/-- A packet whose opcode byte no command has. -/
theorem decode_unassigned (w : Widths) {cw : CmdWord} (h : Opcode.ofCode (cwOpcode cw) = none) (rest : Packet) :
    decode w (.put 32 cw.toNat rest) = .error .unassignedOpcode := by
  have hcw : BitVec.ofNat 32 (cw.toNat % 2 ^ 32) = cw := by
    rw [Nat.mod_eq_of_lt cw.isLt, BitVec.ofNat_toNat, BitVec.setWidth_eq]
  simp only [decode, Packet.take_put, hcw, h]

/-- A packet that is not a legal one answers 0x00FF, unless it is cut short (R96, log 13). -/
theorem servePacket_of_error {s : State} {packet : Packet} {e : DecodeError} (h : decode s.widths packet = .error e)
    (he : e ≠ .truncated) (run : Instr → State → Result) (f : Flow) :
    servePacket run f packet s = .next (leaveEventFlow (respondIllegal { s with flow := f })) := by
  rw [servePacket, h]
  cases e
  case truncated => exact absurd rfl he
  all_goals rfl

/-- Settles O5: the table is computed; a packet that does not decode is answered by `respondIllegal`, which writes the
response of its flow and nothing else. -/
theorem illegalPacketAnswersFF : Obligations.IllegalPacketAnswersFF := by
  refine ⟨by decide, rfl, fun _ => ofCode_eq_none, fun w _ rest h => decode_unassigned w h rest, ?_⟩
  intro s packet rest e h he
  refine ⟨fun hidle hi => ?_, fun hi => ?_, ?_⟩
  · rw [step_serve hi (.inl hidle), serve, serveCommand, servePacket_of_error (s := { s with issues := rest }) h he,
      respondIllegal_caller rfl]
    rfl
  · rw [step_serve hi (.inr rfl), serve, serveCommand, servePacket_of_error (s := { s with issues := rest }) h he,
      respondIllegal_event rfl]
    rfl
  · rw [servePreemption, servePacket_of_error h he, respondIllegal_event rfl]
    rfl

/-! ## The length of a packet (R98) -/

/-- The opcode byte of a command word is the low byte of the packet. -/
theorem cwOpcode_ofNat (n : Nat) : cwOpcode (BitVec.ofNat 32 n) = BitVec.ofNat 8 n := by
  apply BitVec.eq_of_toNat_eq
  rw [cwOpcode, BitVec.extractLsb'_toNat, Nat.shiftRight_zero, BitVec.toNat_ofNat, BitVec.toNat_ofNat]
  omega

/-- The low byte of a packet that decodes is the opcode of its command. -/
theorem opcode_of_decode {w : Widths} {p rest : Packet} {i : Instr} (h : decode w p = .ok (i, rest)) :
    BitVec.ofNat 8 p.word = i.opcode.code := by
  obtain ⟨-, -, -, hcw, -⟩ := decode_ok h
  rw [← cwOpcode_ofNat, hcw, cwOpcode_cmdWord]

/-- Settles O6: the opcode is the low byte, and the length that of its format. -/
theorem packetLengthFollowsTheOpcode : Obligations.PacketLengthFollowsTheOpcode := by
  refine ⟨fun w p rest i h => ?_, rfl⟩
  obtain ⟨-, hbits, -⟩ := decode_ok h
  refine ⟨i.opcode, ofCode_eq_some.2 (opcode_of_decode h), rfl, ?_⟩
  cases hf : i.opcode.format <;> simp only [hf, Format.packetBits] at hbits ⊢ <;> omega

/-! ## Flows and their commands (R112, U8) -/

theorem onlyFlow_of_ne {f : Flow} {s : State} (h : s.flow ≠ f) (k : Result) :
    onlyFlow f s k = .refused .wrongFlow := if_neg h

/-- The event flow may not issue a command of the caller flow. -/
theorem eventCommand_of_caller {i : Instr} (h : issuer i = some .caller) (s : State) :
    eventCommand i s = .refused .wrongFlow := by
  cases i
  case rxEvent | txEvent | rxNext | rxBind | txBind | txAgain => cases h
  all_goals rfl

theorem exec_of_wrong_flow {i : Instr} {s : State} {f : Flow} (h : issuer i = some f) (hs : s.flow ≠ f) :
    exec i s = .refused .wrongFlow := by
  cases f with
  | caller =>
    cases hf : s.flow with
    | caller => exact absurd hf hs
    | event => rw [exec_event hf, eventCommand_of_caller h]
  | event =>
    cases i
    case rxEvent | txEvent => exact onlyFlow_of_ne hs _
    all_goals cases h

/-- A packet that decodes runs its command in its flow; then the caller flow goes on (R90, R267). -/
theorem servePacket_of_ok {s : State} {packet after : Packet} {i : Instr} (h : decode s.widths packet = .ok (i, after))
    (run : Instr → State → Result) (f : Flow) :
    servePacket run f packet s = andThen (run i { s with flow := f }) fun t => .next { t with flow := .caller } := by
  rw [servePacket, h]
  rfl

/-- Settles O45: in the event flow the two meanings of a command agree and only its own commands run; the two event steps ask
for that flow. -/
theorem wrongFlowIsRefused : Obligations.WrongFlowIsRefused := by
  refine ⟨fun i s f => exec_of_wrong_flow, fun i s packet rest hi hd => ?_⟩
  rw [servePreemption, servePacket_of_ok hd, eventCommand_of_caller hi, andThen_refused]

/-! ## A step runs the decoded command (R90, R112) -/

/-- The flow of an opcode byte is the one that may issue its command, the caller flow where either may. -/
theorem flowOfOpcode_code (i : Instr) : flowOfOpcode i.opcode.code = (issuer i).getD .caller := by
  rw [flowOfOpcode, ofCode_code]
  cases i <;> rfl

/-- Serving a packet issued next, in a state where its flow may go on. -/
theorem step_of_decode {s : State} {f : Flow} {packet after : Packet} {rest : List Issue} {i : Instr}
    (hi : s.issues = .command f packet :: rest) (hd : decode s.widths packet = .ok (i, after))
    (hf : s.seq = .idle ∨ f = .event) :
    step s = andThen (exec i { s with issues := rest, flow := f }) fun t => .next { t with flow := .caller } := by
  rw [step_serve hi (hf.imp_right fun h => by rw [h]; rfl)]
  exact servePacket_of_ok (s := { s with issues := rest }) hd exec f

theorem decodeTableWord_eq_some {nbits v : Nat} {i : Instr} : decodeTableWord nbits v = some i ↔
    ∃ after, decode .default (tablePacket .default nbits v) = .ok (i, after) := by
  unfold decodeTableWord
  split <;> simp_all

/-- Settles O8: the packet is served as `servePacket` serves it; a table word's flow is that of its opcode byte. -/
theorem stepRunsTheDecodedCommand : Obligations.StepRunsTheDecodedCommand := by
  intro s
  refine ⟨fun f packet after rest i hi hd hf => step_of_decode hi hd hf, fun packet after i hd _ => ?_,
    fun nbits v i hw hi => ?_⟩
  · rw [servePreemption, servePacket_of_ok hd, exec_event rfl]
  · obtain ⟨after, hd⟩ := decodeTableWord_eq_some.1 hi
    have hflow : flowOfOpcode (BitVec.ofNat 8 (v % 2 ^ nbits)) = (issuer i).getD .caller := by
      rw [← flowOfOpcode_code, ← opcode_of_decode hd]
      rfl
    rw [← hw] at hd
    rw [step_of_decode (s := s.withFetchWord nbits v) rfl hd (.inl rfl), hflow]
    rfl

/-! ## The address byte (R107) -/

/-- The address byte is the address with the intent bit appended below it. -/
theorem addrByte_eq_concat (a : BitVec 7) (reads : Bool) : addrByte a reads = a.concat reads := by
  apply BitVec.eq_of_getLsbD_eq
  intro i hi
  cases i with
  | zero => simp [addrByte]
  | succ i => rw [BitVec.getLsbD_concat_succ]; simp [addrByte, hi]

/-- Settles O10: appending a bit doubles the number and adds the bit; the four bytes are computed. -/
theorem addressByteLayout : Obligations.AddressByteLayout := by
  refine ⟨fun a reads => ?_, by decide⟩
  rw [addrByte_eq_concat]
  exact ⟨(extract_append_high _ _ rfl _).trans (extract_whole a), BitVec.getLsbD_concat_zero,
    by rw [BitVec.toNat_concat, Nat.mul_comm]⟩

end Sys2Proof.Machine

namespace Sys2Proof.Machine

/-! ## The table of raw codes (R121) -/

@[simp] theorem classify_nil (raw : RawCode) : classify [] raw = .unknown := rfl

@[simp] theorem classify_cons (e : RawCode × Cond) (table : List (RawCode × Cond)) (raw : RawCode) :
    classify (e :: table) raw = if e.1 = raw then e.2 else classify table raw := rfl

theorem classify_of_not_mem {table : List (RawCode × Cond)} {raw : RawCode} (h : raw ∉ table.map Prod.fst) :
    classify table raw = .unknown := by
  induction table with
  | nil => rfl
  | cons e table ih =>
    obtain ⟨hne, hrest⟩ := List.ne_and_not_mem_of_not_mem_cons h
    rw [classify_cons, if_neg (Ne.symm hne), ih hrest]

theorem classify_of_mem {table : List (RawCode × Cond)} {raw : RawCode} {c : Cond} (hn : (table.map Prod.fst).Nodup)
    (h : (raw, c) ∈ table) : classify table raw = c := by
  induction table with
  | nil => cases h
  | cons e table ih =>
    obtain ⟨hfresh, hrest⟩ := List.nodup_cons.1 hn
    rcases List.mem_cons.1 h with rfl | h
    · exact if_pos rfl
    · have hne : e.1 ≠ raw := fun he => hfresh (he ▸ List.mem_map_of_mem h)
      rw [classify_cons, if_neg hne, ih hrest h]

/-- Settles O13: both directions by induction on the table; a code listed once is not met before its own entry. -/
theorem classifyFollowsTheTable : Obligations.ClassifyFollowsTheTable :=
  fun _ _ => ⟨classify_of_not_mem, fun hn _ => classify_of_mem hn⟩

/-! ## The views of a class (R123 to R126) -/

@[simp] theorem masterStatus_unknown (ctx : MasterCtx) : masterStatus ctx .unknown = .unknown := by
  cases ctx <;> rfl

/-- The slave view knows the slave's classes, the bus error and `C_NO_INFO`; a class of the master engine is known in its own
context, the loss of arbitration in all. -/
theorem known_in_some_view {c : Cond} (h : c ≠ .unknown) :
    basicSlave c ≠ .unknown ∨ ∃ ctx, masterStatus ctx c ≠ .unknown := by
  cases c
  case unknown => exact absurd rfl h
  case start | repStart | arbLost => exact .inr ⟨.start, by decide⟩
  case addrWAck | addrWNack => exact .inr ⟨.addrW, by decide⟩
  case addrRAck | addrRNack => exact .inr ⟨.addrR, by decide⟩
  case dataTxAck | dataTxNack => exact .inr ⟨.send, by decide⟩
  case dataRxAck | dataRxNack => exact .inr ⟨.recv, by decide⟩
  all_goals exact .inl (by decide)

/-- A table that lists no code as unknown classifies no listed code so. -/
theorem classify_ne_unknown {table : List (RawCode × Cond)} {raw : RawCode} (hn : (table.map Prod.fst).Nodup)
    (hk : .unknown ∉ table.map Prod.snd) (h : raw ∈ table.map Prod.fst) : classify table raw ≠ .unknown := by
  obtain ⟨⟨_, c⟩, hc, rfl⟩ := List.mem_map.1 h
  rw [classify_of_mem hn hc]
  rintro rfl
  exact hk (List.mem_map_of_mem hc)

/-- Settles O14: a listed code has a class that some view knows, any other has the class that none does; the default table is
computed. -/
theorem listedCodesAreKnown : Obligations.ListedCodesAreKnown := by
  refine ⟨fun table raw hn hk => ⟨fun h => ?_, fun h => ?_⟩, by decide, by decide, rfl⟩
  · have hne := classify_ne_unknown hn hk h
    exact ⟨hne, known_in_some_view hne⟩
  · rw [classify_of_not_mem h]
    exact ⟨rfl, rfl, rfl, masterStatus_unknown⟩

/-- The basic view is read off the detailed one (R127). -/
theorem basicOf_detailedSlave (c : Cond) : basicOf (detailedSlave c) = basicSlave c := by
  cases c <;> rfl

/-- Settles O15: the rows of the two tables are computed, the agreement is tried class by class. -/
theorem slaveViewsFollowTheirTables : Obligations.SlaveViewsFollowTheirTables :=
  ⟨rfl, by decide, basicOf_detailedSlave⟩

theorem Cond.isAddressed_iff {c : Cond} :
    c.isAddressed = true ↔ c ∈ [Cond.srAddr, .srAddrArb, .srGc, .srGcArb, .stAddr, .stAddrArb] := by
  cases c <;> decide

/-- Lines 4 to 12 of R123: in each context its own classes; the 5 × 28 pairs are computed. -/
theorem contextStatus_eq (ctx : MasterCtx) (c : Cond) : contextStatus ctx c =
    if ctx = .start ∧ c ∈ [Cond.start, .repStart] then .success
    else if ctx = .addrW ∧ c = .addrWAck then .success
    else if ctx = .addrW ∧ c = .addrWNack then .addressNACK
    else if ctx = .addrR ∧ c = .addrRAck then .success
    else if ctx = .addrR ∧ c = .addrRNack then .addressNACK
    else if ctx = .send ∧ c = .dataTxAck then .success
    else if ctx = .send ∧ c = .dataTxNack then .dataNACK
    else if ctx = .recv ∧ c ∈ [Cond.dataRxAck, .dataRxNack] then .success
    else .unknown := by
  cases ctx <;> cases c <;> rfl

/-- Settles O16: the first two lines are those of `masterStatus`, the third is `Cond.isAddressed`, the rest
`contextStatus`. -/
theorem masterStatusLines : Obligations.MasterStatusLines := by
  intro ctx c
  rw [masterStatus, contextStatus_eq]
  simp only [Cond.isAddressed_iff]

/-! ## The decoder queries (R128 to R130) -/

/-- A query reads the status once and answers the caller with the code of its view. -/
theorem query_answers {s : State} (hf : s.flow = .caller) (code : Byte) :
    onlyFlow .caller s (.next (respond code (readStatus s).2)) = .next ((readStatus s).2.answered .caller code) := by
  rw [onlyFlow, if_pos hf, respond_eq_answered, readStatus_flow, hf]

/-- Settles O17: the three queries differ in their view alone, and the status read is the update written out. -/
theorem decoderQueries : Obligations.DecoderQueries := by
  rintro s raw hf rfl
  exact ⟨fun _ => query_answers hf _, query_answers hf _, query_answers hf _⟩

end Sys2Proof.Machine

namespace Sys2Proof.Machine

/-! ## A primitive issued on its own (R145) -/

/-- The operands of a command without a buffer fit when its deadline does. -/
theorem Ctx.fits_of_no_buffer {w : Widths} {c : Ctx} (hp : c.ptr = 0) (hl : c.len = 0) (hd : c.dl.fits w = true) :
    c.fits w = true :=
  Ctx.fits_iff.2 ⟨by rw [hp, hl]; exact bufferFits_zero w, hd⟩

section
variable {i : Instr} {op : MasterOp} {c : Ctx} {p : Prim} {s u : State} {st : Status} {g : Option Byte}

/-- A primitive issued on its own comes to the end that its pseudocode comes to. -/
theorem primitive_completes (hs : s.Ready) (he : exec i = issueMaster op c) (hc : c.fits s.widths = true)
    (hop : op.isComposite = false) (hst : steps op c = [p]) (h : PrimRuns c p s st g u) :
    ∃ r, r.op = op ∧ (st = .success → ∃ x, r.got = (g <|> x)) ∧ CompletesIn i s (finish st r u) := by
  obtain ⟨n, r, hr, ho, hg, hn⟩ := primitive_reaches hs hop hst h
  exact ⟨r, ho, hg, completesIn_of_reaches hs (congrFun he s) hc hr (finish_seq st r u) hn⟩

/-- A primitive that has no byte to return returns its status (R140, R99). -/
theorem primitive_returns (hs : s.Ready) (he : exec i = issueMaster op c) (hc : c.fits s.widths = true)
    (hop : op.isComposite = false) (hst : steps op c = [p]) (hb : op.returnsByte = false ∨ st ≠ .success)
    (h : PrimRuns c p s st g u) : CompletesIn i s (u.returned st) := by
  obtain ⟨r, rfl, -, hr⟩ := primitive_completes hs he hc hop hst h
  rwa [finish_returned (h.kept.flow.trans hs.flow) hb] at hr

/-- A primitive that succeeds and has received a byte returns it (R99, R159). -/
theorem primitive_returnsByte {b : Byte} (hs : s.Ready) (he : exec i = issueMaster op c) (hc : c.fits s.widths = true)
    (hop : op.isComposite = false) (hst : steps op c = [p]) (hb : op.returnsByte = true)
    (h : PrimRuns c p s .success (some b) u) :
    CompletesIn i s { u with seq := .idle, rspCaller := { code := 0x00#8, high := b, returned := true } } := by
  obtain ⟨r, rfl, hg, hr⟩ := primitive_completes hs he hc hop hst h
  obtain ⟨x, hx⟩ := hg rfl
  rwa [finish_returnedByte (h.kept.flow.trans hs.flow) hb hx] at hr

/-- A primitive that is one call completes in the step that issues it, whatever the environment answers (R152, R161). -/
theorem exec_single_call {v : State} (hs : s.Ready) (he : exec i = issueMaster op c) (hc : c.fits s.widths = true)
    (hf : v.flow = s.flow) (hb : op.returnsByte = false)
    (ha : action (.issue op c) (s.setRun (.issue op c)) = .next (finish .success (.issue op c) v)) :
    exec i s = .next (v.returned .success) := by
  rw [he, issueMaster_reaches hs hc (.one hs.quiet ha) (actionBudget_pos c.len s),
    finish_returned (hf.trans hs.flow) (.inl hb)]

end

/-! ## Which statuses a wait can end with (R123, R143) -/

/-- A NACK of an address is decoded in an address context alone (R123). -/
theorem masterStatus_addressNACK {ctx : MasterCtx} {c : Cond} (h : masterStatus ctx c = .addressNACK) :
    ctx = .addrW ∨ ctx = .addrR := by
  revert h; cases ctx <;> cases c <;> decide

/-- A NACK of a byte is decoded in the context of a send alone (R123). -/
theorem masterStatus_dataNACK {ctx : MasterCtx} {c : Cond} (h : masterStatus ctx c = .dataNACK) : ctx = .send := by
  revert h; cases ctx <;> cases c <;> decide

section
variable {ctx : MasterCtx} {dl : Deadline} {s u : State} {st : Status}

theorem Waits.ne_addressNACK (h : Waits ctx dl s st u) (hw : ctx ≠ .addrW) (hr : ctx ≠ .addrR) :
    st ≠ .addressNACK := by
  rintro rfl
  generalize hst : Status.addressNACK = st at h
  cases h with
  | timeout => cases hst
  | decoded => exact (masterStatus_addressNACK hst.symm).elim hw hr

theorem Waits.ne_dataNACK (h : Waits ctx dl s st u) (hc : ctx ≠ .send) : st ≠ .dataNACK := by
  rintro rfl
  generalize hst : Status.dataNACK = st at h
  cases h with
  | timeout => cases hst
  | decoded => exact hc (masterStatus_dataNACK hst.symm)

end

/-- The implicit stop of a primitive that cannot end with `DataNACK` is that on `AddressNACK` (R143). -/
theorem stopOnNack_address {st : Status} (h : st ≠ .dataNACK) (s : State) :
    stopOnNack st s = if st = .addressNACK then armControl .armStop s else s := by
  cases st <;> first | rfl | exact absurd rfl h

/-- The implicit stop of a primitive that cannot end with `AddressNACK` is that on `DataNACK` (R143). -/
theorem stopOnNack_data {st : Status} (h : st ≠ .addressNACK) (s : State) :
    stopOnNack st s = if st = .dataNACK then armControl .armStop s else s := by
  cases st <;> first | rfl | exact absurd rfl h

/-! ## The primitives (R150 to R161) -/

/-- Settles O21: each start is one arm call and the wait; no start decodes a NACK, and a wait leaves the control register as
it was armed. -/
theorem startPrimitives : Obligations.StartPrimitives := by
  intro s u dl st hs hd
  have fits : Ctx.fits s.widths { dl := dl } = true := Ctx.fits_of_no_buffer rfl rfl hd
  constructor
  · intro hw
    refine ⟨primitive_returns hs rfl fits rfl rfl (.inl rfl) (.start hw), hw.ne_addressNACK nofun nofun,
      hw.ne_dataNACK nofun, fun _ => ?_⟩
    rw [hw.ctrl]
    rfl
  · intro hw
    exact ⟨primitive_returns hs rfl fits rfl rfl (.inl rfl) (.stopStart hw), hw.ne_addressNACK nofun nofun,
      hw.ne_dataNACK nofun⟩

/-- Settles O22: the first action of each is its one arm call, and it ends the command with `Success`. -/
theorem stopAndClear : Obligations.StopAndClear := by
  intro s hs
  have fits : Ctx.fits s.widths {} = true := Ctx.fits_of_no_buffer rfl rfl rfl
  exact ⟨exec_single_call (v := armControl .armStop s) hs rfl fits rfl rfl rfl,
    exec_single_call (v := armControl .armGo s) hs rfl fits rfl rfl rfl⟩

/-- Settles O23: the address byte, the arm call and the wait are the primitive's, and its implicit stop is that on
`AddressNACK` because an address context decodes no `DataNACK`. -/
theorem addressPrimitives : Obligations.AddressPrimitives := by
  intro s u addr dl st hs hd
  have fits : Ctx.fits s.widths { addr := addr, dl := dl } = true := Ctx.fits_of_no_buffer rfl rfl hd
  constructor
  · intro hw
    have hne : st ≠ .dataNACK := hw.ne_dataNACK nofun
    rw [← stopOnNack_address hne]
    exact ⟨primitive_returns hs rfl fits rfl rfl (.inl rfl) (.addrW hw), hne⟩
  · intro hw
    have hne : st ≠ .dataNACK := hw.ne_dataNACK nofun
    rw [← stopOnNack_address hne]
    exact ⟨primitive_returns hs rfl fits rfl rfl (.inl rfl) (.addrR hw), hne⟩

/-- Settles O24: as for an address, with the implicit stop on `DataNACK` because a send decodes no `AddressNACK`. -/
theorem sendByte : Obligations.SendByte := by
  intro s u data dl st hs hd hw
  have fits : Ctx.fits s.widths { data := data, dl := dl } = true := Ctx.fits_of_no_buffer rfl rfl hd
  have hne : st ≠ .addressNACK := hw.ne_addressNACK nofun nofun
  rw [← stopOnNack_data hne]
  exact ⟨primitive_returns hs rfl fits rfl rfl (.inl rfl) (.sendData hw), hne⟩

/-- Settles O25: the command is the one primitive that runs the loop. -/
theorem sendBuffer : Obligations.SendBuffer := by
  intro s u ptr len dl st hs hb hd hl
  exact primitive_returns (c := { ptr := ptr, len := len, dl := dl }) hs rfl (Ctx.fits_iff.2 ⟨hb, hd⟩) rfl rfl (.inl rfl)
    (.sendBuf hl)

/-- Settles O26: the receive reads the data register after `Success` alone, and the command returns what it read. -/
theorem receiveByte : Obligations.ReceiveByte := by
  intro s u dl st hs hd hw
  have fits : Ctx.fits s.widths { dl := dl } = true := Ctx.fits_of_no_buffer rfl rfl hd
  refine ⟨?_, fun hst => primitive_returns hs rfl fits rfl rfl (.inr hst) (.recvFailed hw hst),
    hw.ne_addressNACK nofun nofun, hw.ne_dataNACK nofun⟩
  rintro rfl
  exact primitive_returnsByte hs rfl fits rfl rfl rfl (.recvByte hw)

/-- Settles O27: the command is the one primitive that runs the loop. -/
theorem receiveBuffer : Obligations.ReceiveBuffer := by
  intro s u ptr len dl st hs hb hd hl
  exact primitive_returns (c := { ptr := ptr, len := len, dl := dl }) hs rfl (Ctx.fits_iff.2 ⟨hb, hd⟩) rfl rfl (.inl rfl)
    (.recvBuf hl)

end Sys2Proof.Machine

namespace Sys2Proof.Machine

/-! ## The acknowledge policy (R158): what the record of a command says -/

section
variable {op : MasterOp} {c : Ctx} {s t u : State} {st : Status} {n : Nat}

/-- The actions of a command from its issue on follow the policy, and the flag is as the record says (R47). -/
theorem issue_acks (hc : c.fits s.widths = true) (hq : s.hw.interrupts = .always [])
    (h : advance n (s.setRun (.issue op c)) = .next t) :
    ∃ tr, t.trace = s.trace ++ tr ∧ t.hw.ctrl.ackEnable = (lastAck tr).getD s.hw.ctrl.ackEnable ∧
      AcksEachByte (Run.issue op c).requested 0 tr := by
  have hj : Acks (Run.issue op c).requested 0 s.hw.ctrl.ackEnable [] (s.setRun (.issue op c)) :=
    ⟨rfl, ackRun_issue hc rfl⟩
  obtain ⟨tr, htr, hacks⟩ := advance_acks (s := s.setRun (.issue op c)) hq hj (List.append_nil _).symm h
  exact ⟨tr, htr, hacks.1, hacks.record⟩

/-- A number of actions that leads to a state is a group of actions that answers it. -/
theorem Reaches.advance_eq {v : State} (h : Reaches n s v) : Machine.advance n s = .next v := h 0

/-- The same of the state in which the command's pseudocode ends. -/
theorem finish_acks {r : Run} (hc : c.fits s.widths = true) (hq : s.hw.interrupts = .always [])
    (h : Reaches n (s.setRun (.issue op c)) (finish st r u)) :
    ∃ tr, u.trace = s.trace ++ tr ∧ u.hw.ctrl.ackEnable = (lastAck tr).getD s.hw.ctrl.ackEnable ∧
      AcksEachByte (Run.issue op c).requested 0 tr := by
  have := issue_acks hc hq h.advance_eq
  rwa [finish_trace, finish_hw] at this

end

/-! ## What a wait records -/

/-- The calls that a wait with its decode makes (R141, R142). -/
def Atom.isSample : Atom → Bool
  | .eventComplete _ | .now _ | .readStatus _ => true
  | .arm _ | .writeData _ | .readData _ | .memRead _ _ | .memWrite _ _ => false

/-- The record has grown by samples alone. -/
def State.Samples (s u : State) : Prop := ∃ tr, u.trace = s.trace ++ tr ∧ ∀ a ∈ tr, a.isSample = true

section
variable {s u v : State}

theorem State.Samples.one {a : Atom} (h : u.trace = s.trace ++ [a]) (ha : a.isSample = true) : s.Samples u :=
  ⟨[a], h, by simpa using ha⟩

theorem State.Samples.trans (h : s.Samples u) (k : u.Samples v) : s.Samples v := by
  obtain ⟨x, hx, hxs⟩ := h
  obtain ⟨y, hy, hys⟩ := k
  exact ⟨x ++ y, by rw [hy, hx, List.append_assoc], fun a ha => (List.mem_append.1 ha).elim (hxs a) (hys a)⟩

theorem samples_eventComplete (s : State) : s.Samples (eventComplete s).2 := .one (eventComplete_trace s) rfl

theorem samples_readStatus (s : State) : s.Samples (readStatus s).2 := .one (readStatus_trace s) rfl

theorem samples_now {t : Time} (h : now s = .next (t, u)) : s.Samples u := by
  obtain ⟨-, hp⟩ := now_eq_next.1 h
  obtain ⟨rfl, rfl⟩ := Prod.mk.inj hp
  exact .one rfl rfl

theorem WaitEvent.samples {dl : Deadline} {b : Bool} (h : WaitEvent dl s b u) : s.Samples u := by
  induction h with
  | completed => exact samples_eventComplete _
  | again he hd hw ih => exact (samples_eventComplete _).trans ih
  | timedOut he hd hn hl => exact (samples_eventComplete _).trans (samples_now hn)
  | inTime he hd hn hl hw ih => exact ((samples_eventComplete _).trans (samples_now hn)).trans ih

theorem Waits.samples {ctx : MasterCtx} {dl : Deadline} {st : Status} (h : Waits ctx dl s st u) : s.Samples u := by
  cases h with
  | timeout hw => exact hw.samples
  | decoded hw => exact hw.samples.trans (samples_readStatus _)

end

theorem arm_not_mem_of_samples {tr : List Atom} (h : ∀ a ∈ tr, a.isSample = true) (x : Assign) : .arm x ∉ tr :=
  fun hx => absurd (h _ hx) Bool.false_ne_true

theorem storeCount_append (x y : List Atom) : storeCount (x ++ y) = storeCount x + storeCount y := List.countP_append

theorem storeCount_of_samples {tr : List Atom} (h : ∀ a ∈ tr, a.isSample = true) : storeCount tr = 0 :=
  List.countP_eq_zero.2 fun a ha => by
    have := h a ha
    cases a <;> simp_all [Atom.isSample]

/-! ## What a receive records of its bytes (R157, R160) -/

/-- The record of one byte of a receive that is armed with `d`, with `k` stores: the flag is left as the byte was armed. -/
structure ByteRecord (d : Bool) (k : Nat) (s u : State) (tr : List Atom) : Prop where
  trace : u.trace = s.trace ++ tr
  armed : .arm (.armRx false) ∈ tr ↔ d = false
  stored : storeCount tr = k
  flag : u.hw.ctrl.ackEnable = d

/-- What the record of the receive loop from index `i` on says of the last byte: the flag is left 0 exactly where that byte
was armed; it was when the loop succeeded, and otherwise exactly when every byte before it was stored. -/
structure LastByte (len i : Nat) (st : Status) (s u : State) (tr : List Atom) : Prop where
  trace : u.trace = s.trace ++ tr
  flag : u.hw.ctrl.ackEnable = false ↔ .arm (.armRx false) ∈ tr
  success : st = .success → .arm (.armRx false) ∈ tr
  failed : st ≠ .success → (.arm (.armRx false) ∈ tr ↔ i + storeCount tr + 1 = len)

section
variable {d : Bool} {dl : Deadline} {s u v w : State} {st : Status}

/-- One byte of a receive, up to its status: the arm call, then samples. -/
theorem Waits.recv_record (h : Waits .recv dl (armControl (.armRx d) s) st v) :
    ∃ tr, v.trace = s.trace ++ .arm (.armRx d) :: tr ∧ (∀ a, .arm a ∉ tr) ∧ storeCount tr = 0 ∧
      v.hw.ctrl.ackEnable = d := by
  obtain ⟨tr, htr, hs⟩ := h.samples
  refine ⟨tr, ?_, arm_not_mem_of_samples hs, storeCount_of_samples hs, by rw [h.ctrl]; rfl⟩
  rw [htr, armControl_trace, List.append_assoc, List.singleton_append]

theorem armRx_false_mem_iff {tr : List Atom} (h : ∀ a, .arm a ∉ tr) :
    .arm (.armRx false) ∈ .arm (.armRx d) :: tr ↔ d = false := by
  rw [List.mem_cons, or_iff_left (h _)]
  cases d <;> decide

/-- A byte whose wait has ended, nothing stored yet. -/
theorem Waits.byteRecord (h : Waits .recv dl (armControl (.armRx d) s) st v) : ∃ tr, ByteRecord d 0 s v tr := by
  obtain ⟨tr, htr, harm, hstore, hack⟩ := h.recv_record
  exact ⟨_, htr, armRx_false_mem_iff harm, by simpa [storeCount] using hstore, hack⟩

/-- A byte that was read and stored. -/
theorem ByteRecord.store {a : Nat} {tr : List Atom} (h : ByteRecord d 0 s v tr)
    (hm : memWrite a (readData v).1 (readData v).2 = .next w) : ∃ tr, ByteRecord d 1 s w tr := by
  obtain ⟨htr, harm, hstore, hack⟩ := h
  obtain ⟨-, rfl⟩ := memWrite_eq_next.1 hm
  refine ⟨tr ++ [.readData (readData v).1, .memWrite a (readData v).1], ?_, by simpa using harm, ?_, hack⟩
  · simp [htr]
  · rw [storeCount_append, hstore]; rfl

/-- A byte that is not the last, before the rest of the loop. -/
theorem LastByte.before {len i : Nat} {tr tr' : List Atom} (h : LastByte len (i + 1) st w u tr')
    (hb : ByteRecord true 1 s w tr) : LastByte len i st s u (tr ++ tr') := by
  have hmem : .arm (.armRx false) ∈ tr ++ tr' ↔ .arm (.armRx false) ∈ tr' := by simp [hb.armed]
  refine ⟨by rw [h.trace, hb.trace, List.append_assoc], by rw [hmem, h.flag], by rw [hmem]; exact h.success,
    fun hst => ?_⟩
  rw [hmem, h.failed hst, storeCount_append, hb.stored]
  omega

/-- The receive loop ends without a further byte past its buffer. -/
theorem RecvLoop.eq_of_le {ptr : Addr} {len : Len} {i : Nat} (h : RecvLoop ptr len dl i s st u) (hi : len ≤ i) :
    st = .success ∧ u = s := by
  cases h with
  | done => exact ⟨rfl, rfl⟩
  | stored hlt => exact absurd hlt (Nat.not_lt.2 hi)
  | failed hlt => exact absurd hlt (Nat.not_lt.2 hi)

theorem RecvLoop.lastByte {ptr : Addr} {len : Len} {i : Nat} (h : RecvLoop ptr len dl i s st u) (hi : i < len) :
    ∃ tr, LastByte len i st s u tr := by
  induction h with
  | done hle => exact absurd hi (Nat.not_lt.2 hle)
  | @stored i st s v w u hlt hw hm hl ih =>
    obtain ⟨tr₀, hb₀⟩ := hw.byteRecord
    obtain ⟨tr, hb⟩ := hb₀.store hm
    by_cases hmore : i + 1 < len
    · obtain ⟨tr', htr'⟩ := ih hmore
      rw [decide_eq_true hmore] at hb
      exact ⟨_, htr'.before hb⟩
    · obtain ⟨rfl, rfl⟩ := hl.eq_of_le (Nat.not_lt.1 hmore)
      rw [decide_eq_false hmore] at hb
      exact ⟨tr, hb.trace, by simp [hb.flag, hb.armed], fun _ => hb.armed.2 rfl, fun h => absurd rfl h⟩
  | @failed i st s v hlt hw hst =>
    obtain ⟨tr, hb⟩ := hw.byteRecord
    refine ⟨tr, hb.trace, by rw [hb.flag, hb.armed], fun h => absurd h hst, fun _ => ?_⟩
    rw [hb.armed, hb.stored, decide_eq_false_iff_not]
    omega

end

/-! ## Composites: the last byte of the last attempt -/

/-- The record has only grown. -/
def State.Grows (s u : State) : Prop := ∃ tr, u.trace = s.trace ++ tr

theorem State.Grows.refl (s : State) : s.Grows s := ⟨[], (List.append_nil _).symm⟩

theorem State.Grows.trans {s u v : State} (h : s.Grows u) (k : u.Grows v) : s.Grows v := by
  obtain ⟨x, hx⟩ := h
  obtain ⟨y, hy⟩ := k
  exact ⟨x ++ y, by rw [hy, hx, List.append_assoc]⟩

/-- Since `s` a last byte was armed, and the flag is left 0. -/
def ArmedLast (s u : State) : Prop :=
  ∃ tr, u.trace = s.trace ++ tr ∧ .arm (.armRx false) ∈ tr ∧ u.hw.ctrl.ackEnable = false

section
variable {c : Ctx} {p : Prim} {ps : List Prim} {s u v : State} {st : Status} {g : Option Byte}

theorem ArmedLast.before (h : ArmedLast v u) (hg : s.Grows v) : ArmedLast s u := by
  obtain ⟨tr, htr⟩ := hg
  obtain ⟨tr', htr', hmem, hflag⟩ := h
  exact ⟨tr ++ tr', by rw [htr', htr, List.append_assoc], List.mem_append_right _ hmem, hflag⟩

theorem ArmedLast.after (h : ArmedLast s v) (hg : v.Grows u) (hf : u.hw.ctrl.ackEnable = v.hw.ctrl.ackEnable) :
    ArmedLast s u := by
  obtain ⟨tr, htr, hmem, hflag⟩ := h
  obtain ⟨tr', htr'⟩ := hg
  exact ⟨tr ++ tr', by rw [htr', htr, List.append_assoc], List.mem_append_left _ hmem, hf.trans hflag⟩

/-! ### The record only grows -/

theorem armControl_grows (a : Assign) (s : State) : s.Grows (armControl a s) := ⟨[_], rfl⟩

theorem writeData_arm_grows (b : Byte) (a : Assign) (s : State) : s.Grows (armControl a (writeData b s)) :=
  ⟨[_, _], List.append_assoc ..⟩

theorem readData_grows (s : State) : s.Grows (readData s).2 := ⟨[_], rfl⟩

theorem memRead_grows {a : Nat} {b : Byte} (h : memRead a s = .next (b, u)) : s.Grows u := by
  obtain ⟨-, hp⟩ := memRead_eq_next.1 h
  obtain ⟨rfl, rfl⟩ := Prod.mk.inj hp
  exact ⟨[_], rfl⟩

theorem memWrite_grows {a : Nat} {b : Byte} (h : memWrite a b s = .next u) : s.Grows u := by
  obtain ⟨-, rfl⟩ := memWrite_eq_next.1 h
  exact ⟨[_], rfl⟩

theorem now_grows {t : Time} (h : now s = .next (t, u)) : s.Grows u := by
  obtain ⟨tr, htr, -⟩ := samples_now h
  exact ⟨tr, htr⟩

theorem stopOnNack_grows (st : Status) (s : State) : s.Grows (stopOnNack st s) := by
  cases st <;> first | exact State.Grows.refl _ | exact armControl_grows _ s

theorem Waits.grows {ctx : MasterCtx} {dl : Deadline} (h : Waits ctx dl s st u) : s.Grows u := by
  obtain ⟨tr, htr, -⟩ := h.samples
  exact ⟨tr, htr⟩

theorem SendLoop.grows {ptr : Addr} {len : Len} {dl : Deadline} {i : Nat} (h : SendLoop ptr len dl i s st u) :
    s.Grows u := by
  induction h with
  | done => exact State.Grows.refl _
  | sent hi hm hw hl ih => exact (((memRead_grows hm).trans (writeData_arm_grows _ _ _)).trans hw.grows).trans ih
  | failed hi hm hw hs =>
    exact (((memRead_grows hm).trans (writeData_arm_grows _ _ _)).trans hw.grows).trans (stopOnNack_grows _ _)

theorem RecvLoop.grows {ptr : Addr} {len : Len} {dl : Deadline} {i : Nat} (h : RecvLoop ptr len dl i s st u) :
    s.Grows u := by
  induction h with
  | done => exact State.Grows.refl _
  | stored hi hw hm hl ih =>
    exact (((armControl_grows _ _).trans hw.grows).trans ((readData_grows _).trans (memWrite_grows hm))).trans ih
  | failed hi hw hs => exact (armControl_grows _ _).trans hw.grows

theorem PrimRuns.grows (h : PrimRuns c p s st g u) : s.Grows u := by
  cases h with
  | start hw | stopStart hw => exact (armControl_grows _ _).trans hw.grows
  | addrW hw | addrR hw | sendData hw | sendReg hw =>
    exact ((writeData_arm_grows _ _ _).trans hw.grows).trans (stopOnNack_grows _ _)
  | sendBuf hl => exact hl.grows
  | recvByte hw => exact ((armControl_grows _ _).trans hw.grows).trans (readData_grows _)
  | recvFailed hw hs => exact (armControl_grows _ _).trans hw.grows
  | recvBuf hl => exact hl.grows
  | stop | clear => exact armControl_grows _ _

theorem Attempt.grows (h : Attempt c ps s st g u) : s.Grows u := by
  induction h with
  | done => exact State.Grows.refl _
  | step hp hl ih => exact hp.grows.trans ih
  | failed hp hs => exact hp.grows

/-! ### A list whose last waiting primitive receives -/

/-- A receive of one byte or more, with `len` the length of the buffer. -/
def Prim.receives (len : Len) (p : Prim) : Prop := p = .wait .recvB ∨ (p = .wait .recvBuf ∧ 0 < len)

/-- The list has a receive and nothing but stops after it. -/
def ReceivesLast (len : Len) : List Prim → Prop
  | [] => False
  | p :: ps => (p.receives len ∧ ∀ q ∈ ps, q = .stop) ∨ ReceivesLast len ps

theorem PrimRuns.armedLast (h : PrimRuns c p s .success g u) (hp : p.receives c.len) : ArmedLast s u := by
  rcases hp with rfl | ⟨rfl, hlen⟩
  · cases h with
    | recvByte hw =>
      obtain ⟨tr, hb⟩ := hw.byteRecord
      exact ArmedLast.after ⟨tr, hb.trace, hb.armed.2 rfl, hb.flag⟩ (readData_grows _) rfl
    | recvFailed hw hs => exact absurd rfl hs
  · cases h with
    | recvBuf hl =>
      obtain ⟨tr, htr⟩ := hl.lastByte hlen
      exact ⟨tr, htr.trace, htr.success rfl, htr.flag.2 (htr.success rfl)⟩

/-- Stops leave the acknowledge flag alone (R13, R65). -/
theorem Attempt.stops_ackEnable (h : Attempt c ps s st g u) (hps : ∀ q ∈ ps, q = .stop) :
    u.hw.ctrl.ackEnable = s.hw.ctrl.ackEnable := by
  have stop {p : Prim} {s u : State} {st : Status} {g : Option Byte} (h : PrimRuns c p s st g u) (hp : p = .stop) :
      u.hw.ctrl.ackEnable = s.hw.ctrl.ackEnable := by
    subst hp; cases h; rfl
  induction h with
  | done => rfl
  | step hp hl ih =>
    exact (ih fun q hq => hps q (List.mem_cons_of_mem _ hq)).trans (stop hp (hps _ List.mem_cons_self))
  | failed hp hs => exact stop hp (hps _ List.mem_cons_self)

theorem Attempt.armedLast (h : Attempt c ps s st g u) (hst : st = .success) (hps : ReceivesLast c.len ps) :
    ArmedLast s u := by
  induction h with
  | done => exact hps.elim
  | step hp hl ih =>
    rcases hps with ⟨hrecv, hstops⟩ | hlater
    · exact (hp.armedLast hrecv).after hl.grows (hl.stops_ackEnable hstops)
    · exact (ih hst hlater).before hp.grows
  | failed hp hs => exact absurd hst hs

/-- A driver that succeeds has armed the last byte in its last attempt, whatever it retried before (R186 to R188). -/
theorem Driver.armedLast (h : Driver ps c s st g u) (hst : st = .success) (hps : ReceivesLast c.len ps) :
    ArmedLast s u := by
  induction h with
  | ends ha hs => exact ha.armedLast hst hps
  | abort => cases hst
  | retry ha hb hr ih => exact (ih hst hps).before ha.grows
  | extend ha hb hn hd hr ih => exact (ih hst hps).before (ha.grows.trans (now_grows hn))

theorem CompositeRuns.armedLast (h : CompositeRuns ps c s .success g u) (hps : ReceivesLast c.len ps) : ArmedLast s u := by
  obtain ⟨t, v, dl, hn, -, hd⟩ := h
  exact (hd.armedLast rfl hps).before (now_grows hn)

end

/-! ## A composite comes to its end (R180, R186) -/

section
variable {i : Instr} {op : MasterOp} {c : Ctx} {s u : State} {st : Status} {g : Option Byte}

/-- Every composite begins with a start, whatever its deadline (R181 to R185). -/
theorem steps_eq_start_cons (hop : op.isComposite = true) (c : Ctx) (dl : Deadline) :
    steps op { c with dl := dl } = .wait .start :: (steps op c).tail := by
  cases op <;> first | rfl | cases hop

/-- A composite's list is waiting primitives of one byte, at most one buffer form, then its final stop (R181 to R185). -/
theorem leads_steps (hop : op.isComposite = true) (c : Ctx) : leads (steps op c) := by
  have hstop : ∀ q ∈ finalStop c.stop, q = .stop ∨ q = .clear := by cases c.stop <;> simp [finalStop]
  cases op <;> try cases hop
  case mRecvReg =>
    have hrs : (Prim.wait (if c.rs then .start else .stopStart)).single = true := by cases c.rs <;> rfl
    exact .inl ⟨rfl, .inl ⟨rfl, .inl ⟨rfl, .inl ⟨hrs, .inl ⟨rfl, .inr hstop⟩⟩⟩⟩⟩
  all_goals exact .inl ⟨rfl, .inl ⟨rfl, .inr hstop⟩⟩

/-- A whole step list takes few actions beside those of its waits and of its one buffer. -/
theorem weights_steps (op : MasterOp) (c : Ctx) : weights c.len (steps op c) ≤ 8 * c.len + 100 := by
  have hstop : ((finalStop c.stop).map (Prim.weight c.len)).sum ≤ 1 := by
    cases c.stop <;> simp [finalStop, Prim.weight]
  cases hr : c.rs <;> cases op <;> simp [steps, weights, Prim.weight, hr] <;> omega

/-- A composite whose operands fit comes to the end that its driver comes to. -/
theorem composite_completes (hs : s.Ready) (he : exec i = issueMaster op c) (hc : c.fits s.widths = true)
    (hop : op.isComposite = true) (h : CompositeRuns (steps op c) c s st g u) :
    ∃ n r, Reaches n (s.setRun (.issue op c)) (finish st r u) ∧ r.op = op ∧
      (st = .success → ∃ x, r.got = (g <|> x)) ∧ CompletesIn i s (finish st r u) := by
  have hlist : steps op c = .wait .start :: (steps op c).tail := steps_eq_start_cons hop c c.dl
  obtain ⟨n, r, hr, ho, hg, hn⟩ := composite_reaches hs hop (steps_eq_start_cons hop c) (hlist ▸ leads_steps hop c)
    (hlist ▸ weights_steps op c) (hlist ▸ h)
  exact ⟨n, r, hr, ho, hg, completesIn_of_reaches hs (congrFun he s) hc hr (finish_seq st r u) hn⟩

/-- A composite that requests at least one byte receives last, but for its final stop (R183 to R185). -/
theorem receivesLast_steps (hop : op.isComposite = true) (hn : (Run.issue op c).requested ≠ none)
    (h0 : (Run.issue op c).requested ≠ some 0) : ReceivesLast c.len (steps op c) := by
  have hstops : ∀ q ∈ finalStop c.stop, q = .stop := by cases c.stop <;> simp [finalStop]
  cases op <;> first | cases hop; done | exact absurd rfl hn | skip
  case mRecvB => exact .inr (.inr (.inl ⟨.inl rfl, hstops⟩))
  case mRecvBuf =>
    have hlen : 0 < c.len := Nat.pos_of_ne_zero fun h => h0 (congrArg some h)
    exact .inr (.inr (.inl ⟨.inr ⟨rfl, hlen⟩, hstops⟩))
  case mRecvReg =>
    have hlen : 0 < c.len := Nat.pos_of_ne_zero fun h => h0 (congrArg some h)
    exact .inr (.inr (.inr (.inr (.inr (.inl ⟨.inr ⟨rfl, hlen⟩, hstops⟩)))))

/-- What a composite that receives leaves of the acknowledge flag (R158). -/
theorem composite_acks (hs : s.Ready) (he : exec i = issueMaster op c) (hc : c.fits s.widths = true)
    (hop : op.isComposite = true) (hn : (Run.issue op c).requested ≠ none)
    (h : CompositeRuns (steps op c) c s st g u) :
    ∃ t tr, CompletesIn i s t ∧ t.rspCaller.code = st.code ∧ t.trace = s.trace ++ tr ∧
      t.hw.ctrl.ackEnable = (lastAck tr).getD s.hw.ctrl.ackEnable ∧ AcksEachByte (Run.issue op c).requested 0 tr ∧
      (st = .success → (Run.issue op c).requested ≠ some 0 →
        .arm (.armRx false) ∈ tr ∧ t.hw.ctrl.ackEnable = false) := by
  obtain ⟨n, r, hr, -, -, hcomp⟩ := composite_completes hs he hc hop h
  obtain ⟨tr, htr, hflag, hacks⟩ := finish_acks hc hs.quiet hr
  refine ⟨_, tr, hcomp, finish_rspCaller (h.kept.flow.trans hs.flow) st r, by rw [finish_trace, htr],
    by rw [finish_hw, hflag], hacks, ?_⟩
  rintro rfl h0
  obtain ⟨tr', htr', hmem, hlast⟩ := h.armedLast (receivesLast_steps hop hn h0)
  obtain rfl : tr = tr' := List.append_cancel_left (htr.symm.trans htr')
  exact ⟨hmem, by rw [finish_hw, hlast]⟩

end

/-- Settles O28: a group of actions that nothing interrupts keeps what its record says, at the issue and at each later step;
of the last byte the pseudocode of a receive says the rest, and a composite's last attempt is one. -/
theorem ackIsLeftClearAfterTheLastByte : Obligations.AckIsLeftClearAfterTheLastByte := by
  refine ⟨?issue, ?later, ?oneByte, ?buffer, ?composite⟩
  case issue =>
    intro i s t hm hf hq he
    rcases exec_master_cases hm he with rfl | ⟨op, c, n, hi⟩
    · exact ⟨[], (List.append_nil _).symm, rfl, .nil _ _⟩
    · rw [← hi.count]
      exact issue_acks hi.fits hq hi.runs
  case later =>
    intro s t r hs hI hf hq hu h
    rw [step_resume hs hu] at h
    have hj : Acks r.requested r.idx s.hw.ctrl.ackEnable [] s := ⟨rfl, by rw [hs]; exact ackRun_here (hI.run hs)⟩
    obtain ⟨tr, htr, hacks⟩ := advance_acks hq hj (List.append_nil _).symm h
    exact ⟨tr, htr, hacks.1, hacks.record⟩
  case oneByte =>
    intro s u dl st hs hd hw
    have fits : Ctx.fits s.widths { dl := dl } = true := Ctx.fits_of_no_buffer rfl rfl hd
    obtain ⟨tr, htr, harm, -, hflag⟩ := hw.recv_record
    by_cases hst : st = .success
    · subst hst
      obtain ⟨r, -, -, hr⟩ := primitive_completes (i := .recvB dl) hs rfl fits rfl rfl (.recvByte hw)
      refine ⟨_, tr ++ [.readData (readData u).1], hr, ?_, by simpa using harm, by rw [finish_hw]; exact hflag⟩
      rw [finish_trace, readData_trace, htr, List.append_assoc, List.cons_append]
      rfl
    · obtain ⟨r, -, -, hr⟩ := primitive_completes (i := .recvB dl) hs rfl fits rfl rfl (.recvFailed hw hst)
      exact ⟨_, tr, hr, by rw [finish_trace, htr], harm, by rw [finish_hw, hflag]⟩
  case buffer =>
    intro s u ptr len dl st hs hb hd hlen hl
    have fits : Ctx.fits s.widths { ptr := ptr, len := len, dl := dl } = true := Ctx.fits_iff.2 ⟨hb, hd⟩
    obtain ⟨n, r, hr, -, -, hn⟩ := primitive_reaches (op := .recvBuf)
      (c := { ptr := ptr, len := len, dl := dl }) hs rfl rfl (.recvBuf hl)
    obtain ⟨tr, htr, -, hacks⟩ := finish_acks fits hs.quiet hr
    obtain ⟨tr', htr', hflag, hsucc, hfail⟩ := hl.lastByte hlen
    obtain rfl : tr = tr' := List.append_cancel_left (htr.symm.trans htr')
    refine ⟨_, tr, completesIn_of_reaches (i := .recvBuf ptr len dl) hs rfl fits hr (finish_seq st r u) hn,
      by rw [finish_trace, htr], hacks, ?_, ?_, hsucc, fun hst => ?_⟩
    · rw [finish_hw]; exact hflag.2
    · rw [finish_hw]; exact fun h => by simpa using mt hflag.1 h
    · simpa using hfail hst
  case composite =>
    intro i op c s u st g hs hc hi h
    obtain ⟨_, _, rfl, rfl, rfl⟩ | ⟨_, _, _, _, rfl, rfl, rfl⟩ | ⟨_, _, _, _, _, _, rfl, rfl, rfl⟩ := hi
    · exact composite_acks (op := .mRecvB) hs rfl hc rfl (Option.some_ne_none _) h
    · exact composite_acks (op := .mRecvBuf) hs rfl hc rfl (Option.some_ne_none _) h
    · exact composite_acks (op := .mRecvReg) hs rfl hc rfl (Option.some_ne_none _) h

end Sys2Proof.Machine

namespace Sys2Proof.Machine

/-! ## What a composite returns (R99, R180, R186) -/

section
variable {i : Instr} {op : MasterOp} {c : Ctx} {ps : List Prim} {s u : State} {st : Status} {g : Option Byte}

/-- A composite whose operands fit returns its driver's status to the caller, where it has no byte to return. -/
theorem composite_returns (hs : s.Ready) (he : exec i = issueMaster op c) (hc : c.fits s.widths = true)
    (hop : op.isComposite = true) (hb : op.returnsByte = false ∨ st ≠ .success) (h : CompositeRuns (steps op c) c s st g u) :
    CompletesIn i s (u.returned st) := by
  obtain ⟨n, r, -, rfl, -, hr⟩ := composite_completes hs he hc hop h
  rwa [finish_returned (h.kept.flow.trans hs.flow) hb] at hr

/-- A composite that succeeds and has received a byte returns it (R183). -/
theorem composite_returnsByte {b : Byte} (hs : s.Ready) (he : exec i = issueMaster op c) (hc : c.fits s.widths = true)
    (hop : op.isComposite = true) (hb : op.returnsByte = true) (h : CompositeRuns (steps op c) c s .success (some b) u) :
    CompletesIn i s (u.returnedByte .success (some b)) := by
  obtain ⟨n, r, -, rfl, hg, hr⟩ := composite_completes hs he hc hop h
  obtain ⟨x, hx⟩ := hg rfl
  rwa [finish_returnedByte (h.kept.flow.trans hs.flow) hb hx] at hr

/-! ### The byte of the last attempt (R183) -/

/-- An attempt that succeeds and has `RECV_B` in its list has received a byte. -/
theorem Attempt.received (h : Attempt c ps s st g u) (hst : st = .success) (hps : .wait .recvB ∈ ps) : g.isSome = true := by
  induction h with
  | done => cases hps
  | @step p ps s v u st g g' hp hl ih =>
    rcases List.mem_cons.1 hps with rfl | hmem
    · cases hp with
      | recvByte => cases g' <;> rfl
      | recvFailed hw hs => exact absurd rfl hs
    · simp [ih hst hmem]
  | failed hp hs => exact absurd hst hs

/-- So has a driver that succeeds, whatever it retried before. -/
theorem Driver.received (h : Driver ps c s st g u) (hst : st = .success) (hps : .wait .recvB ∈ ps) : g.isSome = true := by
  induction h with
  | ends ha hs => exact ha.received hst hps
  | abort => cases hst
  | retry ha hb hr ih => exact ih hst
  | extend ha hb hn hd hr ih => exact ih hst

theorem CompositeRuns.received (h : CompositeRuns ps c s .success g u) (hps : .wait .recvB ∈ ps) : g.isSome = true := by
  obtain ⟨t, v, dl, -, -, hd⟩ := h
  exact hd.received rfl hps

theorem State.returnedByte_of_ne (h : st ≠ .success) (g : Option Byte) (s : State) : s.returnedByte st g = s.returned st := by
  cases st <;> first | rfl | exact absurd rfl h

end

/-! ## The composites (R181 to R185) -/

/-- Settles O29: the command is the composite with this step list, and it has no byte to return. -/
theorem masterSendByte : Obligations.MasterSendByte := by
  intro s u addr data stop st g hs h
  exact composite_returns (op := .mSendB) hs rfl (Ctx.fits_of_no_buffer rfl rfl rfl) rfl (.inl rfl) h

/-- Settles O30: as for one byte, with the buffer that fits. -/
theorem masterSendBuffer : Obligations.MasterSendBuffer := by
  intro s u addr ptr len stop st g hs hb h
  exact composite_returns (op := .mSendBuf) hs rfl (Ctx.fits_iff.2 ⟨hb, rfl⟩) rfl (.inl rfl) h

/-- Settles O31: a list with `RECV_B` that succeeds has received a byte, which the command returns; every other status is
returned alone. -/
theorem masterReceiveByte : Obligations.MasterReceiveByte := by
  intro s u addr stop st g hs h
  have fits : Ctx.fits s.widths { addr := addr, stop := stop } = true := Ctx.fits_of_no_buffer rfl rfl rfl
  by_cases hst : st = .success
  · subst hst
    have hg : g.isSome = true := h.received (by simp)
    obtain ⟨b, rfl⟩ := Option.isSome_iff_exists.1 hg
    exact ⟨composite_returnsByte (op := .mRecvB) hs rfl fits rfl rfl h, fun _ => rfl⟩
  · rw [State.returnedByte_of_ne hst]
    exact ⟨composite_returns (op := .mRecvB) hs rfl fits rfl (.inr hst) h, fun h => absurd h hst⟩

/-- Settles O32: as for the sends, with the buffer that fits. -/
theorem masterReceiveBuffer : Obligations.MasterReceiveBuffer := by
  intro s u addr ptr len stop st g hs hb h
  exact composite_returns (op := .mRecvBuf) hs rfl (Ctx.fits_iff.2 ⟨hb, rfl⟩) rfl (.inl rfl) h

/-- Settles O33: the step list is the composite's for either second start. -/
theorem masterReceiveRegister : Obligations.MasterReceiveRegister := by
  intro s u addr reg ptr len rs stop st g hs hb h
  refine composite_returns (op := .mRecvReg) hs rfl (Ctx.fits_iff.2 ⟨hb, rfl⟩) rfl (.inl rfl) (g := g) ?_
  cases rs <;> exact h

/-! ## The stop calls of a composite (R190) -/

section
variable {m n : Nat} {stop : Bool} {Q : Prop} {tr base : List Atom} {r r₀ : Run} {s t : State}

/-- The command that runs after a group of actions, if any does, is the one that ran before it. -/
theorem advance_isRunning (hr : s.IsRunning r₀) (h : advance n s = .next t) : t.IsRunning r₀ := by
  refine advance_induction (P := State.IsRunning r₀) n ?_ hr h
  intro r v u x hv hrun hb ha
  obtain ⟨hg, hsame⟩ := hrun.run hv
  rw [← (atBoundary_steady hb).1.widths] at hg
  exact action_isRunning hg hsame ha

theorem atBoundary_eq_of_quiet (hq : s.hw.interrupts = .always []) (h : atBoundary s = .next t) : t = s := by
  rw [atBoundary_quiet hq] at h
  cases h
  rfl

/-- A boundary keeps what the record of a running composite holds: the event flow makes no stop call, and it records nothing
where nothing is scheduled. -/
theorem StopsRun.boundary (hj : StopsRun s.widths m stop Q tr r) (hs : s.trace = base ++ tr)
    (hq : Q → s.hw.interrupts = .always []) (hb : atBoundary s = .next t) :
    ∃ tr', t.trace = base ++ tr' ∧ StopsRun t.widths m stop Q tr' r := by
  obtain ⟨y, hy, harms⟩ := (atBoundary_frame hb).arms
  have hcount : stopCount (tr ++ y) = stopCount tr := by rw [stopCount_append, stopCount_slaveArms harms, Nat.add_zero]
  have hquiet : Q → y = [] := fun hQ => by
    obtain rfl := atBoundary_eq_of_quiet (hq hQ) hb
    simpa using hy
  refine ⟨tr ++ y, by rw [hy, hs, List.append_assoc], by rw [(atBoundary_steady hb).1.widths]; exact hj.good, hj.comp,
    hj.stop, by rw [hcount]; exact hj.count, fun hQ h1 => ?_⟩
  obtain rfl := hquiet hQ
  rw [List.append_nil] at h1 ⊢
  exact hj.last hQ h1

/-- A group of actions of a composite, with the boundaries inside it, keeps what the record holds. -/
theorem advance_stops (hj : Stops m stop Q tr s) (hs : s.trace = base ++ tr) (hf : s.flow = .caller)
    (hq : Q → s.hw.interrupts = .always []) (h : advance n s = .next t) :
    ∃ tr', t.trace = base ++ tr' ∧ Stops m stop Q tr' t := by
  have key := advance_induction (P := fun v => v.flow = .caller ∧ (Q → v.hw.interrupts = .always []) ∧
    ∃ tr', v.trace = base ++ tr' ∧ Stops m stop Q tr' v) n ?_ ⟨hf, hq, tr, hs, hj⟩ h
  · exact key.2.2
  · rintro r v u x hr ⟨hfv, hqv, tr', htr, hv⟩ hb ha
    have hrun : StopsRun v.widths m stop Q tr' r := by rwa [Stops, hr] at hv
    obtain ⟨tr'', htr'', hu⟩ := hrun.boundary htr hqv hb
    have hfu : u.flow = .caller := (atBoundary_frame hb).flow hfv
    have hqu : Q → u.hw.interrupts = .always [] := fun hQ => by
      rw [atBoundary_eq_of_quiet (hqv hQ) hb]
      exact hqv hQ
    have acts := action_acts ha
    exact ⟨acts.flow.trans hfu, fun hQ => acts.quiet.trans (hqu hQ), action_stops hu htr'' hfu ha⟩

/-- A composite that runs is one to keep a record of, from any point on. -/
theorem stopsRun_here {w : Widths} (hg : r.good w = true) (hc : r.op.isComposite = true) (Q : Prop) :
    StopsRun w r.stopsMade r.ctx.stop Q [] r :=
  ⟨hg, hc, rfl, Nat.zero_add _, by simp [stopCount]⟩

theorem Stops.count_idle (h : Stops m stop Q tr s) (hi : s.seq = .idle) :
    m + stopCount tr = stopsByCode stop s.rspCaller.code := by
  rw [Stops, hi] at h
  rw [Nat.add_comm]
  exact h.1

theorem Stops.run (h : Stops m stop Q tr s) (hr : s.seq = .run r) : StopsRun s.widths m stop Q tr r := by
  rwa [Stops, hr] at h

theorem Stops.last (h : Stops m stop Q tr s) (hQ : Q) (h1 : stopCount tr = 1) : tr.getLast? = some (.arm .armStop) := by
  cases hs : s.seq with
  | idle => rw [Stops, hs] at h; exact h.2 hQ h1
  | run r => exact (h.run hs).last hQ h1

end

/-- A command with a `stop` operand is a master command (R304). -/
theorem isMaster_of_stopOperand {i : Instr} {stop : Bool} (h : stopOperand i = some stop) : isMaster i = true := by
  cases i <;> first | rfl | cases h

/-- A composite that is issued makes the stop calls of its record from its issue on; an illegal packet makes none, and the
code it answers stands for none (R96). -/
theorem exec_composite_stops {i : Instr} {stop : Bool} {s t : State} (hi : stopOperand i = some stop)
    (hf : s.flow = .caller) (hq : s.seq = .idle) (h : exec i s = .next t) :
    ∃ tr, t.trace = s.trace ++ tr ∧ Stops 0 stop (s.hw.interrupts = .always []) tr t := by
  rcases exec_master_cases (isMaster_of_stopOperand hi) h with rfl | ⟨op, c, n, hiss⟩
  · refine ⟨[], (List.append_nil _).symm, ?_⟩
    rw [Stops, respondIllegal_seq, hq, respondIllegal_rspCaller, if_pos hf]
    exact ⟨rfl, nofun⟩
  · obtain ⟨hop, rfl⟩ := hiss.stop stop hi
    exact advance_stops (s := s.setRun (.issue op c)) (stopsRun_issue hop hiss.fits _) (List.append_nil _).symm hf id hiss.runs

/-- Settles O35: every action keeps what the record of a composite holds, and so does every boundary; what is served beside a
running composite is one thing of the event flow, which makes no stop call. -/
theorem stopCallsByStatus : Obligations.StopCallsByStatus := by
  constructor
  · intro i stop s t hi _ hf hq he
    obtain ⟨tr, htr, hst⟩ := exec_composite_stops hi hf hq he
    refine ⟨tr, htr, fun hidle => ?_, fun r hr => ?_, hst.last⟩
    · simpa using hst.count_idle hidle
    · have hrun := hst.run hr
      exact ⟨hrun.count, hrun.comp, hrun.stop⟩
  · intro s t r hI hf hr hc hreset h
    rcases step_cases h with ⟨-, hidle, -⟩ | ⟨i, rest, hi, hp, he⟩ | ⟨r', hr', hu, hrun⟩
    · rw [hidle] at hr; cases hr
    · have hpre : i.preempts = true := hp.resolve_left (by simp [hr])
      obtain ⟨p, hserve, -⟩ := serve_preempts hpre (by rintro rfl; simp [hi] at hreset)
      rw [hserve] at he
      have f := servePreemption_frame he
      obtain ⟨tr, htr, harms⟩ := f.arms
      have h0 : stopCount tr = 0 := stopCount_slaveArms harms
      have hseq : t.seq = .run r := f.seq.trans hr
      refine ⟨tr, htr, fun hidle => ?_, fun r' hr' => ?_, fun _ _ h1 => ?_⟩
      · rw [hidle] at hseq; cases hseq
      · obtain rfl : r = r' := by simpa using hseq.symm.trans hr'
        exact ⟨by rw [h0, Nat.add_zero], rfl, rfl⟩
      · omega
    · obtain rfl : r' = r := by simpa using hr'.symm.trans hr
      have hj : Stops r'.stopsMade r'.ctx.stop (s.hw.interrupts = .always []) [] s := by
        rw [Stops, hr]
        exact stopsRun_here (hI.run hr) hc _
      obtain ⟨tr, htr, hst⟩ := advance_stops hj (List.append_nil _).symm hf id hrun
      refine ⟨tr, htr, hst.count_idle, fun r'' hr'' => ?_, fun hquiet _ => hst.last hquiet⟩
      have hk := hst.run hr''
      obtain ⟨hop, -⟩ := ((advance_isRunning (hI.isRunning hr) hrun).run hr'').2
      exact ⟨by rw [Nat.add_comm]; exact hk.count, hop, hk.stop⟩

end Sys2Proof.Machine

namespace Sys2Proof.Machine

/-! ## An event step, from what it does on its class (R210, R230) -/

section
variable {s u : State}

/-- An event step that the event flow issues answers it with 0. -/
theorem event_answers {o : Result} (hf : s.flow = .event) (ho : o = .next u) (hu : u.flow = s.flow) :
    onlyFlow .event s (andThen o fun v => .next (respond 0#8 v)) = .next (u.answered .event 0x00#8) := by
  rw [onlyFlow, if_pos hf, ho, andThen_next, respond_eq_answered, hu, hf]

/-- `RX_EVENT` reads the status and does what the receiver does on its class. -/
theorem exec_rxEvent_of_react {ev : BasicSlaveStatus} (hf : s.flow = .event) (hev : basicSlave (s.classify s.nextCode) = ev)
    (hu : rxReact ev (readStatus s).2 = .next u) : exec .rxEvent s = .next (u.answered .event 0x00#8) := by
  subst hev
  exact event_answers hf hu (rxReact_frame hu).flow

/-- `TX_EVENT` reads the status and does what the transmitter does on its class. -/
theorem exec_txEvent_of_react {ev : BasicSlaveStatus} (hf : s.flow = .event) (hev : basicSlave (s.classify s.nextCode) = ev)
    (hu : txReact ev (readStatus s).2 = .next u) : exec .txEvent s = .next (u.answered .event 0x00#8) := by
  subst hev
  exact event_answers hf hu (txReact_frame hu).flow

end

/-! ## What the receiver does on its two classes (R211, R212) -/

theorem rxAddressed_eq (s : State) : rxAddressed s =
    if s.rx.cursor < s.rx.len then armControl .armSlaveAck { s with rx := { s.rx with cursor := 0 } }
    else armControl .armSlaveNack s := by
  simp only [rxAddressed, Desc.pending_iff, State.setRxCursor]

theorem rxArmNext_eq (s : State) :
    rxArmNext s = armControl (if s.rx.cursor < s.rx.len then .armSlaveAck else .armSlaveNack) s := by
  simp only [rxArmNext, Desc.pending_iff, apply_ite (armControl · s)]

/-- With room in a buffer that lies in memory the byte is read, stored and counted, and the next one armed. -/
theorem rxDataAccepted_of_lt {s : State} (hb : bufferFits s.widths s.rx.ptr s.rx.len = true)
    (h : s.rx.cursor < s.rx.len) : rxDataAccepted s =
      .next (armControl (if s.rx.cursor + 1 < s.rx.len then .armSlaveAck else .armSlaveNack)
        { (readData s).2 with
          mem := s.mem.write (s.rx.ptr + s.rx.cursor) s.hw.received.take.1
          rx := { s.rx with cursor := s.rx.cursor + 1 }
          trace := (readData s).2.trace ++ [.memWrite (s.rx.ptr + s.rx.cursor) s.hw.received.take.1] }) := by
  have stored := (memWrite_eq_next (s := (readData s).2) (v := (readData s).1)).2 ⟨bufferAddr_lt hb h, rfl⟩
  rw [rxDataAccepted, if_pos (Desc.pending_iff.2 h), stored, andThen_next, rxArmNext_eq]
  rfl

/-- With the buffer full no byte is read. -/
theorem rxDataAccepted_of_ge {s : State} (h : s.rx.len ≤ s.rx.cursor) :
    rxDataAccepted s = .next (armControl .armSlaveNack s) :=
  if_neg (mt Desc.pending_iff.1 (Nat.not_lt.2 h))

/-- Settles O36: on this class the receiver does `rxAddressed`. -/
theorem receiverAddressed : Obligations.ReceiverAddressed := by
  intro s hf hev
  rw [exec_rxEvent_of_react hf hev rfl, rxAddressed_eq]
  rfl

/-- Settles O37: on this class the receiver does `rxDataAccepted`, whose guard tells the two cases apart. -/
theorem receiverDataAccepted : Obligations.ReceiverDataAccepted := by
  intro s hf hev hb
  exact ⟨fun h => exec_rxEvent_of_react hf hev (rxDataAccepted_of_lt (s := (readStatus s).2) hb h),
    fun h => exec_rxEvent_of_react hf hev (rxDataAccepted_of_ge (s := (readStatus s).2) h)⟩

/-! ## The classes that the slave state machines ignore (R213, R233) -/

section
variable {ev : BasicSlaveStatus}

theorem rxReact_ignored (ha : ev ≠ .addressedAsReceiver) (hd : ev ≠ .dataAccepted) (s : State) :
    rxReact ev s = .next s := by
  cases ev
  case addressedAsReceiver => exact absurd rfl ha
  case dataAccepted => exact absurd rfl hd
  all_goals rfl

theorem txReact_ignored (ha : ev ≠ .addressedAsTransmitter) (hd : ev ≠ .nextDataAccepted) (s : State) :
    txReact ev s = .next s := by
  cases ev
  case addressedAsTransmitter => exact absurd rfl ha
  case nextDataAccepted => exact absurd rfl hd
  all_goals rfl

end

/-- Settles O38: on every other class the state after the status read is the state that answers. -/
theorem slaveStepsIgnoreTheRest : Obligations.SlaveStepsIgnoreTheRest := by
  intro s ev hf hev
  exact ⟨fun ha hd => exec_rxEvent_of_react hf hev.symm (rxReact_ignored ha hd _),
    fun ha hd => exec_txEvent_of_react hf hev.symm (txReact_ignored ha hd _)⟩

/-! ## The descriptor commands of the receiver (R214 to R216) -/

theorem boolCode_complete (d : Desc) : boolCode d.complete = if d.cursor = d.len then 0x01#8 else 0x00#8 := by
  simp only [boolCode, Desc.complete, decide_eq_true_eq]

/-- Settles O39: each command is one update, if any, and its answer to the flow that issued it. -/
theorem receiverDescriptorCommands : Obligations.ReceiverDescriptorCommands := by
  intro s
  refine ⟨?next, fun ptr len hb => ?bind, fun hf => ?avail⟩
  case next => exact congrArg _ (respond_eq_answered _ _)
  case bind =>
    show execRxBind ptr len s = _
    rw [execRxBind, if_pos hb, respond_eq_answered]
  case avail =>
    show execRxAvail s = _
    rw [execRxAvail, onlyFlow, if_pos hf, respond_eq_answered, hf, boolCode_complete]

/-! ## A complete transfer stays complete (R217, R301) -/

/-- What is complete is left alone: the receiver's descriptor and with it buffer memory, and the transmitter's descriptor. -/
structure KeepsComplete (s t : State) : Prop where
  rx : s.rx.cursor = s.rx.len → t.rx = s.rx ∧ t.mem = s.mem
  tx : s.tx.cursor = s.tx.len → t.tx = s.tx

theorem KeepsComplete.refl (s : State) : KeepsComplete s s := ⟨fun _ => ⟨rfl, rfl⟩, fun _ => rfl⟩

theorem KeepsComplete.trans {s t u : State} (h : KeepsComplete s t) (k : KeepsComplete t u) : KeepsComplete s u := by
  constructor
  · intro hc
    obtain ⟨hrx, hmem⟩ := h.rx hc
    obtain ⟨krx, kmem⟩ := k.rx (by rwa [hrx])
    exact ⟨krx.trans hrx, kmem.trans hmem⟩
  · intro hc
    have htx := h.tx hc
    exact (k.tx (by rwa [htx])).trans htx

/-- A complete transfer does not pass the guard of the slave steps. -/
theorem Desc.not_pending_of_complete {d : Desc} (h : d.cursor = d.len) : ¬ d.pending = true := fun hp =>
  (Desc.pending_iff.1 hp).ne h

theorem rxEventStep_of_complete {s t : State} (h : rxEventStep s = .next t) (hc : s.rx.cursor = s.rx.len) :
    t.rx = s.rx ∧ t.mem = s.mem := by
  have full := Desc.not_pending_of_complete hc
  rcases rxEventStep_cases h with rfl | rfl | ⟨hp, -⟩ | ⟨hp, -⟩
  · exact ⟨rfl, rfl⟩
  · exact ⟨rfl, rfl⟩
  · exact absurd hp full
  · exact absurd hp full

theorem txEventStep_of_complete {s t : State} (h : txEventStep s = .next t) (hc : s.tx.cursor = s.tx.len) :
    t.tx = s.tx := by
  have full := Desc.not_pending_of_complete hc
  rcases txEventStep_cases h with rfl | ⟨u, hu, rfl⟩ | ⟨hp, -⟩
  · rfl
  · rcases txEmit_cases hu with ⟨-, rfl⟩ | ⟨hp, -⟩
    · rfl
    · exact absurd hp full
  · exact absurd hp full

/-- Each event step passes its own guard only where its transfer is not complete, and leaves the other's transfer alone. -/
theorem eventStep_keepsComplete {e : EventStep} {s t : State} (h : eventStep e s = .next t) : KeepsComplete s t := by
  cases e with
  | rx => exact ⟨rxEventStep_of_complete h, fun _ => rxEventStep_tx h⟩
  | tx => exact ⟨fun _ => txEventStep_rx_mem h, txEventStep_of_complete h⟩

theorem runDispatch_keepsComplete {es : List EventStep} {s t : State} (h : runDispatch es s = .next t) :
    KeepsComplete s t := by
  induction es generalizing s with
  | nil => cases h; exact .refl _
  | cons e es ih =>
    obtain ⟨u, hu, hk⟩ := andThen_eq_next.1 h
    exact (eventStep_keepsComplete hu).trans (ih hk)

/-- Settles O43: any list of event steps keeps what is complete, and entering and leaving the event flow touch none of it. -/
theorem completeTransfersStay : Obligations.CompleteTransfersStay := by
  intro s t h
  obtain ⟨u, hu, hk⟩ := andThen_eq_next.1 h
  cases hk
  obtain ⟨hrx, htx⟩ := runDispatch_keepsComplete hu
  exact ⟨hrx, htx⟩

end Sys2Proof.Machine

namespace Sys2Proof.Machine

/-! ## What the transmitter does on its two classes (R231, R232) -/

section
variable {s : State} {n : Nat}

/-- From a cursor inside a buffer that lies in memory the byte is read, handed out, armed and counted. -/
theorem txEmit_of_lt (hb : bufferFits s.widths s.tx.ptr s.tx.len = true) (h : n < s.tx.len) :
    txEmit (s.setTxCursor n) = .next { armControl .armSlaveAck (writeData (s.mem.read (s.tx.ptr + n))
        (s.record (.memRead (s.tx.ptr + n) (s.mem.read (s.tx.ptr + n))))) with
      tx := { s.tx with cursor := n + 1 } } := by
  have fetched := (memRead_eq_next (s := s.setTxCursor n)).2 ⟨bufferAddr_lt hb h, rfl⟩
  rw [txEmit, if_pos (Desc.pending_iff.2 h), State.setTxCursor_tx, fetched, andThen_next]
  rfl

/-- With the buffer handed out no byte is read. -/
theorem txEmit_of_ge (h : s.tx.len ≤ s.tx.cursor) : txEmit s = .next (armControl .armSlaveNack s) :=
  if_neg (mt Desc.pending_iff.1 (Nat.not_lt.2 h))

/-- On either class the transmitter emits, on an addressing from the start of a transfer that is not complete (R231). -/
theorem txReact_emits {ev : BasicSlaveStatus} (hev : ev = .addressedAsTransmitter ∨ ev = .nextDataAccepted)
    (hn : n = if ev = .addressedAsTransmitter ∧ s.tx.cursor < s.tx.len then 0 else s.tx.cursor) :
    txReact ev s = txEmit (s.setTxCursor n) := by
  rcases hev with rfl | rfl
  case inl =>
    by_cases h : s.tx.cursor < s.tx.len
    · rw [if_pos ⟨rfl, h⟩] at hn
      rw [hn, txReact, txAddressed, if_pos (Desc.pending_iff.2 h)]
    · rw [if_neg (mt And.right h)] at hn
      rw [hn, txReact, txAddressed, if_neg (mt Desc.pending_iff.1 h)]
      rfl
  case inr =>
    rw [if_neg (fun h => nomatch h.1)] at hn
    rw [hn]
    rfl

end

/-- Settles O40: on both classes the transmitter emits from the given cursor; a restart leaves that cursor below the length,
so one that has reached it is the descriptor's own. -/
theorem transmitterEmits : Obligations.TransmitterEmits := by
  rintro s ev cursor _ hf hev hclass hcursor rfl hb
  have hreact := txReact_emits (s := (readStatus s).2) hclass hcursor
  refine ⟨fun h => exec_txEvent_of_react hf hev.symm (hreact.trans (txEmit_of_lt (s := (readStatus s).2) hb h)),
    fun h => ?_⟩
  obtain rfl : cursor = s.tx.cursor := by
    split at hcursor
    case isTrue restart => exact absurd (restart.2.trans_le (hcursor ▸ h)) (Nat.not_lt_zero _)
    case isFalse => exact hcursor
  exact exec_txEvent_of_react hf hev.symm (hreact.trans (txEmit_of_ge h))

/-! ## The descriptor commands of the transmitter (R234 to R236) -/

/-- Settles O41: each command is one update, if any, and its answer to the flow that issued it. -/
theorem transmitterDescriptorCommands : Obligations.TransmitterDescriptorCommands := by
  intro s
  refine ⟨fun ptr len hb => ?bind, ?again, fun hf => ?done⟩
  case bind =>
    show execTxBind ptr len s = _
    rw [execTxBind, if_pos hb, respond_eq_answered]
  case again => exact congrArg _ (respond_eq_answered _ _)
  case done =>
    show execTxDone s = _
    rw [execTxDone, onlyFlow, if_pos hf, respond_eq_answered, hf, boolCode_complete]

end Sys2Proof.Machine

namespace Sys2Proof.Machine

/-! ## The configuration commands (R250, R251) -/

/-- A flow's own command that ends in a state of the same flow answers that flow (R99). -/
theorem onlyFlow_respond_eq_answered {f : Flow} {s u : State} {c : Byte} (hf : s.flow = f) (hu : u.flow = s.flow) :
    onlyFlow f s (.next (respond c u)) = .next (u.answered f c) := by
  rw [onlyFlow, if_pos hf, respond_eq_answered, hu, hf]

/-- Settles O44: each command is one write, which keeps the flow, and its answer to the caller. -/
theorem configurationCommands : Obligations.ConfigurationCommands := by
  intro s hf
  refine ⟨fun time ht => ?timeout, fun blb => ?blb⟩
  case timeout =>
    show execSetTimeout time s = _
    rw [execSetTimeout, if_pos ht]
    exact onlyFlow_respond_eq_answered hf rfl
  case blb => exact onlyFlow_respond_eq_answered hf rfl

end Sys2Proof.Machine

namespace Sys2Proof.Machine

/-! ## A step that faults (R260) -/

/-- What a step is, whatever it answers (R266, R290, R304): the block waits, an issue is served, or the running command goes
on. -/
theorem step_forms (s : State) : step s = .next s ∨
    (∃ i rest, s.issues = i :: rest ∧ step s = serve i { s with issues := rest }) ∨ ∃ r, step s = resume r s := by
  cases hi : s.issues with
  | nil =>
    cases hq : s.seq with
    | idle => exact .inl (by rw [step, hi, hq])
    | run r => exact .inr (.inr ⟨r, by rw [step, hi, hq]⟩)
  | cons i rest =>
    by_cases hp : s.seq = .idle ∨ i.preempts = true
    · exact .inr (.inl ⟨i, rest, rfl, step_serve hi hp⟩)
    · obtain ⟨hbusy, hwaits⟩ := not_or.1 hp
      have hu : s.Undisturbed := by simpa [State.Undisturbed, hi] using hwaits
      cases hq : s.seq with
      | idle => exact absurd hq hbusy
      | run r => exact .inr (.inr ⟨r, step_resume hq hu⟩)

/-- Settles O56: neither waiting nor a group of actions faults, and of what is issued only the caller's own accesses do. -/
theorem invariantStatesDoNotFault : Obligations.InvariantStatesDoNotFault := by
  intro s f hI h
  rcases step_forms s with hs | ⟨i, rest, hi, hs⟩ | ⟨r, hs⟩ <;> rw [hs] at h
  case inl => cases h
  case inr.inl =>
    obtain ⟨a, hf, ha, rfl | ⟨b, rfl⟩⟩ :=
      serve_fault (s := { s with issues := rest }) (hI.of_eq rfl rfl rfl rfl rfl rfl) h
    · exact ⟨a, rest, hf, ha, .inl hi⟩
    · exact ⟨a, rest, hf, ha, .inr ⟨b, hi⟩⟩
  case inr.inr => exact absurd h (advance_no_fault hI f)

/-! ## One hardware event (R264 to R267) -/

section
variable {α β γ : Type}

theorem andThen_assoc (o : Host.Outcome α Fault Refusal) (f : α → Host.Outcome β Fault Refusal)
    (g : β → Host.Outcome γ Fault Refusal) : andThen (andThen o f) g = andThen o fun a => andThen (f a) g := by
  cases o <;> rfl

/-- What follows a part of a sequence matters only at what that part answers. -/
theorem andThen_congr {o : Host.Outcome α Fault Refusal} {f g : α → Host.Outcome β Fault Refusal}
    (h : ∀ a, o = .next a → f a = g a) : andThen o f = andThen o g := by
  cases o with
  | next a => exact h a rfl
  | fault _ | refused _ => rfl

end

/-- The two event steps as commands, in the flow that may issue them (R112). -/
theorem exec_rxEvent {s : State} (hf : s.flow = .event) : exec .rxEvent s = rxEventStep s := if_pos hf

theorem exec_txEvent {s : State} (hf : s.flow = .event) : exec .txEvent s = txEventStep s := if_pos hf

/-- The default dispatch list runs the receiver's step, then the transmitter's, and returns (R265, R267). -/
theorem runEventFlow_rxThenTx {s : State} (h : s.params.dispatch = .rxThenTx) : runEventFlow s =
    andThen (rxEventStep (enterEventFlow s)) fun v => andThen (txEventStep v) fun w => .next (leaveEventFlow w) := by
  simp only [runEventFlow, h, EventDispatch.steps, runDispatch, eventStep, andThen_assoc, andThen_next]

section
variable {s : State} {r : Run} {p : Preemption} {ps : List Preemption} {later : Answers (List Preemption)}

/-- A boundary with its action: what the schedule has the event flow do there, then the action (R266). -/
theorem boundaryAction_of_take (h : s.hw.interrupts.take = (ps, later)) : boundaryAction r s =
    andThen (servePreemptions ps { s with hw := { s.hw with interrupts := later } }) (action r) := by
  rw [boundaryAction, atBoundary, h]

theorem boundaryAction_of_take_cons (h : s.hw.interrupts.take = (p :: ps, later)) : boundaryAction r s =
    andThen (servePreemption p { s with hw := { s.hw with interrupts := later } }) fun v =>
      andThen (servePreemptions ps v) (action r) := by
  rw [boundaryAction_of_take h, servePreemptions, andThen_assoc]

/-- A read that is allowed changes nothing, at a boundary as between commands (R50). -/
theorem servePreemption_readResponse_of_returned (h : s.rspEvent.returned = true) :
    servePreemption .readResponse s = .next s := serve_readResponse_of_returned (f := .event) h

theorem servePreemption_readResponse_of_not_returned (h : s.rspEvent.returned = false) :
    servePreemption .readResponse s = .refused .responseNotReady := serve_readResponse_of_not_returned (f := .event) h

end

/-- Settles O48: the dispatch list taken apart, its steps being the two commands in the event flow; an event is served at
once; a boundary goes by what its schedule lists first. -/
theorem hardwareEventRunsBothSteps : Obligations.HardwareEventRunsBothSteps := by
  refine ⟨fun s hd => ?event, fun s rest hi => step_serve hi (.inr rfl), fun s r ps later htake => ?boundary⟩
  case event =>
    rw [runEventFlow_rxThenTx hd]
    show _ = andThen (exec .rxEvent (enterEventFlow s)) _
    rw [exec_rxEvent rfl]
    refine andThen_congr fun v hv => ?_
    have hf : v.flow = .event := (eventStep_frame (e := .rx) hv).flow
    rw [exec_txEvent hf]
    rfl
  case boundary =>
    refine ⟨?nothing, ?hwEvent, ?command, ?read⟩
    case nothing => rintro rfl; exact boundaryAction_of_take htake
    case hwEvent => rintro qs rfl; exact boundaryAction_of_take_cons htake
    case command => rintro qs packet rfl; exact boundaryAction_of_take_cons htake
    case read =>
      rintro qs rfl hr
      have served := servePreemption_readResponse_of_returned
        (s := { s with hw := { s.hw with interrupts := later } }) hr
      rw [boundaryAction_of_take_cons htake, served, andThen_next]

/-! ## What the event flow does not touch (R266, R305) -/

/-- What is not the event flow's stays: `SEQ` with `CTX`, the configuration, the caller's `RSP`, the parameters, what is
issued, the clock and the schedule (R266). -/
structure Spares (s t : State) : Prop where
  seq : t.seq = s.seq
  timeout : t.cfgTimeout = s.cfgTimeout
  blb : t.cfgBlb = s.cfgBlb
  rspCaller : t.rspCaller = s.rspCaller
  params : t.params = s.params
  issues : t.issues = s.issues
  clock : t.hw.clock = s.hw.clock
  schedule : t.hw.interrupts = s.hw.interrupts

theorem FlowFrame.spares {ps : List Preemption} {s t : State} (f : FlowFrame ps s t) : Spares s t :=
  ⟨f.seq, f.timeout, f.blb, f.rspCaller, f.params, f.issues, f.clock, f.quiet⟩

theorem EventFrame.spares {s t : State} (f : EventFrame s t) (hf : s.flow = .event) : Spares s t :=
  ⟨f.seq, f.timeout, f.blb, f.rspCaller hf, f.params, f.issues, f.clock, f.quiet⟩

/-- All of it with the flow, as the statement lists it. -/
theorem Spares.with_flow {s t : State} {f : Flow} (h : Spares s t) (hf : t.flow = f) :
    t.flow = f ∧ t.seq = s.seq ∧ t.cfgTimeout = s.cfgTimeout ∧ t.cfgBlb = s.cfgBlb ∧ t.rspCaller = s.rspCaller ∧
    t.params = s.params ∧ t.issues = s.issues ∧ t.hw.clock = s.hw.clock ∧ t.hw.interrupts = s.hw.interrupts :=
  ⟨hf, h.seq, h.timeout, h.blb, h.rspCaller, h.params, h.issues, h.clock, h.schedule⟩

/-- A command of the event flow answers that flow and touches nothing but what is its own (R305). -/
theorem eventCommand_spares {i : Instr} {s t : State} (hf : s.flow = .event) (h : eventCommand i s = .next t) :
    t.flow = .event ∧ Spares s t := by
  have framed (f : EventFrame s t) : t.flow = .event ∧ Spares s t := ⟨f.flow.trans hf, f.spares hf⟩
  rcases eventCommand_cases h with ⟨e, he⟩ | rfl | rfl | ⟨ptr, len, -, -, rfl⟩ | ⟨ptr, len, -, -, rfl⟩ | rfl
  · exact framed (eventStep_frame he)
  · exact framed ((eventFrame_rxCursor s (Nat.zero_le _)).trans (eventFrame_respond _ _))
  · exact framed ((eventFrame_txCursor s (Nat.zero_le _)).trans (eventFrame_respond _ _))
  · exact ⟨hf, rfl, rfl, rfl, by simp [hf], rfl, rfl, rfl, rfl⟩
  · exact ⟨hf, rfl, rfl, rfl, by simp [hf], rfl, rfl, rfl, rfl⟩
  · exact framed (eventFrame_respondIllegal s)

/-- One hardware event returns to the caller flow (R267). -/
theorem runEventFlow_flow {s t : State} (h : runEventFlow s = .next t) : t.flow = .caller := by
  obtain ⟨u, -, hk⟩ := andThen_eq_next.1 h
  cases hk
  rfl

/-! ## What the event flow does not look at (R266) -/

/-- An operation that does not depend on `SEQ`: with another command running it does the same. -/
def IgnoresSeq (f : State → Result) : Prop :=
  ∀ (s : State) (q : Seq), f { s with seq := q } = andThen (f s) fun t => .next { t with seq := q }

section
variable {f g : State → Result}

theorem IgnoresSeq.andThen (hf : IgnoresSeq f) (hg : IgnoresSeq g) : IgnoresSeq fun s => andThen (f s) g := by
  intro s q
  show Machine.andThen (f { s with seq := q }) g = _
  rw [hf s q, andThen_assoc, andThen_assoc]
  exact andThen_congr fun t _ => hg t q

/-- A branch on something other than `SEQ`. -/
theorem IgnoresSeq.ite {c : State → Prop} [DecidablePred c] (hc : ∀ s q, c { s with seq := q } ↔ c s)
    (hf : IgnoresSeq f) (hg : IgnoresSeq g) : IgnoresSeq fun s => if c s then f s else g s := by
  intro s q
  by_cases h : c s
  · simpa only [if_pos h, if_pos ((hc s q).2 h)] using hf s q
  · simpa only [if_neg h, if_neg (mt (hc s q).1 h)] using hg s q

theorem IgnoresSeq.onlyFlow (hf : IgnoresSeq f) (fl : Flow) : IgnoresSeq fun s => onlyFlow fl s (f s) := by
  refine .ite (c := fun s => s.flow = fl) (fun _ _ => .rfl) hf fun _ _ => ?_
  rfl

end

/-! ### The event steps -/

theorem memWrite_ignoresSeq (a : Nat) (v : Byte) : IgnoresSeq (memWrite a v) := by
  refine .ite (c := fun s => a < s.memSize) (fun _ _ => .rfl) (fun _ _ => ?_) fun _ _ => ?_ <;> rfl

theorem memRead_setSeq (a : Nat) (s : State) (q : Seq) :
    memRead a { s with seq := q } = andThen (memRead a s) fun p => .next (p.1, { p.2 with seq := q }) := by
  rcases Nat.lt_or_ge a s.memSize with h | h
  · rw [memRead_eq_next.2 ⟨h, rfl⟩]; exact memRead_eq_next.2 ⟨h, rfl⟩
  · rw [memRead_of_ge h]; exact memRead_of_ge h

theorem rxAddressed_ignoresSeq : IgnoresSeq fun s => .next (rxAddressed s) := by
  simp only [rxAddressed_eq, apply_ite Host.Outcome.next]
  refine .ite (c := fun s => s.rx.cursor < s.rx.len) (fun _ _ => .rfl) (fun _ _ => ?_) fun _ _ => ?_ <;> rfl

/-- Counting a stored byte and arming the next (R212). -/
theorem rxStored_ignoresSeq : IgnoresSeq fun s => .next (rxArmNext (s.setRxCursor (s.rx.cursor + 1))) := by
  intro s q
  simp only [rxArmNext_eq]
  rfl

theorem rxDataAccepted_ignoresSeq : IgnoresSeq rxDataAccepted :=
  .ite (c := fun s => s.rx.pending = true) (fun _ _ => .rfl)
    (fun s => (memWrite_ignoresSeq (bufferAddr s.rx.ptr s.rx.cursor) (readData s).1).andThen rxStored_ignoresSeq
      (readData s).2)
    fun _ _ => rfl

theorem rxReact_ignoresSeq (ev : BasicSlaveStatus) : IgnoresSeq (rxReact ev) := by
  cases ev
  case addressedAsReceiver => exact rxAddressed_ignoresSeq
  case dataAccepted => exact rxDataAccepted_ignoresSeq
  all_goals exact fun _ _ => rfl

theorem txEmit_ignoresSeq : IgnoresSeq txEmit := by
  refine .ite (c := fun s => s.tx.pending = true) (fun _ _ => .rfl) (fun s q => ?_) fun _ _ => rfl
  rw [memRead_setSeq, andThen_assoc, andThen_assoc]
  rfl

theorem txAddressed_ignoresSeq : IgnoresSeq txAddressed := by
  show IgnoresSeq fun s => txEmit (if s.tx.pending then s.setTxCursor 0 else s)
  simp only [apply_ite txEmit]
  exact .ite (c := fun s => s.tx.pending = true) (fun _ _ => .rfl) (fun s => txEmit_ignoresSeq (s.setTxCursor 0))
    txEmit_ignoresSeq

theorem txReact_ignoresSeq (ev : BasicSlaveStatus) : IgnoresSeq (txReact ev) := by
  cases ev
  case addressedAsTransmitter => exact txAddressed_ignoresSeq
  case nextDataAccepted => exact txEmit_ignoresSeq
  all_goals exact fun _ _ => rfl

theorem respond_ignoresSeq (c : Byte) : IgnoresSeq fun s => .next (respond c s) := fun _ _ => rfl

/-- An event step reads the status, reacts to its class and answers. -/
theorem eventStep_ignoresSeq (e : EventStep) : IgnoresSeq (eventStep e) := by
  intro s q
  cases e with
  | rx => exact (rxReact_ignoresSeq _).andThen (respond_ignoresSeq 0#8) (readStatus s).2 q
  | tx => exact (txReact_ignoresSeq _).andThen (respond_ignoresSeq 0#8) (readStatus s).2 q

/-! ### What it does at a boundary -/

theorem runDispatch_ignoresSeq (es : List EventStep) : IgnoresSeq (runDispatch es) := by
  induction es with
  | nil => exact fun _ _ => rfl
  | cons e es ih => exact (eventStep_ignoresSeq e).andThen ih

theorem leaveEventFlow_ignoresSeq : IgnoresSeq fun s => .next (leaveEventFlow s) := fun _ _ => rfl

theorem runEventFlow_ignoresSeq : IgnoresSeq runEventFlow := fun s =>
  (runDispatch_ignoresSeq s.params.dispatch.steps).andThen leaveEventFlow_ignoresSeq (enterEventFlow s)

theorem eventCommand_ignoresSeq (i : Instr) : IgnoresSeq (eventCommand i) := by
  cases i
  case rxEvent => exact (eventStep_ignoresSeq .rx).onlyFlow .event
  case txEvent => exact (eventStep_ignoresSeq .tx).onlyFlow .event
  case rxBind ptr len | txBind ptr len =>
    exact .ite (c := fun s => bufferFits s.widths ptr len = true) (fun _ _ => .rfl) (fun _ _ => rfl) fun _ _ => rfl
  all_goals exact fun _ _ => rfl

theorem servePacket_of_truncated {s : State} {packet : Packet} (h : decode s.widths packet = .error .truncated)
    (run : Instr → State → Result) (fl : Flow) : servePacket run fl packet s = .refused .packetTruncated := by
  rw [servePacket, h]

theorem servePacket_ignoresSeq {run : Instr → State → Result} (hr : ∀ i, IgnoresSeq (run i)) (fl : Flow) (packet : Packet) :
    IgnoresSeq (servePacket run fl packet) := by
  intro s q
  cases hd : decode s.widths packet with
  | ok d =>
    rw [servePacket_of_ok hd]
    exact (servePacket_of_ok (s := { s with seq := q }) hd run fl).trans
      ((hr d.1).andThen leaveEventFlow_ignoresSeq { s with flow := fl } q)
  | error e =>
    rcases eq_or_ne e .truncated with rfl | he
    · rw [servePacket_of_truncated hd]
      exact servePacket_of_truncated (s := { s with seq := q }) hd run fl
    · rw [servePacket_of_error hd he]
      exact servePacket_of_error (s := { s with seq := q }) hd he run fl

theorem servePreemption_ignoresSeq (p : Preemption) : IgnoresSeq (servePreemption p) := by
  cases p with
  | hwEvent => exact runEventFlow_ignoresSeq
  | command packet => exact servePacket_ignoresSeq eventCommand_ignoresSeq .event packet
  | readResponse =>
    intro s q
    cases h : s.rspEvent.returned with
    | true =>
      rw [servePreemption_readResponse_of_returned h]
      exact servePreemption_readResponse_of_returned h
    | false =>
      rw [servePreemption_readResponse_of_not_returned h]
      exact servePreemption_readResponse_of_not_returned h

theorem servePreemptions_ignoresSeq (ps : List Preemption) : IgnoresSeq (servePreemptions ps) := by
  induction ps with
  | nil => exact fun _ _ => rfl
  | cons p ps ih => exact (servePreemption_ignoresSeq p).andThen ih

/-- Settles O49: an event and all that is done at a boundary by their frames, a command by its cases; that none of this looks
at `SEQ` goes from the event steps up to the list of a boundary. -/
theorem eventFlowTouchesOnlyItsOwn : Obligations.EventFlowTouchesOnlyItsOwn := by
  refine ⟨fun s t h => ?event, fun i s t _ hf h => ?command, fun ps s t hf h => ?boundary, servePreemptions_ignoresSeq⟩
  case event => exact (runEventFlow_frame (p := .hwEvent) h).spares.with_flow (runEventFlow_flow h)
  case command =>
    obtain ⟨hflow, hspares⟩ := eventCommand_spares hf (exec_event hf ▸ h)
    exact hspares.with_flow hflow
  case boundary =>
    have frame := servePreemptions_frame h
    exact frame.spares.with_flow (frame.flow hf)

end Sys2Proof.Machine

namespace Sys2Proof.Machine

/-! ## A flag that an arm call mentions, and one that it does not (R65) -/

theorem flag_written_or_kept (flag : Option Bool) (old : Bool) :
    (flag = none → flag.getD old = old) ∧ ∀ b, flag = some b → flag.getD old = b := by
  cases flag with
  | none => exact ⟨fun _ => rfl, nofun⟩
  | some v => exact ⟨nofun, fun b h => Option.some.inj h⟩

/-- Settles O18: the control register is `Ctrl.apply`, flag by flag. -/
theorem armCallsPreserveTheOtherBits : Obligations.ArmCallsPreserveTheOtherBits := by
  intro a s
  obtain ⟨clearKept, clearWritten⟩ := flag_written_or_kept a.intClear s.hw.ctrl.intClear
  obtain ⟨ackKept, ackWritten⟩ := flag_written_or_kept a.ackEnable s.hw.ctrl.ackEnable
  obtain ⟨startKept, startWritten⟩ := flag_written_or_kept a.start s.hw.ctrl.start
  obtain ⟨stopKept, stopWritten⟩ := flag_written_or_kept a.stop s.hw.ctrl.stop
  exact ⟨s.hw.ctrl.apply a, if a.intClear = some true then false else s.hw.event, rfl, rfl, clearKept, clearWritten,
    ackKept, ackWritten, startKept, startWritten, stopKept, stopWritten, fun h => if_pos h, fun h => if_neg h⟩

/-! ## A second master command (R304) -/

theorem issueMaster_busy {op : MasterOp} {c : Ctx} {s : State} {r : Run} (hf : s.flow = .caller)
    (hc : c.fits s.widths = true) (hs : s.seq = .run r) : issueMaster op c s = .refused .masterBusy := by
  rw [issueMaster, onlyFlow, if_pos hf, if_pos hc, hs]

/-- Settles O46: a well-formed master command is the issue of one whose operands fit, and only then is `SEQ` looked at. -/
theorem secondMasterCommandIsRefused : Obligations.SecondMasterCommandIsRefused := by
  intro i s r hm hw hf hs
  obtain ⟨op, c, hc, he, -⟩ := exec_master hm hw
  rw [he]
  exact issueMaster_busy hf hc hs

/-! ## Right after reset (R291) -/

/-- The record from `s` to `t` grows by no access to buffer memory. -/
def State.AccessesNoBuffer (s t : State) : Prop :=
  ∃ tr, t.trace = s.trace ++ tr ∧ ∀ a ∈ tr, (∀ n b, a ≠ .memRead n b) ∧ ∀ n b, a ≠ .memWrite n b

theorem State.AccessesNoBuffer.of_eq {s t : State} (h : t.trace = s.trace) : s.AccessesNoBuffer t :=
  ⟨[], by rw [h, List.append_nil], nofun⟩

theorem State.AccessesNoBuffer.trans {s t u : State} (h : s.AccessesNoBuffer t) (k : t.AccessesNoBuffer u) :
    s.AccessesNoBuffer u := by
  obtain ⟨x, hx, hxs⟩ := h
  obtain ⟨y, hy, hys⟩ := k
  exact ⟨x ++ y, by rw [hy, hx, List.append_assoc], fun a ha => (List.mem_append.1 ha).elim (hxs a) (hys a)⟩

theorem readStatus_accessesNoBuffer (s : State) : s.AccessesNoBuffer (readStatus s).2 :=
  ⟨_, rfl, by rintro _ (_ | ⟨_, ⟨⟩⟩); exact ⟨nofun, nofun⟩⟩

theorem armControl_accessesNoBuffer (a : Assign) (s : State) : s.AccessesNoBuffer (armControl a s) :=
  ⟨_, rfl, by rintro _ (_ | ⟨_, ⟨⟩⟩); exact ⟨nofun, nofun⟩⟩

/-- An event step whose transfer is complete reads the status and at most declines. -/
theorem eventStep_accessesNoBuffer {e : EventStep} {s t : State} (h : eventStep e s = .next t)
    (hrx : s.rx.cursor = s.rx.len) (htx : s.tx.cursor = s.tx.len) : s.AccessesNoBuffer t := by
  have answered {u : State} (hu : (readStatus s).2.AccessesNoBuffer u) : s.AccessesNoBuffer (respond 0#8 u) :=
    (readStatus_accessesNoBuffer s).trans (hu.trans (.of_eq rfl))
  cases e with
  | rx =>
    have full := Desc.not_pending_of_complete hrx
    rcases rxEventStep_cases h with rfl | rfl | ⟨hp, -⟩ | ⟨hp, -⟩
    · exact answered (.of_eq rfl)
    · exact answered (armControl_accessesNoBuffer _ _)
    · exact absurd hp full
    · exact absurd hp full
  | tx =>
    have full := Desc.not_pending_of_complete htx
    rcases txEventStep_cases h with rfl | ⟨u, hu, rfl⟩ | ⟨hp, -⟩
    · exact answered (.of_eq rfl)
    · rcases txEmit_cases hu with ⟨-, rfl⟩ | ⟨hp, -⟩
      · exact answered (armControl_accessesNoBuffer _ _)
      · exact absurd hp full
    · exact absurd hp full

theorem runDispatch_accessesNoBuffer {es : List EventStep} {s t : State} (h : runDispatch es s = .next t)
    (hrx : s.rx.cursor = s.rx.len) (htx : s.tx.cursor = s.tx.len) : s.AccessesNoBuffer t := by
  induction es generalizing s with
  | nil => cases h; exact .of_eq rfl
  | cons e es ih =>
    obtain ⟨u, hu, hk⟩ := andThen_eq_next.1 h
    have kept := eventStep_keepsComplete hu
    obtain ⟨urx, -⟩ := kept.rx hrx
    have utx := kept.tx htx
    exact (eventStep_accessesNoBuffer hu hrx htx).trans (ih hk (by rwa [urx]) (by rwa [utx]))

/-- With both transfers complete a hardware event touches no buffer memory (R217, R301). -/
theorem runEventFlow_accessesNoBuffer {s t : State} (h : runEventFlow s = .next t)
    (hrx : s.rx.cursor = s.rx.len) (htx : s.tx.cursor = s.tx.len) : s.AccessesNoBuffer t := by
  obtain ⟨u, hu, hk⟩ := andThen_eq_next.1 h
  cases hk
  have served := runDispatch_accessesNoBuffer hu hrx htx
  exact ((State.AccessesNoBuffer.of_eq rfl).trans served).trans (.of_eq rfl)

/-- Settles O53: an empty descriptor is complete and has no room, so the answers are those of the descriptor commands, of an
addressing without a buffer and of an event on complete transfers. -/
theorem afterReset : Obligations.AfterReset := by
  rintro s _ _ rfl rfl
  refine ⟨?avail, ?done, fun hclass => ?receiver, fun hclass => ?transmitter, fun t ht => ?memory⟩
  case avail => exact (receiverDescriptorCommands s.resetBlock).2.2 rfl
  case done => exact (transmitterDescriptorCommands s.resetBlock).2.2 rfl
  case receiver => exact receiverAddressed _ rfl hclass
  case transmitter =>
    exact (transmitterEmits _ _ _ _ rfl rfl (.inl hclass) rfl rfl (bufferFits_zero _)).2 (by simp [Desc.atReset])
  case memory =>
    obtain ⟨tr, htr, hno⟩ := runEventFlow_accessesNoBuffer ht rfl rfl
    rw [htr, List.drop_left]
    exact ⟨((completeTransfersStay _ _ ht).1 rfl).2, hno⟩

/-- Settles O7: the decoder is run on each packet. -/
theorem specWordsDecode : Obligations.SpecWordsDecode :=
  ⟨rfl, rfl, rfl, rfl, rfl, rfl, rfl, rfl, rfl⟩

end Sys2Proof.Machine

namespace Sys2Proof.Machine

/-! ## Executions that never end (R306) -/

/-- The running command has a next action: it records one call, of this kind, and leads to such a state again. -/
def GoesOn (P : State → Prop) (Q : Atom → Prop) (s : State) : Prop :=
  ∃ r t a, s.seq = .run r ∧ action r s = .next t ∧ t.trace = s.trace ++ [a] ∧ Q a ∧ P t

section
variable {P : State → Prop} {Q : Atom → Prop} {s : State}

/-- A command that always goes on takes every action of a group, and each is in the record. -/
theorem advance_of_goesOn (hgo : ∀ s, P s → GoesOn P Q s) (hs : P s) (hq : s.hw.interrupts = .always []) (n : Nat) :
    ∃ t tr, advance n s = .next t ∧ P t ∧ t.hw.interrupts = .always [] ∧ t.trace = s.trace ++ tr ∧ tr.length = n ∧
      ∀ a ∈ tr, Q a := by
  induction n generalizing s with
  | zero => exact ⟨s, [], rfl, hs, hq, (List.append_nil _).symm, rfl, nofun⟩
  | succ n ih =>
    obtain ⟨r, v, a, hr, ha, hv, hQ, hPv⟩ := hgo s hs
    obtain ⟨t, tr, ht, hPt, htq, htr, hlen, htrQ⟩ := ih hPv ((action_acts ha).quiet.trans hq)
    refine ⟨t, a :: tr, ?_, hPt, htq, ?_, congrArg Nat.succ hlen, List.forall_mem_cons.2 ⟨hQ, htrQ⟩⟩
    · rw [advance_succ hr hq, ha, andThen_next, ht]
    · rw [htr, hv, List.append_assoc, List.singleton_append]

/-- It never ends, and every step of the machine adds to the record. -/
theorem core_run_of_goesOn (hgo : ∀ s, P s → GoesOn P Q s) (hs : P s) (hi : s.issues = [])
    (hq : s.hw.interrupts = .always []) (k : Nat) :
    ∃ u tr, core.run k s = .next u ∧ P u ∧ u.trace = s.trace ++ tr ∧ k ≤ tr.length ∧ ∀ a ∈ tr, Q a := by
  induction k generalizing s with
  | zero => exact ⟨s, [], core_run_zero s, hs, (List.append_nil _).symm, Nat.le_refl 0, nofun⟩
  | succ k ih =>
    obtain ⟨r, -, -, hr, -⟩ := hgo s hs
    obtain ⟨v, x, hv, hPv, hvq, hvx, hxlen, hxQ⟩ := advance_of_goesOn hgo hs hq (actionBudget r.ctx.len s)
    have hstep : step s = .next v := (step_resume hr (by simp [State.Undisturbed, hi])).trans hv
    obtain ⟨u, y, hu, hPu, huy, hylen, hyQ⟩ := ih hPv ((advance_steady hv).1.issues.trans hi) hvq
    refine ⟨u, x ++ y, (core_run_succ hstep).trans hu, hPu, by rw [huy, hvx, List.append_assoc], ?_,
      List.forall_mem_append.2 ⟨hxQ, hyQ⟩⟩
    have := actionBudget_pos r.ctx.len s
    rw [List.length_append]
    omega

end

/-! ## Inputs that answer the same for ever -/

/-- No event is complete, now or later. -/
structure State.Silent (s : State) : Prop where
  signal : s.hw.event = false
  raises : ∀ e ∈ s.hw.raises.all, e = false

theorem State.Silent.eventNow {s : State} (h : s.Silent) : s.hw.eventNow = false := by
  rw [Collaborator.eventNow, h.signal, Bool.false_or]
  exact h.raises _ s.hw.raises.take_mem

theorem State.Silent.eventComplete {s : State} (h : s.Silent) : (eventComplete s).2.Silent :=
  ⟨h.eventNow, fun e he => h.raises e (Answers.take_sub he)⟩

/-- The clock stands still at `t`. -/
structure State.ClockStands (t : Time) (s : State) : Prop where
  answers : ∀ x ∈ s.hw.clock.all, x % 2 ^ s.widths.tw = t
  forward : s.hw.lastNow ≤ t

theorem State.ClockStands.nextTime {t : Time} {s : State} (h : s.ClockStands t) : s.nextTime = t :=
  h.answers _ s.hw.clock.take_mem

/-- A sample of a clock that stands still. -/
def State.sampled (t : Time) (s : State) : State :=
  State.record (.now t) { s with hw := { s.hw with clock := s.hw.clock.take.2, lastNow := t } }

theorem State.ClockStands.now {t : Time} {s : State} (h : s.ClockStands t) : now s = .next (t, s.sampled t) := by
  obtain rfl := h.nextTime
  exact now_eq_next.2 ⟨h.forward, rfl⟩

theorem State.ClockStands.sampled {t : Time} {s : State} (h : s.ClockStands t) : (s.sampled t).ClockStands t :=
  ⟨fun x hx => h.answers x (Answers.take_sub hx), Nat.le_refl t⟩

/-! ## The two waits that never end (R141, R306) -/

section
variable {r : Run} {w : WaitPrim} {s : State}

/-- A wait without a deadline polls again. -/
theorem goesOn_poll (hdl : r.ctx.dl = .noDeadline) (h : s.Silent ∧ s.seq = .run (r.goto (.poll w))) :
    GoesOn (fun u => u.Silent ∧ u.seq = .run (r.goto (.poll w))) (· = .eventComplete false) s := by
  obtain ⟨hsilent, hs⟩ := h
  have haction : action (r.goto (.poll w)) s = .next ((eventComplete s).2.setRun (r.goto (.poll w))) := by
    rw [action_poll, pollEvent_again hsilent.eventNow, hdl]; rfl
  refine ⟨_, _, .eventComplete false, hs, haction, ?_, rfl, ⟨hsilent.eventComplete.1, hsilent.eventComplete.2⟩, rfl⟩
  simp [hsilent.eventNow]

/-- A wait whose clock stands still, at a sample of the signal or of the clock. -/
structure Stalled (r : Run) (w : WaitPrim) (t : Time) (s : State) : Prop where
  silent : s.Silent
  clock : s.ClockStands t
  seq : s.seq = .run (r.goto (.poll w)) ∨ s.seq = .run (r.goto (.clock w))

/-- A wait whose deadline the clock does not pass samples the signal and the clock by turns. -/
theorem goesOn_stalled {d t : Time} (hdl : r.ctx.dl = .atTime d) (htd : t ≤ d) (h : Stalled r w t s) :
    GoesOn (Stalled r w t) (fun a => a = .eventComplete false ∨ a = .now t) s := by
  obtain ⟨hsilent, hclock, hs | hs⟩ := h
  case inl =>
    have haction : action (r.goto (.poll w)) s = .next ((eventComplete s).2.setRun (r.goto (.clock w))) := by
      rw [action_poll, pollEvent_again hsilent.eventNow, hdl]; rfl
    refine ⟨_, _, .eventComplete false, hs, haction, ?_, .inl rfl,
      ⟨hsilent.eventComplete.1, hsilent.eventComplete.2⟩, ⟨hclock.answers, hclock.forward⟩, .inr rfl⟩
    simp [hsilent.eventNow]
  case inr =>
    have haction : action (r.goto (.clock w)) s = .next ((s.sampled t).setRun (r.goto (.poll w))) := by
      rw [action_clock, pollClock, hclock.now, andThen_next, Run.goto_ctx, hdl, if_neg (mt expired_atTime.1 (Nat.not_lt.2 htd))]
      rfl
    exact ⟨_, _, .now t, hs, haction, rfl, .inr rfl,
      ⟨hsilent.signal, hsilent.raises⟩, ⟨hclock.sampled.answers, hclock.sampled.forward⟩, .inl rfl⟩

end

/-! ## Arbitration lost without end (R187, R188, R192) -/

/-- An environment that completes every event and takes the bus away at every start, or at every address byte after a start
that succeeds; a policy that retries, and where it makes a new deadline, a clock that stands still and lets it. -/
structure State.Losing (s : State) : Prop where
  raises : ∀ e ∈ s.hw.raises.all, e = true
  codes : (s.hw.codes.loop = [] ∧ s.classify (s.hw.codes.after % 2 ^ s.widths.rcw) = .arbLost) ∨
    ∃ c, s.hw.codes.loop = [c] ∧ s.classify (s.hw.codes.after % 2 ^ s.widths.rcw) = .start ∧
      s.classify (c % 2 ^ s.widths.rcw) = .arbLost
  retries : s.cfgBlb = .retryWithinTimeout ∨ (s.cfgBlb = .retryExtendingTimeout ∧
    ∃ t, s.ClockStands t ∧ (s.cfgTimeout = s.widths.timeoutMax ∨ t + s.cfgTimeout < 2 ^ s.widths.tw))

section
variable {r : Run} {w : WaitPrim} {s u : State}

theorem State.Losing.eventNow (h : s.Losing) : s.hw.eventNow = true := by
  rw [Collaborator.eventNow, h.raises _ s.hw.raises.take_mem, Bool.or_true]

/-- A call leaves such an environment as it is when it takes at most the next answers of its inputs. -/
theorem State.Losing.of_call (h : s.Losing) (k : Kept s u) (hr : ∀ e ∈ u.hw.raises.all, e ∈ s.hw.raises.all)
    (hl : u.hw.codes.loop = s.hw.codes.loop) (hc : ∀ t, s.ClockStands t → u.ClockStands t) : u.Losing := by
  have hw : u.widths = s.widths := congrArg Params.widths k.params
  have hclass (c : RawCode) : u.classify c = s.classify c := congrArg (fun p : Params => Machine.classify p.rawTable c) k.params
  refine ⟨fun e he => h.raises e (hr e he), ?_, ?_⟩
  · simpa only [hl, k.codes, hw, hclass] using h.codes
  · rw [k.blb, k.timeout, hw]
    exact h.retries.imp_right (And.imp_right fun ⟨t, hclock, hsum⟩ => ⟨t, hc t hclock, hsum⟩)

theorem State.Losing.setRun (h : s.Losing) (r : Run) : (s.setRun r).Losing :=
  ⟨h.raises, h.codes, h.retries.imp_right (And.imp_right fun ⟨t, hc, hsum⟩ => ⟨t, ⟨hc.answers, hc.forward⟩, hsum⟩)⟩

theorem State.Losing.armControl (h : s.Losing) (a : Assign) : (armControl a s).Losing :=
  h.of_call (kept_armControl a s) (fun _ => id) rfl fun _ hc => ⟨hc.answers, hc.forward⟩

theorem State.Losing.writeData (h : s.Losing) (b : Byte) : (writeData b s).Losing :=
  h.of_call (kept_writeData b s) (fun _ => id) rfl fun _ hc => ⟨hc.answers, hc.forward⟩

theorem State.Losing.eventComplete (h : s.Losing) : (eventComplete s).2.Losing :=
  h.of_call (kept_eventComplete s) (fun _ => Answers.take_sub) rfl fun _ hc => ⟨hc.answers, hc.forward⟩

theorem State.Losing.readStatus (h : s.Losing) : (readStatus s).2.Losing :=
  h.of_call (kept_readStatus s) (fun _ => id) (Answers.take_loop _) fun _ hc => ⟨hc.answers, hc.forward⟩

/-- The next status read finds the bus lost, and the answers begin anew after it. -/
def State.LosesNext (s : State) : Prop := s.classify s.nextCode = .arbLost ∧ s.hw.codes.take.2.queue = []

/-- The status read that is to end this step: the first one, of the start at step 0, or one that loses the bus at an address
byte. -/
def State.CodeReady (r : Run) (w : WaitPrim) (s : State) : Prop :=
  (w = .start ∧ r.step = 0 ∧ s.hw.codes.queue = []) ∨ ((w = .addrW ∨ w = .addrR) ∧ s.LosesNext)

/-- At the first read the bus is lost, or the start succeeds and the next read loses it. -/
theorem State.Losing.first_read (h : s.Losing) (hq : s.hw.codes.queue = []) :
    s.LosesNext ∨ (s.classify s.nextCode = .start ∧ (Machine.readStatus s).2.LosesNext) := by
  have htake := Answers.take_of_nil hq
  have hcode : s.nextCode = s.hw.codes.after % 2 ^ s.widths.rcw := by rw [State.nextCode, htake]
  rcases h.codes with ⟨hloop, hlost⟩ | ⟨c, hloop, hstart, hlost⟩
  · exact .inl ⟨hcode ▸ hlost, by rw [htake]; exact hloop⟩
  · have hnext : (Machine.readStatus s).2.hw.codes.take = (c, { s.hw.codes with queue := [] }) := by
      rw [readStatus_hw, htake]; simp [Answers.take, hloop]
    exact .inr ⟨hcode ▸ hstart, by rw [State.nextCode, hnext]; exact hlost, by rw [hnext]⟩

/-- Where a composite that retries without end is: in a step that it takes or loses, or about to extend its deadline. -/
inductive State.Retries (s : State) : Prop where
  | attempt {r : Run} {w : WaitPrim} {p : Phase} (hs : s.seq = .run (r.goto p)) (hop : r.op.isComposite = true)
      (hl : s.Losing) (hw : r.prim? = some (.wait w)) (hc : s.CodeReady r w)
      (hp : p = .begin ∨ p = .arm w ∨ p = .poll w ∨ p = .decode w)
  | extend {r : Run} (hs : s.seq = .run (r.goto .extend)) (hop : r.op.isComposite = true) (hl : s.Losing)
      (hq : s.hw.codes.queue = []) (hclk : ∃ t, s.ClockStands t ∧
        (s.cfgTimeout = s.widths.timeoutMax ∨ t + s.cfgTimeout < 2 ^ s.widths.tw))

theorem Run.first_prim (hop : r.op.isComposite = true) (h : r.step = 0) : r.prim? = some (.wait .start) := by
  rw [Run.prim?, h]
  exact congrArg (·[0]?) (steps_eq_start_cons hop r.ctx r.ctx.dl)

/-- The step after the start is the address byte (R181 to R185). -/
theorem Run.nextStep_prim (hop : r.op.isComposite = true) (h : r.step = 0) :
    ∃ w, (w = .addrW ∨ w = .addrR) ∧ r.nextStep.prim? = some (.wait w) := by
  rw [Run.prim?, Run.nextStep, h]
  cases hr : r.op
  case mSendB => exact ⟨.addrW, .inl rfl, rfl⟩
  case mSendBuf => exact ⟨.addrW, .inl rfl, rfl⟩
  case mRecvB => exact ⟨.addrR, .inr rfl, rfl⟩
  case mRecvBuf => exact ⟨.addrR, .inr rfl, rfl⟩
  case mRecvReg => exact ⟨.addrW, .inl rfl, rfl⟩
  all_goals exact absurd hop (by rw [hr]; decide)

/-- A composite back at its start. -/
theorem retries_restart (hop : r.op.isComposite = true) (hl : s.Losing) (hq : s.hw.codes.queue = []) :
    (s.setRun r.restart).Retries :=
  .attempt (r := r.restart) rfl hop (hl.setRun _) (Run.first_prim hop rfl) (.inl ⟨rfl, rfl, hq⟩) (.inl rfl)

/-- A composite that has lost the bus goes on under either retry policy. -/
theorem retries_busLost (hop : r.op.isComposite = true) (hl : s.Losing) (hq : s.hw.codes.queue = []) :
    (primFailed .busLost r s).Retries := by
  rw [primFailed, if_pos ⟨hop, rfl⟩]
  rcases hl.retries with hb | ⟨hb, t, hclock, hsum⟩
  · rw [hb]
    exact retries_restart hop hl hq
  · rw [hb]
    exact .extend rfl hop (hl.setRun _) hq ⟨t, ⟨hclock.answers, hclock.forward⟩, hsum⟩

/-- The first action of a start or of an address byte. -/
theorem goesOn_begin (hs : s.seq = .run (r.goto .begin)) (hop : r.op.isComposite = true) (hl : s.Losing)
    (hw : r.prim? = some (.wait w)) (hc : s.CodeReady r w) : GoesOn State.Retries (fun _ => True) s := by
  have haction : action (r.goto .begin) s = beginWait w (r.goto .begin) s := beginStep_wait hw _ s
  rcases id hc with ⟨rfl, -⟩ | ⟨rfl | rfl, -⟩
  · exact ⟨_, _, _, hs, haction, rfl, trivial, .attempt rfl hop ((hl.armControl _).setRun _) hw hc (.inr (.inr (.inl rfl)))⟩
  · exact ⟨_, _, _, hs, haction, rfl, trivial, .attempt rfl hop ((hl.writeData _).setRun _) hw hc (.inr (.inl rfl))⟩
  · exact ⟨_, _, _, hs, haction, rfl, trivial, .attempt rfl hop ((hl.writeData _).setRun _) hw hc (.inr (.inl rfl))⟩

theorem decodeNow_eq {st : Status} (h : masterStatus w.ctx (s.classify s.nextCode) = st) (r : Run) :
    decodeNow w r s = afterDecode st w r (readStatus s).2 := by rw [← h]; rfl

/-- The status read that ends a start or an address byte. -/
theorem goesOn_decode (hs : s.seq = .run (r.goto (.decode w))) (hop : r.op.isComposite = true) (hl : s.Losing)
    (hc : s.CodeReady r w) : GoesOn State.Retries (fun _ => True) s := by
  have lost (h : s.LosesNext) : GoesOn State.Retries (fun _ => True) s := by
    refine ⟨_, _, .readStatus s.nextCode, hs, rfl, ?_, trivial, ?_⟩
    · rw [decodeNow_eq (masterStatus_busLost.2 h.1), afterDecode, primFailed_trace, readStatus_trace]
    · rw [decodeNow_eq (masterStatus_busLost.2 h.1)]
      exact retries_busLost hop hl.readStatus h.2
  rcases hc with ⟨rfl, hstep, hq⟩ | ⟨-, h⟩
  case inr => exact lost h
  rcases hl.first_read hq with h | ⟨hstart, hnext⟩
  case inl => exact lost h
  have haction : action (r.goto (.decode .start)) s = .next ((readStatus s).2.setRun r.nextStep) := by
    rw [action_decode, decodeNow_eq (show _ = Status.success by rw [hstart]; rfl)]
    exact congrArg _ (if_pos hop)
  obtain ⟨w, hw, hprim⟩ := Run.nextStep_prim hop hstep
  refine ⟨_, _, .readStatus s.nextCode, hs, haction, rfl, trivial, ?_⟩
  exact .attempt (r := r.nextStep) rfl hop (hl.readStatus.setRun _) hprim (.inr ⟨hw, hnext⟩) (.inl rfl)

/-- The clock sample that extends the deadline (R188). -/
theorem goesOn_extend (hs : s.seq = .run (r.goto .extend)) (hop : r.op.isComposite = true) (hl : s.Losing)
    (hq : s.hw.codes.queue = []) {t : Time} (hclock : s.ClockStands t)
    (hsum : s.cfgTimeout = s.widths.timeoutMax ∨ t + s.cfgTimeout < 2 ^ s.widths.tw) :
    GoesOn State.Retries (fun _ => True) s := by
  have hready : s.ClockReady := ⟨hclock.nextTime ▸ hclock.forward, hclock.nextTime ▸ hsum⟩
  obtain ⟨dl, hdl⟩ := hready.mkDeadline
  have hsampled : (s.sampled t).Losing :=
    hl.of_call (kept_now hclock.now) (fun _ => id) rfl fun t' hc => by
      obtain rfl := hclock.nextTime.symm.trans hc.nextTime
      exact hclock.sampled
  exact ⟨_, _, .now t, hs, sampleDeadline_eq_next.2 ⟨_, dl, hclock.now, hclock.nextTime ▸ hdl, rfl⟩, rfl, trivial,
    retries_restart (r := Run.withDeadline dl (r.goto .extend)) hop hsampled hq⟩

/-- Every action of such a composite leads to one of its places again. -/
theorem goesOn_retries (h : s.Retries) : GoesOn State.Retries (fun _ => True) s := by
  cases h with
  | extend hs hop hl hq hclk =>
    obtain ⟨t, hclock, hsum⟩ := hclk
    exact goesOn_extend hs hop hl hq hclock hsum
  | @attempt r w p hs hop hl hw hc hp =>
    rcases hp with rfl | rfl | rfl | rfl
    case inl => exact goesOn_begin hs hop hl hw hc
    case inr.inl =>
      exact ⟨_, _, _, hs, rfl, rfl, trivial, .attempt rfl hop ((hl.armControl _).setRun _) hw hc (.inr (.inr (.inl rfl)))⟩
    case inr.inr.inl =>
      have haction : action (r.goto (.poll w)) s = .next ((eventComplete s).2.setRun (r.goto (.decode w))) := by
        rw [action_poll, pollEvent_complete hl.eventNow]
      exact ⟨_, _, _, hs, haction, rfl, trivial,
        .attempt rfl hop (hl.eventComplete.setRun _) hw hc (.inr (.inr (.inr rfl)))⟩
    case inr.inr.inr => exact goesOn_decode hs hop hl hc

theorem State.Retries.ne_idle (h : s.Retries) : s.seq ≠ .idle := by
  obtain ⟨hs⟩ | ⟨hs⟩ := h <;> rw [hs] <;> nofun

end

/-- Settles O60: in each of the three a predicate on states is kept by every action of the running command, which records one
call. -/
theorem hangsAreInfiniteExecutions : Obligations.HangsAreInfiniteExecutions := by
  intro s r w hs hi hq
  refine ⟨fun hev hr hp hdl k => ?poll, fun d t hev hr hp hdl hclock hlast htd k => ?stalled,
    fun hr hcq hcodes hretries hop hstep _ hp k => ?retries⟩
  case poll =>
    have hrun : s.seq = .run (r.goto (.poll w)) := by rw [← hp, Run.goto_self]; exact hs
    obtain ⟨u, tr, hu, ⟨-, huseq⟩, hutr, hlen, htr⟩ :=
      core_run_of_goesOn (fun _ => goesOn_poll hdl) ⟨⟨hev, hr⟩, hrun⟩ hi hq k
    exact ⟨u, tr.length, hu, huseq.trans hrun.symm, by rw [hutr, ← List.eq_replicate_of_mem htr], hlen⟩
  case stalled =>
    have hrun : s.seq = .run (r.goto (.poll w)) := by rw [← hp, Run.goto_self]; exact hs
    obtain ⟨u, tr, hu, hstalled, hutr, hlen, htr⟩ :=
      core_run_of_goesOn (fun _ => goesOn_stalled hdl htd) ⟨⟨hev, hr⟩, ⟨hclock, hlast⟩, .inl hrun⟩ hi hq k
    exact ⟨u, tr, hu, by rcases hstalled.seq with h | h <;> rw [h] <;> nofun, hutr, hlen, htr⟩
  case retries =>
    have hrun : s.seq = .run (r.goto .begin) := by rw [← hp, Run.goto_self]; exact hs
    have hlosing : s.Losing := ⟨hr, hcodes, hretries.imp_right (And.imp_right fun ⟨t, hclock, hlast, hsum⟩ =>
      ⟨t, ⟨hclock, hlast⟩, hsum⟩)⟩
    obtain ⟨u, tr, hu, hretry, hutr, hlen, -⟩ := core_run_of_goesOn (fun _ => goesOn_retries)
      (.attempt hrun hop hlosing (Run.first_prim hop hstep) (.inl ⟨rfl, hstep, hcq⟩) (.inl rfl)) hi hq k
    exact ⟨u, tr, hu, hretry.ne_idle, hutr, hlen⟩

end Sys2Proof.Machine
